-- ==== Sys2Proof/Word.lean ====
section
/-! DEFINITION. The words the spec's ports carry, the thread identifier and the two channels
(spec/00_scope.md R11, R15; spec/30_encoding.md R100). -/

namespace Sys2Proof

/-- One byte of a payload, of slot storage or of a FIFO (20_memory.md R71, R86). -/
abbrev Byte := BitVec 8

/-- A command word, an operand word, a response word or a port value: 32 bits
(00_scope.md R14 `HANDLE_WIDTH`, `REGVAL_WIDTH`; 30_encoding.md R100). -/
abbrev Word := BitVec 32

/-- A thread identifier; "`tid` identifies the calling thread and is not encoded" (30_encoding.md R100). -/
abbrev Tid := Nat

/-- The channels, "exactly two per device" (00_scope.md R11 `NCHAN`). -/
inductive Chan where
  | ch0
  | ch1
deriving DecidableEq, Repr

/-- The number of a channel (92_eei_decisions.md D2). -/
def Chan.number : Chan → Nat
  | .ch0 => 0
  | .ch1 => 1

/-- The other channel. -/
def Chan.other : Chan → Chan
  | .ch0 => .ch1
  | .ch1 => .ch0

/-- The two rings of a channel (10_state.md R25). -/
inductive Dir where
  | tx
  | rx
deriving DecidableEq, Repr

end Sys2Proof
end

