-- ==== Sys2Proof/Config.lean ====
section
/-! DEFINITION. What the spec fixes as a constant of the block (00_scope.md R11, R14), the vocabulary of the
controller register port (20_memory.md R76), and the one free value of the model: the oracle behind that
port (20_memory.md R85). The parameters of 00_scope.md R13 and R14 that vary between instantiations are plain
data in `State` (notes/assumptions/5.md). -/

namespace Sys2Proof

/-- `FRAME_SIZE_LIMIT`, the largest legal `maxFrameSize` (00_scope.md R14). -/
def Config.frameSizeLimit : Nat := 65535

/-- `FRAME_NUM_LIMIT`, the largest legal `maxFrameNum` (00_scope.md R14). -/
def Config.frameNumLimit : Nat := 65535

/-- The largest legal watermark (10_state.md R36, 45_config_control.md R216). -/
def Config.watermarkLimit : Nat := 65535

/-- The read registers of the controller port (20_memory.md R76). -/
inductive ReadReg where
  | ip
  | rs
  | sfifo
  | rxfifo
  | es
deriving DecidableEq, Repr

/-- The write registers of the controller port (20_memory.md R76). -/
inductive WriteReg where
  | ctl
  | cmd
  | txfifo
deriving DecidableEq, Repr

/-- One controller port event: `W(c, regId, value)` or `R(c, regId, value)` (10_state.md R52). -/
inductive PortEvent where
  | write (c : Chan) (r : WriteReg) (v : Word)
  | read (c : Chan) (r : ReadReg) (v : Word)
deriving DecidableEq, Repr

/-- The oracle of 20_memory.md R85, as a free value: it "may depend on the whole `portLog` so far and on
anything outside the block; no rule constrains the choice". It has no body, so no statement can rest on what
it answers. The step consults it when the state's script of answers is used up (notes/assumptions/4.md). -/
opaque Config.oracle : List PortEvent → Chan → ReadReg → Word

end Sys2Proof
end

