-- ==== Sys2Proof/Syntax.lean ====
section
/-! DEFINITION. The instructions: one constructor per row of spec/opcode_table.json (30_encoding.md R120),
and the undecoded forms in which they arrive, one per key space (`CW`, `DK`, `EV`). -/

namespace Sys2Proof

/-- The tuple of the command port, `(tid, CW, W1?, payload?)` (30_encoding.md R100). -/
structure Command where
  tid : Tid
  cw : Word
  w1 : Option Word
  payload : List Byte
deriving DecidableEq, Repr

/-- An undecoded instruction, in its own key space (30_encoding.md R120): a command tuple; a dispatch key
`DK` with the channel being examined (R112); an event number `EV` with the thread it applies to (R113: `IRQ`
carries none). -/
inductive Raw where
  | command (c : Command)
  | key (c : Chan) (dk : BitVec 4)
  | event (ev : BitVec 3) (tid : Option Tid)
deriving DecidableEq, Repr

/-- The instructions of the opcode table. A command carries the thread that issues it and its channel; a
service carries the channel being examined and the bits of the dispatch key its row leaves free. -/
inductive Instr where
  | write (tid : Tid) (c : Chan) (payload : List Byte)
  | read (tid : Tid) (c : Chan) (maxLen : BitVec 16)
  | cfgMode (tid : Tid) (c : Chan) (v : Word)
  | cfgTxSize (tid : Tid) (c : Chan) (v : Word)
  | cfgTxNum (tid : Tid) (c : Chan) (v : Word)
  | cfgRxSize (tid : Tid) (c : Chan) (v : Word)
  | cfgRxNum (tid : Tid) (c : Chan) (v : Word)
  | cfgRdTmo (tid : Tid) (c : Chan) (v : Word)
  | cfgWrTmo (tid : Tid) (c : Chan) (v : Word)
  | cfgWMark (tid : Tid) (c : Chan) (v : Word)
  | cfgRxEn (tid : Tid) (c : Chan) (v : Word)
  | cfgTxEn (tid : Tid) (c : Chan) (v : Word)
  | cfgIrqEn (tid : Tid) (c : Chan) (v : Word)
  | cfgGIrqEn (tid : Tid) (c : Chan) (v : Word)
  | notifyInstall (tid : Tid) (c : Chan) (handle : Word)
  | notifyRemove (tid : Tid) (c : Chan)
  | resetChannel (tid : Tid) (c : Chan)
  | resetDevice (tid : Tid) (c : Chan)
  | svcRxSync (c : Chan) (tx ext : Bool)
  | svcRxAsync (c : Chan) (tx ext : Bool)
  | svcTxSync (c : Chan) (ext : Bool)
  | svcTxAsync (c : Chan) (ext : Bool)
  | svcExt (c : Chan) (async : Bool)
  | irq
  | cont (tid : Tid)
  | resume (tid : Tid)
  | timeout (tid : Tid)
  | abort (tid : Tid)
deriving DecidableEq, Repr

/-- The five services of the interrupt context (44_isr_dispatcher.md R203). -/
inductive Service where
  | rxSync
  | rxAsync
  | txSync
  | txAsync
  | ext
deriving DecidableEq, Repr

end Sys2Proof
end

