-- ==== Sys2Proof/WellFormed.lean ====
section
/-! DEFINITION. Which terms of `Instr` an encoding exists for. The types of the operands carry every field
width but one: the payload of `WRITE`, whose length must fit the 16-bit field `LEN` (30_encoding.md R101,
R105). -/

namespace Sys2Proof

/-- `i` has an encoding: a `WRITE` payload has at most 65535 bytes (30_encoding.md R105: "`LEN` is unsigned,
0 to 65535"); every other operand fits its field by its type. -/
def Instr.wellFormed : Instr → Bool
  | .write _ _ payload => decide (payload.length < 65536)
  | .read _ _ _ => true
  | .cfgMode _ _ _ => true
  | .cfgTxSize _ _ _ => true
  | .cfgTxNum _ _ _ => true
  | .cfgRxSize _ _ _ => true
  | .cfgRxNum _ _ _ => true
  | .cfgRdTmo _ _ _ => true
  | .cfgWrTmo _ _ _ => true
  | .cfgWMark _ _ _ => true
  | .cfgRxEn _ _ _ => true
  | .cfgTxEn _ _ _ => true
  | .cfgIrqEn _ _ _ => true
  | .cfgGIrqEn _ _ _ => true
  | .notifyInstall _ _ _ => true
  | .notifyRemove _ _ => true
  | .resetChannel _ _ => true
  | .resetDevice _ _ => true
  | .svcRxSync _ _ _ => true
  | .svcRxAsync _ _ _ => true
  | .svcTxSync _ _ => true
  | .svcTxAsync _ _ => true
  | .svcExt _ _ => true
  | .irq => true
  | .cont _ => true
  | .resume _ => true
  | .timeout _ => true
  | .abort _ => true

end Sys2Proof
end

