-- ==== Sys2Proof/Decode.lean ====
section
/-! DEFINITION. The decoder over the three key spaces, total and rejecting by name (30_encoding.md R101 to
R113, R120), then the encoder written from the same tables, the byte serialisation of a command
(20_memory.md R86) and the reading of the opcode table's numbers. -/

namespace Sys2Proof

/-- Why a raw form is no instruction. `illFormed`: the tuple lacks or has a part R103 does not give its
operation (30_encoding.md R109). `illegalOp`, `illegalChannel`, `illegalSel`, `illegalLen`: the four checks of
R110, in order. `nothingPending`: the dispatch key is `x000` (R112). `unusedEvent`: `EV` is 5 to 7 (R113). -/
inductive DecodeError where
  | illFormed
  | illegalOp
  | illegalChannel
  | illegalSel
  | illegalLen
  | nothingPending
  | unusedEvent
deriving DecidableEq, Repr

/-- `OP`, bits 31:28 of `CW` (30_encoding.md R101). -/
def opField (cw : Word) : BitVec 4 := cw.extractLsb' 28 4

/-- `CH`, bits 27:24 of `CW` (30_encoding.md R101). -/
def chField (cw : Word) : BitVec 4 := cw.extractLsb' 24 4

/-- `SEL`, bits 23:16 of `CW` (30_encoding.md R101). -/
def selField (cw : Word) : BitVec 8 := cw.extractLsb' 16 8

/-- `LEN`, bits 15:0 of `CW` (30_encoding.md R101). -/
def lenField (cw : Word) : BitVec 16 := cw.extractLsb' 0 16

/-- The channel a `CH` field names; "only 0 and 1 are legal" (30_encoding.md R101). -/
def chanOfField (ch : BitVec 4) : Option Chan :=
  if ch = 0 then some .ch0 else if ch = 1 then some .ch1 else none

/-- Does a command of operation `op` carry the operand word `W1` (30_encoding.md R103)? -/
def hasW1 (op : BitVec 4) : Bool := op == 3 || op == 4

/-- Has the tuple exactly the parts R103 requires for its `OP`, and a `WRITE` exactly `LEN` payload bytes
(30_encoding.md R109)? For an illegal `OP` the tuple is well formed when it is `CW` alone. -/
def Command.formed (k : Command) : Bool :=
  (if hasW1 (opField k.cw) then k.w1.isSome else k.w1.isNone) &&
  (if opField k.cw = 1 then k.payload.length == (lenField k.cw).toNat else k.payload.isEmpty)

/-- Is `OP` one of the six operations (30_encoding.md R102)? -/
def opLegal (op : BitVec 4) : Bool := decide (1 ≤ op.toNat) && decide (op.toNat ≤ 6)

/-- Check (3) of 30_encoding.md R110. -/
def selLegal (op : BitVec 4) (sel : BitVec 8) : Bool :=
  if op = 3 then decide (sel.toNat ≤ 11) else if op = 6 then decide (sel.toNat ≤ 1) else sel == 0

/-- Check (4) of 30_encoding.md R110. -/
def lenLegal (op : BitVec 4) (len : BitVec 16) : Bool := op == 1 || op == 2 || len == 0

/-- The `CONFIGURE` parameter with number `sel` (30_encoding.md R106). -/
def cfgInstr (sel : Nat) (tid : Tid) (c : Chan) (v : Word) : Option Instr :=
  match sel with
  | 0 => some (.cfgMode tid c v)
  | 1 => some (.cfgTxSize tid c v)
  | 2 => some (.cfgTxNum tid c v)
  | 3 => some (.cfgRxSize tid c v)
  | 4 => some (.cfgRxNum tid c v)
  | 5 => some (.cfgRdTmo tid c v)
  | 6 => some (.cfgWrTmo tid c v)
  | 7 => some (.cfgWMark tid c v)
  | 8 => some (.cfgRxEn tid c v)
  | 9 => some (.cfgTxEn tid c v)
  | 10 => some (.cfgIrqEn tid c v)
  | 11 => some (.cfgGIrqEn tid c v)
  | _ => none

/-- The instruction of a command whose word has passed the checks of R110 (30_encoding.md R102, R106,
R107). -/
def commandInstr (k : Command) (c : Chan) : Option Instr :=
  match (opField k.cw).toNat with
  | 1 => some (.write k.tid c k.payload)
  | 2 => some (.read k.tid c (lenField k.cw))
  | 3 => cfgInstr (selField k.cw).toNat k.tid c (k.w1.getD 0)
  | 4 => some (.notifyInstall k.tid c (k.w1.getD 0))
  | 5 => some (.notifyRemove k.tid c)
  | 6 => if selField k.cw = 0 then some (.resetChannel k.tid c) else some (.resetDevice k.tid c)
  | _ => none

/-- The decoder of the command port: ill-formed tuples first (30_encoding.md R109), then the four checks of
R110 in their order. -/
def decodeCommand (k : Command) : Except DecodeError Instr :=
  if !k.formed then .error .illFormed
  else if !opLegal (opField k.cw) then .error .illegalOp
  else match chanOfField (chField k.cw) with
    | none => .error .illegalChannel
    | some c =>
      if !selLegal (opField k.cw) (selField k.cw) then .error .illegalSel
      else if !lenLegal (opField k.cw) (lenField k.cw) then .error .illegalLen
      else match commandInstr k c with
        | some i => .ok i
        | none => .error .illegalOp

/-- The service a dispatch key selects, the first match of 30_encoding.md R112: bit 2 `RX`, bit 1 `TX`, bit 0
`EXT`, bit 3 `MODE`. -/
def serviceOf (dk : BitVec 4) : Option Service :=
  if dk.getLsbD 2 then some (if dk.getLsbD 3 then .rxAsync else .rxSync)
  else if dk.getLsbD 1 then some (if dk.getLsbD 3 then .txAsync else .txSync)
  else if dk.getLsbD 0 then some .ext
  else none

/-- The decoder of the dispatch key (30_encoding.md R112, R120). -/
def decodeKey (c : Chan) (dk : BitVec 4) : Except DecodeError Instr :=
  match serviceOf dk with
  | some .rxSync => .ok (.svcRxSync c (dk.getLsbD 1) (dk.getLsbD 0))
  | some .rxAsync => .ok (.svcRxAsync c (dk.getLsbD 1) (dk.getLsbD 0))
  | some .txSync => .ok (.svcTxSync c (dk.getLsbD 0))
  | some .txAsync => .ok (.svcTxAsync c (dk.getLsbD 0))
  | some .ext => .ok (.svcExt c (dk.getLsbD 3))
  | none => .error .nothingPending

/-- The decoder of the event numbers (30_encoding.md R113): `IRQ` carries no thread, the four others do. -/
def decodeEvent (ev : BitVec 3) (tid : Option Tid) : Except DecodeError Instr :=
  match ev.toNat, tid with
  | 0, none => .ok .irq
  | 1, some t => .ok (.cont t)
  | 2, some t => .ok (.resume t)
  | 3, some t => .ok (.timeout t)
  | 4, some t => .ok (.abort t)
  | 0, some _ => .error .illFormed
  | 1, none => .error .illFormed
  | 2, none => .error .illFormed
  | 3, none => .error .illFormed
  | 4, none => .error .illFormed
  | _, _ => .error .unusedEvent

/-- The decoder: total on every raw form, rejecting by name. -/
def decode : Raw → Except DecodeError Instr
  | .command k => decodeCommand k
  | .key c dk => decodeKey c dk
  | .event ev tid => decodeEvent ev tid

/-! ## The encoder -/

/-- The `CH` field of a channel (30_encoding.md R101). -/
def chanField : Chan → BitVec 4
  | .ch0 => 0
  | .ch1 => 1

/-- A command word from its four fields (30_encoding.md R101). -/
def commandWord (op : BitVec 4) (c : Chan) (sel : BitVec 8) (len : BitVec 16) : Word :=
  op ++ chanField c ++ sel ++ len

/-- A `CONFIGURE` command (30_encoding.md R103 format `FC`, R106). -/
def encodeCfg (tid : Tid) (c : Chan) (sel : BitVec 8) (v : Word) : Raw :=
  .command ⟨tid, commandWord 3 c sel 0, some v, []⟩

/-- A dispatch key from its four bits (30_encoding.md R112). -/
def keyOf (mode rx tx ext : Bool) : BitVec 4 :=
  BitVec.ofBool mode ++ BitVec.ofBool rx ++ BitVec.ofBool tx ++ BitVec.ofBool ext

/-- The encoder, written from 30_encoding.md R101 to R113 and R120. -/
def encode : Instr → Raw
  | .write tid c payload => .command ⟨tid, commandWord 1 c 0 (BitVec.ofNat 16 payload.length), none, payload⟩
  | .read tid c maxLen => .command ⟨tid, commandWord 2 c 0 maxLen, none, []⟩
  | .cfgMode tid c v => encodeCfg tid c 0 v
  | .cfgTxSize tid c v => encodeCfg tid c 1 v
  | .cfgTxNum tid c v => encodeCfg tid c 2 v
  | .cfgRxSize tid c v => encodeCfg tid c 3 v
  | .cfgRxNum tid c v => encodeCfg tid c 4 v
  | .cfgRdTmo tid c v => encodeCfg tid c 5 v
  | .cfgWrTmo tid c v => encodeCfg tid c 6 v
  | .cfgWMark tid c v => encodeCfg tid c 7 v
  | .cfgRxEn tid c v => encodeCfg tid c 8 v
  | .cfgTxEn tid c v => encodeCfg tid c 9 v
  | .cfgIrqEn tid c v => encodeCfg tid c 10 v
  | .cfgGIrqEn tid c v => encodeCfg tid c 11 v
  | .notifyInstall tid c handle => .command ⟨tid, commandWord 4 c 0 0, some handle, []⟩
  | .notifyRemove tid c => .command ⟨tid, commandWord 5 c 0 0, none, []⟩
  | .resetChannel tid c => .command ⟨tid, commandWord 6 c 0 0, none, []⟩
  | .resetDevice tid c => .command ⟨tid, commandWord 6 c 1 0, none, []⟩
  | .svcRxSync c tx ext => .key c (keyOf false true tx ext)
  | .svcRxAsync c tx ext => .key c (keyOf true true tx ext)
  | .svcTxSync c ext => .key c (keyOf false false true ext)
  | .svcTxAsync c ext => .key c (keyOf true false true ext)
  | .svcExt c async => .key c (keyOf async false false true)
  | .irq => .event 0 none
  | .cont tid => .event 1 (some tid)
  | .resume tid => .event 2 (some tid)
  | .timeout tid => .event 3 (some tid)
  | .abort tid => .event 4 (some tid)

/-! ## Serialisation and the opcode table's numbers -/

/-- The four bytes of a word, least significant first (20_memory.md R86: "where a platform needs one the spec
fixes little-endian"). -/
def wordBytes (w : Word) : List Byte :=
  [w.extractLsb' 0 8, w.extractLsb' 8 8, w.extractLsb' 16 8, w.extractLsb' 24 8]

/-- A command tuple as bytes: `CW`, then `W1` where there is one, then the payload, byte 0 first
(30_encoding.md R103; 20_memory.md R86). -/
def Command.toBytes (k : Command) : List Byte :=
  wordBytes k.cw ++ (match k.w1 with | some v => wordBytes v | none => []) ++ k.payload

/-- The first four bytes of a list as a little-endian word, and the rest. -/
def takeWord : List Byte → Option (Word × List Byte)
  | b0 :: b1 :: b2 :: b3 :: rest => some ((b3 ++ b2 ++ b1 ++ b0 : BitVec 32), rest)
  | _ => none

/-- A command tuple from bytes; the parts follow from `OP` alone (30_encoding.md R103). -/
def commandOfBytes (tid : Tid) (bytes : List Byte) : Option Command :=
  match takeWord bytes with
  | none => none
  | some (cw, rest) =>
    if hasW1 (opField cw) then
      match takeWord rest with
      | none => none
      | some (v, payload) => some ⟨tid, cw, some v, payload⟩
    else some ⟨tid, cw, none, rest⟩

/-- The raw form whose bits, numbered as spec/opcode_table.json numbers them, are `w`. A row of 32 bits or
more is a command word (bits 63:32 are `W1` where the operation has one, and a `WRITE` payload is `LEN` bytes
of zeros), from the default thread 0 (30_encoding.md R115). A row of 3 bits is an event number, a row of 4
bits a dispatch key on channel 0. Both are one whole byte, and the two key spaces number the same small
values: a byte of 0 to 4 is read as an event and of 5 to 15 as a dispatch key (notes/assumptions/8.md). -/
def rawOfTable (nbits w : Nat) : Option Raw :=
  if nbits ≤ 8 then
    if 16 ≤ w then none
    else if nbits ≠ 4 ∧ (nbits ≤ 3 ∨ w ≤ 4) then
      if 8 ≤ w then none
      else some (.event (BitVec.ofNat 3 w) (if w = 0 then none else some 0))
    else some (.key .ch0 (BitVec.ofNat 4 w))
  else
    let cw : Word := BitVec.ofNat 32 w
    let op := opField cw
    some (.command
      { tid := 0
        cw := cw
        w1 := if hasW1 op then some (BitVec.ofNat 32 (w / 4294967296)) else none
        payload := if op = 1 then List.replicate (lenField cw).toNat 0 else [] })

/-- The instruction the decoder reads from an instruction whose bits are `w` (`rawOfTable`). -/
def decodeTableWord (nbits w : Nat) : Option Instr :=
  match rawOfTable nbits w with
  | none => none
  | some r =>
    match decode r with
    | .ok i => some i
    | .error _ => none

end Sys2Proof
end

