-- ==== Sys2Proof/Machine/Types.lean ====
section
/-! DEFINITION. The enumerations and records the state is made of (10_state.md R20 to R52). -/

namespace Sys2Proof.Machine

open Sys2Proof

/-- The channel mode (10_state.md R26). -/
inductive Mode where
  | sync
  | async
deriving DecidableEq, Repr

/-- The four frame-slot states (10_state.md R47). No rule puts a slot in `error`. -/
inductive SlotState where
  | empty
  | filling
  | ready
  | error
deriving DecidableEq, Repr

/-- The error codes of a response and of the sticky slot (30_encoding.md R108). -/
inductive ErrCode where
  | ok
  | queueEmpty
  | queueFull
  | frameTooLarge
  | checksumOrFramingError
  | overrun
  | breakAbort
  | outOfMemory
  | interruptsDisabled
  | invalidParameter
  | timeout
  | interrupted
deriving DecidableEq, Repr

/-- The result of the dispatcher (30_encoding.md R114). `reserved` is the unnamed third state of the source's
"tri-state"; no rule produces it (90_conflicts.md C2). -/
inductive IrqResult where
  | notMine
  | handled
  | reserved
deriving DecidableEq, Repr

/-- A slot record without its data bytes, which are in the slot-storage memory (10_state.md R46 to R48). -/
structure Slot where
  state : SlotState
  len : Nat
  fill : Nat
deriving DecidableEq, Repr

/-- A ring record (10_state.md R38 to R45). -/
structure Ring where
  cap : Nat
  fsz : Nat
  slots : List Slot
  head : Nat
  tail : Nat
  entryCount : Nat
  waiter : Bool
  errReported : Bool
  online : Bool
deriving DecidableEq, Repr

/-- A channel record (10_state.md R25 to R37); `mirror` is the one entry `mirror[CTL]` of the register
mirror. -/
structure Channel where
  mode : Mode
  rxEnabled : Bool
  txEnabled : Bool
  stickyErr : Option ErrCode
  sigHandle : Option Word
  rdTimeout : Word
  wrTimeout : Word
  irqEnabled : Bool
  txReady : Bool
  txBufEmpty : Bool
  txActive : Bool
  qfullCount : Nat
  watermark : Nat
  mirror : Word
  tx : Ring
  rx : Ring
deriving DecidableEq, Repr

/-- The device record (10_state.md R21 to R24). -/
structure Dev where
  irqEnable : Bool
  irqCount : BitVec 32
  inIsr : Bool
  isrHandled : Bool
deriving DecidableEq, Repr

/-- The operation of a blocked call, with the operands kept for the retry (10_state.md R51). -/
inductive CallOp where
  | write (payload : List Byte)
  | read (maxLen : Nat)
deriving DecidableEq, Repr

/-- A blocked call record `Blocked {op, ch, payload or maxLen, tmo, woken}` (10_state.md R51). -/
structure Blocked where
  op : CallOp
  ch : Chan
  tmo : Word
  woken : Bool
deriving DecidableEq, Repr

/-- What `calls` holds for a thread that is not `Idle` (10_state.md R51): a blocked call record, or `Mid` with
the words of a two-step command that has taken its first step. -/
inductive Call where
  | blocked (b : Blocked)
  | mid (cw : Word) (w1 : Option Word)
deriving DecidableEq, Repr

/-- A response `(RW, payload)` to a thread (30_encoding.md R100, R104). -/
structure Response where
  tid : Tid
  rw : Word
  payload : List Byte
deriving DecidableEq, Repr

/-- The parameter predicate `allocOK(num, size)` of 00_scope.md R14 and 93_implementation_defined.md U11, as plain
data. `pool bytes`: R14's default, `num * size <= POOL_BYTES`. `listed pairs`: storage is obtained for exactly
the pairs `(num, size)` of the list; operands are at most 65535 (R14), so every predicate on them is one of these
(`every_predicate_is_a_rule` in Laws/Ring.lean; notes/assumptions/5.md). -/
inductive AllocRule where
  | pool (bytes : Nat)
  | listed (pairs : List (Nat × Nat))
deriving DecidableEq, Repr

/-- The instantiation parameters of 00_scope.md R14 that vary, and the pass budget of a step
(notes/assumptions/7.md). -/
structure Params where
  qfullThreshold : Nat
  alloc : AllocRule
  resetClearsSticky : Bool
  passBudget : Nat
deriving DecidableEq, Repr

/-- What the initialization collaborator supplies for one channel (00_scope.md R13). -/
structure InitParams where
  mode : Mode
  txSize : Nat
  txNum : Nat
  rxSize : Nat
  rxNum : Nat
  rdTimeout : Word
  wrTimeout : Word
deriving DecidableEq, Repr

end Sys2Proof.Machine
end

