-- ==== Sys2Proof/Machine/Flags.lean ====
section
/-! DEFINITION. Every flag bit, code number and bit field of the port and of the response word: the `CTL` bits
and their computations (20_memory.md R81), the fields of `IP`, `RS`, `SFIFO`, `ES` (R77 to R79, R84), the
command numbers of `CMD` (R82), the register ids (R76), the error codes and the response word (30_encoding.md
R104, R108), the numbers of the enumerations (R114, R117). -/

namespace Sys2Proof.Machine

open Sys2Proof

/-- The read id of a port register (20_memory.md R76). -/
def readId : ReadReg → Nat
  | .ip => 0
  | .rs => 1
  | .sfifo => 2
  | .rxfifo => 3
  | .es => 4

/-- The write id of a port register (20_memory.md R76). -/
def writeId : WriteReg → Nat
  | .ctl => 0
  | .cmd => 1
  | .txfifo => 2

/-- `CTL` bit 0, `RXEN` (20_memory.md R81). -/
def ctlRxen : Word := 0b0001#32
/-- `CTL` bit 1, `TXEN` (20_memory.md R81). -/
def ctlTxen : Word := 0b0010#32
/-- `CTL` bit 2, `IRQEN` (20_memory.md R81). -/
def ctlIrqen : Word := 0b0100#32
/-- `CTL` bit 3, `MODE` (20_memory.md R81). -/
def ctlMode : Word := 0b1000#32

/-- A one-bit value placed where `mask` has its bit: `b` shifted to that bit. -/
def bitAt (mask : Word) (b : Bool) : Word := if b then mask else 0#32

/-- `(v & ~mask) | (b << bit)`: the `CTL` value with one bit replaced and the other bits kept, computed from
the mirror (10_state.md R37; 45_config_control.md R218, R226 to R228). -/
def replaceBit (v mask : Word) (b : Bool) : Word := (v &&& ~~~mask) ||| bitAt mask b

/-- The mode as a bit, 0 `SYNC`, 1 `ASYNC` (30_encoding.md R117). -/
def Mode.bit : Mode → Bool
  | .sync => false
  | .async => true

/-- The `CTL` value that describes four flags, bits 31:4 zero (10_state.md R37, INV8 of R50). -/
def ctlOf (rxen txen irqen : Bool) (m : Mode) : Word :=
  bitAt ctlRxen rxen ||| bitAt ctlTxen txen ||| bitAt ctlIrqen irqen ||| bitAt ctlMode m.bit

/-- The command numbers of `CMD` (20_memory.md R82). -/
def cmdAckRx : Word := 1#32
/-- `ACK_TX` (20_memory.md R82). -/
def cmdAckTx : Word := 2#32
/-- `ACK_EXT` (20_memory.md R82). -/
def cmdAckExt : Word := 3#32
/-- `CHRESET` (20_memory.md R82). -/
def cmdChreset : Word := 4#32

/-- `IP[2:0]`, the pending bits the block uses (20_memory.md R77). -/
def ipBits (v : Word) : BitVec 3 := v.extractLsb' 0 3

/-- `RS` bit 0, `SFNE` (20_memory.md R78). -/
def rsSfne (v : Word) : Bool := v.getLsbD 0
/-- `RS` bit 1, `RCA` (20_memory.md R78). -/
def rsRca (v : Word) : Bool := v.getLsbD 1
/-- `RS` bit 2, `RXE` (20_memory.md R78). -/
def rsRxe (v : Word) : Bool := v.getLsbD 2
/-- `RS` bits 4:3, `ECODE` (20_memory.md R78). -/
def rsEcode (v : Word) : BitVec 2 := v.extractLsb' 3 2

/-- `SFIFO` bits 15:0, `COUNT` (20_memory.md R79). -/
def sfCount (v : Word) : Nat := (v.extractLsb' 0 16).toNat
/-- `SFIFO` bit 16, `ERR` (20_memory.md R79). -/
def sfErr (v : Word) : Bool := v.getLsbD 16
/-- `SFIFO` bits 18:17, `ECODE` (20_memory.md R79). -/
def sfEcode (v : Word) : BitVec 2 := v.extractLsb' 17 2

/-- `RXFIFO` bits 7:0, the byte (20_memory.md R80). -/
def rxByte (v : Word) : Byte := v.extractLsb' 0 8

/-- `ES` bit 0, `BRK` (20_memory.md R84). -/
def esBrk (v : Word) : Bool := v.getLsbD 0

/-- `ecode` of 42_sync_engine.md R176: 0 and the reserved 3 are `ChecksumOrFramingError`, 1 `Overrun`, 2
`BreakAbort`. -/
def ecode (e : BitVec 2) : ErrCode :=
  if e = 1#2 then .overrun else if e = 2#2 then .breakAbort else .checksumOrFramingError

/-- `DK = MODE ++ IP[2:0]` (30_encoding.md R112). -/
def dispatchKey (m : Mode) (ip : BitVec 3) : BitVec 4 := BitVec.ofBool m.bit ++ ip

/-- The number of an error code (30_encoding.md R108). -/
def ErrCode.code : ErrCode → BitVec 8
  | .ok => 0
  | .queueEmpty => 1
  | .queueFull => 2
  | .frameTooLarge => 3
  | .checksumOrFramingError => 4
  | .overrun => 5
  | .breakAbort => 6
  | .outOfMemory => 7
  | .interruptsDisabled => 8
  | .invalidParameter => 9
  | .timeout => 10
  | .interrupted => 11

/-- The response word: bits 31:24 zero, 23:16 `ERR`, 15:0 `COUNT` (30_encoding.md R104). -/
def responseWord (n : Nat) (e : ErrCode) : Word := 0#8 ++ e.code ++ BitVec.ofNat 16 n

/-- The number of a dispatcher result (30_encoding.md R114). -/
def IrqResult.code : IrqResult → BitVec 2
  | .notMine => 0
  | .handled => 1
  | .reserved => 2

/-- The number of a slot state (30_encoding.md R117). -/
def SlotState.code : SlotState → Nat
  | .empty => 0
  | .filling => 1
  | .ready => 2
  | .error => 3

end Sys2Proof.Machine
end

