-- ==== Sys2Proof/Machine/Controller.lean ====
section
/-! DEFINITION. The oracle behind the controller port (20_memory.md R85) and the reference controller `RC`,
one deterministic oracle with its test injections (20_memory.md R99). `RC` "is untrusted and defines no part
of the block". -/

namespace Sys2Proof.Machine

open Sys2Proof

/-- An entry of the status FIFO (20_memory.md R79, R99). -/
structure StatusEntry where
  err : Bool
  ecode : BitVec 2
  count : BitVec 16
deriving DecidableEq, Repr

/-- The state of one channel of the reference controller (20_memory.md R99). -/
structure RefChannel where
  ip : BitVec 3
  sq : List StatusEntry
  dq : List (Byte × Option (BitVec 2))
  brk : Bool
  ctl : Word
  txOut : List Byte
  resets : Nat
deriving DecidableEq, Repr

/-- What answers `RegRead` (20_memory.md R85), as plain data. `script vs`: the next answers are `vs`, in
order, and then whatever `Config.oracle` says of the port log. `cycle vs`: the answers are `vs` again and again,
as those of a controller that never stops reporting work (44_isr_dispatcher.md R207). `reference a b`: the
reference controller, with channels `a` and `b`. -/
inductive Oracle where
  | script (answers : List Word)
  | cycle (answers : List Word)
  | reference (a b : RefChannel)
deriving DecidableEq, Repr

/-- The test events of the reference controller (20_memory.md R99). -/
inductive Injection where
  | rxFrame (bytes : List Byte)
  | rxBad (ecode : BitVec 2) (bytes : List Byte)
  | rxChar (b : Byte)
  | rxCharBad (ecode : BitVec 2) (b : Byte)
  | txDone
  | brk
deriving DecidableEq, Repr

/-- "Initially everything is zero or empty" (20_memory.md R99). -/
def RefChannel.init : RefChannel := ⟨0#3, [], [], false, 0#32, [], 0⟩

/-- A status entry as the `SFIFO` register shows it (20_memory.md R79). -/
def StatusEntry.word (e : StatusEntry) : Word := 0#13 ++ e.ecode ++ BitVec.ofBool e.err ++ e.count

/-- The `RS` register of the reference controller: `SFNE`, `RCA`, and `RXE`, `ECODE` from the tag of the head
of the data FIFO (20_memory.md R99). -/
def RefChannel.status (x : RefChannel) : Word :=
  let tag : BitVec 3 :=
    match x.dq with
    | (_, some e) :: _ => e ++ 1#1
    | _ => 0#3
  0#27 ++ tag ++ BitVec.ofBool (!x.dq.isEmpty) ++ BitVec.ofBool (!x.sq.isEmpty)

/-- The answer of the reference controller to a read (20_memory.md R99). -/
def RefChannel.answer (x : RefChannel) : ReadReg → Word
  | .ip => 0#29 ++ x.ip
  | .rs => x.status
  | .sfifo =>
    match x.sq with
    | [] => 0#32
    | e :: _ => e.word
  | .rxfifo =>
    match x.dq with
    | [] => 0#32
    | (b, _) :: _ => b.setWidth 32
  | .es => 0#31 ++ BitVec.ofBool x.brk

/-- The reference controller after a read: `SFIFO` and `RXFIFO` remove the head of their queue, the other
registers have no side effect (20_memory.md R99). -/
def RefChannel.afterRead (x : RefChannel) : ReadReg → RefChannel
  | .ip => x
  | .rs => x
  | .sfifo => { x with sq := x.sq.tail }
  | .rxfifo => { x with dq := x.dq.tail }
  | .es => x

/-- The reference controller after a write (20_memory.md R99). -/
def RefChannel.afterWrite (x : RefChannel) (r : WriteReg) (v : Word) : RefChannel :=
  match r with
  | .ctl => { x with ctl := v }
  | .cmd =>
    if v = cmdAckRx then { x with ip := x.ip &&& 0b011#3 }
    else if v = cmdAckTx then { x with ip := x.ip &&& 0b101#3 }
    else if v = cmdAckExt then { x with ip := x.ip &&& 0b110#3, brk := false }
    else if v = cmdChreset then
      { x with ip := 0#3, sq := [], dq := [], brk := false, ctl := 0#32, resets := x.resets + 1 }
    else x
  | .txfifo => { x with txOut := x.txOut ++ [v.extractLsb' 0 8] }

/-- The reference controller after a test event (20_memory.md R99). -/
def RefChannel.inject (x : RefChannel) : Injection → RefChannel
  | .rxFrame bytes =>
    { x with
      dq := x.dq ++ bytes.map fun b => (b, none)
      sq := x.sq ++ [⟨false, 0#2, BitVec.ofNat 16 bytes.length⟩]
      ip := x.ip ||| 0b100#3 }
  | .rxBad e bytes =>
    { x with
      dq := x.dq ++ bytes.map fun b => (b, none)
      sq := x.sq ++ [⟨true, e, BitVec.ofNat 16 bytes.length⟩]
      ip := x.ip ||| 0b100#3 }
  | .rxChar b => { x with dq := x.dq ++ [(b, none)], ip := x.ip ||| 0b100#3 }
  | .rxCharBad e b => { x with dq := x.dq ++ [(b, some e)], ip := x.ip ||| 0b100#3 }
  | .txDone => { x with ip := x.ip ||| 0b010#3 }
  | .brk => { x with brk := true, ip := x.ip ||| 0b001#3 }

/-- The value an oracle answers to a read (20_memory.md R85). -/
def Oracle.answer (o : Oracle) (log : List PortEvent) (c : Chan) (r : ReadReg) : Word :=
  match o with
  | .script [] => Config.oracle log c r
  | .script (v :: _) => v
  | .cycle [] => Config.oracle log c r
  | .cycle (v :: _) => v
  | .reference a b =>
    match c with
    | .ch0 => a.answer r
    | .ch1 => b.answer r

/-- The oracle after a read. -/
def Oracle.afterRead (o : Oracle) (c : Chan) (r : ReadReg) : Oracle :=
  match o with
  | .script vs => .script vs.tail
  | .cycle vs => .cycle (vs.tail ++ vs.head?.toList)
  | .reference a b =>
    match c with
    | .ch0 => .reference (a.afterRead r) b
    | .ch1 => .reference a (b.afterRead r)

/-- The oracle after a write. -/
def Oracle.afterWrite (o : Oracle) (c : Chan) (r : WriteReg) (v : Word) : Oracle :=
  match o with
  | .script vs => .script vs
  | .cycle vs => .cycle vs
  | .reference a b =>
    match c with
    | .ch0 => .reference (a.afterWrite r v) b
    | .ch1 => .reference a (b.afterWrite r v)

/-- The oracle after a test event, where it is the reference controller (20_memory.md R99). -/
def Oracle.inject (o : Oracle) (c : Chan) (e : Injection) : Option Oracle :=
  match o with
  | .script _ => none
  | .cycle _ => none
  | .reference a b =>
    match c with
    | .ch0 => some (.reference (a.inject e) b)
    | .ch1 => some (.reference a (b.inject e))

end Sys2Proof.Machine
end

