-- ==== Sys2Proof/Machine/Ring.lean ====
section
/-! DEFINITION. The ring micro-operations on the ring record (40_ring_buffer.md). The data bytes of a slot
are in the slot-storage memory; `Ops.lean` moves them. -/

namespace Sys2Proof.Machine

open Sys2Proof

/-- A slot as `Allocate` leaves it (40_ring_buffer.md R131); `len` is unspecified (10_state.md R48) and 0 here
(notes/assumptions/2.md). -/
def Slot.blank : Slot := ⟨.empty, 0, 0⟩

/-- `rb.slot[i]`. -/
def Ring.slot (rb : Ring) (i : Nat) : Slot := rb.slots.getD i Slot.blank

/-- `rb.slot[i] <- x`. -/
def Ring.setSlot (rb : Ring) (i : Nat) (x : Slot) : Ring := { rb with slots := rb.slots.set i x }

/-- `next(rb, i) = (i + 1) mod rb.cap` (00_scope.md R17, 40_ring_buffer.md R137). -/
def Ring.next (rb : Ring) (i : Nat) : Nat := (i + 1) % rb.cap

/-- `Full(rb)` (40_ring_buffer.md R130). -/
def Ring.full (rb : Ring) : Bool := decide (rb.entryCount = rb.cap) || !rb.online

/-- `Avail(rb)` (40_ring_buffer.md R130). -/
def Ring.avail (rb : Ring) : Bool := rb.online && decide (0 < rb.entryCount)

/-- `Commit(rb, n)` (40_ring_buffer.md R136). -/
def Ring.commit (n : Nat) (rb : Ring) : Ring :=
  { rb with
    slots := rb.slots.set rb.tail ⟨.ready, n, 0⟩
    tail := rb.next rb.tail
    entryCount := rb.entryCount + 1 }

/-- `Consume(rb)` (40_ring_buffer.md R136); `len` and the data are left as they are. -/
def Ring.consume (rb : Ring) : Ring :=
  { rb with
    slots := rb.slots.set rb.head { rb.slot rb.head with state := .empty, fill := 0 }
    head := rb.next rb.head
    entryCount := rb.entryCount - 1 }

/-- `TryDequeue(rb)`: the index of the head slot, or `Empty` (40_ring_buffer.md R134). -/
def Ring.tryDequeue (rb : Ring) : Option Nat := if rb.avail then some rb.head else none

/-- `allocOK(num, size)` (00_scope.md R14); the product of the default is in unbounded naturals
(40_ring_buffer.md R137). -/
def allocOk (rule : AllocRule) (num size : Nat) : Bool :=
  match rule with
  | .pool bytes => decide (num * size ≤ bytes)
  | .listed pairs => decide ((num, size) ∈ pairs)

/-- The ring record `Allocate(rb, num, size)` leaves (40_ring_buffer.md R131): all of it but `waiter` and
`online`. -/
def Ring.allocate (rule : AllocRule) (num size : Nat) (rb : Ring) : Ring :=
  { rb with
    cap := if allocOk rule num size then num else 0
    fsz := size
    slots := if allocOk rule num size then List.replicate num Slot.blank else []
    head := 0
    tail := 0
    entryCount := 0
    errReported := false }

/-- The result of `Allocate(rb, num, size)` (40_ring_buffer.md R131). -/
def allocResult (rule : AllocRule) (num size : Nat) : ErrCode :=
  if allocOk rule num size then .ok else .outOfMemory

/-- Step 2 of `Reset(rb)` (40_ring_buffer.md R135): every slot `EMPTY`, `head <- tail`, back online. -/
def Ring.clear (rb : Ring) : Ring :=
  { rb with
    slots := rb.slots.map fun x => { x with state := .empty, fill := 0 }
    head := rb.tail
    entryCount := 0
    errReported := false
    online := true }

/-- Is the head slot `READY`, as INV3 of 10_state.md R50 has it whenever the ring holds a frame? -/
def Ring.headReady (rb : Ring) : Bool := decide ((rb.slot rb.head).state = .ready)

/-- Is slot `i` `FILLING`? -/
def Ring.filling (rb : Ring) (i : Nat) : Bool := decide ((rb.slot i).state = .filling)

/-- A ring at initialization, before its `Allocate`: `online = 1`, `waiter = 0` (10_state.md R60). -/
def Ring.fresh : Ring := ⟨0, 1, [], 0, 0, 0, false, false, true⟩

end Sys2Proof.Machine
end

