-- ==== Sys2Proof/Machine/State.lean ====
section
/-! DEFINITION. The state of the machine as plain data, the reasons a step can stop, and the state after
initialization (10_state.md R20 to R62). -/

namespace Sys2Proof.Machine

open Sys2Proof

/-- The slot-storage space of 20_memory.md R71, one cell per byte that differs from what an unlisted byte reads
as (0, notes/assumptions/2.md), addresses strictly rising. `slotAddr` numbers the bytes. -/
abbrev Memory := List Host.Cell

/-- What the environment delivers to the block, one per step (10_state.md R53, 00_scope.md R10): a command
tuple of the command port; an event number with its thread; or a test event of the reference controller, which
is "not a step of the block" (20_memory.md R99). -/
inductive Delivery where
  | command (k : Command)
  | event (ev : BitVec 3) (tid : Option Tid)
  | env (c : Chan) (e : Injection)
deriving DecidableEq, Repr

/-- The whole state (10_state.md R20). `dev`, `ch0`, `ch1`, `mem`, `calls`, `sigLog`, `portLog` are the
spec's; `key`, `respLog`, `irqLog`, `schedule`, `oracle`, `params` are the model's own (notes/assumptions/3.md
to 7.md). `calls` lists the threads that are not `Idle`, identifiers strictly rising. -/
structure State where
  dev : Dev
  ch0 : Channel
  ch1 : Channel
  mem : Memory
  calls : List (Tid × Call)
  sigLog : List Word
  portLog : List PortEvent
  key : Option (Chan × BitVec 4)
  respLog : List Response
  irqLog : List IrqResult
  schedule : List Delivery
  oracle : Oracle
  params : Params
deriving DecidableEq, Repr

/-- Why the machine stops with a fault. -/
inductive Fault where
  /-- An access to slot storage outside the ring's storage (20_memory.md R71): a slot index at or above the
  number of slots, or a byte index at or above `fsz`. Raised by the data movements of `WRITE`, `READ` and the
  transfer engines. No state that keeps the invariants of 10_state.md R50 reaches it (41_blocking_io.md R166).
  Safe: the model stops where the spec gives no meaning (93_implementation_defined.md U6). -/
  | slotOutside
deriving DecidableEq, Repr

/-- Why the model refuses a step (00_scope.md R18: kept distinct from every response). -/
inductive Refusal where
  /-- Raised by `exec` for an instruction whose meaning is not written. Safe. -/
  | notModelled (mnemonic : String)
  /-- The event or command is not enabled in this state (93_implementation_defined.md U15; 44_isr_dispatcher.md
  R200; 41_blocking_io.md R150, R161 to R163; 10_state.md R51). Raised by every meaning. Safe. -/
  | notEnabled
  /-- `CFG.MODE` to a different mode on a channel that is not quiescent (45_config_control.md R218,
  93_implementation_defined.md U2). Safe. -/
  | modeChangeBusy
  /-- An ill-formed command tuple (30_encoding.md R109, 93_implementation_defined.md U9). Raised by the fetch.
  Safe. -/
  | illFormed
  /-- An event number 5 to 7 (30_encoding.md R113: "unused"). Raised by the fetch. Safe. -/
  | unusedEvent
  /-- A dispatch key `x000`, which selects no service (30_encoding.md R112). Raised by the fetch. Safe. -/
  | noService
  /-- A ring or call record that breaks an invariant of 10_state.md R50 where a rule relies on it
  (93_implementation_defined.md U6; 42_sync_engine.md R177). Raised by the data movements and by `CONT`.
  Safe: no state that keeps the invariants reaches it. -/
  | outsideSpec
  /-- A test event of the reference controller where the oracle is another one (20_memory.md R99). Raised by
  the step. Safe. -/
  | noReferenceController
deriving DecidableEq, Repr

/-- The outcome of a meaning. -/
abbrev Result := Host.Outcome State Fault Refusal

/-- A channel after initialization (10_state.md R60). -/
def Channel.init (p : Params) (i : InitParams) : Channel where
  mode := i.mode
  rxEnabled := false
  txEnabled := false
  stickyErr := none
  sigHandle := none
  rdTimeout := i.rdTimeout
  wrTimeout := i.wrTimeout
  irqEnabled := false
  txReady := true
  txBufEmpty := true
  txActive := false
  qfullCount := 0
  watermark := 0
  mirror := ctlOf false false false i.mode
  tx := Ring.allocate p.alloc i.txNum i.txSize Ring.fresh
  rx := Ring.allocate p.alloc i.rxNum i.rxSize Ring.fresh

/-- Initialization with the parameters of 00_scope.md R13 and R14 (10_state.md R60, 70_reset_and_hazards.md
R290 to R292). It makes no port access. -/
def State.init (p : Params) (o : Oracle) (i0 i1 : InitParams) : State where
  dev := ⟨false, 0#32, false, false⟩
  ch0 := Channel.init p i0
  ch1 := Channel.init p i1
  mem := []
  calls := []
  sigLog := []
  portLog := []
  key := none
  respLog := []
  irqLog := []
  schedule := []
  oracle := o
  params := p

/-- The parameters of the state `S0` of 95_test_vectors.md section 0, which is where 00_scope.md R14 gives
each of them its value; the pass budget is the model's (notes/assumptions/5.md, 7.md). -/
def Params.s0 : Params := ⟨10, .pool 65536, false, 65536⟩

/-- The initialization parameters of a channel of `S0` (notes/assumptions/1.md). -/
def InitParams.s0 (m : Mode) : InitParams := ⟨m, 16, 4, 16, 4, 0#32, 0#32⟩

/-- The state right after initialization: `S0` of 95_test_vectors.md section 0 (10_state.md R60;
notes/assumptions/1.md, 4.md). -/
def State.reset : State :=
  State.init Params.s0 (.reference RefChannel.init RefChannel.init) (InitParams.s0 .sync) (InitParams.s0 .async)

end Sys2Proof.Machine
end

