-- ==== Sys2Proof/Machine/Operands.lean ====
section
/-! DEFINITION. Operand forms: the reading of `W1` (30_encoding.md R105), the legal values of every `CONFIGURE`
parameter (45_config_control.md R216), the timeout values (41_blocking_io.md R158), the one addressing mode of
slot storage (41_blocking_io.md R166), and which commands have a second step. -/

namespace Sys2Proof.Machine

open Sys2Proof

/-- `SEL` 0, 8 to 11: 0 or 1 (45_config_control.md R216). -/
def legalBit (v : Word) : Bool := decide (v.toNat ≤ 1)

/-- The bit a legal 0-or-1 value stands for. -/
def valueBit (v : Word) : Bool := decide (v.toNat = 1)

/-- `SEL` 0: the mode of a legal value, 0 `SYNC`, 1 `ASYNC` (45_config_control.md R218). -/
def valueMode (v : Word) : Mode := if v.toNat = 0 then .sync else .async

/-- `SEL` 1, 3: 1 to `FRAME_SIZE_LIMIT` (45_config_control.md R216). -/
def legalSize (v : Word) : Bool := decide (1 ≤ v.toNat) && decide (v.toNat ≤ Config.frameSizeLimit)

/-- `SEL` 2, 4: 1 to `FRAME_NUM_LIMIT` (45_config_control.md R216). -/
def legalNum (v : Word) : Bool := decide (1 ≤ v.toNat) && decide (v.toNat ≤ Config.frameNumLimit)

/-- `SEL` 5, 6: read as signed, -1 to 2^31-1 (45_config_control.md R216, R223). -/
def legalTimeout (v : Word) : Bool := decide (-1 ≤ v.toInt)

/-- `SEL` 7: 0 to 65535 (45_config_control.md R216). -/
def legalWatermark (v : Word) : Bool := decide (v.toNat ≤ Config.watermarkLimit)

/-- Timeout 0: "never block" (41_blocking_io.md R158). -/
def noWait (tmo : Word) : Bool := decide (tmo = 0#32)

/-- A positive timeout, for which `TIMEOUT` is enabled (41_blocking_io.md R158, R162). -/
def finiteWait (tmo : Word) : Bool := decide (0 < tmo.toInt)

/-- The number of a ring among the four: the model's numbering (notes/assumptions/13.md). -/
def ringNumber (c : Chan) (d : Dir) : Nat :=
  match c, d with
  | .ch0, .tx => 0
  | .ch0, .rx => 1
  | .ch1, .tx => 2
  | .ch1, .rx => 3

/-- The memory address of byte `k` of slot `i` of a ring: the triple (ring, slot index, byte index) of
20_memory.md R71 and 41_blocking_io.md R166 as one number. Slot and byte indices are below 65536
(10_state.md R39), so different triples have different addresses (notes/assumptions/13.md). -/
def slotAddr (c : Chan) (d : Dir) (i k : Nat) : Nat := (ringNumber c d * 65536 + i) * 65536 + k

/-- Is `a` an address of the ring's part of slot storage? -/
def inRing (c : Chan) (d : Dir) (a : Nat) : Bool :=
  decide (slotAddr c d 0 0 ≤ a) && decide (a < slotAddr c d 65536 0)

/-- What the second step of a two-step command does (40_ring_buffer.md R132, 45_config_control.md R234,
R235): reallocate one ring with a new size or a new count, or reset one channel or both. -/
inductive TwoStep where
  | size (c : Chan) (d : Dir) (v : Word)
  | num (c : Chan) (d : Dir) (v : Word)
  | channel (c : Chan)
  | device
deriving DecidableEq, Repr

/-- The second step of an instruction, where it has one. -/
def twoStepOf : Instr → Option TwoStep
  | .write _ _ _ => none
  | .read _ _ _ => none
  | .cfgMode _ _ _ => none
  | .cfgTxSize _ c v => some (.size c .tx v)
  | .cfgTxNum _ c v => some (.num c .tx v)
  | .cfgRxSize _ c v => some (.size c .rx v)
  | .cfgRxNum _ c v => some (.num c .rx v)
  | .cfgRdTmo _ _ _ => none
  | .cfgWrTmo _ _ _ => none
  | .cfgWMark _ _ _ => none
  | .cfgRxEn _ _ _ => none
  | .cfgTxEn _ _ _ => none
  | .cfgIrqEn _ _ _ => none
  | .cfgGIrqEn _ _ _ => none
  | .notifyInstall _ _ _ => none
  | .notifyRemove _ _ => none
  | .resetChannel _ c => some (.channel c)
  | .resetDevice _ _ => some .device
  | .svcRxSync _ _ _ => none
  | .svcRxAsync _ _ _ => none
  | .svcTxSync _ _ => none
  | .svcTxAsync _ _ => none
  | .svcExt _ _ => none
  | .irq => none
  | .cont _ => none
  | .resume _ => none
  | .timeout _ => none
  | .abort _ => none

/-- The second step that the words kept in a `Mid` record ask for (10_state.md R51: "it keeps the command's
`CW` and `W1`"). -/
def midStep (cw : Word) (w1 : Option Word) : Option TwoStep :=
  match decodeCommand ⟨0, cw, w1, []⟩ with
  | .ok i => twoStepOf i
  | .error _ => none

/-- The rings a second step works on (10_state.md R50 INV11). -/
def TwoStep.touches (t : TwoStep) (c : Chan) (d : Dir) : Bool :=
  match t with
  | .size c' d' _ => decide (c = c') && decide (d = d')
  | .num c' d' _ => decide (c = c') && decide (d = d')
  | .channel c' => decide (c = c')
  | .device => true

end Sys2Proof.Machine
end

