-- ==== Sys2Proof/Machine/Ops.lean ====
section
/-! DEFINITION. The named operations every meaning is made of: slot-storage memory, the records of the state,
the controller port, the thread table, waiting and waking, the response of a command and its error (the
synchronous error), the posting of an error by the interrupt context (the asynchronous error), the entry of
the interrupt context and its end. -/

namespace Sys2Proof.Machine

open Sys2Proof

/-! ## Outcomes -/

/-- Go on from a next state; a fault or a refusal stops. -/
def andThen (r : Result) (f : State → Result) : Result :=
  match r with
  | .next s => f s
  | .fault e => .fault e
  | .refused e => .refused e

/-! ## Slot storage (20_memory.md R71) -/

/-- The byte at an address. An unlisted address reads 0: `data` outside a `READY` frame is unspecified
(10_state.md R48; notes/assumptions/2.md). -/
def memRead : Memory → Nat → Byte
  | [], _ => 0#8
  | (a, b) :: m, x => if x = a then b else memRead m x

/-- Put a byte into a memory whose addresses rise. -/
def memInsert : Memory → Nat → Byte → Memory
  | [], x, v => [(x, v)]
  | (a, b) :: m, x, v =>
    if x < a then (x, v) :: (a, b) :: m
    else if x = a then (x, v) :: m
    else (a, b) :: memInsert m x v

/-- Take an address out. -/
def memErase (m : Memory) (x : Nat) : Memory := m.filter fun e => decide (e.1 ≠ x)

/-- `SlotWrite` of one byte (00_scope.md R17), keeping the canonical form. -/
def memWrite (m : Memory) (x : Nat) (v : Byte) : Memory :=
  if v = 0#8 then memErase m x else memInsert m x v

/-- The addresses of `m` are strictly rising and above `lo`, and no byte is what an unlisted address reads. -/
def memSorted : Option Nat → Memory → Bool
  | _, [] => true
  | lo, (a, b) :: m => (match lo with | none => true | some l => decide (l < a)) && decide (b ≠ 0#8) && memSorted (some a) m

/-- The canonical form of a memory. -/
def Memory.wf (m : Memory) : Bool := memSorted none m

/-- `SlotWrite` of successive bytes from an address. -/
def storeBytes (m : Memory) (a : Nat) : List Byte → Memory
  | [] => m
  | b :: bs => storeBytes (memWrite m a b) (a + 1) bs

/-- `SlotRead` of `n` successive bytes from an address. -/
def loadBytes (m : Memory) (a : Nat) : Nat → List Byte
  | 0 => []
  | n + 1 => memRead m a :: loadBytes m (a + 1) n

/-- Release the storage of a ring (40_ring_buffer.md R131): none of its bytes is listed any more. -/
def releaseRing (m : Memory) (c : Chan) (d : Dir) : Memory := m.filter fun e => !inRing c d e.1

/-! ## Records of the state -/

/-- `chan[c]`. -/
def State.chan (s : State) : Chan → Channel
  | .ch0 => s.ch0
  | .ch1 => s.ch1

/-- Replace `chan[c]` by a function of it. -/
def State.modChan (s : State) (c : Chan) (f : Channel → Channel) : State :=
  match c with
  | .ch0 => { s with ch0 := f s.ch0 }
  | .ch1 => { s with ch1 := f s.ch1 }

/-- A ring of a channel. -/
def Channel.ring (x : Channel) : Dir → Ring
  | .tx => x.tx
  | .rx => x.rx

/-- Replace a ring of a channel by a function of it. -/
def Channel.modRing (x : Channel) (d : Dir) (f : Ring → Ring) : Channel :=
  match d with
  | .tx => { x with tx := f x.tx }
  | .rx => { x with rx := f x.rx }

/-- `chan[c].tx` or `chan[c].rx`. -/
def State.ring (s : State) (c : Chan) (d : Dir) : Ring := (s.chan c).ring d

/-- Replace a ring by a function of it. -/
def State.modRing (s : State) (c : Chan) (d : Dir) (f : Ring → Ring) : State :=
  s.modChan c fun x => x.modRing d f

/-! ## The controller port (00_scope.md R17, 20_memory.md R85) -/

/-- The value the next `RegRead(c, r)` returns. -/
def portAnswer (c : Chan) (r : ReadReg) (s : State) : Word := s.oracle.answer s.portLog c r

/-- `RegRead(c, r)`: the event is appended to `portLog`; the value is `portAnswer`. -/
def regRead (c : Chan) (r : ReadReg) (s : State) : State :=
  { s with
    portLog := s.portLog ++ [.read c r (portAnswer c r s)]
    oracle := s.oracle.afterRead c r }

/-- The event and the controller's side of a `RegWrite`. -/
def portWrite (c : Chan) (r : WriteReg) (v : Word) (s : State) : State :=
  { s with
    portLog := s.portLog ++ [.write c r v]
    oracle := s.oracle.afterWrite c r v }

/-- `RegWrite(c, CTL, v)`: "when `regId = CTL` it first sets `c.mirror[CTL] <- v`" (00_scope.md R17,
10_state.md R37). -/
def writeCtl (c : Chan) (v : Word) (s : State) : State :=
  portWrite c .ctl v (s.modChan c fun x => { x with mirror := v })

/-- A burst of `RegWrite(c, TXFIFO, zext_32(b))`, in ascending byte index (20_memory.md R83). -/
def writeFifo (c : Chan) : List Byte → State → State
  | [], s => s
  | b :: bs, s => writeFifo c bs (portWrite c .txfifo (b.setWidth 32) s)

/-- The bytes a burst of `n` reads of `RXFIFO` returns (20_memory.md R80). -/
def fifoBytes (c : Chan) : Nat → State → List Byte
  | 0, _ => []
  | n + 1, s => rxByte (portAnswer c .rxfifo s) :: fifoBytes c n (regRead c .rxfifo s)

/-- The state after a burst of `n` reads of `RXFIFO` (20_memory.md R80). -/
def readFifo (c : Chan) : Nat → State → State
  | 0, s => s
  | n + 1, s => readFifo c n (regRead c .rxfifo s)

/-! ## The thread table (10_state.md R51) -/

/-- `calls[tid]`; `none` is `Idle`. -/
def callOf (calls : List (Tid × Call)) (tid : Tid) : Option Call :=
  match calls with
  | [] => none
  | (t, k) :: rest => if tid = t then some k else callOf rest tid

/-- `calls[tid] <- Idle`. -/
def dropCall (calls : List (Tid × Call)) (tid : Tid) : List (Tid × Call) :=
  calls.filter fun e => decide (e.1 ≠ tid)

/-- Put an entry into a table whose identifiers rise. -/
def insertCall (calls : List (Tid × Call)) (tid : Tid) (k : Call) : List (Tid × Call) :=
  match calls with
  | [] => [(tid, k)]
  | (t, k') :: rest =>
    if tid < t then (tid, k) :: (t, k') :: rest
    else if tid = t then (tid, k) :: rest
    else (t, k') :: insertCall rest tid k

/-- Is the entry a `Mid` record? -/
def Call.isMid : Call → Bool
  | .blocked _ => false
  | .mid _ _ => true

/-- Is some thread `Mid`, so that the device-wide lock is held (20_memory.md R95)? -/
def anyMid (calls : List (Tid × Call)) : Bool := calls.any fun e => e.2.isMid

/-- Is a caller step enabled at all: no interrupt in service and no two-step command between its steps
(41_blocking_io.md R150, 44_isr_dispatcher.md R200, 20_memory.md R95)? -/
def callersFree (s : State) : Bool := !s.dev.inIsr && !anyMid s.calls

/-- May thread `tid` issue a command: a caller step is enabled and the thread is `Idle` (10_state.md R51: "A
thread with a `Blocked` record issues no other command")? -/
def commandEnabled (tid : Tid) (s : State) : Bool := callersFree s && (callOf s.calls tid).isNone

/-- Run a command's meaning where the command is enabled (93_implementation_defined.md U15). -/
def asCommand (tid : Tid) (s : State) (f : State → Result) : Result :=
  if commandEnabled tid s then f s else .refused .notEnabled

/-! ## Responses: the synchronous error (60_exceptions.md R250 (a)) -/

/-- `return (n, E)` with a payload: the response of the command goes out (30_encoding.md R104). -/
def respond (tid : Tid) (n : Nat) (e : ErrCode) (out : List Byte) (s : State) : State :=
  { s with respLog := s.respLog ++ [⟨tid, responseWord n e, out⟩] }

/-- `return (0, OK)`. -/
def succeed (tid : Tid) (s : State) : Result := .next (respond tid 0 .ok [] s)

/-- `return (0, E)`: a synchronous error, "not a trap: the command returns its response and the thread
continues" (60_exceptions.md R259). -/
def fail (tid : Tid) (e : ErrCode) (s : State) : Result := .next (respond tid 0 e [] s)

/-! ## Waiting and waking (41_blocking_io.md R157 to R160) -/

/-- The ring a record waits on (10_state.md R51). -/
def Blocked.dir (b : Blocked) : Dir :=
  match b.op with
  | .write _ => .tx
  | .read _ => .rx

/-- Does the entry wait on the ring? -/
def Call.waitsOn (k : Call) (c : Chan) (d : Dir) : Bool :=
  match k with
  | .blocked b => decide (b.ch = c) && decide (b.dir = d)
  | .mid _ _ => false

/-- Does the entry wait on the ring with `woken = 0`? -/
def Call.asleepOn (k : Call) (c : Chan) (d : Dir) : Bool :=
  match k with
  | .blocked b => decide (b.ch = c) && decide (b.dir = d) && !b.woken
  | .mid _ _ => false

/-- Does some record wait on the ring with `woken = 0` (INV9 of 10_state.md R50)? -/
def anyAsleep (calls : List (Tid × Call)) (c : Chan) (d : Dir) : Bool := calls.any fun e => e.2.asleepOn c d

/-- The entry with its `woken` bit set where it waits on the ring. -/
def Call.wake (k : Call) (c : Chan) (d : Dir) : Call :=
  match k with
  | .blocked b => if k.waitsOn c d then .blocked { b with woken := true } else k
  | .mid cw w1 => .mid cw w1

/-- `Wake(rb)` (41_blocking_io.md R160). -/
def wake (c : Chan) (d : Dir) (s : State) : State :=
  if (s.ring c d).waiter then
    { s.modRing c d fun rb => { rb with waiter := false } with
      calls := s.calls.map fun e => (e.1, e.2.wake c d) }
  else s

/-- `block`: the record is stored, the ring's `waiter` flag is 1, there is no response (41_blocking_io.md
R157). -/
def block (tid : Tid) (b : Blocked) (s : State) : Result :=
  .next { s.modRing b.ch b.dir fun rb => { rb with waiter := true } with
    calls := insertCall s.calls tid (.blocked b) }

/-- `Leave(tid)`: the record is removed and `waiter` recomputed (41_blocking_io.md R159). -/
def leave (tid : Tid) (b : Blocked) (s : State) : State :=
  { s.modRing b.ch b.dir fun rb => { rb with waiter := anyAsleep (dropCall s.calls tid) b.ch b.dir } with
    calls := dropCall s.calls tid }

/-! ## Signals and posted errors: the asynchronous error (60_exceptions.md R250 (b)) -/

/-- `if c.sigHandle = Some h: SignalRaise(h)` (60_exceptions.md R262). -/
def raiseSignal (c : Chan) (s : State) : State :=
  match (s.chan c).sigHandle with
  | some h => { s with sigLog := s.sigLog ++ [h] }
  | none => s

/-- `NotifyRx(c)` (60_exceptions.md R261). -/
def notifyRx (c : Chan) (s : State) : State := raiseSignal c (wake c .rx s)

/-- `PostError(c, E)`, "the only way the sticky slot is written" (60_exceptions.md R253); a second error
overwrites the first (R254). -/
def postError (c : Chan) (e : ErrCode) (s : State) : State :=
  raiseSignal c (wake c .rx (s.modChan c fun x => { x with stickyErr := some e }))

/-! ## Entry and end of the interrupt context (60_exceptions.md R259, R260) -/

/-- Entry: `dev.inIsr <- 1; dev.isrHandled <- 0` where no interrupt is in service; it saves nothing
(44_isr_dispatcher.md R201, 60_exceptions.md R259). -/
def enterInterrupt (s : State) : State :=
  if s.dev.inIsr then s else { s with dev := { s.dev with inIsr := true, isrHandled := false } }

/-- `EndInterrupt`: the context ends, a handled interrupt is counted modulo 2^32, the result goes out; nothing
is restored (44_isr_dispatcher.md R204, 60_exceptions.md R260). -/
def endInterrupt (s : State) : State :=
  { s with
    dev :=
      { s.dev with
        inIsr := false
        irqCount := if s.dev.isrHandled then s.dev.irqCount + 1#32 else s.dev.irqCount }
    irqLog := s.irqLog ++ [if s.dev.isrHandled then IrqResult.handled else IrqResult.notMine] }

/-- The end of a service: it "ends with exactly one `RegWrite(ch, CMD, ACK_x)` for its own cause, as its last
port access" (44_isr_dispatcher.md R205), and is no longer in progress. -/
def acknowledge (c : Chan) (cmd : Word) (s : State) : State :=
  { portWrite c .cmd cmd s with key := none }

/-- Run a service inside a dispatcher iteration of its channel's mode; a service is selected by the dispatch
key only (44_isr_dispatcher.md R203; notes/assumptions/14.md). -/
def asService (c : Chan) (m : Mode) (s : State) (f : State → Result) : Result :=
  if s.dev.inIsr && decide ((s.chan c).mode = m) then f s else .refused .notEnabled

/-! ## Slot data -/

/-- `TryEnqueue(rb, data)`, second branch: the bytes go to the tail slot and the slot is committed
(40_ring_buffer.md R133). The tail slot must be an `EMPTY` slot of the ring (INV4 of 10_state.md R50) and the
data must fit it. -/
def enqueue (c : Chan) (d : Dir) (data : List Byte) (s : State) : Result :=
  if (s.ring c d).slots.length ≤ (s.ring c d).tail ∨ (s.ring c d).fsz < data.length then .fault .slotOutside
  else if ((s.ring c d).slot (s.ring c d).tail).state = .empty then
    .next { s.modRing c d (Ring.commit data.length) with
      mem := storeBytes s.mem (slotAddr c d (s.ring c d).tail 0) data }
  else .refused .outsideSpec

end Sys2Proof.Machine
end

