-- ==== Sys2Proof/Machine/SyncEngine.lean ====
section
/-! DEFINITION. The synchronous (HDLC/SDLC) frame transfer engine (42_sync_engine.md) and the queue-full
escalation both engines share (42_sync_engine.md R174, R175; 43_async_engine.md R190). -/

namespace Sys2Proof.Machine

open Sys2Proof

/-! ## Transmit -/

/-- The first branch of `TxSyncStart(c)` (42_sync_engine.md R171), for a head slot whose bytes are in the
ring's storage: the burst, the `CTL` write from the mirror, `txEnabled`, `Consume`, `txReady`, `Wake`. -/
def txSyncBurst (c : Chan) (s : State) : State :=
  let rb := s.ring c .tx
  let s1 := writeFifo c (loadBytes s.mem (slotAddr c .tx rb.head 0) (rb.slot rb.head).len) s
  let s2 := writeCtl c ((s1.chan c).mirror ||| ctlTxen) s1
  let s3 := s2.modChan c fun x => { x with txEnabled := true, tx := x.tx.consume, txReady := false }
  wake c .tx s3

/-- `TxSyncStart(c)` (42_sync_engine.md R171). -/
def txSyncStart (c : Chan) (s : State) : Result :=
  if (s.ring c .tx).avail then
    if !(s.ring c .tx).headReady then .refused .outsideSpec
    else if (s.ring c .tx).fsz < ((s.ring c .tx).slot (s.ring c .tx).head).len then .fault .slotOutside
    else .next (txSyncBurst c s)
  else .next (s.modChan c fun x => { x with txReady := true })

/-- The transmit service in mode `SYNC` (42_sync_engine.md R172). -/
def txSyncService (c : Chan) (s : State) : Result :=
  andThen (txSyncStart c s) fun s1 => .next (acknowledge c cmdAckTx s1)

/-! ## Receive -/

/-- `QueueFullPass(c)`: the failure counter, and at the threshold the escalation (42_sync_engine.md R174,
R175). -/
def queueFullPass (c : Chan) (s : State) : State :=
  let s1 := s.modChan c fun x => { x with qfullCount := x.qfullCount + 1 }
  if s.params.qfullThreshold ≤ (s1.chan c).qfullCount then
    let s2 := s1.modChan c fun x => { x with rxEnabled := false }
    let s3 := writeCtl c (replaceBit (s2.chan c).mirror ctlRxen false) s2
    let s4 := s3.modChan c fun x => { x with qfullCount := 0 }
    postError c .overrun s4
  else s1

/-- `ErrorEntry(c, e, n)` (42_sync_engine.md R176): the bytes are drained, the error is posted. -/
def errorEntry (c : Chan) (e : Word) (n : Nat) (s : State) : State :=
  postError c (ecode (sfEcode e)) (readFifo c n s)

/-- `OversizeEntry(c, n)` (42_sync_engine.md R178): the bytes are drained, `FrameTooLarge` is posted. -/
def oversizeEntry (c : Chan) (n : Nat) (s : State) : State :=
  postError c .frameTooLarge (readFifo c n s)

/-- `StoreEntry(c, n)` (42_sync_engine.md R177): the burst goes to the tail slot, which is committed, and the
reader is told. A tail slot that is not `EMPTY` is refused (R177: "the situation is refused"). -/
def storeEntry (c : Chan) (n : Nat) (s : State) : Result :=
  andThen (enqueue c .rx (fifoBytes c n s) (readFifo c n s)) fun s1 => .next (notifyRx c s1)

/-- One status entry: the body of the loop of 42_sync_engine.md R173 once there is an entry and room. -/
def rxSyncEntry (c : Chan) (s : State) : Result :=
  let s1 := s.modChan c fun x => { x with qfullCount := 0 }
  let e := portAnswer c .sfifo s1
  let s2 := regRead c .sfifo s1
  if sfErr e then .next (errorEntry c e (sfCount e) s2)
  else if (s2.ring c .rx).fsz < sfCount e then .next (oversizeEntry c (sfCount e) s2)
  else storeEntry c (sfCount e) s2

/-- The loop of 42_sync_engine.md R173 with at most the given number of passes, each starting with the read of
`RS`, and its acknowledge. When the passes are used up the service stays in progress under its dispatch key
and goes on in the next step of the interrupt context (44_isr_dispatcher.md R207; notes/assumptions/7.md). -/
def rxSyncLoop (c : Chan) (dk : BitVec 4) : Nat → State → Result
  | 0, s => .next { s with key := some (c, dk) }
  | n + 1, s =>
    let rs := portAnswer c .rs s
    let s1 := regRead c .rs s
    if !rsSfne rs then .next (acknowledge c cmdAckRx s1)
    else if (s1.ring c .rx).full then .next (acknowledge c cmdAckRx (queueFullPass c s1))
    else andThen (rxSyncEntry c s1) (rxSyncLoop c dk n)

/-- The receive service in mode `SYNC` (42_sync_engine.md R173). -/
def rxSyncService (c : Chan) (dk : BitVec 4) (s : State) : Result :=
  rxSyncLoop c dk s.params.passBudget s

/-! ## The instructions -/

/-- `SVC.TX.SYNC` (42_sync_engine.md R172). -/
def execSvcTxSync (c : Chan) (s : State) : Result :=
  asService c .sync s (txSyncService c)

/-- `SVC.RX.SYNC` (42_sync_engine.md R173). -/
def execSvcRxSync (c : Chan) (tx ext : Bool) (s : State) : Result :=
  asService c .sync s (rxSyncService c (keyOf false true tx ext))

end Sys2Proof.Machine
end

