-- ==== Sys2Proof/Machine/AsyncEngine.lean ====
section
/-! DEFINITION. The asynchronous byte-stream engine and its watermark (43_async_engine.md). -/

namespace Sys2Proof.Machine

open Sys2Proof

/-! ## Transmit -/

/-- The sending of one byte, the part of `TxAsyncByte(c)` after a frame is active (43_async_engine.md R186).
The head slot must be a `READY` slot (INV7 of 10_state.md R50). -/
def txAsyncSend (c : Chan) (s : State) : Result :=
  let rb := s.ring c .tx
  let x := rb.slot rb.head
  if !rb.headReady then .refused .outsideSpec
  else if rb.fsz ≤ x.fill then .fault .slotOutside
  else
    let s1 := portWrite c .txfifo ((memRead s.mem (slotAddr c .tx rb.head x.fill)).setWidth 32) s
    let s2 := s1.modChan c fun y =>
      { y with tx := y.tx.setSlot y.tx.head { x with fill := x.fill + 1 }, txBufEmpty := false }
    if x.fill + 1 = x.len then
      .next (wake c .tx (s2.modChan c fun y => { y with tx := y.tx.consume, txActive := false }))
    else .next s2

/-- "mark it active": the head slot becomes the frame being sent, from its first byte (43_async_engine.md
R186). -/
def txAsyncActivate (c : Chan) (s : State) : State :=
  s.modChan c fun y =>
    { y with txActive := true, tx := y.tx.setSlot y.tx.head { y.tx.slot y.tx.head with fill := 0 } }

/-- `TxAsyncByte(c)` (43_async_engine.md R186). -/
def txAsyncByte (c : Chan) (s : State) : Result :=
  if (s.chan c).txActive then txAsyncSend c s
  else if (s.ring c .tx).avail then txAsyncSend c (txAsyncActivate c s)
  else .next (s.modChan c fun y => { y with txBufEmpty := true })

/-- The transmit service in mode `ASYNC` (43_async_engine.md R187). -/
def txAsyncService (c : Chan) (s : State) : Result :=
  andThen (txAsyncByte c s) fun s1 => .next (acknowledge c cmdAckTx s1)

/-! ## Receive -/

/-- `Watermark(c, f)` (43_async_engine.md R192). -/
def watermarkCheck (c : Chan) (f : Nat) (s : State) : State :=
  if 0 < (s.chan c).watermark ∧ f = (s.chan c).watermark then raiseSignal c s else s

/-- `Seal(c)` (43_async_engine.md R193). -/
def sealFrame (c : Chan) (s : State) : State :=
  notifyRx c (s.modRing c .rx fun rb => rb.commit rb.fsz)

/-- How many bytes the current Rx slot holds: 0 when it is `EMPTY` (43_async_engine.md R189). -/
def partialFill (rb : Ring) : Nat := if rb.filling rb.tail then (rb.slot rb.tail).fill else 0

/-- `AppendByte(c, b)` (43_async_engine.md R189). The tail slot must be an `EMPTY` or `FILLING` slot of the
ring (INV4 of 10_state.md R50) with room for the byte. -/
def appendByte (c : Chan) (b : Byte) (s : State) : Result :=
  let rb := s.ring c .rx
  let k := partialFill rb
  if rb.slots.length ≤ rb.tail ∨ rb.fsz ≤ k then .fault .slotOutside
  else if (rb.slot rb.tail).state = .empty ∨ (rb.slot rb.tail).state = .filling then
    let s1 :=
      { s.modRing c .rx fun r => r.setSlot r.tail ⟨.filling, (r.slot r.tail).len, k + 1⟩ with
        mem := memWrite s.mem (slotAddr c .rx rb.tail k) b }
    let s2 := watermarkCheck c (k + 1) s1
    .next (if k + 1 = rb.fsz then sealFrame c s2 else s2)
  else .refused .outsideSpec

/-- `AbortPartial(c)` (43_async_engine.md R191). -/
def abortPartial (c : Chan) (s : State) : State :=
  if 0 < (s.ring c .rx).cap ∧ (s.ring c .rx).filling (s.ring c .rx).tail then
    s.modRing c .rx fun rb => rb.setSlot rb.tail { rb.slot rb.tail with state := .empty, fill := 0 }
  else s

/-- A bad character: consumed, the partial frame aborted, the error of the `RS` value posted
(43_async_engine.md R188). -/
def badCharacter (c : Chan) (rs : Word) (s : State) : State :=
  postError c (ecode (rsEcode rs)) (abortPartial c (regRead c .rxfifo s))

/-- A good character with room for it (43_async_engine.md R188). -/
def goodCharacter (c : Chan) (s : State) : Result :=
  let s1 := s.modChan c fun x => { x with qfullCount := 0 }
  appendByte c (rxByte (portAnswer c .rxfifo s1)) (regRead c .rxfifo s1)

/-- The loop of 43_async_engine.md R188 with at most the given number of passes, each starting with the read
of `RS`, and its acknowledge. When the passes are used up the service stays in progress under its dispatch key
(44_isr_dispatcher.md R207; notes/assumptions/7.md). -/
def rxAsyncLoop (c : Chan) (dk : BitVec 4) : Nat → State → Result
  | 0, s => .next { s with key := some (c, dk) }
  | n + 1, s =>
    let rs := portAnswer c .rs s
    let s1 := regRead c .rs s
    if !rsRca rs then .next (acknowledge c cmdAckRx s1)
    else if rsRxe rs then rxAsyncLoop c dk n (badCharacter c rs s1)
    else if (s1.ring c .rx).full then .next (acknowledge c cmdAckRx (queueFullPass c s1))
    else andThen (goodCharacter c s1) (rxAsyncLoop c dk n)

/-- The receive service in mode `ASYNC` (43_async_engine.md R188). -/
def rxAsyncService (c : Chan) (dk : BitVec 4) (s : State) : Result :=
  rxAsyncLoop c dk s.params.passBudget s

/-! ## The instructions -/

/-- `SVC.TX.ASYNC` (43_async_engine.md R187). -/
def execSvcTxAsync (c : Chan) (s : State) : Result :=
  asService c .async s (txAsyncService c)

/-- `SVC.RX.ASYNC` (43_async_engine.md R188). -/
def execSvcRxAsync (c : Chan) (tx ext : Bool) (s : State) : Result :=
  asService c .async s (rxAsyncService c (keyOf true true tx ext))

end Sys2Proof.Machine
end

