-- ==== Sys2Proof/Machine/BlockingIo.lean ====
section
/-! DEFINITION. The blocking I/O port: `WRITE`, `READ`, the send attempt (41_blocking_io.md R150 to R156). -/

namespace Sys2Proof.Machine

open Sys2Proof

/-- `SendAttempt(c)`, "idempotent: no-op if hardware is already busy" (41_blocking_io.md R152). -/
def sendAttempt (c : Chan) (s : State) : Result :=
  match (s.chan c).mode with
  | .sync => if (s.chan c).txReady then txSyncStart c s else .next s
  | .async => if (s.chan c).txBufEmpty then txAsyncByte c s else .next s

/-- `WRITE` from its step 1, for a first issue and for a re-run (41_blocking_io.md R151, R161). -/
def runWrite (tid : Tid) (c : Chan) (payload : List Byte) (s : State) : Result :=
  if payload.length = 0 then fail tid .invalidParameter s
  else if (s.ring c .tx).fsz < payload.length then fail tid .frameTooLarge s
  else if (s.ring c .tx).full then
    if noWait (s.chan c).wrTimeout then fail tid .queueFull s
    else block tid ⟨.write payload, c, (s.chan c).wrTimeout, false⟩ s
  else
    andThen (enqueue c .tx payload s) fun s1 =>
    andThen (sendAttempt c s1) fun s2 =>
    .next (respond tid payload.length .ok [] s2)

/-- Steps 3 and 4 of `READ`: the buffer check and the delivery of the head frame (41_blocking_io.md R153,
R155, R156). The head slot must be `READY` (INV3 of 10_state.md R50) and its frame inside the storage. -/
def deliver (tid : Tid) (c : Chan) (maxLen : Nat) (s : State) : Result :=
  let rb := s.ring c .rx
  let n := (rb.slot rb.head).len
  if !rb.headReady then .refused .outsideSpec
  else if maxLen < n then fail tid .frameTooLarge s
  else if rb.fsz < n then .fault .slotOutside
  else
    .next (respond tid n .ok (loadBytes s.mem (slotAddr c .rx rb.head 0) n)
      (s.modRing c .rx fun r => { r with errReported := false }.consume))

/-- May a `READ` promote the partial frame: "in asynchronous mode, if there is an in-progress partial
byte-stream" (41_blocking_io.md R153, R154)? -/
def canFlush (c : Chan) (s : State) : Bool :=
  decide ((s.chan c).mode = .async) && (s.ring c .rx).online && decide (0 < (s.ring c .rx).cap) &&
    (s.ring c .rx).filling (s.ring c .rx).tail

/-- The flush on read: `Commit(rb, rb.slot[rb.tail].fill)` (41_blocking_io.md R153, R154). -/
def flushOnRead (c : Chan) (s : State) : State :=
  s.modRing c .rx fun rb => rb.commit (rb.slot rb.tail).fill

/-- `READ` from its step 1, for a first issue and for a re-run (41_blocking_io.md R153, R161). -/
def runRead (tid : Tid) (c : Chan) (maxLen : Nat) (s : State) : Result :=
  match (s.chan c).stickyErr with
  | some e =>
    fail tid e (s.modChan c fun x => { x with stickyErr := none, rx := { x.rx with errReported := true } })
  | none =>
    if (s.ring c .rx).avail then deliver tid c maxLen s
    else if canFlush c s then deliver tid c maxLen (flushOnRead c s)
    else if noWait (s.chan c).rdTimeout then fail tid .queueEmpty s
    else block tid ⟨.read maxLen, c, (s.chan c).rdTimeout, false⟩ s

/-- `WRITE` (41_blocking_io.md R151). -/
def execWrite (tid : Tid) (c : Chan) (payload : List Byte) (s : State) : Result :=
  asCommand tid s (runWrite tid c payload)

/-- `READ` (41_blocking_io.md R153). -/
def execRead (tid : Tid) (c : Chan) (maxLen : BitVec 16) (s : State) : Result :=
  asCommand tid s (runRead tid c maxLen.toNat)

end Sys2Proof.Machine
end

