-- ==== Sys2Proof/Machine/Isr.lean ====
section
/-! DEFINITION. The interrupt multiplexer and cause dispatcher, and the external/status service
(44_isr_dispatcher.md). -/

namespace Sys2Proof.Machine

open Sys2Proof

/-- The external/status service, the same in both modes (44_isr_dispatcher.md R208). -/
def extService (c : Chan) (s : State) : Result :=
  let es := portAnswer c .es s
  let s1 := regRead c .es s
  .next (acknowledge c cmdAckExt (if esBrk es then postError c .breakAbort s1 else s1))

/-- `SVC.EXT` (44_isr_dispatcher.md R208); the `MODE` bit of its key is the channel's mode. -/
def execSvcExt (c : Chan) (async : Bool) (s : State) : Result :=
  asService c (if async then .async else .sync) s (extService c)

/-- Run the service a dispatch key selects (44_isr_dispatcher.md R203, 30_encoding.md R112). -/
def runService (c : Chan) (dk : BitVec 4) (s : State) : Result :=
  match serviceOf dk with
  | some .rxSync => rxSyncService c dk s
  | some .rxAsync => rxAsyncService c dk s
  | some .txSync => txSyncService c s
  | some .txAsync => txAsyncService c s
  | some .ext => extService c s
  | none => .refused .noService

/-- A pending cause of channel `c` is dispatched: `dev.isrHandled <- 1`, then the service selected by
`DK = MODE(chan[c]) ++ ip` (44_isr_dispatcher.md R201, R203). -/
def dispatch (c : Chan) (ip : BitVec 3) (s : State) : Result :=
  let s1 := { s with dev := { s.dev with isrHandled := true } }
  runService c (dispatchKey (s1.chan c).mode ip) s1

/-- The scan of one dispatcher iteration: channel 0 first; a pending cause is dispatched and ends the step;
with none pending on either channel the interrupt ends (44_isr_dispatcher.md R201, R202, R204). -/
def scan (s : State) : Result :=
  let ip0 := ipBits (portAnswer .ch0 .ip s)
  let s1 := regRead .ch0 .ip s
  if ip0 ≠ 0#3 then dispatch .ch0 ip0 s1
  else
    let ip1 := ipBits (portAnswer .ch1 .ip s1)
    let s2 := regRead .ch1 .ip s1
    if ip1 ≠ 0#3 then dispatch .ch1 ip1 s2
    else .next (endInterrupt s2)

/-- `IRQ`, one dispatcher iteration (44_isr_dispatcher.md R200, R201). A service still in progress goes on
without a new scan (notes/assumptions/7.md). -/
def execIrq (s : State) : Result :=
  if s.dev.inIsr || s.dev.irqEnable then
    match s.key with
    | some k => runService k.1 k.2 (enterInterrupt s)
    | none => scan (enterInterrupt s)
  else .refused .notEnabled

end Sys2Proof.Machine
end

