-- ==== Sys2Proof/Machine/ConfigControl.lean ====
section
/-! DEFINITION. The `CONFIGURE` commands and the notification commands (45_config_control.md R215 to R232). -/

namespace Sys2Proof.Machine

open Sys2Proof

/-- Check the value before the effect (45_config_control.md R215, R216). -/
def checked (tid : Tid) (legal : Bool) (s : State) (f : State → Result) : Result :=
  if legal then f s else fail tid .invalidParameter s

/-- `Quiescent(c)` (45_config_control.md R217). -/
def quiescent (x : Channel) : Bool :=
  decide (x.tx.entryCount = 0) && decide (x.rx.entryCount = 0) && !x.txActive &&
    (decide (x.rx.cap = 0) || !x.rx.filling x.rx.tail)

/-- `CFG.MODE` (45_config_control.md R218). A different mode on a channel that is not quiescent is refused
(93_implementation_defined.md U2). -/
def execCfgMode (tid : Tid) (c : Chan) (v : Word) (s : State) : Result :=
  asCommand tid s fun s =>
  checked tid (legalBit v) s fun s =>
    if valueMode v = (s.chan c).mode then succeed tid s
    else if !quiescent (s.chan c) then .refused .modeChangeBusy
    else
      let s1 := s.modChan c fun x => { x with mode := valueMode v }
      let s2 := writeCtl c (replaceBit (s1.chan c).mirror ctlMode (valueBit v)) s1
      succeed tid (s2.modChan c fun x =>
        { x with txReady := true, txBufEmpty := true, txActive := false, qfullCount := 0 })

/-- Step 1 of `Realloc`: the ring goes offline, a half-sent frame is given up, the thread is `Mid` with the
command's words and there is no response yet (40_ring_buffer.md R132). -/
def reallocStart (tid : Tid) (c : Chan) (d : Dir) (sel : BitVec 8) (v : Word) (s : State) : Result :=
  .next
    { s.modChan c fun x =>
        match d with
        | .tx => { x with tx := { x.tx with online := false }, txActive := false }
        | .rx => { x with rx := { x.rx with online := false } } with
      calls := insertCall s.calls tid (.mid (commandWord 3 c sel 0) (some v)) }

/-- `CFG.TXSIZE`, first step (45_config_control.md R219). -/
def execCfgTxSize (tid : Tid) (c : Chan) (v : Word) (s : State) : Result :=
  asCommand tid s fun s => checked tid (legalSize v) s (reallocStart tid c .tx 1 v)

/-- `CFG.TXNUM`, first step (45_config_control.md R220). -/
def execCfgTxNum (tid : Tid) (c : Chan) (v : Word) (s : State) : Result :=
  asCommand tid s fun s => checked tid (legalNum v) s (reallocStart tid c .tx 2 v)

/-- `CFG.RXSIZE`, first step (45_config_control.md R221). -/
def execCfgRxSize (tid : Tid) (c : Chan) (v : Word) (s : State) : Result :=
  asCommand tid s fun s => checked tid (legalSize v) s (reallocStart tid c .rx 3 v)

/-- `CFG.RXNUM`, first step (45_config_control.md R222). -/
def execCfgRxNum (tid : Tid) (c : Chan) (v : Word) (s : State) : Result :=
  asCommand tid s fun s => checked tid (legalNum v) s (reallocStart tid c .rx 4 v)

/-- `CFG.RDTMO` (45_config_control.md R223). -/
def execCfgRdTmo (tid : Tid) (c : Chan) (v : Word) (s : State) : Result :=
  asCommand tid s fun s =>
  checked tid (legalTimeout v) s fun s =>
    succeed tid (s.modChan c fun x => { x with rdTimeout := v })

/-- `CFG.WRTMO` (45_config_control.md R224). -/
def execCfgWrTmo (tid : Tid) (c : Chan) (v : Word) (s : State) : Result :=
  asCommand tid s fun s =>
  checked tid (legalTimeout v) s fun s =>
    succeed tid (s.modChan c fun x => { x with wrTimeout := v })

/-- `CFG.WMARK` (45_config_control.md R225). -/
def execCfgWMark (tid : Tid) (c : Chan) (v : Word) (s : State) : Result :=
  asCommand tid s fun s =>
  checked tid (legalWatermark v) s fun s =>
    succeed tid (s.modChan c fun x => { x with watermark := v.toNat })

/-- The precondition of `CFG.RXEN` and `CFG.TXEN`: an enable needs both interrupt enables
(45_config_control.md R226, R227). -/
def interruptsMissing (c : Chan) (v : Word) (s : State) : Bool :=
  valueBit v && !(s.dev.irqEnable && (s.chan c).irqEnabled)

/-- `CFG.RXEN` (45_config_control.md R226). -/
def execCfgRxEn (tid : Tid) (c : Chan) (v : Word) (s : State) : Result :=
  asCommand tid s fun s =>
  checked tid (legalBit v) s fun s =>
    if interruptsMissing c v s then fail tid .interruptsDisabled s
    else
      let s1 := s.modChan c fun x => { x with rxEnabled := valueBit v }
      succeed tid (writeCtl c (replaceBit (s1.chan c).mirror ctlRxen (valueBit v)) s1)

/-- `CFG.TXEN` (45_config_control.md R227). -/
def execCfgTxEn (tid : Tid) (c : Chan) (v : Word) (s : State) : Result :=
  asCommand tid s fun s =>
  checked tid (legalBit v) s fun s =>
    if interruptsMissing c v s then fail tid .interruptsDisabled s
    else
      let s1 := s.modChan c fun x => { x with txEnabled := valueBit v }
      succeed tid (writeCtl c (replaceBit (s1.chan c).mirror ctlTxen (valueBit v)) s1)

/-- `CFG.IRQEN` (45_config_control.md R228). -/
def execCfgIrqEn (tid : Tid) (c : Chan) (v : Word) (s : State) : Result :=
  asCommand tid s fun s =>
  checked tid (legalBit v) s fun s =>
    let s1 := s.modChan c fun x => { x with irqEnabled := valueBit v }
    succeed tid (writeCtl c (replaceBit (s1.chan c).mirror ctlIrqen (valueBit v)) s1)

/-- `CFG.GIRQEN` (45_config_control.md R229): the device's flag; the channel is otherwise ignored and there is
no port access. -/
def execCfgGIrqEn (tid : Tid) (v : Word) (s : State) : Result :=
  asCommand tid s fun s =>
  checked tid (legalBit v) s fun s =>
    succeed tid { s with dev := { s.dev with irqEnable := valueBit v } }

/-- `NOTIFY.INSTALL` (45_config_control.md R231). -/
def execNotifyInstall (tid : Tid) (c : Chan) (handle : Word) (s : State) : Result :=
  asCommand tid s fun s =>
  checked tid (s.chan c).sigHandle.isNone s fun s =>
    succeed tid (s.modChan c fun x => { x with sigHandle := some handle })

/-- `NOTIFY.REMOVE` (45_config_control.md R232). -/
def execNotifyRemove (tid : Tid) (c : Chan) (s : State) : Result :=
  asCommand tid s fun s =>
  checked tid (s.chan c).sigHandle.isSome s fun s =>
    succeed tid (s.modChan c fun x => { x with sigHandle := none })

end Sys2Proof.Machine
end

