-- ==== Sys2Proof/Machine/ResetControl.lean ====
section
/-! DEFINITION. The first step of `RESET` (45_config_control.md R234 to R238). -/

namespace Sys2Proof.Machine

open Sys2Proof

/-- Step 1 of `ResetChannel(c)` but for the thread's record (45_config_control.md R235). The sticky error is
kept unless `RESET_CLEARS_STICKY` (R236). -/
def resetStart (c : Chan) (s : State) : State :=
  let s1 := portWrite c .cmd cmdChreset s
  let s2 := s1.modChan c fun x =>
    { x with
      tx := { x.tx with online := false }
      rx := { x.rx with online := false }
      rxEnabled := false
      txEnabled := false }
  let s3 := writeCtl c ((s2.chan c).mirror &&& (ctlIrqen ||| ctlMode)) s2
  s3.modChan c fun x =>
    { x with
      txReady := true
      txBufEmpty := true
      txActive := false
      qfullCount := 0
      stickyErr := if s.params.resetClearsSticky then none else x.stickyErr }

/-- `RESET.CHANNEL`, first step (45_config_control.md R234, R235). -/
def execResetChannel (tid : Tid) (c : Chan) (s : State) : Result :=
  asCommand tid s fun s =>
    .next { resetStart c s with calls := insertCall s.calls tid (.mid (commandWord 6 c 0 0) none) }

/-- `RESET.DEVICE`, first step: step 1 of channel 0, then of channel 1; the channel field is otherwise ignored
(45_config_control.md R234). -/
def execResetDevice (tid : Tid) (c : Chan) (s : State) : Result :=
  asCommand tid s fun s =>
    .next
      { resetStart .ch1 (resetStart .ch0 s) with
        calls := insertCall s.calls tid (.mid (commandWord 6 c 1 0) none) }

end Sys2Proof.Machine
end

