-- ==== Sys2Proof/Machine/Events.lean ====
section
/-! DEFINITION. The events that are not the interrupt: the second step of a two-step command (`CONT`) and the
three ways a blocked call leaves its wait (`RESUME`, `TIMEOUT`, `ABORT`); and the answer to an illegal command
word (30_encoding.md R110, R113; 40_ring_buffer.md R132; 41_blocking_io.md R161 to R163; 45_config_control.md
R235). -/

namespace Sys2Proof.Machine

open Sys2Proof

/-- Step 2 of `Realloc` for a ring: `Allocate`, `online <- 1`, `Wake(rb)` (40_ring_buffer.md R131, R132). The
old storage is released. -/
def reallocRing (c : Chan) (d : Dir) (num size : Nat) (s : State) : State :=
  wake c d
    { s.modRing c d fun rb => { rb.allocate s.params.alloc num size with online := true } with
      mem := releaseRing s.mem c d }

/-- Step 2 of `ResetChannel(c)` for the rings of a channel: `Reset` step 2 on both, then the two `Wake`s
(45_config_control.md R235, 40_ring_buffer.md R135). -/
def resetFinish (c : Chan) (s : State) : State :=
  wake c .rx (wake c .tx (s.modChan c fun x => { x with tx := x.tx.clear, rx := x.rx.clear }))

/-- The state effect of a second step. The count that `CFG.*SIZE` keeps and the size that `CFG.*NUM` keeps are
the ring's own, which no step changes in between (45_config_control.md R219 to R222). -/
def runTwoStep (t : TwoStep) (s : State) : State :=
  match t with
  | .size c d v => reallocRing c d (s.ring c d).cap v.toNat s
  | .num c d v => reallocRing c d v.toNat (s.ring c d).fsz s
  | .channel c => resetFinish c s
  | .device => resetFinish .ch1 (resetFinish .ch0 s)

/-- The error code of the response of a second step: `OK` or `OutOfMemory` (40_ring_buffer.md R132;
45_config_control.md R234: "`RESET` has no error of its own"). -/
def twoStepResult (t : TwoStep) (s : State) : ErrCode :=
  match t with
  | .size c d v => allocResult s.params.alloc (s.ring c d).cap v.toNat
  | .num c d v => allocResult s.params.alloc v.toNat (s.ring c d).fsz
  | .channel _ => .ok
  | .device => .ok

/-- `CONT tid`: enabled exactly when `calls[tid]` is `Mid` and no interrupt is in service; the second step,
then `calls[tid] <- Idle` and the response (10_state.md R51). -/
def execCont (tid : Tid) (s : State) : Result :=
  if s.dev.inIsr then .refused .notEnabled
  else
    match callOf s.calls tid with
    | some (.mid cw w1) =>
      match midStep cw w1 with
      | some t =>
        let s1 := runTwoStep t s
        .next (respond tid 0 (twoStepResult t s) [] { s1 with calls := dropCall s1.calls tid })
      | none => .refused .outsideSpec
    | some (.blocked _) => .refused .notEnabled
    | none => .refused .notEnabled

/-- The common form of the three wait events: enabled when `calls[tid]` is `Blocked`, no interrupt is in
service and no two-step command is between its steps (41_blocking_io.md R161 to R163). -/
def asBlocked (tid : Tid) (s : State) (f : Blocked → Result) : Result :=
  if callersFree s then
    match callOf s.calls tid with
    | some (.blocked b) => f b
    | some (.mid _ _) => .refused .notEnabled
    | none => .refused .notEnabled
  else .refused .notEnabled

/-- `RESUME tid`: `Leave(tid)`, then the command again from its step 1 (41_blocking_io.md R161). -/
def execResume (tid : Tid) (s : State) : Result :=
  asBlocked tid s fun b =>
    match b.op with
    | .write payload => runWrite tid b.ch payload (leave tid b s)
    | .read maxLen => runRead tid b.ch maxLen (leave tid b s)

/-- `TIMEOUT tid`, enabled for a positive timeout only (41_blocking_io.md R162). -/
def execTimeout (tid : Tid) (s : State) : Result :=
  asBlocked tid s fun b =>
    if finiteWait b.tmo then fail tid .timeout (leave tid b s) else .refused .notEnabled

/-- `ABORT tid` (41_blocking_io.md R163). -/
def execAbort (tid : Tid) (s : State) : Result :=
  asBlocked tid s fun b => fail tid .interrupted (leave tid b s)

/-- A well-formed illegal command word: it "returns `(0, InvalidParameter)` and changes no state"
(30_encoding.md R110). -/
def execIllegal (tid : Tid) (s : State) : Result :=
  asCommand tid s (fail tid .invalidParameter)

end Sys2Proof.Machine
end

