-- ==== Sys2Proof/Machine/Dispatch.lean ====
section
/-! DEFINITION. One arm per constructor of `Instr`, each one direct call of its meaning. -/

namespace Sys2Proof.Machine

open Sys2Proof

def exec (i : Instr) (s : State) : Host.Outcome State Fault Refusal :=
  match i with
  | .write tid c payload => Sys2Proof.Machine.execWrite tid c payload s
  | .read tid c maxLen => Sys2Proof.Machine.execRead tid c maxLen s
  | .cfgMode tid c v => Sys2Proof.Machine.execCfgMode tid c v s
  | .cfgTxSize tid c v => Sys2Proof.Machine.execCfgTxSize tid c v s
  | .cfgTxNum tid c v => Sys2Proof.Machine.execCfgTxNum tid c v s
  | .cfgRxSize tid c v => Sys2Proof.Machine.execCfgRxSize tid c v s
  | .cfgRxNum tid c v => Sys2Proof.Machine.execCfgRxNum tid c v s
  | .cfgRdTmo tid c v => Sys2Proof.Machine.execCfgRdTmo tid c v s
  | .cfgWrTmo tid c v => Sys2Proof.Machine.execCfgWrTmo tid c v s
  | .cfgWMark tid c v => Sys2Proof.Machine.execCfgWMark tid c v s
  | .cfgRxEn tid c v => Sys2Proof.Machine.execCfgRxEn tid c v s
  | .cfgTxEn tid c v => Sys2Proof.Machine.execCfgTxEn tid c v s
  | .cfgIrqEn tid c v => Sys2Proof.Machine.execCfgIrqEn tid c v s
  | .cfgGIrqEn tid _ v => Sys2Proof.Machine.execCfgGIrqEn tid v s
  | .notifyInstall tid c handle => Sys2Proof.Machine.execNotifyInstall tid c handle s
  | .notifyRemove tid c => Sys2Proof.Machine.execNotifyRemove tid c s
  | .resetChannel tid c => Sys2Proof.Machine.execResetChannel tid c s
  | .resetDevice tid c => Sys2Proof.Machine.execResetDevice tid c s
  | .svcRxSync c tx ext => Sys2Proof.Machine.execSvcRxSync c tx ext s
  | .svcRxAsync c tx ext => Sys2Proof.Machine.execSvcRxAsync c tx ext s
  | .svcTxSync c _ => Sys2Proof.Machine.execSvcTxSync c s
  | .svcTxAsync c _ => Sys2Proof.Machine.execSvcTxAsync c s
  | .svcExt c async => Sys2Proof.Machine.execSvcExt c async s
  | .irq => Sys2Proof.Machine.execIrq s
  | .cont tid => Sys2Proof.Machine.execCont tid s
  | .resume tid => Sys2Proof.Machine.execResume tid s
  | .timeout tid => Sys2Proof.Machine.execTimeout tid s
  | .abort tid => Sys2Proof.Machine.execAbort tid s

end Sys2Proof.Machine
end

