-- ==== Sys2Proof/Machine/Fetch.lean ====
section
/-! DEFINITION. What a step runs: the service in progress, else the next delivery (10_state.md R53, R58;
notes/assumptions/3.md, 7.md), and how an instruction is put there. -/

namespace Sys2Proof.Machine

open Sys2Proof

/-- What the machine has to do next. `idle`: nothing is delivered. `run i`: the instruction `i`. `illegal`: a
well-formed illegal command word of a thread (30_encoding.md R110). `reject`: a delivery the block takes no
step for. `env`: a test event of the reference controller. -/
inductive Fetched where
  | idle
  | run (i : Instr)
  | illegal (tid : Tid)
  | reject (r : Refusal)
  | env (c : Chan) (e : Injection)
deriving DecidableEq, Repr

/-- The fetched form of a command tuple: ill-formed tuples are no commands (30_encoding.md R109), every other
word that decodes to nothing is illegal (R110). -/
def fetchCommand (k : Command) : Fetched :=
  match decodeCommand k with
  | .ok i => .run i
  | .error .illFormed => .reject .illFormed
  | .error .illegalOp => .illegal k.tid
  | .error .illegalChannel => .illegal k.tid
  | .error .illegalSel => .illegal k.tid
  | .error .illegalLen => .illegal k.tid
  | .error .nothingPending => .illegal k.tid
  | .error .unusedEvent => .illegal k.tid

/-- The fetched form of an event number (30_encoding.md R113). -/
def fetchEvent (ev : BitVec 3) (tid : Option Tid) : Fetched :=
  match decodeEvent ev tid with
  | .ok i => .run i
  | .error .illFormed => .reject .illFormed
  | .error .illegalOp => .reject .unusedEvent
  | .error .illegalChannel => .reject .unusedEvent
  | .error .illegalSel => .reject .unusedEvent
  | .error .illegalLen => .reject .unusedEvent
  | .error .nothingPending => .reject .unusedEvent
  | .error .unusedEvent => .reject .unusedEvent

/-- Is it a delivery that an interrupt in service lets in: an `IRQ`, or a test event of the reference controller,
which is no step of the block (44_isr_dispatcher.md R200, 20_memory.md R99)? -/
def Delivery.duringInterrupt : Delivery → Bool
  | .command _ => false
  | .event ev tid => decide (ev = 0#3) && tid.isNone
  | .env _ _ => true

/-- Does the interrupt in service go on by itself: while `dev.inIsr = 1` the one event of the block that is enabled
is `IRQ` (44_isr_dispatcher.md R200), so that it needs no delivery, every other delivery waits, and a state with
`dev.inIsr = 1` is never final (R207; notes/assumptions/3.md)? -/
def goesOn (s : State) : Bool :=
  s.dev.inIsr &&
    match s.schedule with
    | [] => true
    | d :: _ => !d.duringInterrupt

/-- The fetch: the service in progress goes before every delivery, because "while `dev.inIsr = 1` no other
event is enabled" (44_isr_dispatcher.md R200); then the next `IRQ` of the interrupt in service; else the first
delivery of the schedule. -/
def fetch (s : State) : Fetched :=
  match s.key with
  | some k =>
    match decodeKey k.1 k.2 with
    | .ok i => .run i
    | .error _ => .reject .noService
  | none =>
    if goesOn s then .run .irq
    else
      match s.schedule with
      | [] => .idle
      | .command k :: _ => fetchCommand k
      | .event ev tid :: _ => fetchEvent ev tid
      | .env c e :: _ => .env c e

/-- The state with the fetched delivery taken from the schedule; a service in progress and an interrupt that goes
on by itself take none. -/
def advance (s : State) : State :=
  match s.key with
  | some _ => s
  | none => if goesOn s then s else { s with schedule := s.schedule.tail }

/-- A test event reaches the reference controller; it is no step of the block (20_memory.md R99). -/
def injectEvent (c : Chan) (e : Injection) (s : State) : Result :=
  match s.oracle.inject c e with
  | some o => .next { s with oracle := o }
  | none => .refused .noReferenceController

/-- The state with delivery `d` first in the schedule, no service in progress, and no interrupt in service that
would make `d` wait. -/
def State.withDelivery (s : State) (d : Delivery) : State :=
  { s with
    key := none
    schedule := d :: s.schedule
    dev := { s.dev with inIsr := s.dev.inIsr && d.duringInterrupt } }

/-- Thread `tid` is `Mid` in a command it can finish: where it is not, it becomes so as by the first step of
`CFG.TXSIZE ch0, 16` (40_ring_buffer.md R132). -/
def State.withMid (s : State) (tid : Tid) : State :=
  match callOf s.calls tid with
  | some (.mid _ _) => s
  | some (.blocked _) => s
  | none =>
    { s with
      ch0 := { s.ch0 with tx := { s.ch0.tx with online := false }, txActive := false }
      calls := insertCall s.calls tid (.mid (commandWord 3 .ch0 1 0) (some 16#32)) }

/-- Thread `tid` is blocked: where it is not, it becomes so as by a `READ ch0, 16` with a timeout of 1
(41_blocking_io.md R153, R157). -/
def State.withBlocked (s : State) (tid : Tid) : State :=
  match callOf s.calls tid with
  | some (.blocked _) => s
  | some (.mid _ _) => s
  | none =>
    { s with
      ch0 := { s.ch0 with rx := { s.ch0.rx with waiter := true } }
      calls := insertCall s.calls tid (.blocked ⟨.read 16, .ch0, 1#32, false⟩) }

/-- The interrupt is in service on channel `c` with the dispatch key `dk` being served: `MODE` of the key is
the channel's mode, and the mirror agrees (44_isr_dispatcher.md R201, R203; 30_encoding.md R112). -/
def State.withKey (s : State) (c : Chan) (dk : BitVec 4) : State :=
  { s.modChan c fun x =>
      { x with
        mode := if dk.getLsbD 3 then .async else .sync
        mirror := replaceBit x.mirror ctlMode (dk.getLsbD 3) } with
    dev := { s.dev with inIsr := true, isrHandled := true }
    key := some (c, dk) }

/-- Put a raw form where the next step fetches it, with what makes the event one that can come: for `IRQ` the
device's interrupt enable, for `CONT` a `Mid` thread, for the wait events a blocked one, for a service the
interrupt context (notes/assumptions/15.md). -/
def State.withRaw (s : State) (r : Raw) : State :=
  match r with
  | .command k => s.withDelivery (.command k)
  | .key c dk => s.withKey c dk
  | .event ev tid =>
    let s1 :=
      match decodeEvent ev tid with
      | .ok .irq => { s with dev := { s.dev with irqEnable := true } }
      | .ok (.cont t) => s.withMid t
      | .ok (.resume t) => s.withBlocked t
      | .ok (.timeout t) => s.withBlocked t
      | .ok (.abort t) => s.withBlocked t
      | _ => s
    s1.withDelivery (.event ev tid)

end Sys2Proof.Machine
end

