-- ==== Sys2Proof/Machine/Step.lean ====
section
/-! DEFINITION. One step of the machine: fetch, advance, execute (00_scope.md R9, R18; 20_memory.md R91). -/

namespace Sys2Proof.Machine

open Sys2Proof

/-- One step. With nothing delivered and no interrupt in service the block takes no step and the state stays
(notes/assumptions/3.md). -/
def step (s : State) : Host.Outcome State Fault Refusal :=
  match fetch s with
  | .idle => .next s
  | .run i => exec i (advance s)
  | .illegal tid => execIllegal tid (advance s)
  | .reject r => .refused r
  | .env c e => injectEvent c e (advance s)

/-- `s` with the instruction whose bits are `w`, numbered as spec/opcode_table.json numbers them, placed where
`step` fetches its next instruction (`rawOfTable`). -/
def State.withFetchWord (s : State) (nbits w : Nat) : State :=
  match rawOfTable nbits w with
  | some r => s.withRaw r
  | none => s

end Sys2Proof.Machine
end

