-- ==== Sys2Proof/Safety.lean ====
section
/-! DEFINITION. The vocabulary of the claims: the invariants INV1 to INV11 of 10_state.md R50 with the legal
values of 10_state.md R28, R30, R36, R39, the abstract queue a ring stands for (20_memory.md R92), what a step
leaves alone, and the named assumptions about the controller that the port log shows (20_memory.md R98).
Everything is stated on plain data, so that each predicate can be decided on a concrete state. -/

namespace Sys2Proof.Machine

open Sys2Proof

/-! ## Rings (10_state.md R38 to R41, R46 to R48; INV1 to INV6 of R50) -/

/-- How far slot `i` is behind `head`, going round the ring. -/
def Ring.age (rb : Ring) (i : Nat) : Nat := (i + rb.cap - rb.head) % rb.cap

/-- INV1, INV2 and the ranges of 10_state.md R39 to R41. -/
abbrev RingShape (rb : Ring) : Prop :=
  rb.slots.length = rb.cap ∧ rb.cap ≤ Config.frameNumLimit ∧
  1 ≤ rb.fsz ∧ rb.fsz ≤ Config.frameSizeLimit ∧ rb.entryCount ≤ rb.cap ∧
  (rb.cap = 0 → rb.head = 0 ∧ rb.tail = 0) ∧
  (0 < rb.cap → rb.head < rb.cap ∧ rb.tail = (rb.head + rb.entryCount) % rb.cap)

/-- INV3, with `len <= fsz` of INV6: the `entryCount` slots from `head` on are `READY`. -/
abbrev QueuedReady (rb : Ring) : Prop :=
  ∀ i < rb.cap, rb.age i < rb.entryCount → (rb.slot i).state = .ready ∧ (rb.slot i).len ≤ rb.fsz

/-- INV4 and INV6 of a Tx ring: every slot that is not queued is `EMPTY`, with `fill = 0`. -/
abbrev TxOthersEmpty (rb : Ring) : Prop :=
  ∀ i < rb.cap, rb.entryCount ≤ rb.age i → (rb.slot i).state = .empty ∧ (rb.slot i).fill = 0

/-- INV4 and INV6 of an Rx ring: a slot that is not queued is `EMPTY` with `fill = 0`, or it is the tail slot,
`FILLING`, with `1 <= fill <= fsz - 1`. -/
abbrev RxOthersEmpty (rb : Ring) : Prop :=
  ∀ i < rb.cap, rb.entryCount ≤ rb.age i →
    ((rb.slot i).state = .empty ∧ (rb.slot i).fill = 0) ∨
    (i = rb.tail ∧ (rb.slot i).state = .filling ∧ 1 ≤ (rb.slot i).fill ∧ (rb.slot i).fill < rb.fsz)

/-- INV6: a `READY` Rx slot has `fill = 0`. -/
abbrev RxReadyUnfilled (rb : Ring) : Prop :=
  ∀ i < rb.cap, (rb.slot i).state = .ready → (rb.slot i).fill = 0

/-- A queued transmit frame has at least one byte, because `WRITE` refuses an empty payload (43_async_engine.md
R186). -/
abbrev TxNonEmpty (rb : Ring) : Prop :=
  ∀ i < rb.cap, rb.age i < rb.entryCount → 1 ≤ (rb.slot i).len

/-- INV7, first part: `txActive` says that the head frame is being sent. -/
abbrev TxSending (x : Channel) : Prop :=
  x.txActive = true →
    x.mode = .async ∧ 1 ≤ x.tx.entryCount ∧ x.tx.online = true ∧
    1 ≤ (x.tx.slot x.tx.head).fill ∧ (x.tx.slot x.tx.head).fill < (x.tx.slot x.tx.head).len

/-- INV7, second part: with `txActive = 0` every slot of an online Tx ring has `fill = 0`; with `txActive = 1`
every slot but the head has. -/
abbrev TxUnsent (x : Channel) : Prop :=
  x.tx.online = true → ∀ i < x.tx.cap, (x.txActive = false ∨ i ≠ x.tx.head) → (x.tx.slot i).fill = 0

/-- "In mode `SYNC` no slot is ever `FILLING`" (41_blocking_io.md R154). -/
abbrev SyncNoPartial (x : Channel) : Prop :=
  x.mode = .sync → ∀ i < x.rx.cap, (x.rx.slot i).state ≠ .filling

/-- The ring invariants INV1 to INV7 of one channel. -/
abbrev RingsOk (x : Channel) : Prop :=
  RingShape x.tx ∧ RingShape x.rx ∧ QueuedReady x.tx ∧ QueuedReady x.rx ∧ TxOthersEmpty x.tx ∧
  RxOthersEmpty x.rx ∧ RxReadyUnfilled x.rx ∧ TxNonEmpty x.tx ∧ TxSending x ∧ TxUnsent x ∧ SyncNoPartial x

/-! ## Channels -/

/-- INV8, with the zero bits 31:4 of 10_state.md R37: the mirror is the four flags. -/
abbrev MirrorOk (x : Channel) : Prop := x.mirror = ctlOf x.rxEnabled x.txEnabled x.irqEnabled x.mode

/-- INV10: `qfullCount` is below the threshold. -/
abbrev QfullOk (p : Params) (x : Channel) : Prop := x.qfullCount < p.qfullThreshold

/-- The four codes the sticky slot may hold (10_state.md R28, 60_exceptions.md R252). -/
def stickyCode (e : ErrCode) : Bool :=
  match e with
  | .checksumOrFramingError => true
  | .overrun => true
  | .breakAbort => true
  | .frameTooLarge => true
  | .ok => false
  | .queueEmpty => false
  | .queueFull => false
  | .outOfMemory => false
  | .interruptsDisabled => false
  | .invalidParameter => false
  | .timeout => false
  | .interrupted => false

/-- The stored values are legal: the sticky code (10_state.md R28), the timeouts (R30), the watermark (R36). -/
abbrev ValuesOk (x : Channel) : Prop :=
  x.stickyErr.all stickyCode = true ∧ legalTimeout x.rdTimeout = true ∧ legalTimeout x.wrTimeout = true ∧
  x.watermark ≤ Config.watermarkLimit

/-! ## Threads -/

/-- The thread table is canonical: identifiers strictly rising from above `lo`. -/
def callsSorted : Option Tid → List (Tid × Call) → Bool
  | _, [] => true
  | lo, (t, _) :: rest => (match lo with | none => true | some l => decide (l < t)) && callsSorted (some t) rest

/-- INV9: `waiter` is 1 exactly when some record that waits on the ring has `woken = 0`. -/
abbrev WaitersOk (s : State) : Prop :=
  s.ch0.tx.waiter = anyAsleep s.calls .ch0 .tx ∧ s.ch0.rx.waiter = anyAsleep s.calls .ch0 .rx ∧
  s.ch1.tx.waiter = anyAsleep s.calls .ch1 .tx ∧ s.ch1.rx.waiter = anyAsleep s.calls .ch1 .rx

/-- Does the entry have a second step to come that works on the ring? -/
def Call.holds (k : Call) (c : Chan) (d : Dir) : Bool :=
  match k with
  | .blocked _ => false
  | .mid cw w1 =>
    match midStep cw w1 with
    | some t => t.touches c d
    | none => false

/-- Does some thread have a second step to come that works on the ring? -/
def anyHolds (calls : List (Tid × Call)) (c : Chan) (d : Dir) : Bool := calls.any fun e => e.2.holds c d

/-- The entry is one the block makes: a `Mid` record keeps the words of a two-step command whose value has
passed its check (10_state.md R51, 45_config_control.md R215), and a blocked record's `tmo` is legal and "never
0" (10_state.md R51, R30). -/
def Call.legal (k : Call) : Bool :=
  match k with
  | .blocked b => legalTimeout b.tmo && !noWait b.tmo
  | .mid cw w1 =>
    match midStep cw w1 with
    | some (.size _ _ v) => legalSize v
    | some (.num _ _ v) => legalNum v
    | some (.channel _) => true
    | some .device => true
    | none => false

/-- INV11: at most one thread is `Mid`, and a ring is offline exactly when some thread is `Mid` in a command
that operates on it. -/
abbrev MidOk (s : State) : Prop :=
  (s.calls.filter fun e => e.2.isMid).length ≤ 1 ∧
  s.ch0.tx.online = !anyHolds s.calls .ch0 .tx ∧ s.ch0.rx.online = !anyHolds s.calls .ch0 .rx ∧
  s.ch1.tx.online = !anyHolds s.calls .ch1 .tx ∧ s.ch1.rx.online = !anyHolds s.calls .ch1 .rx

/-- A service in progress is a receive service of its channel's mode, inside the interrupt context. -/
abbrev KeyOk (s : State) : Prop :=
  ∀ k ∈ s.key.toList, s.dev.inIsr = true ∧ k.2.getLsbD 2 = true ∧ k.2.getLsbD 3 = (s.chan k.1).mode.bit

/-! ## The whole -/

/-- The invariants of 10_state.md R50, with what they rest on: canonical tables, legal stored values, and a
threshold of "at least 1" (93_implementation_defined.md U1). -/
structure Inv (s : State) : Prop where
  threshold : 1 ≤ s.params.qfullThreshold
  memory : Memory.wf s.mem = true
  sorted : callsSorted none s.calls = true
  legal : ∀ e ∈ s.calls, e.2.legal = true
  rings : RingsOk s.ch0 ∧ RingsOk s.ch1
  mirrors : MirrorOk s.ch0 ∧ MirrorOk s.ch1
  counters : QfullOk s.params s.ch0 ∧ QfullOk s.params s.ch1
  values : ValuesOk s.ch0 ∧ ValuesOk s.ch1
  waiters : WaitersOk s
  lock : MidOk s
  service : KeyOk s

/-! ## The queue a ring stands for (20_memory.md R92) -/

/-- The frames queued in a ring, first to be consumed first: the bytes of the `entryCount` slots from `head`
on. -/
def queuedFrom (m : Memory) (c : Chan) (d : Dir) (rb : Ring) (i : Nat) : Nat → List (List Byte)
  | 0 => []
  | n + 1 => loadBytes m (slotAddr c d i 0) (rb.slot i).len :: queuedFrom m c d rb (rb.next i) n

/-- The frames queued in `chan[c].tx` or `chan[c].rx`. -/
def queued (s : State) (c : Chan) (d : Dir) : List (List Byte) :=
  queuedFrom s.mem c d (s.ring c d) (s.ring c d).head (s.ring c d).entryCount

/-! ## The transmit stream (20_memory.md R92) -/

/-- The bytes a port log shows written to `TXFIFO` of a channel, oldest first. -/
def sentBytes (c : Chan) : List PortEvent → List Byte
  | [] => []
  | .write c' .txfifo v :: log => (if c' = c then [v.extractLsb' 0 8] else []) ++ sentBytes c log
  | .write _ .ctl _ :: log => sentBytes c log
  | .write _ .cmd _ :: log => sentBytes c log
  | .read _ _ _ :: log => sentBytes c log

/-- The bytes of the queued transmit frames of a channel that have not been written to the controller: the
head slot's `fill` counts those that have (43_async_engine.md R186). -/
def unsent (s : State) (c : Chan) : List Byte :=
  (queued s c .tx).flatten.drop ((s.ring c .tx).slot (s.ring c .tx).head).fill

/-- The payload a step accepts for transmission on a channel: that of a `WRITE`, or of a blocked `WRITE` run
again by `RESUME`, which has answered `(|payload|, OK)`. -/
def acceptedBytes (i : Instr) (s t : State) (c : Chan) : List Byte :=
  let taken := fun (tid : Tid) (c' : Chan) (payload : List Byte) =>
    if c' = c ∧ t.respLog = s.respLog ++ [⟨tid, responseWord payload.length .ok, []⟩] then payload else []
  match i with
  | .write tid c' payload => taken tid c' payload
  | .resume tid =>
    match callOf s.calls tid with
    | some (.blocked b) =>
      match b.op with
      | .write payload => taken tid b.ch payload
      | .read _ => []
    | _ => []
  | _ => []

/-! ## What a step leaves alone -/

/-- The channel's configuration, which the interrupt context never changes (44_isr_dispatcher.md R210). -/
abbrev SameConfig (x y : Channel) : Prop :=
  y.mode = x.mode ∧ y.sigHandle = x.sigHandle ∧ y.rdTimeout = x.rdTimeout ∧ y.wrTimeout = x.wrTimeout ∧
  y.irqEnabled = x.irqEnabled ∧ y.watermark = x.watermark ∧
  y.tx.cap = x.tx.cap ∧ y.tx.fsz = x.tx.fsz ∧ y.tx.online = x.tx.online ∧ y.tx.errReported = x.tx.errReported ∧
  y.rx.cap = x.rx.cap ∧ y.rx.fsz = x.rx.fsz ∧ y.rx.online = x.rx.online ∧ y.rx.errReported = x.rx.errReported ∧
  y.rx.head = x.rx.head ∧ y.tx.tail = x.tx.tail

/-- No byte of slot storage differs, read one byte at a time. -/
abbrev SameBytes (s t : State) : Prop := ∀ a, memRead t.mem a = memRead s.mem a

/-- Everything but the two channels, the slot storage, the thread table, the port and the responses is as before:
the device, the signals, the service in progress, the dispatcher results, the schedule and the parameters. -/
abbrev SameRest (s t : State) : Prop :=
  t.dev = s.dev ∧ t.sigLog = s.sigLog ∧ t.key = s.key ∧ t.irqLog = s.irqLog ∧ t.schedule = s.schedule ∧
  t.params = s.params

/-- Thread `tid` has the entry `k`, and every other thread the one it had. -/
abbrev CallIs (s t : State) (tid : Tid) (k : Option Call) : Prop :=
  callOf t.calls tid = k ∧ ∀ u, u ≠ tid → callOf t.calls u = callOf s.calls u

/-- The port saw nothing. -/
abbrev SamePort (s t : State) : Prop := t.portLog = s.portLog ∧ t.oracle = s.oracle

/-- The controller after a list of port events. -/
def Oracle.replay (o : Oracle) : List PortEvent → Oracle
  | [] => o
  | .write c r v :: log => (o.afterWrite c r v).replay log
  | .read c r _ :: log => (o.afterRead c r).replay log

/-- The port saw exactly the events `log`, in this order. -/
abbrev PortGains (s t : State) (log : List PortEvent) : Prop :=
  t.portLog = s.portLog ++ log ∧ t.oracle = s.oracle.replay log

/-- What a service that has ended leaves alone, and the service itself no longer in progress. -/
abbrev Served (s t : State) : Prop :=
  t.dev = s.dev ∧ t.key = none ∧ t.respLog = s.respLog ∧ t.irqLog = s.irqLog ∧ t.schedule = s.schedule ∧
  t.params = s.params

/-- Every slot of `rb` is as in `old` but slot `i`. -/
abbrev SameSlotsBut (i : Nat) (old rb : Ring) : Prop :=
  rb.slots.length = old.slots.length ∧ ∀ j, j ≠ i → rb.slot j = old.slot j

/-- Every slot of the ring is `EMPTY` with `fill = 0`. -/
abbrev AllEmpty (rb : Ring) : Prop := ∀ x ∈ rb.slots, x.state = .empty ∧ x.fill = 0

/-- The ring after step 2 of `Reset` and its `Wake` (40_ring_buffer.md R135). -/
abbrev RingCleared (old rb : Ring) : Prop :=
  rb.cap = old.cap ∧ rb.fsz = old.fsz ∧ rb.head = old.tail ∧ rb.tail = old.tail ∧ rb.entryCount = 0 ∧
  rb.waiter = false ∧ rb.errReported = false ∧ rb.online = true ∧ rb.slots.length = old.slots.length ∧
  AllEmpty rb

/-- The ring after `Allocate(rb, num, size)`, whether or not storage is obtained (40_ring_buffer.md R131), for the
fields `Allocate` writes. -/
abbrev RingAllocated (obtained : Bool) (num size : Nat) (rb : Ring) : Prop :=
  rb.cap = (if obtained then num else 0) ∧ rb.fsz = size ∧ rb.head = 0 ∧ rb.tail = 0 ∧
  rb.entryCount = 0 ∧ rb.errReported = false ∧ rb.slots.length = rb.cap ∧ AllEmpty rb

/-- A channel after step 1 of `ResetChannel` (45_config_control.md R235, R236). -/
def resetHalf (clearsSticky : Bool) (x : Channel) : Channel :=
  { x with
    tx := { x.tx with online := false }
    rx := { x.rx with online := false }
    rxEnabled := false
    txEnabled := false
    mirror := x.mirror &&& 0b1100#32
    txReady := true
    txBufEmpty := true
    txActive := false
    qfullCount := 0
    stickyErr := if clearsSticky then none else x.stickyErr }

/-- The two port writes of step 1 of `ResetChannel` (45_config_control.md R235). -/
def resetEvents (c : Chan) (x : Channel) : List PortEvent :=
  [.write c .cmd 4#32, .write c .ctl (x.mirror &&& 0b1100#32)]

/-- The values a burst of `n` reads of `RXFIFO` returns (20_memory.md R80). -/
def burst (c : Chan) : Nat → State → List Word
  | 0, _ => []
  | n + 1, s => portAnswer c .rxfifo s :: burst c n (regRead c .rxfifo s)

/-- The port events of a burst of reads of `RXFIFO`. -/
def burstReads (c : Chan) (words : List Word) : List PortEvent := words.map fun w => .read c .rxfifo w

/-- The port events of a burst of writes to `TXFIFO` (20_memory.md R83). -/
def burstWrites (c : Chan) (bytes : List Byte) : List PortEvent :=
  bytes.map fun b => .write c .txfifo (b.setWidth 32)

/-- The signals raised for a channel on one occasion: its handle, if it has one (60_exceptions.md R262). -/
def signalOf (x : Channel) : List Word := x.sigHandle.toList

/-- The only response given is `(RW, payload)` to `tid`. -/
abbrev Answers (s t : State) (tid : Tid) (rw : Word) (payload : List Byte) : Prop :=
  t.respLog = s.respLog ++ [⟨tid, rw, payload⟩]

/-! ## Runs -/

/-- `n` steps of the machine. -/
def runSteps : Nat → State → Result
  | 0, s => .next s
  | n + 1, s => andThen (step s) (runSteps n)

/-- The interrupt line shows a cause to the scan of one iteration: `IP[2:0]` of channel 0, or of channel 1 read
after it (44_isr_dispatcher.md R201). -/
abbrev CausePending (s : State) : Prop :=
  (portAnswer .ch0 .ip s).extractLsb' 0 3 ≠ 0#3 ∨
  (portAnswer .ch1 .ip (regRead .ch0 .ip s)).extractLsb' 0 3 ≠ 0#3

/-! ## Kinds of instruction -/

/-- The fixed bits of the 18 command rows, as (mask, match) over `CW` (30_encoding.md R120). -/
def commandRows : List (Word × Word) :=
  [(0xFEFF0000, 0x10000000), (0xFEFF0000, 0x20000000), (0xFEFFFFFF, 0x30000000), (0xFEFFFFFF, 0x30010000),
   (0xFEFFFFFF, 0x30020000), (0xFEFFFFFF, 0x30030000), (0xFEFFFFFF, 0x30040000), (0xFEFFFFFF, 0x30050000),
   (0xFEFFFFFF, 0x30060000), (0xFEFFFFFF, 0x30070000), (0xFEFFFFFF, 0x30080000), (0xFEFFFFFF, 0x30090000),
   (0xFEFFFFFF, 0x300A0000), (0xFEFFFFFF, 0x300B0000), (0xFEFFFFFF, 0x40000000), (0xFEFFFFFF, 0x50000000),
   (0xFEFFFFFF, 0x60000000), (0xFEFFFFFF, 0x60010000)]

/-- The four grounds of 30_encoding.md R110 for an illegal command word. -/
abbrev IllegalFields (cw : Word) : Prop :=
  (opField cw = 0 ∨ 7 ≤ (opField cw).toNat) ∨
  1 < (chField cw).toNat ∨
  ((selField cw ≠ 0 ∧ opField cw ≠ 3 ∧ opField cw ≠ 6) ∨ (11 < (selField cw).toNat ∧ opField cw = 3) ∨
    (1 < (selField cw).toNat ∧ opField cw = 6)) ∨
  (lenField cw ≠ 0 ∧ opField cw ≠ 1 ∧ opField cw ≠ 2)

/-- Is it a step of the interrupt context: `IRQ` or one of the five services (60_exceptions.md R263)? -/
def isInterrupt : Instr → Bool
  | .write _ _ _ => false
  | .read _ _ _ => false
  | .cfgMode _ _ _ => false
  | .cfgTxSize _ _ _ => false
  | .cfgTxNum _ _ _ => false
  | .cfgRxSize _ _ _ => false
  | .cfgRxNum _ _ _ => false
  | .cfgRdTmo _ _ _ => false
  | .cfgWrTmo _ _ _ => false
  | .cfgWMark _ _ _ => false
  | .cfgRxEn _ _ _ => false
  | .cfgTxEn _ _ _ => false
  | .cfgIrqEn _ _ _ => false
  | .cfgGIrqEn _ _ _ => false
  | .notifyInstall _ _ _ => false
  | .notifyRemove _ _ => false
  | .resetChannel _ _ => false
  | .resetDevice _ _ => false
  | .svcRxSync _ _ _ => true
  | .svcRxAsync _ _ _ => true
  | .svcTxSync _ _ => true
  | .svcTxAsync _ _ => true
  | .svcExt _ _ => true
  | .irq => true
  | .cont _ => false
  | .resume _ => false
  | .timeout _ => false
  | .abort _ => false

/-- The thread of a host command; the services and the events are none. -/
def commandTid : Instr → Option Tid
  | .write tid _ _ => some tid
  | .read tid _ _ => some tid
  | .cfgMode tid _ _ => some tid
  | .cfgTxSize tid _ _ => some tid
  | .cfgTxNum tid _ _ => some tid
  | .cfgRxSize tid _ _ => some tid
  | .cfgRxNum tid _ _ => some tid
  | .cfgRdTmo tid _ _ => some tid
  | .cfgWrTmo tid _ _ => some tid
  | .cfgWMark tid _ _ => some tid
  | .cfgRxEn tid _ _ => some tid
  | .cfgTxEn tid _ _ => some tid
  | .cfgIrqEn tid _ _ => some tid
  | .cfgGIrqEn tid _ _ => some tid
  | .notifyInstall tid _ _ => some tid
  | .notifyRemove tid _ => some tid
  | .resetChannel tid _ => some tid
  | .resetDevice tid _ => some tid
  | .svcRxSync _ _ _ => none
  | .svcRxAsync _ _ _ => none
  | .svcTxSync _ _ => none
  | .svcTxAsync _ _ => none
  | .svcExt _ _ => none
  | .irq => none
  | .cont _ => none
  | .resume _ => none
  | .timeout _ => none
  | .abort _ => none

/-- The one channel an instruction works on, where it names one: not `RESET.DEVICE`, which works on both, and
not an event. -/
def onChannel : Instr → Option Chan
  | .write _ c _ => some c
  | .read _ c _ => some c
  | .cfgMode _ c _ => some c
  | .cfgTxSize _ c _ => some c
  | .cfgTxNum _ c _ => some c
  | .cfgRxSize _ c _ => some c
  | .cfgRxNum _ c _ => some c
  | .cfgRdTmo _ c _ => some c
  | .cfgWrTmo _ c _ => some c
  | .cfgWMark _ c _ => some c
  | .cfgRxEn _ c _ => some c
  | .cfgTxEn _ c _ => some c
  | .cfgIrqEn _ c _ => some c
  | .cfgGIrqEn _ c _ => some c
  | .notifyInstall _ c _ => some c
  | .notifyRemove _ c => some c
  | .resetChannel _ c => some c
  | .resetDevice _ _ => none
  | .svcRxSync c _ _ => some c
  | .svcRxAsync c _ _ => some c
  | .svcTxSync c _ => some c
  | .svcTxAsync c _ => some c
  | .svcExt c _ => some c
  | .irq => none
  | .cont _ => none
  | .resume _ => none
  | .timeout _ => none
  | .abort _ => none

/-- The receive service of a mode. -/
def rxServiceOf (m : Mode) (c : Chan) (tx ext : Bool) : Instr :=
  match m with
  | .sync => .svcRxSync c tx ext
  | .async => .svcRxAsync c tx ext

/-- Does an `RS` value report work that needs a slot: in mode `SYNC` a status entry, in mode `ASYNC` a good
character (42_sync_engine.md R173, 43_async_engine.md R188)? -/
def rsWaiting (m : Mode) (rs : Word) : Bool :=
  match m with
  | .sync => rsSfne rs
  | .async => rsRca rs && !rsRxe rs

/-- Does an `RS` value report nothing to do (42_sync_engine.md R173, 43_async_engine.md R188)? -/
def rsIdle (m : Mode) (rs : Word) : Bool :=
  match m with
  | .sync => !rsSfne rs
  | .async => !rsRca rs

/-- The record with its `woken` bit cleared. -/
def Call.unwoken : Call → Call
  | .blocked b => .blocked { b with woken := false }
  | .mid cw w1 => .mid cw w1

/-- The threads' records but for their `woken` bits. -/
def records (calls : List (Tid × Call)) : List (Tid × Call) := calls.map fun e => (e.1, e.2.unwoken)

/-! ## Named assumptions about the controller that show in the port log (20_memory.md R98) -/

/-- The value of the last `CTL` write of a channel in a port log, newest last. -/
def lastCtl (c : Chan) : List PortEvent → Option Word
  | [] => none
  | .write c' .ctl v :: log => (lastCtl c log).or (if c' = c then some v else none)
  | .write _ .cmd _ :: log => lastCtl c log
  | .write _ .txfifo _ :: log => lastCtl c log
  | .read _ _ _ :: log => lastCtl c log

/-- EA1: "`IP` of a channel whose last written `CTL` has `IRQEN = 0` reads 0." -/
abbrev EA1 (s : State) : Prop :=
  (∀ v ∈ (lastCtl .ch0 s.portLog).toList, v &&& ctlIrqen = 0#32 → portAnswer .ch0 .ip s = 0#32) ∧
  (∀ v ∈ (lastCtl .ch1 s.portLog).toList, v &&& ctlIrqen = 0#32 → portAnswer .ch1 .ip s = 0#32)

/-- The bits outside the defined fields of a read register (20_memory.md R77 to R84). -/
def undefinedBits : ReadReg → Word
  | .ip => 0xFFFFFFF8#32
  | .rs => 0xFFFFFFE0#32
  | .sfifo => 0xFFF80000#32
  | .rxfifo => 0xFFFFFF00#32
  | .es => 0xFFFFFFFE#32

/-- EA5: "Bits outside the defined fields read 0." -/
abbrev EA5 (c : Chan) (r : ReadReg) (s : State) : Prop := portAnswer c r s &&& undefinedBits r = 0#32

end Sys2Proof.Machine
end

