-- ==== Sys2Proof/Certificates/Slice0/Obligations.lean ====
section
/-! DEFINITION. The statements for the provers. Each docstring names the rule of spec/ it formalises, or says
that the clause is the model's choice and names the log entry. The vocabulary is in Safety.lean. -/

section Statements

open Sys2Proof Sys2Proof.Machine

/-! ## Encoding -/

/-- Every well-formed instruction is read back from its encoding, with every operand (30_encoding.md R101 to
R113, R120). -/
def Obligations.DecodeInvertsEncode : Prop :=
  ∀ i : Instr, i.wellFormed = true → decode (encode i) = .ok i

/-- Whatever decodes is the encoding of the instruction it decodes to, so no two raw forms are one instruction
(30_encoding.md R109 to R113: "no encodings that execute as another operation"). -/
def Obligations.EncodeInvertsDecode : Prop :=
  ∀ (r : Raw) (i : Instr), decode r = .ok i → encode i = r ∧ i.wellFormed = true

/-- A few words of the spec's own encoding vectors (95_test_vectors.md section 2). -/
def Obligations.SampleWordsDecode : Prop :=
  decode (.command ⟨3, 0x11000002, none, [0xAA, 0xBB]⟩) = .ok (.write 3 .ch1 [0xAA, 0xBB]) ∧
  decode (.command ⟨0, 0x20000010, none, []⟩) = .ok (.read 0 .ch0 16) ∧
  decode (.command ⟨0, 0x310A0000, some 1, []⟩) = .ok (.cfgIrqEn 0 .ch1 1) ∧
  decode (.command ⟨0, 0x41000000, some 0xBEEF, []⟩) = .ok (.notifyInstall 0 .ch1 0xBEEF) ∧
  decode (.command ⟨0, 0x61010000, none, []⟩) = .ok (.resetDevice 0 .ch1) ∧
  decode (.key .ch0 0b0110) = .ok (.svcRxSync .ch0 true false) ∧
  decode (.key .ch1 0b1011) = .ok (.svcTxAsync .ch1 true) ∧
  decode (.event 3 (some 7)) = .ok (.timeout 7)

/-- Every word of a well-formed command is either in one of the 18 command rows, and then it decodes, or illegal by
R110, and then it does not (30_encoding.md R111, R120). -/
def Obligations.LegalWordsAreTheEighteenRows : Prop :=
  ∀ k : Command, k.formed = true →
    ((∃ i, decodeCommand k = .ok i) ↔ ∃ row ∈ commandRows, k.cw &&& row.1 = row.2) ∧
    (IllegalFields k.cw ↔ ¬ ∃ row ∈ commandRows, k.cw &&& row.1 = row.2)

/-- A well-formed command with an illegal field answers `(0, InvalidParameter)` and changes no state
(30_encoding.md R110). That the step takes the command off the schedule is the model's form
(notes/assumptions/3.md). -/
def Obligations.IllegalCommandAnswersInvalidParameter : Prop :=
  ∀ (s : State) (k : Command) (rest : List Delivery),
    s.key = none → s.schedule = .command k :: rest → k.formed = true → IllegalFields k.cw →
    commandEnabled k.tid s = true →
    step s = .next { s with schedule := rest, respLog := s.respLog ++ [⟨k.tid, 0x00090000#32, []⟩] }

/-- The service of a dispatch key `MODE ++ IP[2:0]` is the first match in the order receive, transmit,
external/status; with no bit pending there is none (30_encoding.md R112). -/
def Obligations.DispatchKeySelectsByPriority : Prop :=
  ∀ (c : Chan) (m : Mode) (rx tx ext : Bool),
    decodeKey c (BitVec.ofBool (decide (m = .async)) ++ BitVec.ofBool rx ++ BitVec.ofBool tx ++ BitVec.ofBool ext)
      = if rx then .ok (if m = .async then .svcRxAsync c tx ext else .svcRxSync c tx ext)
        else if tx then .ok (if m = .async then .svcTxAsync c ext else .svcTxSync c ext)
        else if ext then .ok (.svcExt c (decide (m = .async)))
        else .error .nothingPending

/-- The fields of a response word, and the code numbers of the twelve error names (30_encoding.md R104,
R108). -/
def Obligations.ResponseWordFields : Prop :=
  (∀ (n : Nat) (e : ErrCode), n ≤ 65535 →
    (responseWord n e).extractLsb' 24 8 = 0#8 ∧ (responseWord n e).extractLsb' 16 8 = e.code ∧
    ((responseWord n e).extractLsb' 0 16).toNat = n) ∧
  [ErrCode.ok, .queueEmpty, .queueFull, .frameTooLarge, .checksumOrFramingError, .overrun, .breakAbort,
    .outOfMemory, .interruptsDisabled, .invalidParameter, .timeout, .interrupted].map (fun e => e.code.toNat) =
    List.range 12

/-! ## The step and the start -/

/-- A step runs the instruction that the next delivery, or the service in progress, decodes to; a delivery is
taken off the schedule first. While an interrupt is in service, the next `IRQ` needs no delivery and every delivery
but `IRQ` waits (44_isr_dispatcher.md R200; the form is the model's, notes/assumptions/3.md, 7.md). -/
def Obligations.StepRunsTheDecodedInstruction : Prop :=
  (∀ (s : State) (k : Command) (rest : List Delivery) (i : Instr),
    s.key = none → s.dev.inIsr = false → s.schedule = .command k :: rest → decode (.command k) = .ok i →
    step s = exec i { s with schedule := rest }) ∧
  (∀ (s : State) (ev : BitVec 3) (tid : Option Tid) (rest : List Delivery) (i : Instr),
    s.key = none → (s.dev.inIsr = false ∨ i = .irq) → s.schedule = .event ev tid :: rest → decode (.event ev tid) = .ok i →
    step s = exec i { s with schedule := rest }) ∧
  (∀ (s : State) (c : Chan) (dk : BitVec 4) (i : Instr),
    s.key = some (c, dk) → decode (.key c dk) = .ok i → step s = exec i s) ∧
  (∀ s : State, s.key = none → s.dev.inIsr = true →
    (s.schedule = [] ∨ (∃ k rest, s.schedule = .command k :: rest) ∨
      (∃ ev tid rest, s.schedule = .event ev tid :: rest ∧ decode (.event ev tid) ≠ .ok .irq)) →
    step s = exec .irq s)

/-- What is no instruction, with no interrupt in service: no delivery leaves the state as it is; an ill-formed tuple
and an unused or incomplete event number are refused. A test event reaches the reference controller only, also during
an interrupt. The model's choices: notes/assumptions/3.md, 11.md, 19.md (30_encoding.md R109, R113; 20_memory.md R99).
-/
def Obligations.DeliveriesThatAreNoInstruction : Prop :=
  ∀ (s : State) (rest : List Delivery), s.key = none →
    (s.dev.inIsr = false → s.schedule = [] → step s = .next s) ∧
    (∀ k, s.dev.inIsr = false → s.schedule = .command k :: rest → k.formed = false →
      step s = .refused .illFormed) ∧
    (∀ ev tid, s.dev.inIsr = false → s.schedule = .event ev tid :: rest → 5 ≤ ev.toNat →
      step s = .refused .unusedEvent) ∧
    (∀ ev, s.dev.inIsr = false → s.schedule = .event ev none :: rest → 1 ≤ ev.toNat → ev.toNat ≤ 4 →
      step s = .refused .illFormed) ∧
    (∀ c e a b, s.schedule = .env c e :: rest → s.oracle = .reference a b →
      step s = .next
        { s with
          schedule := rest
          oracle := if c = .ch0 then .reference (a.inject e) b else .reference a (b.inject e) })

/-- The state after initialization, for every value of the parameters (10_state.md R60). -/
def Obligations.InitializationValues : Prop :=
  ∀ (p : Params) (o : Oracle) (i0 i1 : InitParams) (c : Chan),
    let s := State.init p o i0 i1
    let x := s.chan c
    let i := if c = .ch0 then i0 else i1
    s.dev = ⟨false, 0#32, false, false⟩ ∧ (∀ tid, callOf s.calls tid = none) ∧ s.sigLog = [] ∧ s.portLog = [] ∧
    x.mode = i.mode ∧ x.rxEnabled = false ∧ x.txEnabled = false ∧ x.stickyErr = none ∧ x.sigHandle = none ∧
    x.rdTimeout = i.rdTimeout ∧ x.wrTimeout = i.wrTimeout ∧ x.irqEnabled = false ∧ x.txReady = true ∧
    x.txBufEmpty = true ∧ x.txActive = false ∧ x.qfullCount = 0 ∧ x.watermark = 0 ∧
    x.mirror = (if i.mode = .async then 8#32 else 0#32) ∧
    RingAllocated (allocOk p.alloc i.txNum i.txSize) i.txNum i.txSize x.tx ∧ x.tx.online = true ∧ x.tx.waiter = false ∧
    RingAllocated (allocOk p.alloc i.rxNum i.rxSize) i.rxNum i.rxSize x.rx ∧ x.rx.online = true ∧ x.rx.waiter = false

/-! ## Invariants -/

/-- The state after initialization of the model meets the invariants (10_state.md R50; the parameters of this
state are the model's, notes/assumptions/1.md, 5.md). -/
def Obligations.ResetMeetsTheInvariants : Prop := Inv State.reset

/-- Every initialization with legal parameters meets the invariants (10_state.md R50, R60; 45_config_control.md
R216). -/
def Obligations.InitializationMeetsTheInvariants : Prop :=
  ∀ (p : Params) (o : Oracle) (i0 i1 : InitParams), 1 ≤ p.qfullThreshold →
    (∀ i ∈ [i0, i1],
      1 ≤ i.txSize ∧ i.txSize ≤ 65535 ∧ 1 ≤ i.txNum ∧ i.txNum ≤ 65535 ∧
      1 ≤ i.rxSize ∧ i.rxSize ≤ 65535 ∧ 1 ≤ i.rxNum ∧ i.rxNum ≤ 65535 ∧
      -1 ≤ i.rdTimeout.toInt ∧ -1 ≤ i.wrTimeout.toInt) →
    Inv (State.init p o i0 i1)

/-- Every step keeps the invariants INV1 to INV11, from any state that meets them (10_state.md R50: "every rule
preserves them"). -/
def Obligations.StepKeepsTheInvariants : Prop :=
  ∀ s t : State, Inv s → step s = .next t → Inv t

/-- From a state that meets the invariants no step reaches outside slot storage and none meets a record that
breaks an invariant (41_blocking_io.md R166: "No byte index ever reaches `fsz`"; 93_implementation_defined.md
U6). -/
def Obligations.InvariantStatesNeverFault : Prop :=
  ∀ s : State, Inv s → step s ≠ .fault .slotOutside ∧ step s ≠ .refused .outsideSpec

/-- Every step keeps slot storage in its canonical form (the form is the model's, notes/assumptions/2.md). -/
def Obligations.StepKeepsTheMemoryForm : Prop :=
  ∀ s t : State, Memory.wf s.mem = true → step s = .next t → Memory.wf t.mem = true

/-- INV8: every step keeps the register mirror equal to the four flags, bits 31:4 zero (10_state.md R37,
R50). -/
def Obligations.StepKeepsTheMirror : Prop :=
  ∀ s t : State, MirrorOk s.ch0 → MirrorOk s.ch1 → step s = .next t → MirrorOk t.ch0 ∧ MirrorOk t.ch1

/-- INV10 and the legal stored values: every step keeps `qfullCount` below the threshold, the sticky slot to its
four codes, the timeouts and the watermark legal (10_state.md R28, R30, R36, R50; 60_exceptions.md R252). -/
def Obligations.StepKeepsTheStoredValuesLegal : Prop :=
  ∀ s t : State, 1 ≤ s.params.qfullThreshold →
    QfullOk s.params s.ch0 → QfullOk s.params s.ch1 → ValuesOk s.ch0 → ValuesOk s.ch1 → step s = .next t →
    t.params = s.params ∧ QfullOk t.params t.ch0 ∧ QfullOk t.params t.ch1 ∧ ValuesOk t.ch0 ∧ ValuesOk t.ch1

/-- INV9: every step keeps `waiter` equal to "some record that waits on the ring has `woken = 0`" (10_state.md
R42, R50). -/
def Obligations.StepKeepsTheWaiterFlags : Prop :=
  ∀ s t : State, callsSorted none s.calls = true → WaitersOk s → step s = .next t →
    callsSorted none t.calls = true ∧ WaitersOk t

/-- INV11: every step keeps at most one thread `Mid`, and a ring offline exactly while some thread is `Mid` in a
command that works on it (10_state.md R50, R51; 20_memory.md R94, R95). -/
def Obligations.StepKeepsTheLock : Prop :=
  ∀ s t : State, callsSorted none s.calls = true → MidOk s → step s = .next t → MidOk t

/-! ## The commands as a whole -/

/-- Every command completes in one step wherever a command is enabled, but `CFG.MODE` to another mode on a busy
channel (41_blocking_io.md R150; 20_memory.md R88; 45_config_control.md R215, R218). -/
def Obligations.EveryCommandCompletes : Prop :=
  ∀ (s : State) (tid : Tid) (i : Instr), Inv s → commandTid i = some tid → commandEnabled tid s = true →
    (∃ t, exec i s = .next t) ∨
    (∃ c v, i = .cfgMode tid c v ∧ v.toNat ≤ 1 ∧ quiescent (s.chan c) = false ∧ exec i s = .refused .modeChangeBusy)

/-- No command runs while an interrupt is in service, while a two-step command is between its steps, or from a
thread that has a blocked or half-done call (93_implementation_defined.md U15; 10_state.md R51; 41_blocking_io.md
R150; 20_memory.md R95). Answering with a refusal is the model's form, notes/assumptions/9.md. -/
def Obligations.CommandsNeedAnIdleBlock : Prop :=
  ∀ (s : State) (tid : Tid) (i : Instr), commandTid i = some tid →
    (s.dev.inIsr = true ∨ anyMid s.calls = true ∨ callOf s.calls tid ≠ none) →
    exec i s = .refused .notEnabled

/-- A step gives at most one response; bits 31:24 of its word are zero, and an error carries no count and no
payload (30_encoding.md R104; 60_exceptions.md R250). -/
def Obligations.ErrorsCarryNoCount : Prop :=
  ∀ (i : Instr) (s t : State), exec i s = .next t →
    t.respLog = s.respLog ∨
    ∃ r, t.respLog = s.respLog ++ [r] ∧ r.rw.extractLsb' 24 8 = 0#8 ∧
      (r.rw.extractLsb' 16 8 ≠ 0#8 → r.rw.extractLsb' 0 16 = 0#16 ∧ r.payload = [])

/-- An instruction that names a channel leaves the other channel alone, its rings and its slot storage included
(60_exceptions.md R266: "every other field is per channel"). -/
def Obligations.ChannelsAreIndependent : Prop :=
  ∀ (i : Instr) (c : Chan) (s t : State), Inv s → onChannel i = some c → exec i s = .next t →
    t.chan c.other = s.chan c.other ∧
    ∀ d a, inRing c.other d a = true → memRead t.mem a = memRead s.mem a

/-! ## WRITE -/

/-- `WRITE`, steps 1 and 2. An empty payload is `InvalidParameter`, one longer than the frame size
`FrameTooLarge`, whatever the ring holds. On a full or offline ring, timeout 0 is `QueueFull`; with another
timeout the call blocks: its record is stored, the ring's `waiter` flag set, and there is no response. Nothing
else changes (41_blocking_io.md R151, R157, R158). -/
def Obligations.WriteFailsOrBlocks : Prop :=
  ∀ (s : State) (tid : Tid) (c : Chan) (payload : List Byte), commandEnabled tid s = true →
    let rb := s.ring c .tx
    let fits := payload ≠ [] ∧ payload.length ≤ rb.fsz
    let full := rb.entryCount = rb.cap ∨ rb.online = false
    (payload = [] →
      exec (.write tid c payload) s = .next { s with respLog := s.respLog ++ [⟨tid, 0x00090000#32, []⟩] }) ∧
    (rb.fsz < payload.length →
      exec (.write tid c payload) s = .next { s with respLog := s.respLog ++ [⟨tid, 0x00030000#32, []⟩] }) ∧
    (fits → full → (s.chan c).wrTimeout = 0#32 →
      exec (.write tid c payload) s = .next { s with respLog := s.respLog ++ [⟨tid, 0x00020000#32, []⟩] }) ∧
    (fits → full → (s.chan c).wrTimeout ≠ 0#32 →
      ∃ t, exec (.write tid c payload) s = .next t ∧
        CallIs s t tid (some (.blocked ⟨.write payload, c, (s.chan c).wrTimeout, false⟩)) ∧
        t.chan c = { s.chan c with tx := { (s.chan c).tx with waiter := true } } ∧
        t.chan c.other = s.chan c.other ∧ SameBytes s t ∧ SamePort s t ∧ SameRest s t ∧ t.respLog = s.respLog)

/-- `WRITE`, steps 3 and 4, while the hardware is busy: the payload goes to the tail slot, which is committed, and
the port sees nothing (41_blocking_io.md R151, R152; 40_ring_buffer.md R133, R136). -/
def Obligations.WriteQueuesWhileBusy : Prop :=
  ∀ (s : State) (tid : Tid) (c : Chan) (payload : List Byte), Inv s → commandEnabled tid s = true →
    payload ≠ [] → payload.length ≤ (s.ring c .tx).fsz →
    (s.ring c .tx).entryCount ≠ (s.ring c .tx).cap → (s.ring c .tx).online = true →
    (((s.chan c).mode = .sync ∧ (s.chan c).txReady = false) ∨
      ((s.chan c).mode = .async ∧ (s.chan c).txBufEmpty = false)) →
    ∃ t, exec (.write tid c payload) s = .next t ∧
      t.chan c =
        { s.chan c with
          tx :=
            { (s.chan c).tx with
              slots := (t.chan c).tx.slots
              tail := ((s.chan c).tx.tail + 1) % (s.chan c).tx.cap
              entryCount := (s.chan c).tx.entryCount + 1 } } ∧
      (t.ring c .tx).slot (s.ring c .tx).tail = ⟨.ready, payload.length, 0⟩ ∧
      SameSlotsBut (s.ring c .tx).tail (s.ring c .tx) (t.ring c .tx) ∧
      queued t c .tx = queued s c .tx ++ [payload] ∧
      (∀ a, (a < slotAddr c .tx (s.ring c .tx).tail 0 ∨
          slotAddr c .tx (s.ring c .tx).tail 0 + payload.length ≤ a) → memRead t.mem a = memRead s.mem a) ∧
      Answers s t tid (responseWord payload.length .ok) [] ∧
      t.chan c.other = s.chan c.other ∧ t.calls = s.calls ∧ SamePort s t ∧ SameRest s t

/-- `WRITE` in mode `SYNC` with the controller idle and no frame queued: the frame is burst into the FIFO at once,
the transmitter enabled, the slot freed again and blocked writers woken (41_blocking_io.md R151, R152;
42_sync_engine.md R171). -/
def Obligations.WriteStartsAnIdleSyncTransmitter : Prop :=
  ∀ (s : State) (tid : Tid) (c : Chan) (payload : List Byte), Inv s → commandEnabled tid s = true →
    payload ≠ [] → payload.length ≤ (s.ring c .tx).fsz →
    (s.chan c).mode = .sync → (s.chan c).txReady = true →
    0 < (s.ring c .tx).cap → (s.ring c .tx).entryCount = 0 → (s.ring c .tx).online = true →
    ∃ t, exec (.write tid c payload) s = .next t ∧
      PortGains s t (burstWrites c payload ++ [.write c .ctl ((s.chan c).mirror ||| 0b0010#32)]) ∧
      t.chan c =
        { s.chan c with
          txEnabled := true
          mirror := (s.chan c).mirror ||| 0b0010#32
          txReady := false
          tx :=
            { (s.chan c).tx with
              slots := (t.chan c).tx.slots
              head := ((s.chan c).tx.head + 1) % (s.chan c).tx.cap
              tail := ((s.chan c).tx.tail + 1) % (s.chan c).tx.cap
              waiter := false } } ∧
      ((t.ring c .tx).slot (s.ring c .tx).tail).state = .empty ∧
      ((t.ring c .tx).slot (s.ring c .tx).tail).fill = 0 ∧
      SameSlotsBut (s.ring c .tx).tail (s.ring c .tx) (t.ring c .tx) ∧
      (∀ a, (a < slotAddr c .tx (s.ring c .tx).tail 0 ∨
          slotAddr c .tx (s.ring c .tx).tail 0 + payload.length ≤ a) → memRead t.mem a = memRead s.mem a) ∧
      Answers s t tid (responseWord payload.length .ok) [] ∧
      t.chan c.other = s.chan c.other ∧ t.calls = (wake c .tx s).calls ∧ SameRest s t

/-- `WRITE` in mode `ASYNC` with the transmit buffer empty and no frame queued: the first byte goes out at once;
a frame of one byte is then consumed, a longer one is being sent (41_blocking_io.md R151, R152;
43_async_engine.md R186). -/
def Obligations.WriteStartsAnIdleAsyncTransmitter : Prop :=
  ∀ (s : State) (tid : Tid) (c : Chan) (b : Byte) (more : List Byte), Inv s → commandEnabled tid s = true →
    more.length + 1 ≤ (s.ring c .tx).fsz →
    (s.chan c).mode = .async → (s.chan c).txBufEmpty = true →
    0 < (s.ring c .tx).cap → (s.ring c .tx).entryCount = 0 → (s.ring c .tx).online = true →
    ∃ t, exec (.write tid c (b :: more)) s = .next t ∧
      PortGains s t [.write c .txfifo (b.setWidth 32)] ∧
      t.chan c =
        { s.chan c with
          txActive := !more.isEmpty
          txBufEmpty := false
          tx :=
            { (s.chan c).tx with
              slots := (t.chan c).tx.slots
              head := if more = [] then ((s.chan c).tx.head + 1) % (s.chan c).tx.cap else (s.chan c).tx.head
              tail := ((s.chan c).tx.tail + 1) % (s.chan c).tx.cap
              entryCount := if more = [] then 0 else 1
              waiter := if more = [] then false else (s.chan c).tx.waiter } } ∧
      (more ≠ [] → (t.ring c .tx).slot (s.ring c .tx).tail = ⟨.ready, more.length + 1, 1⟩) ∧
      (more = [] → ((t.ring c .tx).slot (s.ring c .tx).tail).state = .empty ∧
        ((t.ring c .tx).slot (s.ring c .tx).tail).fill = 0) ∧
      SameSlotsBut (s.ring c .tx).tail (s.ring c .tx) (t.ring c .tx) ∧
      unsent t c = more ∧
      (∀ a, (a < slotAddr c .tx (s.ring c .tx).tail 0 ∨
          slotAddr c .tx (s.ring c .tx).tail 0 + (more.length + 1) ≤ a) → memRead t.mem a = memRead s.mem a) ∧
      Answers s t tid (responseWord (more.length + 1) .ok) [] ∧
      t.chan c.other = s.chan c.other ∧ t.calls = (if more = [] then (wake c .tx s).calls else s.calls) ∧
      SameRest s t

/-- The bytes written to `TXFIFO` of a channel are the accepted `WRITE` payloads in order: every instruction but
`CONT` (whose reallocation or reset discards the queue) adds to "sent, then queued" exactly the payload it
accepts, and moves bytes from queued to sent (20_memory.md R92; 40_ring_buffer.md R138). -/
def Obligations.TransmitStreamIsFifo : Prop :=
  ∀ (i : Instr) (s t : State) (c : Chan), Inv s → (∀ tid, i ≠ .cont tid) → exec i s = .next t →
    sentBytes c t.portLog ++ unsent t c = sentBytes c s.portLog ++ unsent s c ++ acceptedBytes i s t c

/-! ## READ -/

/-- `READ`, steps 1 and 2. A pending sticky error is cleared, marked as reported and returned, and the queue is
not touched. With none pending, no frame queued and no partial frame to promote, timeout 0 is `QueueEmpty` and
changes nothing; with another timeout the call blocks (41_blocking_io.md R153, R157, R158; 60_exceptions.md
R255). -/
def Obligations.ReadFailsOrBlocks : Prop :=
  ∀ (s : State) (tid : Tid) (c : Chan) (maxLen : BitVec 16), commandEnabled tid s = true →
    let rb := s.ring c .rx
    let nothing := (s.chan c).stickyErr = none ∧ (rb.entryCount = 0 ∨ rb.online = false) ∧
      ((s.chan c).mode = .sync ∨ rb.online = false ∨ rb.cap = 0 ∨ (rb.slot rb.tail).state ≠ .filling)
    (∀ e, (s.chan c).stickyErr = some e →
      ∃ t, exec (.read tid c maxLen) s = .next t ∧ Answers s t tid (responseWord 0 e) [] ∧
        t.chan c = { s.chan c with stickyErr := none, rx := { (s.chan c).rx with errReported := true } } ∧
        t.chan c.other = s.chan c.other ∧ t.calls = s.calls ∧ SameBytes s t ∧ SamePort s t ∧ SameRest s t) ∧
    (nothing → (s.chan c).rdTimeout = 0#32 →
      exec (.read tid c maxLen) s = .next { s with respLog := s.respLog ++ [⟨tid, 0x00010000#32, []⟩] }) ∧
    (nothing → (s.chan c).rdTimeout ≠ 0#32 →
      ∃ t, exec (.read tid c maxLen) s = .next t ∧
        CallIs s t tid (some (.blocked ⟨.read maxLen.toNat, c, (s.chan c).rdTimeout, false⟩)) ∧
        t.chan c = { s.chan c with rx := { (s.chan c).rx with waiter := true } } ∧
        t.chan c.other = s.chan c.other ∧ SameBytes s t ∧ SamePort s t ∧ SameRest s t ∧ t.respLog = s.respLog)

/-- `READ`, steps 3 and 4, with a frame queued: a frame that fits the caller's buffer is delivered whole and
leaves the queue, `errReported` cleared; one that does not is `FrameTooLarge` and nothing changes
(41_blocking_io.md R153, R155, R156; 40_ring_buffer.md R134, R136). -/
def Obligations.ReadDeliversTheOldestFrame : Prop :=
  ∀ (s : State) (tid : Tid) (c : Chan) (maxLen : BitVec 16) (frame : List Byte) (rest : List (List Byte)),
    Inv s → commandEnabled tid s = true → (s.chan c).stickyErr = none → (s.ring c .rx).online = true →
    queued s c .rx = frame :: rest →
    (frame.length ≤ maxLen.toNat →
      ∃ t, exec (.read tid c maxLen) s = .next t ∧ queued t c .rx = rest ∧
        Answers s t tid (responseWord frame.length .ok) frame ∧
        t.chan c =
          { s.chan c with
            rx :=
              { (s.chan c).rx with
                slots := (t.chan c).rx.slots
                head := ((s.chan c).rx.head + 1) % (s.chan c).rx.cap
                entryCount := (s.chan c).rx.entryCount - 1
                errReported := false } } ∧
        ((t.ring c .rx).slot (s.ring c .rx).head).state = .empty ∧
        ((t.ring c .rx).slot (s.ring c .rx).head).fill = 0 ∧
        SameSlotsBut (s.ring c .rx).head (s.ring c .rx) (t.ring c .rx) ∧
        t.chan c.other = s.chan c.other ∧ t.calls = s.calls ∧ SameBytes s t ∧ SamePort s t ∧ SameRest s t) ∧
    (maxLen.toNat < frame.length →
      exec (.read tid c maxLen) s = .next { s with respLog := s.respLog ++ [⟨tid, 0x00030000#32, []⟩] })

/-- `READ`, step 2, first branch, in mode `ASYNC`: with no frame queued the partial frame is promoted; it is
delivered if it fits the buffer and else stays queued. No signal, no wake (41_blocking_io.md R154). -/
def Obligations.ReadFlushesThePartialFrame : Prop :=
  ∀ (s : State) (tid : Tid) (c : Chan) (maxLen : BitVec 16), Inv s → commandEnabled tid s = true →
    (s.chan c).stickyErr = none → (s.chan c).mode = .async → (s.ring c .rx).online = true →
    0 < (s.ring c .rx).cap → (s.ring c .rx).entryCount = 0 →
    ((s.ring c .rx).slot (s.ring c .rx).tail).state = .filling →
    let fill := ((s.ring c .rx).slot (s.ring c .rx).tail).fill
    let frame := loadBytes s.mem (slotAddr c .rx (s.ring c .rx).tail 0) fill
    ∃ t, exec (.read tid c maxLen) s = .next t ∧
      (fill ≤ maxLen.toNat → Answers s t tid (responseWord fill .ok) frame ∧ queued t c .rx = []) ∧
      (maxLen.toNat < fill → Answers s t tid 0x00030000#32 [] ∧ queued t c .rx = [frame]) ∧
      t.chan c =
        { s.chan c with
          rx :=
            { (s.chan c).rx with
              slots := (t.chan c).rx.slots
              head :=
                if fill ≤ maxLen.toNat then ((s.chan c).rx.head + 1) % (s.chan c).rx.cap else (s.chan c).rx.head
              tail := ((s.chan c).rx.tail + 1) % (s.chan c).rx.cap
              entryCount := if fill ≤ maxLen.toNat then 0 else 1
              errReported := if fill ≤ maxLen.toNat then false else (s.chan c).rx.errReported } } ∧
      SameSlotsBut (s.ring c .rx).tail (s.ring c .rx) (t.ring c .rx) ∧
      t.chan c.other = s.chan c.other ∧ t.calls = s.calls ∧ SameBytes s t ∧ SamePort s t ∧ SameRest s t

/-! ## Waiting -/

/-- `Wake(rb)`: with the flag set it clears the flag and sets `woken` on every record that waits on the ring, and
on no other; with the flag clear it does nothing; it never touches anything else (41_blocking_io.md R160). -/
def Obligations.WakeSignalsEveryWaiter : Prop :=
  ∀ (s : State) (c : Chan) (d : Dir),
    ((s.ring c d).waiter = false → wake c d s = s) ∧
    ((s.ring c d).waiter = true →
      (wake c d s).ring c d = { s.ring c d with waiter := false } ∧
      anyAsleep (wake c d s).calls c d = false ∧
      (∀ tid k, callOf s.calls tid = some k →
        callOf (wake c d s).calls tid =
          some (match k with
            | .blocked b => if b.ch = c ∧ b.dir = d then .blocked { b with woken := true } else k
            | .mid _ _ => k)) ∧
      (∀ tid, callOf s.calls tid = none → callOf (wake c d s).calls tid = none) ∧
      SameBytes s (wake c d s) ∧ SamePort s (wake c d s) ∧ SameRest s (wake c d s) ∧
      (wake c d s).respLog = s.respLog ∧
      (∀ c' d', (c', d') ≠ (c, d) → (wake c d s).ring c' d' = s.ring c' d') ∧
      (∀ c', (wake c d s).chan c' =
        { s.chan c' with tx := ((wake c d s).chan c').tx, rx := ((wake c d s).chan c').rx }))

/-- `RESUME` removes the record and runs the command again from its step 1, whether or not the record was woken
(41_blocking_io.md R161, R159). -/
def Obligations.ResumeRunsTheCommandAgain : Prop :=
  ∀ (s : State) (tid : Tid) (b : Blocked), callersFree s = true → callOf s.calls tid = some (.blocked b) →
    (∀ payload, b.op = .write payload →
      exec (.resume tid) s = exec (.write tid b.ch payload) (leave tid b s)) ∧
    (∀ maxLen, b.op = .read maxLen → maxLen < 65536 →
      exec (.resume tid) s = exec (.read tid b.ch (BitVec.ofNat 16 maxLen)) (leave tid b s))

/-- `RESUME` completes wherever it is enabled, with a response or with the thread blocked again on the same ring
(41_blocking_io.md R161). -/
def Obligations.ResumeCompletes : Prop :=
  ∀ (s : State) (tid : Tid) (b : Blocked), Inv s → callersFree s = true →
    callOf s.calls tid = some (.blocked b) →
    ∃ t, exec (.resume tid) s = .next t ∧
      ((callOf t.calls tid = none ∧ ∃ r, r.tid = tid ∧ t.respLog = s.respLog ++ [r]) ∨
       (t.respLog = s.respLog ∧
        ∃ b', callOf t.calls tid = some (.blocked b') ∧ b'.op = b.op ∧ b'.ch = b.ch ∧ b'.woken = false))

/-- `TIMEOUT` and `ABORT`: enabled for a blocked call (`TIMEOUT`: with a positive timeout), no interrupt in service
and no two-step command between its steps, and not otherwise; the record is removed, the ring's `waiter` flag
recomputed, the response is `Timeout` or `Interrupted`, and the queue is left as it is (41_blocking_io.md R162,
R163, R159). -/
def Obligations.TimeoutAndAbortEndAWait : Prop :=
  ∀ (s : State) (tid : Tid) (i : Instr) (mayFire : Blocked → Prop) (rw : Word),
    ((i = .timeout tid ∧ rw = 0x000A0000#32 ∧ mayFire = fun b => 0 < b.tmo.toInt) ∨
      (i = .abort tid ∧ rw = 0x000B0000#32 ∧ mayFire = fun _ => True)) →
    (∀ b, s.dev.inIsr = false → anyMid s.calls = false → callOf s.calls tid = some (.blocked b) → mayFire b →
      ∃ t, exec i s = .next t ∧ Answers s t tid rw [] ∧ CallIs s t tid none ∧
        t.ring b.ch b.dir = { s.ring b.ch b.dir with waiter := anyAsleep t.calls b.ch b.dir } ∧
        (∀ c d, (c, d) ≠ (b.ch, b.dir) → t.ring c d = s.ring c d) ∧
        (∀ c, t.chan c = { s.chan c with tx := (t.chan c).tx, rx := (t.chan c).rx }) ∧
        SameBytes s t ∧ SamePort s t ∧ SameRest s t) ∧
    ((s.dev.inIsr = true ∨ anyMid s.calls = true ∨
        ¬ ∃ b, callOf s.calls tid = some (.blocked b) ∧ mayFire b) →
      ∀ t, exec i s ≠ .next t)

/-! ## CONFIGURE -/

/-- `CFG.MODE`: an illegal value is `InvalidParameter`; the current mode is `OK` with no change and no port
access; another mode on a quiescent channel is written to `CTL`, mirror and mode, and the four bookkeeping
fields are as after initialization; on a busy channel the command is refused (45_config_control.md R217,
R218). -/
def Obligations.CfgModeSetsTheMode : Prop :=
  ∀ (s : State) (tid : Tid) (c : Chan), commandEnabled tid s = true →
    (∀ v, 1 < v.toNat →
      exec (.cfgMode tid c v) s = .next { s with respLog := s.respLog ++ [⟨tid, 0x00090000#32, []⟩] }) ∧
    (∀ async : Bool, ((s.chan c).mode = if async then .async else .sync) →
      exec (.cfgMode tid c (if async then 1#32 else 0#32)) s =
        .next { s with respLog := s.respLog ++ [⟨tid, 0x00000000#32, []⟩] }) ∧
    (∀ async : Bool, ((s.chan c).mode ≠ if async then .async else .sync) →
      ((s.ring c .tx).entryCount = 0 ∧ (s.ring c .rx).entryCount = 0 ∧ (s.chan c).txActive = false ∧
        ((s.ring c .rx).cap = 0 ∨ ((s.ring c .rx).slot (s.ring c .rx).tail).state ≠ .filling)) →
      let ctl := ((s.chan c).mirror &&& ~~~8#32) ||| (if async then 8#32 else 0#32)
      ∃ t, exec (.cfgMode tid c (if async then 1#32 else 0#32)) s = .next t ∧
        t.chan c =
          { s.chan c with
            mode := if async then .async else .sync
            mirror := ctl
            txReady := true
            txBufEmpty := true
            txActive := false
            qfullCount := 0 } ∧
        PortGains s t [.write c .ctl ctl] ∧ Answers s t tid 0x00000000#32 [] ∧
        t.chan c.other = s.chan c.other ∧ t.calls = s.calls ∧ SameBytes s t ∧ SameRest s t) ∧
    (∀ async : Bool, ((s.chan c).mode ≠ if async then .async else .sync) →
      ¬ ((s.ring c .tx).entryCount = 0 ∧ (s.ring c .rx).entryCount = 0 ∧ (s.chan c).txActive = false ∧
        ((s.ring c .rx).cap = 0 ∨ ((s.ring c .rx).slot (s.ring c .rx).tail).state ≠ .filling)) →
      exec (.cfgMode tid c (if async then 1#32 else 0#32)) s = .refused .modeChangeBusy)

/-- `CFG.RDTMO`, `CFG.WRTMO`, `CFG.WMARK`: a timeout is read as signed and may not be below -1, a watermark may not
be above 65535; an illegal value is `InvalidParameter` and changes nothing; a legal one is stored, in both modes,
and a blocked call keeps the timeout it blocked with (45_config_control.md R223 to R225). -/
def Obligations.CfgTimeoutsAndWatermark : Prop :=
  ∀ (s : State) (tid : Tid) (c : Chan) (v : Word) (i : Instr) (legal : Prop) (x : Channel),
    commandEnabled tid s = true →
    ((i = .cfgRdTmo tid c v ∧ (legal ↔ -1 ≤ v.toInt) ∧ x = { s.chan c with rdTimeout := v }) ∨
      (i = .cfgWrTmo tid c v ∧ (legal ↔ -1 ≤ v.toInt) ∧ x = { s.chan c with wrTimeout := v }) ∨
      (i = .cfgWMark tid c v ∧ (legal ↔ v.toNat ≤ 65535) ∧ x = { s.chan c with watermark := v.toNat })) →
    (¬ legal → exec i s = .next { s with respLog := s.respLog ++ [⟨tid, 0x00090000#32, []⟩] }) ∧
    (legal →
      ∃ t, exec i s = .next t ∧ t.chan c = x ∧ Answers s t tid 0x00000000#32 [] ∧
        t.chan c.other = s.chan c.other ∧ t.calls = s.calls ∧ SameBytes s t ∧ SamePort s t ∧ SameRest s t)

/-- `CFG.RXEN` and `CFG.TXEN`: an illegal value is `InvalidParameter`; an enable without both interrupt enables is
`InterruptsDisabled`; else the flag, its mirror bit and `CTL` are written, also when the flag already has the
value; the rings, the sticky error and the bookkeeping are kept (45_config_control.md R226, R227). -/
def Obligations.CfgRxEnAndTxEnSetTheEnables : Prop :=
  ∀ (s : State) (tid : Tid) (c : Chan) (op : Word → Instr) (mask : Word) (set : Bool → Channel → Channel),
    commandEnabled tid s = true →
    ((op = .cfgRxEn tid c ∧ mask = 1#32 ∧ set = fun on x => { x with rxEnabled := on }) ∨
      (op = .cfgTxEn tid c ∧ mask = 2#32 ∧ set = fun on x => { x with txEnabled := on })) →
    (∀ v, 1 < v.toNat → exec (op v) s = .next { s with respLog := s.respLog ++ [⟨tid, 0x00090000#32, []⟩] }) ∧
    (¬ (s.dev.irqEnable = true ∧ (s.chan c).irqEnabled = true) →
      exec (op 1#32) s = .next { s with respLog := s.respLog ++ [⟨tid, 0x00080000#32, []⟩] }) ∧
    (∀ on : Bool, (on = true → s.dev.irqEnable = true ∧ (s.chan c).irqEnabled = true) →
      let ctl := ((s.chan c).mirror &&& ~~~mask) ||| (if on then mask else 0#32)
      ∃ t, exec (op (if on then 1#32 else 0#32)) s = .next t ∧
        t.chan c = { set on (s.chan c) with mirror := ctl } ∧
        PortGains s t [.write c .ctl ctl] ∧ Answers s t tid 0x00000000#32 [] ∧
        t.chan c.other = s.chan c.other ∧ t.calls = s.calls ∧ SameBytes s t ∧ SameRest s t)

/-- `CFG.IRQEN` writes the channel's interrupt flag, its mirror bit and `CTL`, and keeps the other enables;
`CFG.GIRQEN` writes the device's flag, whatever the channel field, with no port access; an illegal value of
either is `InvalidParameter` and changes nothing (45_config_control.md R228, R229). -/
def Obligations.CfgIrqEnAndGIrqEnSetTheEnables : Prop :=
  ∀ (s : State) (tid : Tid) (c : Chan), commandEnabled tid s = true →
    (∀ v, 1 < v.toNat →
      exec (.cfgIrqEn tid c v) s = .next { s with respLog := s.respLog ++ [⟨tid, 0x00090000#32, []⟩] } ∧
      exec (.cfgGIrqEn tid c v) s = .next { s with respLog := s.respLog ++ [⟨tid, 0x00090000#32, []⟩] }) ∧
    (∀ on : Bool,
      let ctl := ((s.chan c).mirror &&& ~~~4#32) ||| (if on then 4#32 else 0#32)
      ∃ t, exec (.cfgIrqEn tid c (if on then 1#32 else 0#32)) s = .next t ∧
        t.chan c = { s.chan c with irqEnabled := on, mirror := ctl } ∧
        PortGains s t [.write c .ctl ctl] ∧ Answers s t tid 0x00000000#32 [] ∧
        t.chan c.other = s.chan c.other ∧ t.calls = s.calls ∧ SameBytes s t ∧ SameRest s t) ∧
    (∀ on : Bool,
      exec (.cfgGIrqEn tid c (if on then 1#32 else 0#32)) s =
        .next
          { s with
            dev := { s.dev with irqEnable := on }
            respLog := s.respLog ++ [⟨tid, 0x00000000#32, []⟩] })

/-- The four size and count parameters, first step: a value outside 1 to 65535 is `InvalidParameter` and changes
nothing; else the ring goes offline, a half-sent frame is given up (Tx), the thread is `Mid` with the command's
words, and there is no response yet (40_ring_buffer.md R132; 45_config_control.md R219 to R222). -/
def Obligations.ReallocationTakesTheRingOffline : Prop :=
  ∀ (s : State) (tid : Tid) (c : Chan) (v : Word) (sel : BitVec 8) (d : Dir) (i : Instr),
    commandEnabled tid s = true →
    (i, sel, d) ∈
      [(.cfgTxSize tid c v, 1#8, .tx), (.cfgTxNum tid c v, 2#8, .tx), (.cfgRxSize tid c v, 3#8, .rx),
        (.cfgRxNum tid c v, 4#8, .rx)] →
    ((v.toNat < 1 ∨ 65535 < v.toNat) →
      exec i s = .next { s with respLog := s.respLog ++ [⟨tid, 0x00090000#32, []⟩] }) ∧
    (1 ≤ v.toNat → v.toNat ≤ 65535 →
      ∃ t, exec i s = .next t ∧
        t.ring c d = { s.ring c d with online := false } ∧
        (∀ d', d' ≠ d → t.ring c d' = s.ring c d') ∧
        t.chan c =
          { s.chan c with
            txActive := if d = .tx then false else (s.chan c).txActive
            tx := (t.chan c).tx
            rx := (t.chan c).rx } ∧
        CallIs s t tid (some (.mid (commandWord 3 c sel 0) (some v))) ∧
        t.respLog = s.respLog ∧ t.chan c.other = s.chan c.other ∧ SameBytes s t ∧ SamePort s t ∧ SameRest s t)

/-- `CONT` of a size or count parameter, for every predicate `allocOK` (by default, the product fits the pool): the
ring is reallocated and emptied, or left with no slots when storage is not obtained; it is back online, its waiters are
woken, the thread is `Idle`, the response is `OK` or `OutOfMemory` (40_ring_buffer.md R131, R132; 45_config_control.md
R219 to R222; 00_scope.md R14). -/
def Obligations.ContFinishesAReallocation : Prop :=
  ∀ (s : State) (tid : Tid) (c : Chan) (v : Word) (sel : BitVec 8) (d : Dir) (num size : Nat),
    s.dev.inIsr = false →
    (sel, d, num, size) ∈
      [(1#8, .tx, (s.ring c .tx).cap, v.toNat), (2#8, .tx, v.toNat, (s.ring c .tx).fsz),
        (3#8, .rx, (s.ring c .rx).cap, v.toNat), (4#8, .rx, v.toNat, (s.ring c .rx).fsz)] →
    callOf s.calls tid = some (.mid (commandWord 3 c sel 0) (some v)) →
    let obtained := allocOk s.params.alloc num size
    ∃ t, exec (.cont tid) s = .next t ∧
      (∀ bytes, s.params.alloc = .pool bytes → (obtained = true ↔ num * size ≤ bytes)) ∧
      (∀ pairs, s.params.alloc = .listed pairs → (obtained = true ↔ (num, size) ∈ pairs)) ∧
      RingAllocated obtained num size (t.ring c d) ∧
      (t.ring c d).online = true ∧ (t.ring c d).waiter = false ∧
      (∀ d', d' ≠ d → t.ring c d' = s.ring c d') ∧
      t.chan c = { s.chan c with tx := (t.chan c).tx, rx := (t.chan c).rx } ∧
      t.chan c.other = s.chan c.other ∧
      callOf t.calls tid = none ∧ (∀ u, u ≠ tid → callOf t.calls u = callOf (wake c d s).calls u) ∧
      Answers s t tid (if obtained then 0x00000000#32 else 0x00070000#32) [] ∧
      (∀ a, inRing c d a = false → memRead t.mem a = memRead s.mem a) ∧ SamePort s t ∧ SameRest s t

/-! ## Notification -/

/-- `NOTIFY.INSTALL` stores the handle, any 32-bit value, where the channel has none, and `NOTIFY.REMOVE` clears it
where the channel has one; otherwise they answer `InvalidParameter` and change nothing. Neither raises a signal
(45_config_control.md R231, R232). -/
def Obligations.NotifyStoresAndClearsTheHandle : Prop :=
  ∀ (s : State) (tid : Tid) (c : Chan) (handle : Word) (i : Instr) (before after : Option Word),
    commandEnabled tid s = true →
    ((i = .notifyInstall tid c handle ∧ before = none ∧ after = some handle) ∨
      (i = .notifyRemove tid c ∧ before = some handle ∧ after = none)) →
    ((s.chan c).sigHandle.isSome ≠ before.isSome →
      exec i s = .next { s with respLog := s.respLog ++ [⟨tid, 0x00090000#32, []⟩] }) ∧
    ((s.chan c).sigHandle.isSome = before.isSome →
      ∃ t, exec i s = .next t ∧ t.chan c = { s.chan c with sigHandle := after } ∧
        Answers s t tid 0x00000000#32 [] ∧ t.chan c.other = s.chan c.other ∧ t.calls = s.calls ∧
        SameBytes s t ∧ SamePort s t ∧ SameRest s t)

/-! ## RESET -/

/-- `RESET`, first step: `CHRESET`, both rings of the channel offline, the enables off in flag, mirror and `CTL`,
the bookkeeping as after initialization, the sticky error kept unless the parameter says otherwise, the thread
`Mid`; `RESET.DEVICE` does it to channel 0, then to channel 1 (45_config_control.md R234 to R237). -/
def Obligations.ResetTakesTheChannelOffline : Prop :=
  ∀ (s : State) (tid : Tid) (c : Chan), commandEnabled tid s = true →
    (∃ t, exec (.resetChannel tid c) s = .next t ∧
      t.chan c = resetHalf s.params.resetClearsSticky (s.chan c) ∧ t.chan c.other = s.chan c.other ∧
      PortGains s t (resetEvents c (s.chan c)) ∧ CallIs s t tid (some (.mid (commandWord 6 c 0 0) none)) ∧
      t.respLog = s.respLog ∧ SameBytes s t ∧ SameRest s t) ∧
    (∃ t, exec (.resetDevice tid c) s = .next t ∧
      (∀ c', t.chan c' = resetHalf s.params.resetClearsSticky (s.chan c')) ∧
      PortGains s t (resetEvents .ch0 s.ch0 ++ resetEvents .ch1 s.ch1) ∧
      CallIs s t tid (some (.mid (commandWord 6 c 1 0) none)) ∧
      t.respLog = s.respLog ∧ SameBytes s t ∧ SameRest s t)

/-- `CONT` of a `RESET`: both rings of the channel, or of both channels, are emptied and back online, their
capacity, frame size and storage kept, their waiters woken, the thread is `Idle`, the response is `OK`
(45_config_control.md R234, R235, R237; 40_ring_buffer.md R135). -/
def Obligations.ContFinishesAReset : Prop :=
  ∀ (s : State) (tid : Tid) (c : Chan), s.dev.inIsr = false →
    (callOf s.calls tid = some (.mid (commandWord 6 c 0 0) none) →
      ∃ t, exec (.cont tid) s = .next t ∧
        (∀ d, RingCleared (s.ring c d) (t.ring c d)) ∧
        t.chan c = { s.chan c with tx := (t.chan c).tx, rx := (t.chan c).rx } ∧
        t.chan c.other = s.chan c.other ∧
        callOf t.calls tid = none ∧
        (∀ u, u ≠ tid → callOf t.calls u = callOf (wake c .rx (wake c .tx s)).calls u) ∧
        Answers s t tid 0x00000000#32 [] ∧ SameBytes s t ∧ SamePort s t ∧ SameRest s t) ∧
    (callOf s.calls tid = some (.mid (commandWord 6 c 1 0) none) →
      ∃ t, exec (.cont tid) s = .next t ∧
        (∀ c' d, RingCleared (s.ring c' d) (t.ring c' d)) ∧
        (∀ c', t.chan c' = { s.chan c' with tx := (t.chan c').tx, rx := (t.chan c').rx }) ∧
        callOf t.calls tid = none ∧
        (∀ u, u ≠ tid → callOf t.calls u =
          callOf (wake .ch1 .rx (wake .ch1 .tx (wake .ch0 .rx (wake .ch0 .tx s)))).calls u) ∧
        Answers s t tid 0x00000000#32 [] ∧ SameBytes s t ∧ SamePort s t ∧ SameRest s t)

/-- `CONT` is enabled exactly when its thread is `Mid` and no interrupt is in service, and completes wherever it is
(10_state.md R51). -/
def Obligations.ContNeedsAMidThread : Prop :=
  ∀ (s : State) (tid : Tid), Inv s →
    ((∃ t, exec (.cont tid) s = .next t) ↔
      s.dev.inIsr = false ∧ ∃ cw w1, callOf s.calls tid = some (.mid cw w1))

/-! ## The interrupt context -/

/-- `IRQ`, entry and end: not enabled with no interrupt in service and the device's enable off (the refusal is
the model's, notes/assumptions/9.md). With no cause pending on either channel the iteration reads both `IP` and
ends the interrupt: `inIsr` is cleared, a handled interrupt is counted modulo 2^32 with result `HANDLED`, one
that has serviced nothing has result `NOT_MINE`; nothing else changes (44_isr_dispatcher.md R200, R201, R204). -/
def Obligations.IrqEntersAndEnds : Prop :=
  ∀ s : State,
    (s.dev.inIsr = false → s.dev.irqEnable = false → exec .irq s = .refused .notEnabled) ∧
    ((s.dev.inIsr = true ∨ s.dev.irqEnable = true) → s.key = none →
      let v0 := portAnswer .ch0 .ip s
      let v1 := portAnswer .ch1 .ip (regRead .ch0 .ip s)
      v0.extractLsb' 0 3 = 0#3 → v1.extractLsb' 0 3 = 0#3 →
      let handled := s.dev.inIsr && s.dev.isrHandled
      ∃ t, exec .irq s = .next t ∧
        t.dev =
          { s.dev with
            inIsr := false
            isrHandled := handled
            irqCount := if handled then s.dev.irqCount + 1#32 else s.dev.irqCount } ∧
        t.irqLog = s.irqLog ++ [if handled then .handled else .notMine] ∧
        PortGains s t [.read .ch0 .ip v0, .read .ch1 .ip v1] ∧
        t.ch0 = s.ch0 ∧ t.ch1 = s.ch1 ∧ t.calls = s.calls ∧ SameBytes s t ∧ t.sigLog = s.sigLog ∧
        t.respLog = s.respLog ∧ t.key = none ∧ t.schedule = s.schedule ∧ t.params = s.params)

/-- `IRQ`, dispatch: the first pending cause in the order channel 0, channel 1 is served, in one step: the
iteration reads `IP` of channel 0, and of channel 1 only if channel 0 shows nothing, sets `isrHandled`, and runs
the service that the key `MODE ++ IP[2:0]` decodes to (44_isr_dispatcher.md R201 to R203). -/
def Obligations.IrqDispatchesTheFirstCause : Prop :=
  ∀ (s : State) (i : Instr), (s.dev.inIsr = true ∨ s.dev.irqEnable = true) → s.key = none →
    let s0 := { regRead .ch0 .ip s with dev := { s.dev with inIsr := true, isrHandled := true } }
    let s1 := { regRead .ch1 .ip (regRead .ch0 .ip s) with
                dev := { s.dev with inIsr := true, isrHandled := true } }
    let ip0 := (portAnswer .ch0 .ip s).extractLsb' 0 3
    let ip1 := (portAnswer .ch1 .ip (regRead .ch0 .ip s)).extractLsb' 0 3
    (ip0 ≠ 0#3 → decodeKey .ch0 (dispatchKey s.ch0.mode ip0) = .ok i → exec .irq s = exec i s0) ∧
    (ip0 = 0#3 → ip1 ≠ 0#3 → decodeKey .ch1 (dispatchKey s.ch1.mode ip1) = .ok i → exec .irq s = exec i s1)

/-- Every interrupt step completes where it is enabled: `IRQ` with an interrupt in service or the device's enable
set, and each service inside the interrupt context on a channel of its mode (44_isr_dispatcher.md R200, R209: "The
interrupt context never blocks"; notes/assumptions/7.md, 14.md). A state with an interrupt in service is never final,
and the interrupt goes on while the scan sees a cause or a service is in progress (R207; taking the next `IRQ`
without a delivery is the model's form, notes/assumptions/3.md). -/
def Obligations.InterruptStepsComplete : Prop :=
  ∀ (s : State) (c : Chan) (tx ext : Bool), Inv s →
    ((s.dev.inIsr = true ∨ s.dev.irqEnable = true) → ∃ t, exec .irq s = .next t) ∧
    (s.dev.inIsr = true → (s.chan c).mode = .sync →
      (∃ t, exec (.svcRxSync c tx ext) s = .next t) ∧ (∃ t, exec (.svcTxSync c ext) s = .next t) ∧
      (∃ t, exec (.svcExt c false) s = .next t)) ∧
    (s.dev.inIsr = true → (s.chan c).mode = .async →
      (∃ t, exec (.svcRxAsync c tx ext) s = .next t) ∧ (∃ t, exec (.svcTxAsync c ext) s = .next t) ∧
      (∃ t, exec (.svcExt c true) s = .next t)) ∧
    (s.dev.inIsr = true → (s.key ≠ none ∨ ∀ c' e rest, s.schedule ≠ .env c' e :: rest) → ∃ t, step s = .next t) ∧
    (s.dev.inIsr = true → (s.key ≠ none ∨ CausePending s) → ∀ t, exec .irq s = .next t → t.dev.inIsr = true)

/-- `SVC.EXT`: `ES` is read; with `BRK` set `BreakAbort` is posted: the sticky slot holds it, a blocked reader is
woken and the signal raised; `ACK_EXT` is the last port access. A partial frame and the queues are kept
(44_isr_dispatcher.md R208; 60_exceptions.md R253). -/
def Obligations.SvcExtPostsTheBreak : Prop :=
  ∀ (s : State) (c : Chan) (async : Bool), s.dev.inIsr = true →
    ((s.chan c).mode = if async then .async else .sync) →
    let es := portAnswer c .es s
    let brk := es.getLsbD 0
    ∃ t, exec (.svcExt c async) s = .next t ∧
      t.chan c =
        { s.chan c with
          stickyErr := if brk then some .breakAbort else (s.chan c).stickyErr
          rx := { (s.chan c).rx with waiter := if brk then false else (s.chan c).rx.waiter } } ∧
      PortGains s t [.read c .es es, .write c .cmd 3#32] ∧
      t.sigLog = s.sigLog ++ (if brk then signalOf (s.chan c) else []) ∧
      t.calls = (if brk then (wake c .rx s).calls else s.calls) ∧
      t.chan c.other = s.chan c.other ∧ SameBytes s t ∧ Served s t

/-- `SVC.TX.SYNC`: with no frame available it marks the transmitter ready and acknowledges; else it bursts the
head frame, enables transmission, frees the slot, wakes blocked writers, and acknowledges last
(42_sync_engine.md R171, R172). -/
def Obligations.SvcTxSyncBurstsOneFrame : Prop :=
  ∀ (s : State) (c : Chan) (ext : Bool), s.dev.inIsr = true → (s.chan c).mode = .sync →
    (((s.ring c .tx).online = false ∨ (s.ring c .tx).entryCount = 0) →
      ∃ t, exec (.svcTxSync c ext) s = .next t ∧ t.chan c = { s.chan c with txReady := true } ∧
        PortGains s t [.write c .cmd 2#32] ∧ t.sigLog = s.sigLog ∧ t.calls = s.calls ∧
        t.chan c.other = s.chan c.other ∧ SameBytes s t ∧ Served s t) ∧
    (∀ frame rest, Inv s → (s.ring c .tx).online = true → queued s c .tx = frame :: rest →
      ∃ t, exec (.svcTxSync c ext) s = .next t ∧ queued t c .tx = rest ∧
        PortGains s t
          (burstWrites c frame ++
            [.write c .ctl ((s.chan c).mirror ||| 0b0010#32), .write c .cmd 2#32]) ∧
        t.chan c =
          { s.chan c with
            txEnabled := true
            mirror := (s.chan c).mirror ||| 0b0010#32
            txReady := false
            tx :=
              { (s.chan c).tx with
                slots := (t.chan c).tx.slots
                head := ((s.chan c).tx.head + 1) % (s.chan c).tx.cap
                entryCount := (s.chan c).tx.entryCount - 1
                waiter := false } } ∧
        ((t.ring c .tx).slot (s.ring c .tx).head).state = .empty ∧
        ((t.ring c .tx).slot (s.ring c .tx).head).fill = 0 ∧
        SameSlotsBut (s.ring c .tx).head (s.ring c .tx) (t.ring c .tx) ∧
        t.sigLog = s.sigLog ∧ t.calls = (wake c .tx s).calls ∧
        t.chan c.other = s.chan c.other ∧ SameBytes s t ∧ Served s t)

/-- `SVC.TX.ASYNC`: with nothing to send it marks the buffer empty; else it writes the next byte of the frame
being sent, or the first of the head frame; the last byte of a frame frees its slot and wakes blocked writers;
the acknowledge is last (43_async_engine.md R186, R187). -/
def Obligations.SvcTxAsyncSendsOneByte : Prop :=
  ∀ (s : State) (c : Chan) (ext : Bool), Inv s → s.dev.inIsr = true → (s.chan c).mode = .async →
    (((s.ring c .tx).online = false ∨ (s.ring c .tx).entryCount = 0) →
      ∃ t, exec (.svcTxAsync c ext) s = .next t ∧ t.chan c = { s.chan c with txBufEmpty := true } ∧
        PortGains s t [.write c .cmd 2#32] ∧ t.sigLog = s.sigLog ∧ t.calls = s.calls ∧
        t.chan c.other = s.chan c.other ∧ SameBytes s t ∧ Served s t) ∧
    ((s.ring c .tx).online = true → 0 < (s.ring c .tx).entryCount →
      let x := (s.ring c .tx).slot (s.ring c .tx).head
      let b := memRead s.mem (slotAddr c .tx (s.ring c .tx).head x.fill)
      ∃ t, exec (.svcTxAsync c ext) s = .next t ∧
        PortGains s t [.write c .txfifo (b.setWidth 32), .write c .cmd 2#32] ∧
        unsent s c = b :: unsent t c ∧
        (x.fill + 1 ≠ x.len →
          t.chan c =
            { s.chan c with
              txActive := true
              txBufEmpty := false
              tx :=
                { (s.chan c).tx with
                  slots := (s.chan c).tx.slots.set (s.chan c).tx.head { x with fill := x.fill + 1 } } } ∧
          t.calls = s.calls) ∧
        (x.fill + 1 = x.len →
          t.chan c =
            { s.chan c with
              txActive := false
              txBufEmpty := false
              tx :=
                { (s.chan c).tx with
                  slots := (t.chan c).tx.slots
                  head := ((s.chan c).tx.head + 1) % (s.chan c).tx.cap
                  entryCount := (s.chan c).tx.entryCount - 1
                  waiter := false } } ∧
          ((t.ring c .tx).slot (s.ring c .tx).head).state = .empty ∧
          ((t.ring c .tx).slot (s.ring c .tx).head).fill = 0 ∧
          SameSlotsBut (s.ring c .tx).head (s.ring c .tx) (t.ring c .tx) ∧
          t.calls = (wake c .tx s).calls) ∧
        t.sigLog = s.sigLog ∧ t.chan c.other = s.chan c.other ∧ SameBytes s t ∧ Served s t)

/-- A receive service that finds nothing to do reads `RS` once and acknowledges, and leaves the failure counter as
it is. One that finds work and a full (or offline) ring: the failure counter goes up by one, and at the
threshold the receiver is disabled in flag, mirror and `CTL`, the counter returns to 0 and `Overrun` is posted;
the work stays in the controller, the queued frames are kept, the acknowledge is last (42_sync_engine.md R174,
R175; 43_async_engine.md R190). -/
def Obligations.RxServiceWithoutWorkOrRoom : Prop :=
  ∀ (s : State) (c : Chan) (m : Mode) (tx ext : Bool), s.dev.inIsr = true → (s.chan c).mode = m →
    1 ≤ s.params.passBudget →
    let rs := portAnswer c .rs s
    let ctl := (s.chan c).mirror &&& ~~~1#32
    let stuck := rsWaiting m rs = true ∧
      ((s.ring c .rx).entryCount = (s.ring c .rx).cap ∨ (s.ring c .rx).online = false)
    (rsIdle m rs = true →
      ∃ t, exec (rxServiceOf m c tx ext) s = .next t ∧
        PortGains s t [.read c .rs rs, .write c .cmd 1#32] ∧
        t.chan c = s.chan c ∧ t.chan c.other = s.chan c.other ∧ t.sigLog = s.sigLog ∧ t.calls = s.calls ∧
        SameBytes s t ∧ Served s t) ∧
    (stuck → (s.chan c).qfullCount + 1 < s.params.qfullThreshold →
      ∃ t, exec (rxServiceOf m c tx ext) s = .next t ∧
        PortGains s t [.read c .rs rs, .write c .cmd 1#32] ∧
        t.chan c = { s.chan c with qfullCount := (s.chan c).qfullCount + 1 } ∧
        t.chan c.other = s.chan c.other ∧ t.sigLog = s.sigLog ∧ t.calls = s.calls ∧ SameBytes s t ∧ Served s t) ∧
    (stuck → s.params.qfullThreshold ≤ (s.chan c).qfullCount + 1 →
      ∃ t, exec (rxServiceOf m c tx ext) s = .next t ∧
        PortGains s t [.read c .rs rs, .write c .ctl ctl, .write c .cmd 1#32] ∧
        t.chan c =
          { s.chan c with
            rxEnabled := false
            mirror := ctl
            qfullCount := 0
            stickyErr := some .overrun
            rx := { (s.chan c).rx with waiter := false } } ∧
        t.chan c.other = s.chan c.other ∧ t.sigLog = s.sigLog ++ signalOf (s.chan c) ∧
        t.calls = (wake c .rx s).calls ∧ SameBytes s t ∧ Served s t)

/-- `SVC.RX.SYNC` with one good entry of `n` bytes that fits, then an empty status FIFO: exactly `n` bytes are
read and become the newest queued frame, the reader is told, the counter is 0, the acknowledge is last
(42_sync_engine.md R173, R177; 60_exceptions.md R261). -/
def Obligations.SvcRxSyncStoresAFrame : Prop :=
  ∀ (s : State) (c : Chan) (tx ext : Bool), Inv s → s.dev.inIsr = true → (s.chan c).mode = .sync →
    2 ≤ s.params.passBudget →
    (s.ring c .rx).entryCount ≠ (s.ring c .rx).cap → (s.ring c .rx).online = true →
    let rs := portAnswer c .rs s
    let s1 := regRead c .rs s
    let e := portAnswer c .sfifo s1
    let n := (e.extractLsb' 0 16).toNat
    let s2 := regRead c .sfifo s1
    let words := burst c n s2
    let last := portAnswer c .rs (readFifo c n s2)
    rs.getLsbD 0 = true → e.getLsbD 16 = false → n ≤ (s.ring c .rx).fsz → last.getLsbD 0 = false →
    ∃ t, exec (.svcRxSync c tx ext) s = .next t ∧
      queued t c .rx = queued s c .rx ++ [words.map fun w => w.extractLsb' 0 8] ∧
      PortGains s t
        ([.read c .rs rs, .read c .sfifo e] ++ burstReads c words ++ [.read c .rs last, .write c .cmd 1#32]) ∧
      t.chan c =
        { s.chan c with
          qfullCount := 0
          rx :=
            { (s.chan c).rx with
              slots := (t.chan c).rx.slots
              tail := ((s.chan c).rx.tail + 1) % (s.chan c).rx.cap
              entryCount := (s.chan c).rx.entryCount + 1
              waiter := false } } ∧
      (t.ring c .rx).slot (s.ring c .rx).tail = ⟨.ready, n, 0⟩ ∧
      SameSlotsBut (s.ring c .rx).tail (s.ring c .rx) (t.ring c .rx) ∧
      (∀ a, (a < slotAddr c .rx (s.ring c .rx).tail 0 ∨ slotAddr c .rx (s.ring c .rx).tail 0 + n ≤ a) →
        memRead t.mem a = memRead s.mem a) ∧
      t.sigLog = s.sigLog ++ signalOf (s.chan c) ∧ t.calls = (wake c .rx s).calls ∧
      t.chan c.other = s.chan c.other ∧ Served s t

/-- `SVC.RX.SYNC` with one entry that is an error or does not fit, then an empty status FIFO: exactly `COUNT`
bytes are drained and discarded, no slot is written, and the error of the entry, or `FrameTooLarge`, is posted
(42_sync_engine.md R173, R176, R178; 20_memory.md R87; 60_exceptions.md R253). -/
def Obligations.SvcRxSyncDrainsABadFrame : Prop :=
  ∀ (s : State) (c : Chan) (tx ext : Bool), s.dev.inIsr = true → (s.chan c).mode = .sync →
    2 ≤ s.params.passBudget →
    (s.ring c .rx).entryCount ≠ (s.ring c .rx).cap → (s.ring c .rx).online = true →
    let rs := portAnswer c .rs s
    let s1 := regRead c .rs s
    let e := portAnswer c .sfifo s1
    let n := (e.extractLsb' 0 16).toNat
    let s2 := regRead c .sfifo s1
    let words := burst c n s2
    let last := portAnswer c .rs (readFifo c n s2)
    let code :=
      if e.getLsbD 16 = false then ErrCode.frameTooLarge
      else if e.extractLsb' 17 2 = 1#2 then .overrun
      else if e.extractLsb' 17 2 = 2#2 then .breakAbort
      else .checksumOrFramingError
    rs.getLsbD 0 = true → (e.getLsbD 16 = true ∨ (s.ring c .rx).fsz < n) → last.getLsbD 0 = false →
    ∃ t, exec (.svcRxSync c tx ext) s = .next t ∧
      PortGains s t
        ([.read c .rs rs, .read c .sfifo e] ++ burstReads c words ++ [.read c .rs last, .write c .cmd 1#32]) ∧
      t.chan c =
        { s.chan c with
          qfullCount := 0
          stickyErr := some code
          rx := { (s.chan c).rx with waiter := false } } ∧
      t.sigLog = s.sigLog ++ signalOf (s.chan c) ∧ t.calls = (wake c .rx s).calls ∧
      t.chan c.other = s.chan c.other ∧ SameBytes s t ∧ Served s t

/-- `SVC.RX.ASYNC` with one good character, then none: it is appended to the partial frame; the watermark signal
is raised when the count equals the watermark; a frame that reaches the frame size is sealed, which tells the
reader; the acknowledge is last (43_async_engine.md R188, R189, R192, R193). -/
def Obligations.SvcRxAsyncAppendsACharacter : Prop :=
  ∀ (s : State) (c : Chan) (tx ext : Bool), Inv s → s.dev.inIsr = true → (s.chan c).mode = .async →
    2 ≤ s.params.passBudget →
    (s.ring c .rx).entryCount ≠ (s.ring c .rx).cap → (s.ring c .rx).online = true →
    let tail := (s.ring c .rx).tail
    let rs := portAnswer c .rs s
    let s1 := regRead c .rs s
    let w := portAnswer c .rxfifo s1
    let last := portAnswer c .rs (regRead c .rxfifo s1)
    let k := if ((s.ring c .rx).slot tail).state = .filling then ((s.ring c .rx).slot tail).fill else 0
    let atMark := if 0 < (s.chan c).watermark ∧ k + 1 = (s.chan c).watermark then signalOf (s.chan c) else []
    rs.getLsbD 1 = true → rs.getLsbD 2 = false → last.getLsbD 1 = false →
    ∃ t, exec (.svcRxAsync c tx ext) s = .next t ∧
      PortGains s t [.read c .rs rs, .read c .rxfifo w, .read c .rs last, .write c .cmd 1#32] ∧
      memRead t.mem (slotAddr c .rx tail k) = w.extractLsb' 0 8 ∧
      (∀ a, a ≠ slotAddr c .rx tail k → memRead t.mem a = memRead s.mem a) ∧
      SameSlotsBut tail (s.ring c .rx) (t.ring c .rx) ∧
      (k + 1 ≠ (s.ring c .rx).fsz →
        t.chan c =
          { s.chan c with qfullCount := 0, rx := { (s.chan c).rx with slots := (t.chan c).rx.slots } } ∧
        ((t.ring c .rx).slot tail).state = .filling ∧ ((t.ring c .rx).slot tail).fill = k + 1 ∧
        t.sigLog = s.sigLog ++ atMark ∧ t.calls = s.calls) ∧
      (k + 1 = (s.ring c .rx).fsz →
        t.chan c =
          { s.chan c with
            qfullCount := 0
            rx :=
              { (s.chan c).rx with
                slots := (t.chan c).rx.slots
                tail := (tail + 1) % (s.chan c).rx.cap
                entryCount := (s.chan c).rx.entryCount + 1
                waiter := false } } ∧
        (t.ring c .rx).slot tail = ⟨.ready, k + 1, 0⟩ ∧
        queued t c .rx =
          queued s c .rx ++ [loadBytes s.mem (slotAddr c .rx tail 0) k ++ [w.extractLsb' 0 8]] ∧
        t.sigLog = s.sigLog ++ atMark ++ signalOf (s.chan c) ∧ t.calls = (wake c .rx s).calls) ∧
      t.chan c.other = s.chan c.other ∧ Served s t

/-- `SVC.RX.ASYNC` with one bad character, then none: it is consumed also when the ring is full, the partial frame
in flight is discarded, the error is posted; `qfullCount` and the queued frames are kept (43_async_engine.md
R188, R191; 60_exceptions.md R253). -/
def Obligations.SvcRxAsyncAbortsOnABadCharacter : Prop :=
  ∀ (s : State) (c : Chan) (tx ext : Bool), Inv s → s.dev.inIsr = true → (s.chan c).mode = .async →
    2 ≤ s.params.passBudget →
    let tail := (s.ring c .rx).tail
    let rs := portAnswer c .rs s
    let s1 := regRead c .rs s
    let w := portAnswer c .rxfifo s1
    let last := portAnswer c .rs (regRead c .rxfifo s1)
    let code :=
      if rs.extractLsb' 3 2 = 1#2 then ErrCode.overrun
      else if rs.extractLsb' 3 2 = 2#2 then .breakAbort
      else .checksumOrFramingError
    rs.getLsbD 1 = true → rs.getLsbD 2 = true → last.getLsbD 1 = false →
    ∃ t, exec (.svcRxAsync c tx ext) s = .next t ∧
      PortGains s t [.read c .rs rs, .read c .rxfifo w, .read c .rs last, .write c .cmd 1#32] ∧
      t.chan c =
        { s.chan c with
          stickyErr := some code
          rx := { (s.chan c).rx with slots := (t.chan c).rx.slots, waiter := false } } ∧
      ((t.ring c .rx).slot tail).state ≠ .filling ∧
      (((s.ring c .rx).slot tail).state = .filling →
        ((t.ring c .rx).slot tail).state = .empty ∧ ((t.ring c .rx).slot tail).fill = 0) ∧
      (((s.ring c .rx).slot tail).state ≠ .filling → (t.ring c .rx).slots = (s.ring c .rx).slots) ∧
      SameSlotsBut tail (s.ring c .rx) (t.ring c .rx) ∧
      queued t c .rx = queued s c .rx ∧
      t.sigLog = s.sigLog ++ signalOf (s.chan c) ∧ t.calls = (wake c .rx s).calls ∧
      t.chan c.other = s.chan c.other ∧ SameBytes s t ∧ Served s t

/-! ## Rules of the whole machine -/

/-- What the interrupt context changes: never the configuration of a channel, the Rx head or the Tx tail, the
device's enable, a response or a thread's record but for its `woken` bit; of slot storage only the Rx rings'
(44_isr_dispatcher.md R210). -/
def Obligations.InterruptContextFrame : Prop :=
  ∀ (i : Instr) (s t : State), Inv s → isInterrupt i = true → exec i s = .next t →
    SameConfig s.ch0 t.ch0 ∧ SameConfig s.ch1 t.ch1 ∧ t.dev.irqEnable = s.dev.irqEnable ∧
    records t.calls = records s.calls ∧ t.respLog = s.respLog ∧ t.schedule = s.schedule ∧ t.params = s.params ∧
    (∀ a, inRing .ch0 .rx a = false → inRing .ch1 .rx a = false → memRead t.mem a = memRead s.mem a)

/-- The interrupt context only appends to the receive queues and only takes from the front of the transmit
queues: no error it posts removes a queued frame, and received frames are queued behind those already there
(40_ring_buffer.md R138; 20_memory.md R92; 60_exceptions.md R253). -/
def Obligations.InterruptsKeepTheQueues : Prop :=
  ∀ (i : Instr) (s t : State), Inv s → isInterrupt i = true → exec i s = .next t →
    ∀ c, queued s c .rx <+: queued t c .rx ∧ queued t c .tx <:+ queued s c .tx

/-- Only the interrupt context raises signals and posts errors; a command or a wait event can only clear the
sticky slot (60_exceptions.md R253, R262). -/
def Obligations.OnlyInterruptsSignalAndPost : Prop :=
  ∀ (i : Instr) (s t : State), isInterrupt i = false → exec i s = .next t →
    t.sigLog = s.sigLog ∧
    ∀ c, (t.chan c).stickyErr = (s.chan c).stickyErr ∨ (t.chan c).stickyErr = none

/-- The interrupt counter: it goes up by one, modulo 2^32, with each `HANDLED` result and by nothing else, and the
third result is never produced (10_state.md R23; 44_isr_dispatcher.md R204; 90_conflicts.md C2). -/
def Obligations.OnlyHandledInterruptsAreCounted : Prop :=
  ∀ (i : Instr) (s t : State), exec i s = .next t →
    (t.irqLog = s.irqLog ++ [.handled] ∧ t.dev.irqCount = s.dev.irqCount + 1#32 ∧ s.dev.inIsr = true) ∨
    (t.irqLog = s.irqLog ++ [.notMine] ∧ t.dev.irqCount = s.dev.irqCount ∧ t.ch0 = s.ch0 ∧ t.ch1 = s.ch1) ∨
    (t.irqLog = s.irqLog ∧ t.dev.irqCount = s.dev.irqCount)

end Statements
end

