-- ==== Sys2Proof/Laws/Ring.lean ====
section
/-! SUPPORT. The ring micro-operations: their small lemmas and what they do to a ring of the right shape. -/

namespace Sys2Proof.Machine

open Sys2Proof

theorem full_eq_false {rb : Ring} : rb.full = false ↔ rb.entryCount ≠ rb.cap ∧ rb.online = true := by
  simp [Ring.full]

theorem avail_eq_true {rb : Ring} : rb.avail = true ↔ rb.online = true ∧ 0 < rb.entryCount := by
  simp [Ring.avail]

/-- A ring with `cap = 0` is full and has nothing available (40_ring_buffer.md R130). -/
theorem uninitialized_full_not_avail {rb : Ring} (h : rb.cap = 0) (hc : rb.entryCount ≤ rb.cap) :
    rb.full = true ∧ rb.avail = false := by
  constructor <;> simp [Ring.full, Ring.avail] <;> omega

@[simp] theorem setSlot_slot_same (rb : Ring) (i : Nat) (x : Slot) (h : i < rb.slots.length) :
    (rb.setSlot i x).slot i = x := by
  simp [Ring.setSlot, Ring.slot, h]

theorem setSlot_slot_other (rb : Ring) {i j : Nat} (x : Slot) (h : j ≠ i) :
    (rb.setSlot i x).slot j = rb.slot j := by
  simp [Ring.setSlot, Ring.slot, Ne.symm h]

/-- `Commit(rb, n)` fills the tail slot (40_ring_buffer.md R136). -/
theorem commit_slot_tail (rb : Ring) (n : Nat) (h : rb.tail < rb.slots.length) :
    (rb.commit n).slot rb.tail = ⟨.ready, n, 0⟩ := by
  simp [Ring.commit, Ring.slot, h]

theorem commit_slot_other (rb : Ring) (n : Nat) {j : Nat} (h : j ≠ rb.tail) :
    (rb.commit n).slot j = rb.slot j := by
  simp [Ring.commit, Ring.slot, Ne.symm h]

/-- `Consume(rb)` empties the head slot and keeps its `len` (40_ring_buffer.md R136). -/
theorem consume_slot_head (rb : Ring) (h : rb.head < rb.slots.length) :
    rb.consume.slot rb.head = { rb.slot rb.head with state := .empty, fill := 0 } := by
  simp [Ring.consume, Ring.slot, h]

theorem consume_slot_other (rb : Ring) {j : Nat} (h : j ≠ rb.head) : rb.consume.slot j = rb.slot j := by
  simp [Ring.consume, Ring.slot, Ne.symm h]

/-- A cursor stays inside a ring that has slots (40_ring_buffer.md R137). -/
theorem next_lt (rb : Ring) (i : Nat) (h : 0 < rb.cap) : rb.next i < rb.cap := Nat.mod_lt _ h

@[simp] theorem commit_cap (rb : Ring) (n : Nat) : (rb.commit n).cap = rb.cap := rfl
@[simp] theorem commit_fsz (rb : Ring) (n : Nat) : (rb.commit n).fsz = rb.fsz := rfl
@[simp] theorem commit_head (rb : Ring) (n : Nat) : (rb.commit n).head = rb.head := rfl
@[simp] theorem commit_tail (rb : Ring) (n : Nat) : (rb.commit n).tail = rb.next rb.tail := rfl
@[simp] theorem commit_entryCount (rb : Ring) (n : Nat) : (rb.commit n).entryCount = rb.entryCount + 1 := rfl
@[simp] theorem commit_waiter (rb : Ring) (n : Nat) : (rb.commit n).waiter = rb.waiter := rfl
@[simp] theorem commit_errReported (rb : Ring) (n : Nat) : (rb.commit n).errReported = rb.errReported := rfl
@[simp] theorem commit_online (rb : Ring) (n : Nat) : (rb.commit n).online = rb.online := rfl
@[simp] theorem consume_cap (rb : Ring) : rb.consume.cap = rb.cap := rfl
@[simp] theorem consume_fsz (rb : Ring) : rb.consume.fsz = rb.fsz := rfl
@[simp] theorem consume_head (rb : Ring) : rb.consume.head = rb.next rb.head := rfl
@[simp] theorem consume_tail (rb : Ring) : rb.consume.tail = rb.tail := rfl
@[simp] theorem consume_entryCount (rb : Ring) : rb.consume.entryCount = rb.entryCount - 1 := rfl
@[simp] theorem consume_waiter (rb : Ring) : rb.consume.waiter = rb.waiter := rfl
@[simp] theorem consume_errReported (rb : Ring) : rb.consume.errReported = rb.errReported := rfl
@[simp] theorem consume_online (rb : Ring) : rb.consume.online = rb.online := rfl
@[simp] theorem setSlot_cap (rb : Ring) (i : Nat) (x : Slot) : (rb.setSlot i x).cap = rb.cap := rfl
@[simp] theorem setSlot_fsz (rb : Ring) (i : Nat) (x : Slot) : (rb.setSlot i x).fsz = rb.fsz := rfl
@[simp] theorem setSlot_head (rb : Ring) (i : Nat) (x : Slot) : (rb.setSlot i x).head = rb.head := rfl
@[simp] theorem setSlot_tail (rb : Ring) (i : Nat) (x : Slot) : (rb.setSlot i x).tail = rb.tail := rfl
@[simp] theorem setSlot_entryCount (rb : Ring) (i : Nat) (x : Slot) :
    (rb.setSlot i x).entryCount = rb.entryCount := rfl
@[simp] theorem setSlot_waiter (rb : Ring) (i : Nat) (x : Slot) : (rb.setSlot i x).waiter = rb.waiter := rfl
@[simp] theorem setSlot_errReported (rb : Ring) (i : Nat) (x : Slot) :
    (rb.setSlot i x).errReported = rb.errReported := rfl
@[simp] theorem setSlot_online (rb : Ring) (i : Nat) (x : Slot) : (rb.setSlot i x).online = rb.online := rfl
@[simp] theorem commit_length (rb : Ring) (n : Nat) : (rb.commit n).slots.length = rb.slots.length := by
  simp [Ring.commit]
@[simp] theorem consume_length (rb : Ring) : rb.consume.slots.length = rb.slots.length := by
  simp [Ring.consume]
@[simp] theorem setSlot_length (rb : Ring) (i : Nat) (x : Slot) :
    (rb.setSlot i x).slots.length = rb.slots.length := by
  simp [Ring.setSlot]

/-- Reallocation with a legal size gives a ring of the right shape, whether or not storage is obtained
(40_ring_buffer.md R131). -/
theorem allocate_shape (p : AllocRule) (num size : Nat) (rb : Ring) (hn : num ≤ Config.frameNumLimit) (h1 : 1 ≤ size)
    (hs : size ≤ Config.frameSizeLimit) : RingShape (rb.allocate p num size) := by
  unfold Ring.allocate
  by_cases h : allocOk p num size = true
  · simp only [h, if_true]
    exact ⟨by simp, hn, h1, hs, by simp, by simp, by simp⟩
  · simp only [h]
    exact ⟨by simp, by simp, h1, hs, by simp, by simp, by simp⟩

/-- The default of `allocOK` (00_scope.md R14). -/
theorem allocOk_pool {bytes num size : Nat} : allocOk (.pool bytes) num size = true ↔ num * size ≤ bytes := by
  simp [allocOk]

/-- Every predicate on the legal operands of `Allocate` is the `allocOK` of some rule, so that a claim for every
parameter record is one for every `allocOK` (00_scope.md R14, 40_ring_buffer.md R131). -/
theorem every_predicate_is_a_rule (f : Nat → Nat → Bool) :
    ∃ rule, ∀ num size, num ≤ Config.frameNumLimit → size ≤ Config.frameSizeLimit →
      allocOk rule num size = f num size := by
  refine ⟨.listed (((List.range (Config.frameNumLimit + 1)).flatMap fun n =>
    (List.range (Config.frameSizeLimit + 1)).map fun k => (n, k)).filter fun e => f e.1 e.2), ?_⟩
  intro num size hn hs
  rw [allocOk, Bool.eq_iff_iff]
  simp only [decide_eq_true_eq, List.mem_filter, List.mem_flatMap, List.mem_map, List.mem_range, Prod.mk.injEq]
  constructor
  · exact fun h => h.2
  · exact fun h => ⟨⟨num, by omega, size, by omega, rfl, rfl⟩, h⟩

/-- `Reset` keeps the shape of a ring (40_ring_buffer.md R135). -/
theorem clear_shape {rb : Ring} (h : RingShape rb) : RingShape rb.clear := by
  obtain ⟨h1, h2, h3, h4, _, h6, h7⟩ := h
  refine ⟨by simp [Ring.clear, h1], h2, h3, h4, Nat.zero_le _, ?_, ?_⟩
  · intro hc
    exact ⟨(h6 hc).2, (h6 hc).2⟩
  · intro hc
    have ht : rb.tail < rb.cap := by rw [(h7 hc).2]; exact Nat.mod_lt _ hc
    exact ⟨ht, (Nat.mod_eq_of_lt ht).symm⟩

end Sys2Proof.Machine
end

