-- ==== Sys2Proof/Laws/Memory.lean ====
section
/-! SUPPORT. Slot storage: what a read sees after a write, that every memory operation keeps the canonical form,
and that different (ring, slot, byte) triples have different addresses. -/

namespace Sys2Proof.Machine

open Sys2Proof

/-! ## Reading after writing -/

theorem memRead_memInsert_same (m : Memory) (x : Nat) (v : Byte) : memRead (memInsert m x v) x = v := by
  induction m with
  | nil => simp [memInsert, memRead]
  | cons e m ih =>
    obtain ⟨a, b⟩ := e
    rw [memInsert]
    split
    · simp [memRead]
    · split
      · simp [memRead]
      · next h => simp [memRead, h, ih]

theorem memRead_memInsert_other (m : Memory) {x y : Nat} (v : Byte) (h : y ≠ x) :
    memRead (memInsert m x v) y = memRead m y := by
  induction m with
  | nil => simp [memInsert, memRead, h]
  | cons e m ih =>
    obtain ⟨a, b⟩ := e
    rw [memInsert]
    split
    · simp [memRead, h]
    · split
      · next hx => subst hx; simp [memRead, h]
      · simp [memRead, ih]

theorem memRead_memErase_same (m : Memory) (x : Nat) : memRead (memErase m x) x = 0#8 := by
  induction m with
  | nil => rfl
  | cons e m ih =>
    obtain ⟨a, b⟩ := e
    by_cases hx : a = x
    · simpa [memErase, hx] using ih
    · have hx' : ¬ x = a := fun h => hx h.symm
      simpa [memErase, hx, memRead, hx'] using ih

theorem memRead_memErase_other (m : Memory) {x y : Nat} (h : y ≠ x) :
    memRead (memErase m x) y = memRead m y := by
  induction m with
  | nil => rfl
  | cons e m ih =>
    obtain ⟨a, b⟩ := e
    by_cases hx : a = x
    · subst hx
      simpa [memErase, memRead, h] using ih
    · by_cases hy : y = a
      · simp [memErase, hx, memRead, hy]
      · simpa [memErase, hx, memRead, hy] using ih

@[simp] theorem memRead_memWrite_same (m : Memory) (x : Nat) (v : Byte) : memRead (memWrite m x v) x = v := by
  unfold memWrite
  split
  · next h => rw [memRead_memErase_same, h]
  · exact memRead_memInsert_same m x v

theorem memRead_memWrite_other (m : Memory) {x y : Nat} (v : Byte) (h : y ≠ x) :
    memRead (memWrite m x v) y = memRead m y := by
  unfold memWrite
  split
  · exact memRead_memErase_other m h
  · exact memRead_memInsert_other m v h

/-- A burst leaves every byte outside it alone. -/
theorem memRead_storeBytes_outside (bs : List Byte) (m : Memory) (a x : Nat)
    (h : x < a ∨ a + bs.length ≤ x) : memRead (storeBytes m a bs) x = memRead m x := by
  induction bs generalizing m a with
  | nil => rfl
  | cons b bs ih =>
    simp only [List.length_cons] at h
    rw [storeBytes, ih _ _ (by omega), memRead_memWrite_other _ _ (by omega)]

/-- A burst puts byte `k` at offset `k`. -/
theorem memRead_storeBytes_inside (bs : List Byte) (m : Memory) (a k : Nat) (h : k < bs.length) :
    memRead (storeBytes m a bs) (a + k) = bs[k] := by
  induction bs generalizing m a k with
  | nil => simp at h
  | cons b bs ih =>
    rw [storeBytes]
    cases k with
    | zero => rw [memRead_storeBytes_outside _ _ _ _ (by omega)]; simp
    | succ k =>
      have := ih (memWrite m a b) (a + 1) k (by simpa using h)
      rw [show a + (k + 1) = a + 1 + k by omega, this]
      rfl

@[simp] theorem loadBytes_length (m : Memory) (a n : Nat) : (loadBytes m a n).length = n := by
  induction n generalizing a with
  | zero => rfl
  | succ n ih => simp [loadBytes, ih]

theorem loadBytes_congr {m m' : Memory} {a n : Nat} (h : ∀ x, a ≤ x → x < a + n → memRead m x = memRead m' x) :
    loadBytes m a n = loadBytes m' a n := by
  induction n generalizing a with
  | zero => rfl
  | succ n ih =>
    rw [loadBytes, loadBytes, h a (by omega) (by omega), ih]
    intro x hx hx'
    exact h x (by omega) (by omega)

/-- Reading a burst back gives its bytes. -/
theorem loadBytes_storeBytes (bs : List Byte) (m : Memory) (a : Nat) :
    loadBytes (storeBytes m a bs) a bs.length = bs := by
  induction bs generalizing m a with
  | nil => rfl
  | cons b bs ih =>
    rw [List.length_cons, loadBytes, storeBytes, ih, memRead_storeBytes_outside _ _ _ _ (by omega)]
    simp

/-- Releasing a ring leaves every byte outside it alone. -/
theorem memRead_releaseRing_outside (m : Memory) (c : Chan) (d : Dir) (x : Nat) (h : inRing c d x = false) :
    memRead (releaseRing m c d) x = memRead m x := by
  induction m with
  | nil => rfl
  | cons e m ih =>
    obtain ⟨a, b⟩ := e
    by_cases ha : inRing c d a = true
    · have hx : x ≠ a := by rintro rfl; simp [h] at ha
      simpa [releaseRing, ha, memRead, hx] using ih
    · by_cases hx : x = a
      · simp [releaseRing, ha, memRead, hx]
      · simpa [releaseRing, ha, memRead, hx] using ih

/-! ## The canonical form -/

theorem memSorted_weaken {lo lo' : Option Nat} {m : Memory} (h : memSorted lo m = true)
    (hlo : ∀ l, lo' = some l → ∃ k, lo = some k ∧ l ≤ k) : memSorted lo' m = true := by
  cases m with
  | nil => cases lo' <;> rfl
  | cons e m =>
    obtain ⟨a, b⟩ := e
    cases lo' with
    | none => cases lo <;> simp_all [memSorted]
    | some l =>
      obtain ⟨k, rfl, hk⟩ := hlo l rfl
      simp [memSorted] at h ⊢
      exact ⟨⟨by omega, h.1.2⟩, h.2⟩

theorem memSorted_insert {lo : Option Nat} {m : Memory} {x : Nat} {v : Byte} (h : memSorted lo m = true)
    (hv : v ≠ 0#8) (hx : ∀ l, lo = some l → l < x) : memSorted lo (memInsert m x v) = true := by
  induction m generalizing lo with
  | nil => cases lo <;> simp_all [memInsert, memSorted]
  | cons e m ih =>
    obtain ⟨a, b⟩ := e
    rw [memInsert]
    split
    · next hlt => cases lo <;> simp_all [memSorted]
    · split
      · next hlt heq => subst heq; cases lo <;> simp_all [memSorted]
      · next hlt heq =>
        have hm : memSorted (some a) m = true := by cases lo <;> simp_all [memSorted]
        have := ih hm (by intro l hl; cases hl; omega)
        cases lo <;> simp_all [memSorted]

theorem memSorted_filter {lo : Option Nat} {m : Memory} (p : Host.Cell → Bool) (h : memSorted lo m = true) :
    memSorted lo (m.filter p) = true := by
  induction m generalizing lo with
  | nil => cases lo <;> rfl
  | cons e m ih =>
    obtain ⟨a, b⟩ := e
    have hm : memSorted (some a) m = true := by cases lo <;> simp_all [memSorted]
    by_cases hp : p (a, b) = true
    · have := ih hm
      cases lo <;> simp_all [memSorted]
    · rw [List.filter_cons_of_neg (by simpa using hp)]
      refine ih (memSorted_weaken hm ?_)
      rintro l rfl
      refine ⟨a, rfl, ?_⟩
      simp [memSorted] at h
      omega

/-- A byte write keeps the canonical form. -/
theorem memWrite_wf {m : Memory} (h : Memory.wf m = true) (x : Nat) (v : Byte) :
    Memory.wf (memWrite m x v) = true := by
  unfold memWrite
  split
  · exact memSorted_filter _ h
  · next hv => exact memSorted_insert h hv (by simp)

/-- A burst keeps the canonical form. -/
theorem storeBytes_wf (bs : List Byte) {m : Memory} (h : Memory.wf m = true) (a : Nat) :
    Memory.wf (storeBytes m a bs) = true := by
  induction bs generalizing m a with
  | nil => exact h
  | cons b bs ih => exact ih (memWrite_wf h a b) (a + 1)

/-- Releasing a ring keeps the canonical form. -/
theorem releaseRing_wf {m : Memory} (h : Memory.wf m = true) (c : Chan) (d : Dir) :
    Memory.wf (releaseRing m c d) = true := memSorted_filter _ h

/-- The state after initialization has a memory in canonical form. -/
theorem reset_memory_wf : Memory.wf State.reset.mem = true := rfl

/-! ## Addresses -/

/-- Different triples (ring, slot index, byte index) have different addresses. -/
theorem slotAddr_injective {c c' : Chan} {d d' : Dir} {i i' k k' : Nat} (hi : i < 65536) (hi' : i' < 65536)
    (hk : k < 65536) (hk' : k' < 65536) (h : slotAddr c d i k = slotAddr c' d' i' k') :
    c = c' ∧ d = d' ∧ i = i' ∧ k = k' := by
  cases c <;> cases c' <;> cases d <;> cases d' <;> simp [slotAddr, ringNumber] at h ⊢ <;> omega

/-- The bytes of a slot are inside its ring's part of slot storage. -/
theorem slotAddr_inRing (c : Chan) (d : Dir) {i k : Nat} (hi : i < 65536) (hk : k < 65536) :
    inRing c d (slotAddr c d i k) = true := by
  have h1 : slotAddr c d 0 0 ≤ slotAddr c d i k := by unfold slotAddr; omega
  have h2 : slotAddr c d i k < slotAddr c d 65536 0 := by unfold slotAddr; omega
  simp [inRing, h1, h2]

end Sys2Proof.Machine
end

