-- ==== Sys2Proof/Laws/State.lean ====
section
/-! SUPPORT. One lemma per field per update of the state, so that no later proof unfolds a record update. -/

namespace Sys2Proof.Machine

open Sys2Proof

/-! ## `modChan`: the other fields, the channel itself, the other channel -/

@[simp] theorem modChan_dev (s : State) (c : Chan) (f : Channel → Channel) : (s.modChan c f).dev = s.dev :=
  by cases c <;> rfl
@[simp] theorem modChan_mem (s : State) (c : Chan) (f : Channel → Channel) : (s.modChan c f).mem = s.mem :=
  by cases c <;> rfl
@[simp] theorem modChan_calls (s : State) (c : Chan) (f : Channel → Channel) : (s.modChan c f).calls = s.calls :=
  by cases c <;> rfl
@[simp] theorem modChan_sigLog (s : State) (c : Chan) (f : Channel → Channel) : (s.modChan c f).sigLog = s.sigLog :=
  by cases c <;> rfl
@[simp] theorem modChan_portLog (s : State) (c : Chan) (f : Channel → Channel) : (s.modChan c f).portLog = s.portLog :=
  by cases c <;> rfl
@[simp] theorem modChan_key (s : State) (c : Chan) (f : Channel → Channel) : (s.modChan c f).key = s.key :=
  by cases c <;> rfl
@[simp] theorem modChan_respLog (s : State) (c : Chan) (f : Channel → Channel) : (s.modChan c f).respLog = s.respLog :=
  by cases c <;> rfl
@[simp] theorem modChan_irqLog (s : State) (c : Chan) (f : Channel → Channel) : (s.modChan c f).irqLog = s.irqLog :=
  by cases c <;> rfl
@[simp] theorem modChan_schedule (s : State) (c : Chan) (f : Channel → Channel) : (s.modChan c f).schedule = s.schedule :=
  by cases c <;> rfl
@[simp] theorem modChan_oracle (s : State) (c : Chan) (f : Channel → Channel) : (s.modChan c f).oracle = s.oracle :=
  by cases c <;> rfl
@[simp] theorem modChan_params (s : State) (c : Chan) (f : Channel → Channel) : (s.modChan c f).params = s.params :=
  by cases c <;> rfl
@[simp] theorem modChan_chan_same (s : State) (c : Chan) (f : Channel → Channel) : (s.modChan c f).chan c = f (s.chan c) :=
  by cases c <;> rfl
@[simp] theorem modChan_chan_other (s : State) (c : Chan) (f : Channel → Channel) : (s.modChan c f).chan c.other = s.chan c.other :=
  by cases c <;> rfl
@[simp] theorem modChan_other_chan (s : State) (c : Chan) (f : Channel → Channel) : (s.modChan c.other f).chan c = s.chan c :=
  by cases c <;> rfl
@[simp] theorem modChan_modChan (s : State) (c : Chan) (f g : Channel → Channel) : (s.modChan c f).modChan c g = s.modChan c fun x => g (f x) :=
  by cases c <;> rfl

/-- `modChan` at any channel. -/
theorem modChan_chan (s : State) (c c' : Chan) (f : Channel → Channel) :
    (s.modChan c f).chan c' = if c' = c then f (s.chan c') else s.chan c' := by
  cases c <;> cases c' <;> rfl

/-! ## `modRing` -/

@[simp] theorem modRing_dev (s : State) (c : Chan) (d : Dir) (f : Ring → Ring) : (s.modRing c d f).dev = s.dev :=
  by cases c <;> rfl
@[simp] theorem modRing_mem (s : State) (c : Chan) (d : Dir) (f : Ring → Ring) : (s.modRing c d f).mem = s.mem :=
  by cases c <;> rfl
@[simp] theorem modRing_calls (s : State) (c : Chan) (d : Dir) (f : Ring → Ring) : (s.modRing c d f).calls = s.calls :=
  by cases c <;> rfl
@[simp] theorem modRing_sigLog (s : State) (c : Chan) (d : Dir) (f : Ring → Ring) : (s.modRing c d f).sigLog = s.sigLog :=
  by cases c <;> rfl
@[simp] theorem modRing_portLog (s : State) (c : Chan) (d : Dir) (f : Ring → Ring) : (s.modRing c d f).portLog = s.portLog :=
  by cases c <;> rfl
@[simp] theorem modRing_key (s : State) (c : Chan) (d : Dir) (f : Ring → Ring) : (s.modRing c d f).key = s.key :=
  by cases c <;> rfl
@[simp] theorem modRing_respLog (s : State) (c : Chan) (d : Dir) (f : Ring → Ring) : (s.modRing c d f).respLog = s.respLog :=
  by cases c <;> rfl
@[simp] theorem modRing_irqLog (s : State) (c : Chan) (d : Dir) (f : Ring → Ring) : (s.modRing c d f).irqLog = s.irqLog :=
  by cases c <;> rfl
@[simp] theorem modRing_schedule (s : State) (c : Chan) (d : Dir) (f : Ring → Ring) : (s.modRing c d f).schedule = s.schedule :=
  by cases c <;> rfl
@[simp] theorem modRing_oracle (s : State) (c : Chan) (d : Dir) (f : Ring → Ring) : (s.modRing c d f).oracle = s.oracle :=
  by cases c <;> rfl
@[simp] theorem modRing_params (s : State) (c : Chan) (d : Dir) (f : Ring → Ring) : (s.modRing c d f).params = s.params :=
  by cases c <;> rfl
@[simp] theorem modRing_chan_same (s : State) (c : Chan) (d : Dir) (f : Ring → Ring) : (s.modRing c d f).chan c = (s.chan c).modRing d f :=
  by cases c <;> rfl
@[simp] theorem modRing_chan_other (s : State) (c : Chan) (d : Dir) (f : Ring → Ring) : (s.modRing c d f).chan c.other = s.chan c.other :=
  by cases c <;> rfl
@[simp] theorem modRing_ring_same (s : State) (c : Chan) (d : Dir) (f : Ring → Ring) : (s.modRing c d f).ring c d = f (s.ring c d) :=
  by cases c <;> cases d <;> rfl

/-! ## One field replaced: the channels stay -/

@[simp] theorem chan_with_dev (s : State) (c : Chan) (v) : State.chan { s with dev := v } c = s.chan c :=
  by cases c <;> rfl
@[simp] theorem chan_with_mem (s : State) (c : Chan) (v) : State.chan { s with mem := v } c = s.chan c :=
  by cases c <;> rfl
@[simp] theorem chan_with_calls (s : State) (c : Chan) (v) : State.chan { s with calls := v } c = s.chan c :=
  by cases c <;> rfl
@[simp] theorem chan_with_sigLog (s : State) (c : Chan) (v) : State.chan { s with sigLog := v } c = s.chan c :=
  by cases c <;> rfl
@[simp] theorem chan_with_portLog (s : State) (c : Chan) (v) : State.chan { s with portLog := v } c = s.chan c :=
  by cases c <;> rfl
@[simp] theorem chan_with_key (s : State) (c : Chan) (v) : State.chan { s with key := v } c = s.chan c :=
  by cases c <;> rfl
@[simp] theorem chan_with_respLog (s : State) (c : Chan) (v) : State.chan { s with respLog := v } c = s.chan c :=
  by cases c <;> rfl
@[simp] theorem chan_with_irqLog (s : State) (c : Chan) (v) : State.chan { s with irqLog := v } c = s.chan c :=
  by cases c <;> rfl
@[simp] theorem chan_with_schedule (s : State) (c : Chan) (v) : State.chan { s with schedule := v } c = s.chan c :=
  by cases c <;> rfl
@[simp] theorem chan_with_oracle (s : State) (c : Chan) (v) : State.chan { s with oracle := v } c = s.chan c :=
  by cases c <;> rfl
@[simp] theorem chan_with_params (s : State) (c : Chan) (v) : State.chan { s with params := v } c = s.chan c :=
  by cases c <;> rfl
@[simp] theorem ring_with_dev (s : State) (c : Chan) (d : Dir) (v) : State.ring { s with dev := v } c d = s.ring c d :=
  by cases c <;> rfl
@[simp] theorem ring_with_mem (s : State) (c : Chan) (d : Dir) (v) : State.ring { s with mem := v } c d = s.ring c d :=
  by cases c <;> rfl
@[simp] theorem ring_with_calls (s : State) (c : Chan) (d : Dir) (v) : State.ring { s with calls := v } c d = s.ring c d :=
  by cases c <;> rfl
@[simp] theorem ring_with_sigLog (s : State) (c : Chan) (d : Dir) (v) : State.ring { s with sigLog := v } c d = s.ring c d :=
  by cases c <;> rfl
@[simp] theorem ring_with_portLog (s : State) (c : Chan) (d : Dir) (v) : State.ring { s with portLog := v } c d = s.ring c d :=
  by cases c <;> rfl
@[simp] theorem ring_with_key (s : State) (c : Chan) (d : Dir) (v) : State.ring { s with key := v } c d = s.ring c d :=
  by cases c <;> rfl
@[simp] theorem ring_with_respLog (s : State) (c : Chan) (d : Dir) (v) : State.ring { s with respLog := v } c d = s.ring c d :=
  by cases c <;> rfl
@[simp] theorem ring_with_irqLog (s : State) (c : Chan) (d : Dir) (v) : State.ring { s with irqLog := v } c d = s.ring c d :=
  by cases c <;> rfl
@[simp] theorem ring_with_schedule (s : State) (c : Chan) (d : Dir) (v) : State.ring { s with schedule := v } c d = s.ring c d :=
  by cases c <;> rfl
@[simp] theorem ring_with_oracle (s : State) (c : Chan) (d : Dir) (v) : State.ring { s with oracle := v } c d = s.ring c d :=
  by cases c <;> rfl
@[simp] theorem ring_with_params (s : State) (c : Chan) (d : Dir) (v) : State.ring { s with params := v } c d = s.ring c d :=
  by cases c <;> rfl

/-! ## The rings of a channel -/

@[simp] theorem ring_tx (s : State) (c : Chan) : s.ring c .tx = (s.chan c).tx := rfl
@[simp] theorem ring_rx (s : State) (c : Chan) : s.ring c .rx = (s.chan c).rx := rfl
@[simp] theorem modRing_tx (x : Channel) (f : Ring → Ring) : x.modRing .tx f = { x with tx := f x.tx } := rfl
@[simp] theorem modRing_rx (x : Channel) (f : Ring → Ring) : x.modRing .rx f = { x with rx := f x.rx } := rfl

/-! ## `regRead` changes `portLog` and `oracle` -/

@[simp] theorem regRead_dev (c : Chan) (r : ReadReg) (s : State) : (regRead c r s).dev = s.dev := rfl
@[simp] theorem regRead_mem (c : Chan) (r : ReadReg) (s : State) : (regRead c r s).mem = s.mem := rfl
@[simp] theorem regRead_calls (c : Chan) (r : ReadReg) (s : State) : (regRead c r s).calls = s.calls := rfl
@[simp] theorem regRead_sigLog (c : Chan) (r : ReadReg) (s : State) : (regRead c r s).sigLog = s.sigLog := rfl
@[simp] theorem regRead_key (c : Chan) (r : ReadReg) (s : State) : (regRead c r s).key = s.key := rfl
@[simp] theorem regRead_respLog (c : Chan) (r : ReadReg) (s : State) : (regRead c r s).respLog = s.respLog :=
  rfl
@[simp] theorem regRead_irqLog (c : Chan) (r : ReadReg) (s : State) : (regRead c r s).irqLog = s.irqLog := rfl
@[simp] theorem regRead_schedule (c : Chan) (r : ReadReg) (s : State) : (regRead c r s).schedule = s.schedule :=
  rfl
@[simp] theorem regRead_params (c : Chan) (r : ReadReg) (s : State) : (regRead c r s).params = s.params := rfl
@[simp] theorem regRead_chan (c : Chan) (r : ReadReg) (s : State) (c' : Chan) : (regRead c r s).chan c' = s.chan c' :=
  by cases c' <;> rfl
@[simp] theorem regRead_portLog (c : Chan) (r : ReadReg) (s : State) : (regRead c r s).portLog = s.portLog ++ [.read c r (portAnswer c r s)] :=
  rfl

/-! ## `portWrite` changes `portLog` and `oracle` -/

@[simp] theorem portWrite_dev (c : Chan) (r : WriteReg) (v : Word) (s : State) : (portWrite c r v s).dev = s.dev :=
  rfl
@[simp] theorem portWrite_mem (c : Chan) (r : WriteReg) (v : Word) (s : State) : (portWrite c r v s).mem = s.mem :=
  rfl
@[simp] theorem portWrite_calls (c : Chan) (r : WriteReg) (v : Word) (s : State) : (portWrite c r v s).calls = s.calls :=
  rfl
@[simp] theorem portWrite_sigLog (c : Chan) (r : WriteReg) (v : Word) (s : State) : (portWrite c r v s).sigLog = s.sigLog :=
  rfl
@[simp] theorem portWrite_key (c : Chan) (r : WriteReg) (v : Word) (s : State) : (portWrite c r v s).key = s.key :=
  rfl
@[simp] theorem portWrite_respLog (c : Chan) (r : WriteReg) (v : Word) (s : State) : (portWrite c r v s).respLog = s.respLog :=
  rfl
@[simp] theorem portWrite_irqLog (c : Chan) (r : WriteReg) (v : Word) (s : State) : (portWrite c r v s).irqLog = s.irqLog :=
  rfl
@[simp] theorem portWrite_schedule (c : Chan) (r : WriteReg) (v : Word) (s : State) : (portWrite c r v s).schedule = s.schedule :=
  rfl
@[simp] theorem portWrite_params (c : Chan) (r : WriteReg) (v : Word) (s : State) : (portWrite c r v s).params = s.params :=
  rfl
@[simp] theorem portWrite_chan (c : Chan) (r : WriteReg) (v : Word) (s : State) (c' : Chan) : (portWrite c r v s).chan c' = s.chan c' :=
  by cases c' <;> rfl
@[simp] theorem portWrite_portLog (c : Chan) (r : WriteReg) (v : Word) (s : State) : (portWrite c r v s).portLog = s.portLog ++ [.write c r v] :=
  rfl

/-! ## `writeCtl` changes the mirror, `portLog` and `oracle` -/

@[simp] theorem writeCtl_dev (c : Chan) (v : Word) (s : State) : (writeCtl c v s).dev = s.dev :=
  by cases c <;> rfl
@[simp] theorem writeCtl_mem (c : Chan) (v : Word) (s : State) : (writeCtl c v s).mem = s.mem :=
  by cases c <;> rfl
@[simp] theorem writeCtl_calls (c : Chan) (v : Word) (s : State) : (writeCtl c v s).calls = s.calls :=
  by cases c <;> rfl
@[simp] theorem writeCtl_sigLog (c : Chan) (v : Word) (s : State) : (writeCtl c v s).sigLog = s.sigLog :=
  by cases c <;> rfl
@[simp] theorem writeCtl_key (c : Chan) (v : Word) (s : State) : (writeCtl c v s).key = s.key :=
  by cases c <;> rfl
@[simp] theorem writeCtl_respLog (c : Chan) (v : Word) (s : State) : (writeCtl c v s).respLog = s.respLog :=
  by cases c <;> rfl
@[simp] theorem writeCtl_irqLog (c : Chan) (v : Word) (s : State) : (writeCtl c v s).irqLog = s.irqLog :=
  by cases c <;> rfl
@[simp] theorem writeCtl_schedule (c : Chan) (v : Word) (s : State) : (writeCtl c v s).schedule = s.schedule :=
  by cases c <;> rfl
@[simp] theorem writeCtl_params (c : Chan) (v : Word) (s : State) : (writeCtl c v s).params = s.params :=
  by cases c <;> rfl
@[simp] theorem writeCtl_portLog (c : Chan) (v : Word) (s : State) : (writeCtl c v s).portLog = s.portLog ++ [.write c .ctl v] :=
  by cases c <;> rfl
@[simp] theorem writeCtl_chan_same (c : Chan) (v : Word) (s : State) : (writeCtl c v s).chan c = { s.chan c with mirror := v } :=
  by cases c <;> rfl
@[simp] theorem writeCtl_chan_other (c : Chan) (v : Word) (s : State) : (writeCtl c v s).chan c.other = s.chan c.other :=
  by cases c <;> rfl

/-! ## `writeFifo` changes `portLog` and `oracle` -/

@[simp] theorem writeFifo_dev (c : Chan) (bs : List Byte) (s : State) : (writeFifo c bs s).dev = s.dev :=
  by
  induction bs generalizing s with
  | nil => rfl
  | cons b bs ih => simp [writeFifo, ih]
@[simp] theorem writeFifo_mem (c : Chan) (bs : List Byte) (s : State) : (writeFifo c bs s).mem = s.mem :=
  by
  induction bs generalizing s with
  | nil => rfl
  | cons b bs ih => simp [writeFifo, ih]
@[simp] theorem writeFifo_calls (c : Chan) (bs : List Byte) (s : State) : (writeFifo c bs s).calls = s.calls :=
  by
  induction bs generalizing s with
  | nil => rfl
  | cons b bs ih => simp [writeFifo, ih]
@[simp] theorem writeFifo_sigLog (c : Chan) (bs : List Byte) (s : State) : (writeFifo c bs s).sigLog = s.sigLog :=
  by
  induction bs generalizing s with
  | nil => rfl
  | cons b bs ih => simp [writeFifo, ih]
@[simp] theorem writeFifo_key (c : Chan) (bs : List Byte) (s : State) : (writeFifo c bs s).key = s.key :=
  by
  induction bs generalizing s with
  | nil => rfl
  | cons b bs ih => simp [writeFifo, ih]
@[simp] theorem writeFifo_respLog (c : Chan) (bs : List Byte) (s : State) : (writeFifo c bs s).respLog = s.respLog :=
  by
  induction bs generalizing s with
  | nil => rfl
  | cons b bs ih => simp [writeFifo, ih]
@[simp] theorem writeFifo_irqLog (c : Chan) (bs : List Byte) (s : State) : (writeFifo c bs s).irqLog = s.irqLog :=
  by
  induction bs generalizing s with
  | nil => rfl
  | cons b bs ih => simp [writeFifo, ih]
@[simp] theorem writeFifo_schedule (c : Chan) (bs : List Byte) (s : State) : (writeFifo c bs s).schedule = s.schedule :=
  by
  induction bs generalizing s with
  | nil => rfl
  | cons b bs ih => simp [writeFifo, ih]
@[simp] theorem writeFifo_params (c : Chan) (bs : List Byte) (s : State) : (writeFifo c bs s).params = s.params :=
  by
  induction bs generalizing s with
  | nil => rfl
  | cons b bs ih => simp [writeFifo, ih]
@[simp] theorem writeFifo_chan (c : Chan) (bs : List Byte) (s : State) (c' : Chan) : (writeFifo c bs s).chan c' = s.chan c' :=
  by
  induction bs generalizing s with
  | nil => rfl
  | cons b bs ih => simp [writeFifo, ih]

/-! ## `readFifo` changes `portLog` and `oracle` -/

@[simp] theorem readFifo_dev (c : Chan) (n : Nat) (s : State) : (readFifo c n s).dev = s.dev :=
  by
  induction n generalizing s with
  | zero => rfl
  | succ n ih => simp [readFifo, ih]
@[simp] theorem readFifo_mem (c : Chan) (n : Nat) (s : State) : (readFifo c n s).mem = s.mem :=
  by
  induction n generalizing s with
  | zero => rfl
  | succ n ih => simp [readFifo, ih]
@[simp] theorem readFifo_calls (c : Chan) (n : Nat) (s : State) : (readFifo c n s).calls = s.calls :=
  by
  induction n generalizing s with
  | zero => rfl
  | succ n ih => simp [readFifo, ih]
@[simp] theorem readFifo_sigLog (c : Chan) (n : Nat) (s : State) : (readFifo c n s).sigLog = s.sigLog :=
  by
  induction n generalizing s with
  | zero => rfl
  | succ n ih => simp [readFifo, ih]
@[simp] theorem readFifo_key (c : Chan) (n : Nat) (s : State) : (readFifo c n s).key = s.key :=
  by
  induction n generalizing s with
  | zero => rfl
  | succ n ih => simp [readFifo, ih]
@[simp] theorem readFifo_respLog (c : Chan) (n : Nat) (s : State) : (readFifo c n s).respLog = s.respLog :=
  by
  induction n generalizing s with
  | zero => rfl
  | succ n ih => simp [readFifo, ih]
@[simp] theorem readFifo_irqLog (c : Chan) (n : Nat) (s : State) : (readFifo c n s).irqLog = s.irqLog :=
  by
  induction n generalizing s with
  | zero => rfl
  | succ n ih => simp [readFifo, ih]
@[simp] theorem readFifo_schedule (c : Chan) (n : Nat) (s : State) : (readFifo c n s).schedule = s.schedule :=
  by
  induction n generalizing s with
  | zero => rfl
  | succ n ih => simp [readFifo, ih]
@[simp] theorem readFifo_params (c : Chan) (n : Nat) (s : State) : (readFifo c n s).params = s.params :=
  by
  induction n generalizing s with
  | zero => rfl
  | succ n ih => simp [readFifo, ih]
@[simp] theorem readFifo_chan (c : Chan) (n : Nat) (s : State) (c' : Chan) : (readFifo c n s).chan c' = s.chan c' :=
  by
  induction n generalizing s with
  | zero => rfl
  | succ n ih => simp [readFifo, ih]

/-! ## `respond` changes `respLog` -/

@[simp] theorem respond_dev (tid : Tid) (n : Nat) (e : ErrCode) (out : List Byte) (s : State) : (respond tid n e out s).dev = s.dev :=
  rfl
@[simp] theorem respond_mem (tid : Tid) (n : Nat) (e : ErrCode) (out : List Byte) (s : State) : (respond tid n e out s).mem = s.mem :=
  rfl
@[simp] theorem respond_calls (tid : Tid) (n : Nat) (e : ErrCode) (out : List Byte) (s : State) : (respond tid n e out s).calls = s.calls :=
  rfl
@[simp] theorem respond_sigLog (tid : Tid) (n : Nat) (e : ErrCode) (out : List Byte) (s : State) : (respond tid n e out s).sigLog = s.sigLog :=
  rfl
@[simp] theorem respond_portLog (tid : Tid) (n : Nat) (e : ErrCode) (out : List Byte) (s : State) : (respond tid n e out s).portLog = s.portLog :=
  rfl
@[simp] theorem respond_key (tid : Tid) (n : Nat) (e : ErrCode) (out : List Byte) (s : State) : (respond tid n e out s).key = s.key :=
  rfl
@[simp] theorem respond_irqLog (tid : Tid) (n : Nat) (e : ErrCode) (out : List Byte) (s : State) : (respond tid n e out s).irqLog = s.irqLog :=
  rfl
@[simp] theorem respond_schedule (tid : Tid) (n : Nat) (e : ErrCode) (out : List Byte) (s : State) : (respond tid n e out s).schedule = s.schedule :=
  rfl
@[simp] theorem respond_oracle (tid : Tid) (n : Nat) (e : ErrCode) (out : List Byte) (s : State) : (respond tid n e out s).oracle = s.oracle :=
  rfl
@[simp] theorem respond_params (tid : Tid) (n : Nat) (e : ErrCode) (out : List Byte) (s : State) : (respond tid n e out s).params = s.params :=
  rfl
@[simp] theorem respond_chan (tid : Tid) (n : Nat) (e : ErrCode) (out : List Byte) (s : State) (c' : Chan) : (respond tid n e out s).chan c' = s.chan c' :=
  by cases c' <;> rfl
@[simp] theorem respond_respLog (tid : Tid) (n : Nat) (e : ErrCode) (out : List Byte) (s : State) : (respond tid n e out s).respLog = s.respLog ++ [⟨tid, responseWord n e, out⟩] :=
  rfl

/-! ## `raiseSignal` changes `sigLog` -/

@[simp] theorem raiseSignal_dev (c : Chan) (s : State) : (raiseSignal c s).dev = s.dev :=
  by unfold raiseSignal; split <;> rfl
@[simp] theorem raiseSignal_mem (c : Chan) (s : State) : (raiseSignal c s).mem = s.mem :=
  by unfold raiseSignal; split <;> rfl
@[simp] theorem raiseSignal_calls (c : Chan) (s : State) : (raiseSignal c s).calls = s.calls :=
  by unfold raiseSignal; split <;> rfl
@[simp] theorem raiseSignal_portLog (c : Chan) (s : State) : (raiseSignal c s).portLog = s.portLog :=
  by unfold raiseSignal; split <;> rfl
@[simp] theorem raiseSignal_key (c : Chan) (s : State) : (raiseSignal c s).key = s.key :=
  by unfold raiseSignal; split <;> rfl
@[simp] theorem raiseSignal_respLog (c : Chan) (s : State) : (raiseSignal c s).respLog = s.respLog :=
  by unfold raiseSignal; split <;> rfl
@[simp] theorem raiseSignal_irqLog (c : Chan) (s : State) : (raiseSignal c s).irqLog = s.irqLog :=
  by unfold raiseSignal; split <;> rfl
@[simp] theorem raiseSignal_schedule (c : Chan) (s : State) : (raiseSignal c s).schedule = s.schedule :=
  by unfold raiseSignal; split <;> rfl
@[simp] theorem raiseSignal_oracle (c : Chan) (s : State) : (raiseSignal c s).oracle = s.oracle :=
  by unfold raiseSignal; split <;> rfl
@[simp] theorem raiseSignal_params (c : Chan) (s : State) : (raiseSignal c s).params = s.params :=
  by unfold raiseSignal; split <;> rfl
@[simp] theorem raiseSignal_chan (c : Chan) (s : State) (c' : Chan) : (raiseSignal c s).chan c' = s.chan c' :=
  by unfold raiseSignal; split <;> cases c' <;> rfl
@[simp] theorem raiseSignal_sigLog (c : Chan) (s : State) : (raiseSignal c s).sigLog = s.sigLog ++ (s.chan c).sigHandle.toList :=
  by
  unfold raiseSignal; split <;> simp [*]

/-! ## `wake` changes a ring's `waiter` and `calls` -/

@[simp] theorem wake_dev (c : Chan) (d : Dir) (s : State) : (wake c d s).dev = s.dev :=
  by unfold wake; split <;> cases c <;> rfl
@[simp] theorem wake_mem (c : Chan) (d : Dir) (s : State) : (wake c d s).mem = s.mem :=
  by unfold wake; split <;> cases c <;> rfl
@[simp] theorem wake_sigLog (c : Chan) (d : Dir) (s : State) : (wake c d s).sigLog = s.sigLog :=
  by unfold wake; split <;> cases c <;> rfl
@[simp] theorem wake_portLog (c : Chan) (d : Dir) (s : State) : (wake c d s).portLog = s.portLog :=
  by unfold wake; split <;> cases c <;> rfl
@[simp] theorem wake_key (c : Chan) (d : Dir) (s : State) : (wake c d s).key = s.key :=
  by unfold wake; split <;> cases c <;> rfl
@[simp] theorem wake_respLog (c : Chan) (d : Dir) (s : State) : (wake c d s).respLog = s.respLog :=
  by unfold wake; split <;> cases c <;> rfl
@[simp] theorem wake_irqLog (c : Chan) (d : Dir) (s : State) : (wake c d s).irqLog = s.irqLog :=
  by unfold wake; split <;> cases c <;> rfl
@[simp] theorem wake_schedule (c : Chan) (d : Dir) (s : State) : (wake c d s).schedule = s.schedule :=
  by unfold wake; split <;> cases c <;> rfl
@[simp] theorem wake_oracle (c : Chan) (d : Dir) (s : State) : (wake c d s).oracle = s.oracle :=
  by unfold wake; split <;> cases c <;> rfl
@[simp] theorem wake_params (c : Chan) (d : Dir) (s : State) : (wake c d s).params = s.params :=
  by unfold wake; split <;> cases c <;> rfl
@[simp] theorem wake_chan_other (c : Chan) (d : Dir) (s : State) : (wake c d s).chan c.other = s.chan c.other :=
  by unfold wake; split <;> cases c <;> rfl

/-- `Wake(rb)` leaves the ring's `waiter` 0 and every other field of the channel alone (41_blocking_io.md
R160). -/
@[simp] theorem wake_chan_same (c : Chan) (d : Dir) (s : State) :
    (wake c d s).chan c = (s.chan c).modRing d fun rb => { rb with waiter := false } := by
  unfold wake
  split
  · cases c <;> cases d <;> rfl
  · next h =>
    cases d
    · have h' : (s.chan c).tx.waiter = false := by simpa using h
      simp [← h']
    · have h' : (s.chan c).rx.waiter = false := by simpa using h
      simp [← h']

/-! ## `notifyRx` -/

@[simp] theorem notifyRx_dev (c : Chan) (s : State) : (notifyRx c s).dev = s.dev := by simp [notifyRx]
@[simp] theorem notifyRx_mem (c : Chan) (s : State) : (notifyRx c s).mem = s.mem := by simp [notifyRx]
@[simp] theorem notifyRx_portLog (c : Chan) (s : State) : (notifyRx c s).portLog = s.portLog :=
  by simp [notifyRx]
@[simp] theorem notifyRx_key (c : Chan) (s : State) : (notifyRx c s).key = s.key := by simp [notifyRx]
@[simp] theorem notifyRx_respLog (c : Chan) (s : State) : (notifyRx c s).respLog = s.respLog :=
  by simp [notifyRx]
@[simp] theorem notifyRx_irqLog (c : Chan) (s : State) : (notifyRx c s).irqLog = s.irqLog := by simp [notifyRx]
@[simp] theorem notifyRx_schedule (c : Chan) (s : State) : (notifyRx c s).schedule = s.schedule :=
  by simp [notifyRx]
@[simp] theorem notifyRx_oracle (c : Chan) (s : State) : (notifyRx c s).oracle = s.oracle := by simp [notifyRx]
@[simp] theorem notifyRx_params (c : Chan) (s : State) : (notifyRx c s).params = s.params := by simp [notifyRx]
@[simp] theorem notifyRx_chan_other (c : Chan) (s : State) : (notifyRx c s).chan c.other = s.chan c.other :=
  by simp [notifyRx]
@[simp] theorem notifyRx_chan_same (c : Chan) (s : State) : (notifyRx c s).chan c = { s.chan c with rx := { (s.chan c).rx with waiter := false } } :=
  by simp [notifyRx]

/-! ## `postError` -/

@[simp] theorem postError_dev (c : Chan) (e : ErrCode) (s : State) : (postError c e s).dev = s.dev :=
  by simp [postError]
@[simp] theorem postError_mem (c : Chan) (e : ErrCode) (s : State) : (postError c e s).mem = s.mem :=
  by simp [postError]
@[simp] theorem postError_portLog (c : Chan) (e : ErrCode) (s : State) : (postError c e s).portLog = s.portLog :=
  by simp [postError]
@[simp] theorem postError_key (c : Chan) (e : ErrCode) (s : State) : (postError c e s).key = s.key :=
  by simp [postError]
@[simp] theorem postError_respLog (c : Chan) (e : ErrCode) (s : State) : (postError c e s).respLog = s.respLog :=
  by simp [postError]
@[simp] theorem postError_irqLog (c : Chan) (e : ErrCode) (s : State) : (postError c e s).irqLog = s.irqLog :=
  by simp [postError]
@[simp] theorem postError_schedule (c : Chan) (e : ErrCode) (s : State) : (postError c e s).schedule = s.schedule :=
  by simp [postError]
@[simp] theorem postError_oracle (c : Chan) (e : ErrCode) (s : State) : (postError c e s).oracle = s.oracle :=
  by simp [postError]
@[simp] theorem postError_params (c : Chan) (e : ErrCode) (s : State) : (postError c e s).params = s.params :=
  by simp [postError]
@[simp] theorem postError_chan_other (c : Chan) (e : ErrCode) (s : State) : (postError c e s).chan c.other = s.chan c.other :=
  by simp [postError]
@[simp] theorem postError_chan_same (c : Chan) (e : ErrCode) (s : State) : (postError c e s).chan c = { s.chan c with stickyErr := some e, rx := { (s.chan c).rx with waiter := false } } :=
  by simp [postError]

/-! ## `acknowledge` changes `portLog`, `oracle` and `key` -/

@[simp] theorem acknowledge_dev (c : Chan) (cmd : Word) (s : State) : (acknowledge c cmd s).dev = s.dev := rfl
@[simp] theorem acknowledge_mem (c : Chan) (cmd : Word) (s : State) : (acknowledge c cmd s).mem = s.mem := rfl
@[simp] theorem acknowledge_calls (c : Chan) (cmd : Word) (s : State) : (acknowledge c cmd s).calls = s.calls :=
  rfl
@[simp] theorem acknowledge_sigLog (c : Chan) (cmd : Word) (s : State) : (acknowledge c cmd s).sigLog = s.sigLog :=
  rfl
@[simp] theorem acknowledge_respLog (c : Chan) (cmd : Word) (s : State) : (acknowledge c cmd s).respLog = s.respLog :=
  rfl
@[simp] theorem acknowledge_irqLog (c : Chan) (cmd : Word) (s : State) : (acknowledge c cmd s).irqLog = s.irqLog :=
  rfl
@[simp] theorem acknowledge_schedule (c : Chan) (cmd : Word) (s : State) : (acknowledge c cmd s).schedule = s.schedule :=
  rfl
@[simp] theorem acknowledge_params (c : Chan) (cmd : Word) (s : State) : (acknowledge c cmd s).params = s.params :=
  rfl
@[simp] theorem acknowledge_chan (c : Chan) (cmd : Word) (s : State) (c' : Chan) : (acknowledge c cmd s).chan c' = s.chan c' :=
  by cases c' <;> rfl
@[simp] theorem acknowledge_portLog (c : Chan) (cmd : Word) (s : State) : (acknowledge c cmd s).portLog = s.portLog ++ [.write c .cmd cmd] :=
  rfl
@[simp] theorem acknowledge_key (c : Chan) (cmd : Word) (s : State) : (acknowledge c cmd s).key = none := rfl

/-! ## `leave` changes a ring's `waiter` and `calls` -/

@[simp] theorem leave_dev (tid : Tid) (b : Blocked) (s : State) : (leave tid b s).dev = s.dev := by simp [leave]
@[simp] theorem leave_mem (tid : Tid) (b : Blocked) (s : State) : (leave tid b s).mem = s.mem := by simp [leave]
@[simp] theorem leave_sigLog (tid : Tid) (b : Blocked) (s : State) : (leave tid b s).sigLog = s.sigLog :=
  by simp [leave]
@[simp] theorem leave_portLog (tid : Tid) (b : Blocked) (s : State) : (leave tid b s).portLog = s.portLog :=
  by simp [leave]
@[simp] theorem leave_key (tid : Tid) (b : Blocked) (s : State) : (leave tid b s).key = s.key := by simp [leave]
@[simp] theorem leave_respLog (tid : Tid) (b : Blocked) (s : State) : (leave tid b s).respLog = s.respLog :=
  by simp [leave]
@[simp] theorem leave_irqLog (tid : Tid) (b : Blocked) (s : State) : (leave tid b s).irqLog = s.irqLog :=
  by simp [leave]
@[simp] theorem leave_schedule (tid : Tid) (b : Blocked) (s : State) : (leave tid b s).schedule = s.schedule :=
  by simp [leave]
@[simp] theorem leave_oracle (tid : Tid) (b : Blocked) (s : State) : (leave tid b s).oracle = s.oracle :=
  by simp [leave]
@[simp] theorem leave_params (tid : Tid) (b : Blocked) (s : State) : (leave tid b s).params = s.params :=
  by simp [leave]
@[simp] theorem leave_calls (tid : Tid) (b : Blocked) (s : State) : (leave tid b s).calls = dropCall s.calls tid :=
  rfl

end Sys2Proof.Machine
end

