-- ==== Sys2Proof/Laws/Ops.lean ====
section
/-! SUPPORT. For each shared operation, once, what it can answer; the thread table. -/

namespace Sys2Proof.Machine

open Sys2Proof

/-! ## Outcomes and guards -/

/-- `andThen` answers a next state exactly when both parts do. -/
theorem andThen_eq_next {r : Result} {f : State → Result} {t : State} :
    andThen r f = .next t ↔ ∃ s, r = .next s ∧ f s = .next t := by
  cases r <;> simp [andThen]

@[simp] theorem andThen_next (s : State) (f : State → Result) : andThen (.next s) f = f s := rfl

/-- A command answers a next state only where it is enabled, and then as its body. -/
theorem asCommand_eq_next {tid : Tid} {s t : State} {f : State → Result} :
    asCommand tid s f = .next t ↔ commandEnabled tid s = true ∧ f s = .next t := by
  unfold asCommand; split <;> simp_all

@[simp] theorem asCommand_enabled {tid : Tid} {s : State} (f : State → Result)
    (h : commandEnabled tid s = true) : asCommand tid s f = f s := by
  simp [asCommand, h]

@[simp] theorem asCommand_disabled {tid : Tid} {s : State} (f : State → Result)
    (h : commandEnabled tid s = false) : asCommand tid s f = .refused .notEnabled := by
  simp [asCommand, h]

/-- A service answers a next state only inside the interrupt context and in its mode. -/
theorem asService_eq_next {c : Chan} {m : Mode} {s t : State} {f : State → Result} :
    asService c m s f = .next t ↔ s.dev.inIsr = true ∧ (s.chan c).mode = m ∧ f s = .next t := by
  unfold asService; split <;> simp_all

theorem checked_eq_next {tid : Tid} {legal : Bool} {s t : State} {f : State → Result} :
    checked tid legal s f = .next t ↔
      (legal = true ∧ f s = .next t) ∨ (legal = false ∧ t = respond tid 0 .invalidParameter [] s) := by
  unfold checked; split <;> simp_all [fail, eq_comm]

/-- A wait event answers a next state only for a blocked thread while callers are free. -/
theorem asBlocked_eq_next {tid : Tid} {s t : State} {f : Blocked → Result} :
    asBlocked tid s f = .next t ↔
      callersFree s = true ∧ ∃ b, callOf s.calls tid = some (.blocked b) ∧ f b = .next t := by
  unfold asBlocked
  split
  · next h => split <;> simp_all
  · next h => simp [h]

/-! ## The thread table -/

@[simp] theorem callOf_insertCall_same (calls : List (Tid × Call)) (tid : Tid) (k : Call) :
    callOf (insertCall calls tid k) tid = some k := by
  induction calls with
  | nil => simp [insertCall, callOf]
  | cons e rest ih =>
    obtain ⟨t, k'⟩ := e
    rw [insertCall]
    split
    · simp [callOf]
    · split
      · simp [callOf]
      · next h => simp [callOf, h, ih]

theorem callOf_insertCall_other (calls : List (Tid × Call)) {tid t : Tid} (k : Call) (h : t ≠ tid) :
    callOf (insertCall calls tid k) t = callOf calls t := by
  induction calls with
  | nil => simp [insertCall, callOf, h]
  | cons e rest ih =>
    obtain ⟨t', k'⟩ := e
    rw [insertCall]
    split
    · simp [callOf, h]
    · split
      · next hx => subst hx; simp [callOf, h]
      · simp [callOf, ih]

@[simp] theorem callOf_dropCall_same (calls : List (Tid × Call)) (tid : Tid) :
    callOf (dropCall calls tid) tid = none := by
  induction calls with
  | nil => rfl
  | cons e rest ih =>
    obtain ⟨t, k⟩ := e
    by_cases h : t = tid
    · simpa [dropCall, h] using ih
    · have h' : ¬ tid = t := fun x => h x.symm
      simpa [dropCall, h, callOf, h'] using ih

theorem callOf_dropCall_other (calls : List (Tid × Call)) {tid t : Tid} (h : t ≠ tid) :
    callOf (dropCall calls tid) t = callOf calls t := by
  induction calls with
  | nil => rfl
  | cons e rest ih =>
    obtain ⟨t', k⟩ := e
    by_cases h1 : t' = tid
    · have h2 : ¬ t = t' := fun x => h (x.trans h1)
      simpa [dropCall, h1, callOf, h2, h] using ih
    · by_cases h2 : t = t'
      · simp [dropCall, callOf, h2, h1]
      · simpa [dropCall, h1, callOf, h2] using ih

/-- Whether some entry has a property, after an entry is put in for an `Idle` thread. -/
theorem any_insertCall (calls : List (Tid × Call)) (tid : Tid) (k : Call) (p : Call → Bool)
    (h : callOf calls tid = none) :
    ((insertCall calls tid k).any fun e => p e.2) = (p k || calls.any fun e => p e.2) := by
  induction calls with
  | nil => simp [insertCall]
  | cons e rest ih =>
    obtain ⟨t, k'⟩ := e
    have ht : ¬ tid = t := by rintro rfl; simp [callOf] at h
    have hr : callOf rest tid = none := by simpa [callOf, ht] using h
    rw [insertCall]
    split
    · simp
    · simp only [List.any_cons, ih hr]
      cases p k <;> cases p k' <;> rfl

/-- The `woken` bits of `Wake` leave no record of the ring asleep (41_blocking_io.md R160). -/
theorem anyAsleep_wake (calls : List (Tid × Call)) (c : Chan) (d : Dir) :
    anyAsleep (calls.map fun e => (e.1, e.2.wake c d)) c d = false := by
  induction calls with
  | nil => rfl
  | cons e rest ih =>
    obtain ⟨t, k⟩ := e
    simp only [anyAsleep, List.map_cons, List.any_cons, Bool.or_eq_false_iff] at ih ⊢
    refine ⟨?_, ih⟩
    cases k with
    | mid cw w1 => rfl
    | blocked b =>
      by_cases h : b.ch = c ∧ b.dir = d
      · simp [Call.wake, Call.waitsOn, Call.asleepOn, h]
      · by_cases h1 : b.ch = c <;> by_cases h2 : b.dir = d <;>
          simp_all [Call.wake, Call.waitsOn, Call.asleepOn]

/-- `Wake(rb)`, whole (41_blocking_io.md R160). -/
theorem wake_eq (c : Chan) (d : Dir) (s : State) :
    wake c d s =
      if (s.ring c d).waiter then
        { s.modRing c d fun rb => { rb with waiter := false } with
          calls := s.calls.map fun e => (e.1, e.2.wake c d) }
      else s := rfl

/-! ## Data movements -/

/-- `enqueue` answers a next state exactly when the tail slot is an `EMPTY` slot of the ring and the data fit;
then the bytes are stored and the slot is committed (40_ring_buffer.md R133). -/
theorem enqueue_eq_next {c : Chan} {d : Dir} {data : List Byte} {s t : State} :
    enqueue c d data s = .next t ↔
      (s.ring c d).tail < (s.ring c d).slots.length ∧ data.length ≤ (s.ring c d).fsz ∧
      ((s.ring c d).slot (s.ring c d).tail).state = .empty ∧
      t = { s.modRing c d (Ring.commit data.length) with
            mem := storeBytes s.mem (slotAddr c d (s.ring c d).tail 0) data } := by
  unfold enqueue
  split
  · next h =>
    constructor
    · nofun
    · rintro ⟨h1, h2, -⟩; omega
  · next h =>
    split
    · next he =>
      constructor
      · intro ht; exact ⟨by omega, by omega, he, (Host.Outcome.next.inj ht).symm⟩
      · rintro ⟨-, -, -, rfl⟩; rfl
    · next he => simp [he]

/-- `TxSyncStart(c)` answers a next state in two cases: nothing available, and the burst of a `READY` head
frame (42_sync_engine.md R171). -/
theorem txSyncStart_eq_next {c : Chan} {s t : State} :
    txSyncStart c s = .next t ↔
      ((s.ring c .tx).avail = false ∧ t = s.modChan c fun x => { x with txReady := true }) ∨
      ((s.ring c .tx).avail = true ∧ (s.ring c .tx).headReady = true ∧
        ((s.ring c .tx).slot (s.ring c .tx).head).len ≤ (s.ring c .tx).fsz ∧ t = txSyncBurst c s) := by
  unfold txSyncStart
  split
  · next ha =>
    split
    · next hr =>
      have hr' : (s.ring c .tx).headReady = false := by simpa only [Bool.not_eq_true'] using hr
      constructor
      · nofun
      · rintro (⟨h1, -⟩ | ⟨-, h1, -⟩)
        · rw [ha] at h1; cases h1
        · rw [hr'] at h1; cases h1
    · next hr =>
      have hr' : (s.ring c .tx).headReady = true := by simpa only [Bool.not_eq_true', Bool.not_eq_false] using hr
      split
      · next hl =>
        constructor
        · nofun
        · rintro (⟨h1, -⟩ | ⟨-, -, h3, -⟩)
          · rw [ha] at h1; cases h1
          · omega
      · next hl =>
        constructor
        · intro ht; exact .inr ⟨ha, hr', by omega, (Host.Outcome.next.inj ht).symm⟩
        · rintro (⟨h1, -⟩ | ⟨-, -, -, rfl⟩)
          · rw [ha] at h1; cases h1
          · rfl
  · next ha =>
    have ha' : (s.ring c .tx).avail = false := by simpa only [Bool.not_eq_true] using ha
    constructor
    · intro ht; exact .inl ⟨ha', (Host.Outcome.next.inj ht).symm⟩
    · rintro (⟨-, rfl⟩ | ⟨h1, -⟩)
      · rfl
      · exact absurd h1 ha

/-- `TxAsyncByte(c)` answers a next state in three cases: nothing to send, the next byte of the active frame,
the first byte of the head frame (43_async_engine.md R186). -/
theorem txAsyncByte_eq_next {c : Chan} {s t : State} :
    txAsyncByte c s = .next t ↔
      ((s.chan c).txActive = false ∧ (s.ring c .tx).avail = false ∧
        t = s.modChan c fun y => { y with txBufEmpty := true }) ∨
      ((s.chan c).txActive = true ∧ txAsyncSend c s = .next t) ∨
      ((s.chan c).txActive = false ∧ (s.ring c .tx).avail = true ∧
        txAsyncSend c (txAsyncActivate c s) = .next t) := by
  unfold txAsyncByte
  split
  · next h => simp [h]
  · next h =>
    have h' : (s.chan c).txActive = false := by simpa using h
    split
    · next ha =>
      constructor
      · intro ht; exact .inr (.inr ⟨h', ha, ht⟩)
      · rintro (⟨-, h1, -⟩ | ⟨h1, -⟩ | ⟨-, -, h1⟩)
        · rw [ha] at h1; cases h1
        · exact absurd h1 h
        · exact h1
    · next ha =>
      have ha' : (s.ring c .tx).avail = false := by simpa only [Bool.not_eq_true] using ha
      constructor
      · intro ht; exact .inl ⟨h', ha', (Host.Outcome.next.inj ht).symm⟩
      · rintro (⟨-, -, rfl⟩ | ⟨h1, -⟩ | ⟨-, h1, -⟩)
        · rfl
        · exact absurd h1 h
        · exact absurd h1 ha

/-- `SendAttempt(c)` does nothing while the hardware is busy (41_blocking_io.md R152). -/
theorem sendAttempt_busy {c : Chan} {s : State}
    (h : ((s.chan c).mode = .sync ∧ (s.chan c).txReady = false) ∨
      ((s.chan c).mode = .async ∧ (s.chan c).txBufEmpty = false)) : sendAttempt c s = .next s := by
  rcases h with ⟨h1, h2⟩ | ⟨h1, h2⟩ <;> simp [sendAttempt, h1, h2]

/-- A `READ` delivers in two ways: the buffer is too small, or the head frame goes out (41_blocking_io.md R155,
R156). -/
theorem deliver_eq_next {tid : Tid} {c : Chan} {maxLen : Nat} {s t : State} :
    deliver tid c maxLen s = .next t ↔
      (s.ring c .rx).headReady = true ∧
      ((maxLen < ((s.ring c .rx).slot (s.ring c .rx).head).len ∧ t = respond tid 0 .frameTooLarge [] s) ∨
       (((s.ring c .rx).slot (s.ring c .rx).head).len ≤ maxLen ∧
        ((s.ring c .rx).slot (s.ring c .rx).head).len ≤ (s.ring c .rx).fsz ∧
        t = respond tid ((s.ring c .rx).slot (s.ring c .rx).head).len .ok
          (loadBytes s.mem (slotAddr c .rx (s.ring c .rx).head 0)
            ((s.ring c .rx).slot (s.ring c .rx).head).len)
          (s.modRing c .rx fun r => { r with errReported := false }.consume))) := by
  unfold deliver
  simp only
  split
  · next h =>
    have h' : (s.ring c .rx).headReady = false := by simpa only [Bool.not_eq_true'] using h
    constructor
    · nofun
    · rintro ⟨h1, -⟩
      rw [h'] at h1; cases h1
  · next h =>
    have h' : (s.ring c .rx).headReady = true := by simpa only [Bool.not_eq_true', Bool.not_eq_false] using h
    split
    · next hl =>
      constructor
      · intro ht; exact ⟨h', .inl ⟨hl, (Host.Outcome.next.inj ht).symm⟩⟩
      · rintro ⟨-, ⟨-, rfl⟩ | ⟨h1, -⟩⟩
        · rfl
        · omega
    · next hl =>
      split
      · next hf =>
        constructor
        · nofun
        · rintro ⟨-, ⟨h1, -⟩ | ⟨-, h1, -⟩⟩ <;> omega
      · next hf =>
        constructor
        · intro ht; exact ⟨h', .inr ⟨by omega, by omega, (Host.Outcome.next.inj ht).symm⟩⟩
        · rintro ⟨-, ⟨h1, -⟩ | ⟨-, -, rfl⟩⟩
          · omega
          · rfl

/-- One pass of the synchronous receive loop with an empty status FIFO ends the service (42_sync_engine.md
R173). -/
theorem rxSyncLoop_empty {c : Chan} {dk : BitVec 4} {n : Nat} {s : State}
    (h : rsSfne (portAnswer c .rs s) = false) :
    rxSyncLoop c dk (n + 1) s = .next (acknowledge c cmdAckRx (regRead c .rs s)) := by
  rw [rxSyncLoop]; simp [h]

/-- One pass of the synchronous receive loop with an entry and a full ring ends the service
(42_sync_engine.md R173). -/
theorem rxSyncLoop_full {c : Chan} {dk : BitVec 4} {n : Nat} {s : State}
    (h : rsSfne (portAnswer c .rs s) = true) (hf : (s.ring c .rx).full = true) :
    rxSyncLoop c dk (n + 1) s = .next (acknowledge c cmdAckRx (queueFullPass c (regRead c .rs s))) := by
  rw [rxSyncLoop]
  have hf' : ((regRead c .rs s).ring c .rx).full = true := by cases c <;> exact hf
  simp [h] at hf' ⊢
  simp [hf']

/-- One pass of the synchronous receive loop with an entry and room handles the entry and goes on
(42_sync_engine.md R173). -/
theorem rxSyncLoop_entry {c : Chan} {dk : BitVec 4} {n : Nat} {s : State}
    (h : rsSfne (portAnswer c .rs s) = true) (hf : (s.ring c .rx).full = false) :
    rxSyncLoop c dk (n + 1) s = andThen (rxSyncEntry c (regRead c .rs s)) (rxSyncLoop c dk n) := by
  rw [rxSyncLoop]
  have hf' : ((regRead c .rs s).ring c .rx).full = false := by cases c <;> exact hf
  simp [h] at hf' ⊢
  simp [hf']

/-- One pass of the asynchronous receive loop with no character ends the service (43_async_engine.md R188). -/
theorem rxAsyncLoop_empty {c : Chan} {dk : BitVec 4} {n : Nat} {s : State}
    (h : rsRca (portAnswer c .rs s) = false) :
    rxAsyncLoop c dk (n + 1) s = .next (acknowledge c cmdAckRx (regRead c .rs s)) := by
  rw [rxAsyncLoop]; simp [h]

/-- One pass of the asynchronous receive loop with a bad character consumes it and goes on, whether or not the
ring is full (43_async_engine.md R188). -/
theorem rxAsyncLoop_bad {c : Chan} {dk : BitVec 4} {n : Nat} {s : State}
    (h : rsRca (portAnswer c .rs s) = true) (he : rsRxe (portAnswer c .rs s) = true) :
    rxAsyncLoop c dk (n + 1) s =
      rxAsyncLoop c dk n (badCharacter c (portAnswer c .rs s) (regRead c .rs s)) := by
  rw [rxAsyncLoop]; simp [h, he]

/-! ## The interrupt context -/

/-- `IRQ` with an interrupt in service and no service in progress is the scan (44_isr_dispatcher.md R201). -/
theorem execIrq_serving {s : State} (h : s.dev.inIsr = true) (hk : s.key = none) : execIrq s = scan s := by
  simp [execIrq, enterInterrupt, h, hk]

/-- A cause of channel 0 is dispatched without a look at channel 1 (44_isr_dispatcher.md R201). -/
theorem scan_first {s : State} (h : ipBits (portAnswer .ch0 .ip s) ≠ 0#3) :
    scan s = dispatch .ch0 (ipBits (portAnswer .ch0 .ip s)) (regRead .ch0 .ip s) := by
  simp [scan, h]

/-- A cause of channel 1 is dispatched where channel 0 has none (44_isr_dispatcher.md R201). -/
theorem scan_second {s : State} (h0 : ipBits (portAnswer .ch0 .ip s) = 0#3)
    (h1 : ipBits (portAnswer .ch1 .ip (regRead .ch0 .ip s)) ≠ 0#3) :
    scan s = dispatch .ch1 (ipBits (portAnswer .ch1 .ip (regRead .ch0 .ip s)))
      (regRead .ch1 .ip (regRead .ch0 .ip s)) := by
  simp [scan, h0, h1]

/-- With no cause on either channel the interrupt ends (44_isr_dispatcher.md R201, R204). -/
theorem scan_none {s : State} (h0 : ipBits (portAnswer .ch0 .ip s) = 0#3)
    (h1 : ipBits (portAnswer .ch1 .ip (regRead .ch0 .ip s)) = 0#3) :
    scan s = .next (endInterrupt (regRead .ch1 .ip (regRead .ch0 .ip s))) := by
  simp [scan, h0, h1]

/-- The external service is the one of the lowest pending bit alone, in both modes (30_encoding.md R112). -/
theorem runService_ext (c : Chan) (m : Mode) (s : State) : runService c (dispatchKey m 1#3) s = extService c s := by
  cases m <;> rfl

/-- The external service with no break only acknowledges (44_isr_dispatcher.md R208). -/
theorem extService_quiet {c : Chan} {s : State} (h : esBrk (portAnswer c .es s) = false) :
    extService c s = .next (acknowledge c cmdAckExt (regRead c .es s)) := by
  simp [extService, h]

end Sys2Proof.Machine
end

