-- ==== Sys2Proof/Laws/Endless.lean ====
section
/-! SUPPORT. An interrupt that never ends, as 44_isr_dispatcher.md R207 asks of a model: "A model must be able to
represent this as an infinite execution". -/

namespace Sys2Proof.Machine

open Sys2Proof

/-- An interrupt in service that goes on by itself goes on with `IRQ`, and takes no delivery. -/
theorem step_of_goesOn {s : State} (hk : s.key = none) (h : goesOn s = true) : step s = exec .irq s := by
  simp [step, fetch, advance, hk, h]

/-- The controller of the endless interrupt: channel 0 reports the external cause whenever `IP` is read, and no break
whenever `ES` is. -/
abbrev Nagged (s : State) : Prop :=
  s.dev.inIsr = true ∧ s.key = none ∧ goesOn s = true ∧ s.oracle = .cycle [1#32, 0#32]

/-- One iteration of the endless interrupt: the external service of channel 0, and the interrupt is where it was. -/
theorem nagged_step {s : State} (h : Nagged s) : ∃ t, step s = .next t ∧ Nagged t := by
  obtain ⟨h1, h2, h3, h4⟩ := h
  rw [step_of_goesOn h2 h3]
  refine ⟨acknowledge .ch0 cmdAckExt
    (regRead .ch0 .es { regRead .ch0 .ip s with dev := { s.dev with isrHandled := true } }), ?_, ?_⟩
  · have hip : ipBits (portAnswer .ch0 .ip s) = 1#3 := by simp [portAnswer, h4, Oracle.answer]; decide
    have hes : esBrk (portAnswer .ch0 .es { regRead .ch0 .ip s with dev := { s.dev with isrHandled := true } }) =
        false := by simp [portAnswer, regRead, h4, Oracle.answer, Oracle.afterRead]; decide
    rw [exec, execIrq_serving h1 h2, scan_first (by rw [hip]; decide), hip, dispatch, runService_ext]
    exact extService_quiet hes
  · exact ⟨h1, rfl, h3, by simp [acknowledge, portWrite, regRead, h4, Oracle.afterRead, Oracle.afterWrite]⟩

/-- For every number of steps there is a run of that many steps, each an `IRQ` iteration, with the interrupt still in
service at its end. -/
theorem interrupt_without_end {s : State} (h : Nagged s) (n : Nat) :
    ∃ t, runSteps n s = .next t ∧ t.dev.inIsr = true := by
  induction n generalizing s with
  | zero => exact ⟨s, rfl, h.1⟩
  | succ n ih =>
    obtain ⟨u, hu, hn⟩ := nagged_step h
    obtain ⟨t, ht, hi⟩ := ih hn
    exact ⟨t, by rw [runSteps, hu, andThen_next, ht], hi⟩

end Sys2Proof.Machine
end

