-- ==== Sys2Proof/Laws/PerInstr.lean ====
section
/-! SUPPORT. The per-instruction family `MatchesTable`: the encoding of every well-formed instruction lies in the
row of spec/opcode_table.json that bears its mnemonic (30_encoding.md R120). -/

namespace Sys2Proof.Laws

open Sys2Proof

/-- The bits of a raw form in its key space: `CW`, `DK` or `EV` (30_encoding.md R120). -/
def keyBits : Raw → Nat
  | .command k => k.cw.toNat
  | .key _ dk => dk.toNat
  | .event ev _ => ev.toNat

/-- The width of the key space of a raw form. -/
def keyWidth : Raw → Nat
  | .command _ => 32
  | .key _ _ => 4
  | .event _ _ => 3

/-- A row of the opcode table: the width of its key in bits, its mask and the value of its fixed bits. -/
structure Row where
  width : Nat
  mask : Nat
  fixed : Nat
deriving DecidableEq, Repr

/-- The row of spec/opcode_table.json of an instruction. -/
def row : Instr → Row
  | .write _ _ _ => ⟨32, 0xFEFF0000, 0x10000000⟩
  | .read _ _ _ => ⟨32, 0xFEFF0000, 0x20000000⟩
  | .cfgMode _ _ _ => ⟨32, 0xFEFFFFFF, 0x30000000⟩
  | .cfgTxSize _ _ _ => ⟨32, 0xFEFFFFFF, 0x30010000⟩
  | .cfgTxNum _ _ _ => ⟨32, 0xFEFFFFFF, 0x30020000⟩
  | .cfgRxSize _ _ _ => ⟨32, 0xFEFFFFFF, 0x30030000⟩
  | .cfgRxNum _ _ _ => ⟨32, 0xFEFFFFFF, 0x30040000⟩
  | .cfgRdTmo _ _ _ => ⟨32, 0xFEFFFFFF, 0x30050000⟩
  | .cfgWrTmo _ _ _ => ⟨32, 0xFEFFFFFF, 0x30060000⟩
  | .cfgWMark _ _ _ => ⟨32, 0xFEFFFFFF, 0x30070000⟩
  | .cfgRxEn _ _ _ => ⟨32, 0xFEFFFFFF, 0x30080000⟩
  | .cfgTxEn _ _ _ => ⟨32, 0xFEFFFFFF, 0x30090000⟩
  | .cfgIrqEn _ _ _ => ⟨32, 0xFEFFFFFF, 0x300A0000⟩
  | .cfgGIrqEn _ _ _ => ⟨32, 0xFEFFFFFF, 0x300B0000⟩
  | .notifyInstall _ _ _ => ⟨32, 0xFEFFFFFF, 0x40000000⟩
  | .notifyRemove _ _ => ⟨32, 0xFEFFFFFF, 0x50000000⟩
  | .resetChannel _ _ => ⟨32, 0xFEFFFFFF, 0x60000000⟩
  | .resetDevice _ _ => ⟨32, 0xFEFFFFFF, 0x60010000⟩
  | .svcRxSync _ _ _ => ⟨4, 0xC, 0x4⟩
  | .svcRxAsync _ _ _ => ⟨4, 0xC, 0xC⟩
  | .svcTxSync _ _ => ⟨4, 0xE, 0x2⟩
  | .svcTxAsync _ _ => ⟨4, 0xE, 0xA⟩
  | .svcExt _ _ => ⟨4, 0x7, 0x1⟩
  | .irq => ⟨3, 0x7, 0x0⟩
  | .cont _ => ⟨3, 0x7, 0x1⟩
  | .resume _ => ⟨3, 0x7, 0x2⟩
  | .timeout _ => ⟨3, 0x7, 0x3⟩
  | .abort _ => ⟨3, 0x7, 0x4⟩

/-- The encoding of a well-formed `i` is in the key space of its row and agrees with the row's fixed bits. -/
def MatchesTable.Statement (i : Instr) : Prop :=
  i.wellFormed = true →
    keyWidth (encode i) = (row i).width ∧ keyBits (encode i) &&& (row i).mask = (row i).fixed

/-- The fixed bits of a command word: all of it but bit 24 of `CH` and the field `LEN` (30_encoding.md R101). -/
theorem commandWord_fixed (op : BitVec 4) (c : Chan) (sel : BitVec 8) (len : BitVec 16) :
    commandWord op c sel len &&& 0xFEFF0000#32 = commandWord op .ch0 sel 0#16 := by
  have h1 : op &&& 0xF#4 = op := by revert op; decide
  have h2 : sel &&& 0xFF#8 = sel := by revert sel; decide
  refine (BitVec.and_append (x₁ := op ++ chanField c ++ sel) (x₂ := (0xF#4 ++ 0xE#4) ++ 0xFF#8) (y₁ := len)
    (y₂ := 0#16)).trans ?_
  rw [BitVec.and_append, BitVec.and_append, h1, h2]
  cases c <;> simp [chanField, commandWord]

/-- The fixed bits of a command word with `LEN = 0`: all of it but bit 24 (30_encoding.md R101). -/
theorem commandWord_short (op : BitVec 4) (c : Chan) (sel : BitVec 8) :
    (commandWord op c sel 0).toNat &&& 0xFEFFFFFF = (commandWord op .ch0 sel 0).toNat := by
  cases c <;> decide +revert

theorem MatchesTable.write (tid : Tid) (c : Chan) (p : List Byte) : MatchesTable.Statement (.write tid c p) := by
  intro _
  exact ⟨rfl, congrArg BitVec.toNat (commandWord_fixed 1 c 0 (BitVec.ofNat 16 p.length))⟩

theorem MatchesTable.read (tid : Tid) (c : Chan) (n : BitVec 16) : MatchesTable.Statement (.read tid c n) := by
  intro _
  exact ⟨rfl, congrArg BitVec.toNat (commandWord_fixed 2 c 0 n)⟩

theorem MatchesTable.cfgMode (tid : Tid) (c : Chan) (v : Word) : MatchesTable.Statement (.cfgMode tid c v) := by
  intro _
  exact ⟨rfl, (commandWord_short 3 c 0).trans (by decide : (commandWord 3 .ch0 0 0).toNat = 0x30000000)⟩

theorem MatchesTable.cfgTxSize (tid : Tid) (c : Chan) (v : Word) : MatchesTable.Statement (.cfgTxSize tid c v) := by
  intro _
  exact ⟨rfl, (commandWord_short 3 c 1).trans (by decide : (commandWord 3 .ch0 1 0).toNat = 0x30010000)⟩

theorem MatchesTable.cfgTxNum (tid : Tid) (c : Chan) (v : Word) : MatchesTable.Statement (.cfgTxNum tid c v) := by
  intro _
  exact ⟨rfl, (commandWord_short 3 c 2).trans (by decide : (commandWord 3 .ch0 2 0).toNat = 0x30020000)⟩

theorem MatchesTable.cfgRxSize (tid : Tid) (c : Chan) (v : Word) : MatchesTable.Statement (.cfgRxSize tid c v) := by
  intro _
  exact ⟨rfl, (commandWord_short 3 c 3).trans (by decide : (commandWord 3 .ch0 3 0).toNat = 0x30030000)⟩

theorem MatchesTable.cfgRxNum (tid : Tid) (c : Chan) (v : Word) : MatchesTable.Statement (.cfgRxNum tid c v) := by
  intro _
  exact ⟨rfl, (commandWord_short 3 c 4).trans (by decide : (commandWord 3 .ch0 4 0).toNat = 0x30040000)⟩

theorem MatchesTable.cfgRdTmo (tid : Tid) (c : Chan) (v : Word) : MatchesTable.Statement (.cfgRdTmo tid c v) := by
  intro _
  exact ⟨rfl, (commandWord_short 3 c 5).trans (by decide : (commandWord 3 .ch0 5 0).toNat = 0x30050000)⟩

theorem MatchesTable.cfgWrTmo (tid : Tid) (c : Chan) (v : Word) : MatchesTable.Statement (.cfgWrTmo tid c v) := by
  intro _
  exact ⟨rfl, (commandWord_short 3 c 6).trans (by decide : (commandWord 3 .ch0 6 0).toNat = 0x30060000)⟩

theorem MatchesTable.cfgWMark (tid : Tid) (c : Chan) (v : Word) : MatchesTable.Statement (.cfgWMark tid c v) := by
  intro _
  exact ⟨rfl, (commandWord_short 3 c 7).trans (by decide : (commandWord 3 .ch0 7 0).toNat = 0x30070000)⟩

theorem MatchesTable.cfgRxEn (tid : Tid) (c : Chan) (v : Word) : MatchesTable.Statement (.cfgRxEn tid c v) := by
  intro _
  exact ⟨rfl, (commandWord_short 3 c 8).trans (by decide : (commandWord 3 .ch0 8 0).toNat = 0x30080000)⟩

theorem MatchesTable.cfgTxEn (tid : Tid) (c : Chan) (v : Word) : MatchesTable.Statement (.cfgTxEn tid c v) := by
  intro _
  exact ⟨rfl, (commandWord_short 3 c 9).trans (by decide : (commandWord 3 .ch0 9 0).toNat = 0x30090000)⟩

theorem MatchesTable.cfgIrqEn (tid : Tid) (c : Chan) (v : Word) : MatchesTable.Statement (.cfgIrqEn tid c v) := by
  intro _
  exact ⟨rfl, (commandWord_short 3 c 10).trans (by decide : (commandWord 3 .ch0 10 0).toNat = 0x300A0000)⟩

theorem MatchesTable.cfgGIrqEn (tid : Tid) (c : Chan) (v : Word) : MatchesTable.Statement (.cfgGIrqEn tid c v) := by
  intro _
  exact ⟨rfl, (commandWord_short 3 c 11).trans (by decide : (commandWord 3 .ch0 11 0).toNat = 0x300B0000)⟩

theorem MatchesTable.notifyInstall (tid : Tid) (c : Chan) (h : Word) : MatchesTable.Statement (.notifyInstall tid c h) := by
  intro _
  exact ⟨rfl, (commandWord_short 4 c 0).trans (by decide : (commandWord 4 .ch0 0 0).toNat = 0x40000000)⟩

theorem MatchesTable.notifyRemove (tid : Tid) (c : Chan) : MatchesTable.Statement (.notifyRemove tid c) := by
  intro _
  exact ⟨rfl, (commandWord_short 5 c 0).trans (by decide : (commandWord 5 .ch0 0 0).toNat = 0x50000000)⟩

theorem MatchesTable.resetChannel (tid : Tid) (c : Chan) : MatchesTable.Statement (.resetChannel tid c) := by
  intro _
  exact ⟨rfl, (commandWord_short 6 c 0).trans (by decide : (commandWord 6 .ch0 0 0).toNat = 0x60000000)⟩

theorem MatchesTable.resetDevice (tid : Tid) (c : Chan) : MatchesTable.Statement (.resetDevice tid c) := by
  intro _
  exact ⟨rfl, (commandWord_short 6 c 1).trans (by decide : (commandWord 6 .ch0 1 0).toNat = 0x60010000)⟩

theorem MatchesTable.svcRxSync (c : Chan) (tx : Bool) (ext : Bool) : MatchesTable.Statement (.svcRxSync c tx ext) := by
  intro _
  exact ⟨rfl, (by decide : ∀ a b, (keyOf false true a b).toNat &&& 0xC = 0x4) tx ext⟩

theorem MatchesTable.svcRxAsync (c : Chan) (tx : Bool) (ext : Bool) : MatchesTable.Statement (.svcRxAsync c tx ext) := by
  intro _
  exact ⟨rfl, (by decide : ∀ a b, (keyOf true true a b).toNat &&& 0xC = 0xC) tx ext⟩

theorem MatchesTable.svcTxSync (c : Chan) (ext : Bool) : MatchesTable.Statement (.svcTxSync c ext) := by
  intro _
  exact ⟨rfl, (by decide : ∀ a, (keyOf false false true a).toNat &&& 0xE = 0x2) ext⟩

theorem MatchesTable.svcTxAsync (c : Chan) (ext : Bool) : MatchesTable.Statement (.svcTxAsync c ext) := by
  intro _
  exact ⟨rfl, (by decide : ∀ a, (keyOf true false true a).toNat &&& 0xE = 0xA) ext⟩

theorem MatchesTable.svcExt (c : Chan) (async : Bool) : MatchesTable.Statement (.svcExt c async) := by
  intro _
  exact ⟨rfl, (by decide : ∀ a, (keyOf a false false true).toNat &&& 0x7 = 0x1) async⟩

theorem MatchesTable.irq : MatchesTable.Statement .irq := by
  intro _
  exact ⟨rfl, rfl⟩

theorem MatchesTable.cont (tid : Tid) : MatchesTable.Statement (.cont tid) := by
  intro _
  exact ⟨rfl, (by decide : (1#3).toNat &&& 0x7 = 0x1)⟩

theorem MatchesTable.resume (tid : Tid) : MatchesTable.Statement (.resume tid) := by
  intro _
  exact ⟨rfl, (by decide : (2#3).toNat &&& 0x7 = 0x2)⟩

theorem MatchesTable.timeout (tid : Tid) : MatchesTable.Statement (.timeout tid) := by
  intro _
  exact ⟨rfl, (by decide : (3#3).toNat &&& 0x7 = 0x3)⟩

theorem MatchesTable.abort (tid : Tid) : MatchesTable.Statement (.abort tid) := by
  intro _
  exact ⟨rfl, (by decide : (4#3).toNat &&& 0x7 = 0x4)⟩

end Sys2Proof.Laws
end

