-- ==== Sys2Proof/Machine/Assembly.lean ====
section
/-! DEFINITION. The written form of instructions, responses and test events, and the pseudo-instructions
(30_encoding.md R115, R116; 70_reset_and_hazards.md R293). Text only: no step reads it. -/

namespace Sys2Proof.Machine

open Sys2Proof

/-! ## Text (30_encoding.md R115; notes/assumptions/21.md for the digits) -/

/-- A hexadecimal digit. -/
def hexDigit (n : Nat) : Char := "0123456789ABCDEF".toList.getD n '0'

/-- A byte as two hexadecimal digits. -/
def byteText (b : Byte) : String := String.ofList [hexDigit (b.toNat / 16), hexDigit (b.toNat % 16)]

/-- A byte sequence `[b0 b1 ...]`. -/
def bytesText (bs : List Byte) : String := "[" ++ String.intercalate " " (bs.map byteText) ++ "]"

/-- A channel number. -/
def chanText (c : Chan) : String := toString c.number

/-- A thread, `t0` for thread 0. -/
def tidText (tid : Tid) : String := "t" ++ toString tid

/-- A value, unsigned and decimal. -/
def wordText (v : Word) : String := toString v.toNat

/-- The mnemonic of an instruction, as the opcode table has it (30_encoding.md R115, R120). -/
def mnemonic : Instr → String
  | .write _ _ _ => "WRITE"
  | .read _ _ _ => "READ"
  | .cfgMode _ _ _ => "CFG.MODE"
  | .cfgTxSize _ _ _ => "CFG.TXSIZE"
  | .cfgTxNum _ _ _ => "CFG.TXNUM"
  | .cfgRxSize _ _ _ => "CFG.RXSIZE"
  | .cfgRxNum _ _ _ => "CFG.RXNUM"
  | .cfgRdTmo _ _ _ => "CFG.RDTMO"
  | .cfgWrTmo _ _ _ => "CFG.WRTMO"
  | .cfgWMark _ _ _ => "CFG.WMARK"
  | .cfgRxEn _ _ _ => "CFG.RXEN"
  | .cfgTxEn _ _ _ => "CFG.TXEN"
  | .cfgIrqEn _ _ _ => "CFG.IRQEN"
  | .cfgGIrqEn _ _ _ => "CFG.GIRQEN"
  | .notifyInstall _ _ _ => "NOTIFY.INSTALL"
  | .notifyRemove _ _ => "NOTIFY.REMOVE"
  | .resetChannel _ _ => "RESET.CHANNEL"
  | .resetDevice _ _ => "RESET.DEVICE"
  | .svcRxSync _ _ _ => "SVC.RX.SYNC"
  | .svcRxAsync _ _ _ => "SVC.RX.ASYNC"
  | .svcTxSync _ _ => "SVC.TX.SYNC"
  | .svcTxAsync _ _ => "SVC.TX.ASYNC"
  | .svcExt _ _ => "SVC.EXT"
  | .irq => "IRQ"
  | .cont _ => "CONT"
  | .resume _ => "RESUME"
  | .timeout _ => "TIMEOUT"
  | .abort _ => "ABORT"

/-- A command line: `tid: MNEMONIC operands`. -/
def commandText (i : Instr) (tid : Tid) (operands : List String) : String :=
  tidText tid ++ ": " ++ mnemonic i ++ " " ++ String.intercalate ", " operands

/-- The written form of an instruction. A service is no line of a program; its operand is its channel. -/
def instrText (i : Instr) : String :=
  match i with
  | .write tid c payload => commandText i tid [chanText c, bytesText payload]
  | .read tid c maxLen => commandText i tid [chanText c, toString maxLen.toNat]
  | .cfgMode tid c v => commandText i tid [chanText c, wordText v]
  | .cfgTxSize tid c v => commandText i tid [chanText c, wordText v]
  | .cfgTxNum tid c v => commandText i tid [chanText c, wordText v]
  | .cfgRxSize tid c v => commandText i tid [chanText c, wordText v]
  | .cfgRxNum tid c v => commandText i tid [chanText c, wordText v]
  | .cfgRdTmo tid c v => commandText i tid [chanText c, wordText v]
  | .cfgWrTmo tid c v => commandText i tid [chanText c, wordText v]
  | .cfgWMark tid c v => commandText i tid [chanText c, wordText v]
  | .cfgRxEn tid c v => commandText i tid [chanText c, wordText v]
  | .cfgTxEn tid c v => commandText i tid [chanText c, wordText v]
  | .cfgIrqEn tid c v => commandText i tid [chanText c, wordText v]
  | .cfgGIrqEn tid c v => commandText i tid [chanText c, wordText v]
  | .notifyInstall tid c handle => commandText i tid [chanText c, wordText handle]
  | .notifyRemove tid c => commandText i tid [chanText c]
  | .resetChannel tid c => commandText i tid [chanText c]
  | .resetDevice tid c => commandText i tid [chanText c]
  | .svcRxSync c _ _ => mnemonic i ++ " " ++ chanText c
  | .svcRxAsync c _ _ => mnemonic i ++ " " ++ chanText c
  | .svcTxSync c _ => mnemonic i ++ " " ++ chanText c
  | .svcTxAsync c _ => mnemonic i ++ " " ++ chanText c
  | .svcExt c _ => mnemonic i ++ " " ++ chanText c
  | .irq => mnemonic i
  | .cont tid => mnemonic i ++ " " ++ tidText tid
  | .resume tid => mnemonic i ++ " " ++ tidText tid
  | .timeout tid => mnemonic i ++ " " ++ tidText tid
  | .abort tid => mnemonic i ++ " " ++ tidText tid

/-- The name of an error code (30_encoding.md R108). -/
def errText : ErrCode → String
  | .ok => "OK"
  | .queueEmpty => "QueueEmpty"
  | .queueFull => "QueueFull"
  | .frameTooLarge => "FrameTooLarge"
  | .checksumOrFramingError => "ChecksumOrFramingError"
  | .overrun => "Overrun"
  | .breakAbort => "BreakAbort"
  | .outOfMemory => "OutOfMemory"
  | .interruptsDisabled => "InterruptsDisabled"
  | .invalidParameter => "InvalidParameter"
  | .timeout => "Timeout"
  | .interrupted => "Interrupted"

/-- The written form of a response: `-> (count, ErrName)`, and for a `READ` that delivers,
`-> (count, OK, [b0 b1 ...])`. -/
def responseText (n : Nat) (e : ErrCode) (payload : Option (List Byte)) : String :=
  "-> (" ++ toString n ++ ", " ++ errText e ++
    (match payload with
      | some bs => ", " ++ bytesText bs
      | none => "") ++ ")"

/-- The written form of a test event of the reference controller, the channel first. -/
def injectionText (c : Chan) : Injection → String
  | .rxFrame bytes => "env: RxFrame(" ++ chanText c ++ ", " ++ bytesText bytes ++ ")"
  | .rxBad e bytes => "env: RxBad(" ++ chanText c ++ ", " ++ toString e.toNat ++ ", " ++ bytesText bytes ++ ")"
  | .rxChar b => "env: RxChar(" ++ chanText c ++ ", 0x" ++ byteText b ++ ")"
  | .rxCharBad e b => "env: RxCharBad(" ++ chanText c ++ ", " ++ toString e.toNat ++ ", 0x" ++ byteText b ++ ")"
  | .txDone => "env: TxDone(" ++ chanText c ++ ")"
  | .brk => "env: Break(" ++ chanText c ++ ")"

/-! ## Pseudo-instructions (30_encoding.md R116) -/

/-- `Write(channel, buf, len, timeout)`: `CFG.WRTMO`, then `WRITE`, of the same thread. -/
def pseudoWrite (tid : Tid) (c : Chan) (buf : List Byte) (timeout : Word) : List Instr :=
  [.cfgWrTmo tid c timeout, .write tid c buf]

/-- `Read(channel, buf, maxLen, timeout)`: `CFG.RDTMO`, then `READ`, of the same thread. -/
def pseudoRead (tid : Tid) (c : Chan) (maxLen : BitVec 16) (timeout : Word) : List Instr :=
  [.cfgRdTmo tid c timeout, .read tid c maxLen]

/-- `Configure(channel, param, value)`: the `CFG` command with that parameter number; none for an illegal
number (30_encoding.md R106). -/
def pseudoConfigure (tid : Tid) (c : Chan) (param : Nat) (v : Word) : List Instr := (cfgInstr param tid c v).toList

/-- The enabling order that never fails (45_config_control.md R230; steps (4) and (5) of
70_reset_and_hazards.md R293). -/
def enableSequence (tid : Tid) (c : Chan) : List Instr :=
  [.cfgGIrqEn tid c 1#32, .cfgIrqEn tid c 1#32, .cfgRxEn tid c 1#32, .cfgTxEn tid c 1#32]

/-- The nearest expansion of "close/reopen": `RESET.CHANNEL`, its second step, then the enables (30_encoding.md
R116, 70_reset_and_hazards.md R303). -/
def pseudoReopen (tid : Tid) (c : Chan) : List Instr :=
  [.resetChannel tid c, .cont tid, .cfgIrqEn tid c 1#32, .cfgRxEn tid c 1#32, .cfgTxEn tid c 1#32]

/-- The delivery that brings an instruction to the block: a command tuple or an event; a service is none, the
dispatcher selects it (30_encoding.md R112, R113). -/
def deliveryOf (i : Instr) : Option Delivery :=
  match encode i with
  | .command k => some (.command k)
  | .event ev tid => some (.event ev tid)
  | .key _ _ => none

end Sys2Proof.Machine
end

