-- ==== Sys2Proof/Tests/Slice0.lean ====
section
/-! SUPPORT. The model's own tests. The expected values are those of spec/95_test_vectors.md (the vector is named)
or worked by hand from the rule named; then, for every statement with hypotheses, concrete states and operands
that meet them. -/

namespace Sys2Proof.Machine

/-- A state with an interrupt in service. -/
def State.serving (s : State) : State := { s with dev := { s.dev with inIsr := true, isrHandled := true } }

/-- A state after a test event of the reference controller. -/
def State.inject (s : State) (c : Chan) (e : Injection) : State :=
  { s with oracle := (s.oracle.inject c e).getD s.oracle }

/-- A state with one more frame queued in a ring. -/
def State.holding (s : State) (c : Chan) (d : Dir) (data : List Byte) : State :=
  match enqueue c d data s with
  | .next t => t
  | .fault _ => s
  | .refused _ => s

/-- A state whose thread 1 is blocked. -/
def State.waiting (s : State) (op : CallOp) (c : Chan) (tmo : Word) : State :=
  let b : Blocked := ⟨op, c, tmo, false⟩
  { s.modRing c b.dir fun rb => { rb with waiter := true } with calls := [(1, .blocked b)] }

end Sys2Proof.Machine

namespace Sys2Proof.Tests

-- one thread for the many small evaluations
set_option Elab.async false

open Sys2Proof Sys2Proof.Machine

/-! ## Well-formedness -/

/-- A payload of 65536 bytes has no `LEN` (30_encoding.md R105). -/
theorem test_wellFormed_refuses_long_payload :
    (Instr.write 0 .ch0 (List.replicate 65536 0#8)).wellFormed = false := by
  rw [Instr.wellFormed, List.length_replicate]; rfl

theorem test_wellFormed_accepts_longest_payload :
    (Instr.write 0 .ch0 (List.replicate 65535 0#8)).wellFormed = true := by
  rw [Instr.wellFormed, List.length_replicate]; rfl

/-! ## Decoding: the words of 95_test_vectors.md section 2, one per constructor -/

/-- A command of thread 5. -/
def cmd (cw : Word) (w1 : Option Word) (payload : List Byte) : Except DecodeError Instr :=
  decode (.command ⟨5, cw, w1, payload⟩)

theorem test_decode_write : cmd 0x11000003 none [1, 2, 3] = .ok (.write 5 .ch1 [1, 2, 3]) := by decide
theorem test_decode_read : cmd 0x20000010 none [] = .ok (.read 5 .ch0 16) := by decide
theorem test_decode_cfgMode : cmd 0x30000000 (some 1) [] = .ok (.cfgMode 5 .ch0 1) := by decide
theorem test_decode_cfgTxSize : cmd 0x31010000 (some 0x20) [] = .ok (.cfgTxSize 5 .ch1 0x20) := by decide
theorem test_decode_cfgTxNum : cmd 0x30020000 (some 8) [] = .ok (.cfgTxNum 5 .ch0 8) := by decide
theorem test_decode_cfgRxSize : cmd 0x30030000 (some 0x40) [] = .ok (.cfgRxSize 5 .ch0 0x40) := by decide
theorem test_decode_cfgRxNum : cmd 0x31040000 (some 2) [] = .ok (.cfgRxNum 5 .ch1 2) := by decide
theorem test_decode_cfgRdTmo : cmd 0x30050000 (some 0xFFFFFFFF) [] = .ok (.cfgRdTmo 5 .ch0 0xFFFFFFFF) := by decide
theorem test_decode_cfgWrTmo : cmd 0x30060000 (some 0x64) [] = .ok (.cfgWrTmo 5 .ch0 0x64) := by decide
theorem test_decode_cfgWMark : cmd 0x31070000 (some 4) [] = .ok (.cfgWMark 5 .ch1 4) := by decide
theorem test_decode_cfgRxEn : cmd 0x30080000 (some 1) [] = .ok (.cfgRxEn 5 .ch0 1) := by decide
theorem test_decode_cfgTxEn : cmd 0x30090000 (some 0) [] = .ok (.cfgTxEn 5 .ch0 0) := by decide
theorem test_decode_cfgIrqEn : cmd 0x310A0000 (some 1) [] = .ok (.cfgIrqEn 5 .ch1 1) := by decide
theorem test_decode_cfgGIrqEn : cmd 0x300B0000 (some 1) [] = .ok (.cfgGIrqEn 5 .ch0 1) := by decide
theorem test_decode_notifyInstall : cmd 0x41000000 (some 0xBEEF) [] = .ok (.notifyInstall 5 .ch1 0xBEEF) := by decide
theorem test_decode_notifyRemove : cmd 0x51000000 none [] = .ok (.notifyRemove 5 .ch1) := by decide
theorem test_decode_resetChannel : cmd 0x60000000 none [] = .ok (.resetChannel 5 .ch0) := by decide
theorem test_decode_resetDevice : cmd 0x61010000 none [] = .ok (.resetDevice 5 .ch1) := by decide
theorem test_decode_svcRxSync : decode (.key .ch0 0b0110) = .ok (.svcRxSync .ch0 true false) := by decide
theorem test_decode_svcRxAsync : decode (.key .ch1 0b1101) = .ok (.svcRxAsync .ch1 false true) := by decide
theorem test_decode_svcTxSync : decode (.key .ch0 0b0011) = .ok (.svcTxSync .ch0 true) := by decide
theorem test_decode_svcTxAsync : decode (.key .ch1 0b1010) = .ok (.svcTxAsync .ch1 false) := by decide
theorem test_decode_svcExt : decode (.key .ch1 0b1001) = .ok (.svcExt .ch1 true) := by decide
theorem test_decode_irq : decode (.event 0b000 none) = .ok .irq := by decide
theorem test_decode_cont : decode (.event 0b001 (some 5)) = .ok (.cont 5) := by decide
theorem test_decode_resume : decode (.event 0b010 (some 5)) = .ok (.resume 5) := by decide
theorem test_decode_timeout : decode (.event 0b011 (some 5)) = .ok (.timeout 5) := by decide
theorem test_decode_abort : decode (.event 0b100 (some 5)) = .ok (.abort 5) := by decide

/-- The illegal command words of the vectors. -/
theorem test_decode_illegal_words :
    [0x00000000, 0x70000000, 0xF0000000, 0x300C0000, 0x60020000, 0x20010010, 0x10FF0000, 0x40000005, 0x30000005,
      0x50010000, 0x22000001, 0x2F000001].all (fun cw : Word =>
        match decode (.command ⟨0, cw, if hasW1 (opField cw) then some 0 else none, []⟩) with
        | .ok _ => false
        | .error e => decide (e ≠ .illFormed)) = true := by decide

/-- A `CONFIGURE` without its operand word and a `WRITE` of the wrong length are ill formed (30_encoding.md
R109). -/
theorem test_decode_ill_formed :
    cmd 0x30000000 none [] = .error .illFormed ∧ cmd 0x10000002 none [1] = .error .illFormed := by decide

/-! ## Text and pseudo-instructions (30_encoding.md R115, R116) -/

theorem test_text :
    instrText (.write 0 .ch0 [0xAA, 0x0B]) = "t0: WRITE 0, [AA 0B]" ∧ instrText (.cfgTxNum 1 .ch0 8) = "t1: CFG.TXNUM 0, 8" ∧
    responseText 3 .ok (some [1, 2, 3]) = "-> (3, OK, [01 02 03])" ∧
    injectionText .ch1 (.rxCharBad 1 0) = "env: RxCharBad(1, 1, 0x00)" := by decide +kernel

theorem test_pseudo :
    (pseudoWrite 0 .ch0 [0xAA] 100).map encode =
      [.command ⟨0, 0x30060000, some 0x64, []⟩, .command ⟨0, 0x10000001, none, [0xAA]⟩] ∧
    pseudoConfigure 0 .ch1 12 0 = [] := by decide

/-! ## One step of each instruction, from `S0` (95_test_vectors.md section 0) -/

/-- The state a meaning answers has the property. -/
def after (r : Result) (p : State → Bool) : Bool :=
  match r with
  | .next t => p t
  | .fault _ => false
  | .refused _ => false

/-- A meaning answers that it is not enabled. -/
def notEnabled (r : Result) : Bool :=
  match r with
  | .next _ => false
  | .fault _ => false
  | .refused e => decide (e = .notEnabled)

/-- The state `S0`. -/
abbrev S0 : State := State.reset

/-- `S0` with the enables and the mirror that the boot sequences `B0`, `B1` leave. -/
def booted : State :=
  { S0 with
    dev := { S0.dev with irqEnable := true }
    ch0 := { S0.ch0 with rxEnabled := true, txEnabled := true, irqEnabled := true, mirror := 0x7 }
    ch1 := { S0.ch1 with rxEnabled := true, txEnabled := true, irqEnabled := true, mirror := 0xF } }

/-- V4.4. -/
theorem test_write_idle_sync :
    after (exec (.write 0 .ch0 [0xAA]) S0) (fun t =>
      decide (t.portLog = [.write .ch0 .txfifo 0xAA, .write .ch0 .ctl 0x2]) && t.ch0.txEnabled &&
      !t.ch0.txReady && decide (t.ch0.mirror = 2 ∧ t.ch0.tx.entryCount = 0 ∧ t.ch0.tx.head = 1 ∧ t.ch0.tx.tail = 1) &&
      decide (t.respLog = [⟨0, 0x00000001, []⟩])) = true := by decide

/-- V6.1, first step. -/
theorem test_write_idle_async :
    after (exec (.write 0 .ch1 [0x41, 0x42]) booted) (fun t =>
      decide (t.portLog = [.write .ch1 .txfifo 0x41]) && t.ch1.txActive && !t.ch1.txBufEmpty &&
      decide ((t.ch1.tx.slot 0).fill = 1 ∧ t.ch1.tx.entryCount = 1)) = true := by decide

/-- V4.8. -/
theorem test_read_delivers :
    after (exec (.read 0 .ch0 16) (S0.holding .ch0 .rx [1, 2, 3])) (fun t =>
      decide (t.respLog = [⟨0, 0x00000003, [1, 2, 3]⟩] ∧ t.ch0.rx.entryCount = 0)) = true := by
  decide +kernel

/-- V4.9, first step. -/
theorem test_read_buffer_too_small :
    after (exec (.read 0 .ch0 2) (S0.holding .ch0 .rx [1, 2, 3])) (fun t =>
      decide (t.respLog = [⟨0, 0x00030000, []⟩] ∧ t.ch0.rx.entryCount = 1 ∧ t.ch0.rx.head = 0)) = true := by decide

/-- V8.5. -/
theorem test_cfgMode :
    after (exec (.cfgMode 0 .ch0 1) booted) (fun t =>
      decide (t.portLog = [.write .ch0 .ctl 0xF] ∧ t.ch0.mode = .async)) = true := by decide

/-- V8.3, `CFG.MODE 0, 2`. -/
theorem test_cfgMode_illegal :
    after (exec (.cfgMode 0 .ch0 2) S0) (fun t => decide (t.respLog = [⟨0, 0x00090000, []⟩] ∧ t.ch0 = S0.ch0)) =
      true := by decide

/-- V8.3, `CFG.TXSIZE 0, 65536`. -/
theorem test_cfgTxSize_illegal :
    after (exec (.cfgTxSize 0 .ch0 65536) S0) (fun t => decide (t.respLog = [⟨0, 0x00090000, []⟩])) = true := by
  decide

/-- R132 step 1. -/
theorem test_cfgTxNum_goes_offline :
    after (exec (.cfgTxNum 0 .ch0 8) S0) (fun t =>
      !t.ch0.tx.online && decide (t.respLog = [] ∧ t.calls = [(0, .mid 0x30020000 (some 8))])) = true := by decide

theorem test_cfgRxSize_goes_offline :
    after (exec (.cfgRxSize 0 .ch0 64) S0) (fun t =>
      !t.ch0.rx.online && t.ch0.tx.online && decide (t.calls = [(0, .mid 0x30030000 (some 64))])) = true := by decide

theorem test_cfgRxNum_goes_offline :
    after (exec (.cfgRxNum 0 .ch1 2) S0) (fun t =>
      !t.ch1.rx.online && t.ch0.rx.online && decide (t.calls = [(0, .mid 0x31040000 (some 2))])) = true := by decide

/-- V8.3: -2 is refused, -1 stored. -/
theorem test_cfgRdTmo :
    after (exec (.cfgRdTmo 0 .ch0 0xFFFFFFFE) S0) (fun t => decide (t.respLog = [⟨0, 0x00090000, []⟩])) = true ∧
    after (exec (.cfgRdTmo 0 .ch0 0xFFFFFFFF) S0) (fun t => decide (t.ch0.rdTimeout = 0xFFFFFFFF)) = true := by
  decide

/-- V8.3: the most negative value is refused. -/
theorem test_cfgWrTmo :
    after (exec (.cfgWrTmo 0 .ch0 0x80000000) S0) (fun t => decide (t.respLog = [⟨0, 0x00090000, []⟩])) = true ∧
    after (exec (.cfgWrTmo 0 .ch1 100) S0) (fun t => decide (t.ch1.wrTimeout = 100 ∧ t.ch0 = S0.ch0)) = true := by
  decide

/-- V8.3: 65536 is refused, 65535 stored. -/
theorem test_cfgWMark :
    after (exec (.cfgWMark 0 .ch0 65536) S0) (fun t => decide (t.respLog = [⟨0, 0x00090000, []⟩])) = true ∧
    after (exec (.cfgWMark 0 .ch0 65535) S0) (fun t => decide (t.ch0.watermark = 65535)) = true := by decide

/-- V8.1. -/
theorem test_cfgRxEn_needs_interrupts :
    after (exec (.cfgRxEn 0 .ch0 1) S0) (fun t => decide (t.respLog = [⟨0, 0x00080000, []⟩] ∧ t.portLog = [])) =
      true := by decide

/-- V8.2. -/
theorem test_cfgRxEn_disable :
    after (exec (.cfgRxEn 0 .ch0 0) S0) (fun t => decide (t.portLog = [.write .ch0 .ctl 0])) = true := by decide

/-- R227. -/
theorem test_cfgTxEn_disable :
    after (exec (.cfgTxEn 0 .ch1 0) booted) (fun t => decide (t.portLog = [.write .ch1 .ctl 0xD]) && !t.ch1.txEnabled) =
      true := by decide

/-- `B1`: `CFG.IRQEN 1, 1` writes 0xC. -/
theorem test_cfgIrqEn :
    after (exec (.cfgIrqEn 0 .ch1 1) S0) (fun t => decide (t.portLog = [.write .ch1 .ctl 0xC]) && t.ch1.irqEnabled) =
      true := by decide

/-- `B0`: `CFG.GIRQEN 0, 1` writes no port. -/
theorem test_cfgGIrqEn :
    after (exec (.cfgGIrqEn 0 .ch0 1) S0) (fun t => decide (t.portLog = []) && t.dev.irqEnable) = true := by decide

/-- V8.6, first and second step. -/
theorem test_notifyInstall :
    after (exec (.notifyInstall 0 .ch1 0xBEEF) S0) (fun t =>
      decide (t.ch1.sigHandle = some 0xBEEF) &&
      after (exec (.notifyInstall 0 .ch1 1) t) fun u =>
        decide (u.ch1.sigHandle = some 0xBEEF ∧ u.respLog = [⟨0, 0, []⟩, ⟨0, 0x00090000, []⟩])) = true := by decide

/-- V8.6, last step. -/
theorem test_notifyRemove :
    after (exec (.notifyRemove 0 .ch1) S0) (fun t => decide (t.respLog = [⟨0, 0x00090000, []⟩])) = true := by decide

/-- V8.7. -/
theorem test_resetChannel :
    after (exec (.resetChannel 0 .ch0) booted) (fun t =>
      decide (t.portLog = [.write .ch0 .cmd 4, .write .ch0 .ctl 0x4] ∧ t.ch1 = booted.ch1) && !t.ch0.tx.online &&
      !t.ch0.rx.online && !t.ch0.rxEnabled && !t.ch0.txEnabled && t.ch0.irqEnabled) = true := by decide

/-- V8.8, first step. -/
theorem test_resetDevice :
    after (exec (.resetDevice 0 .ch0) booted) (fun t =>
      decide (t.portLog =
        [.write .ch0 .cmd 4, .write .ch0 .ctl 0x4, .write .ch1 .cmd 4, .write .ch1 .ctl 0xC])) = true := by decide

/-- V5.3, the service. -/
theorem test_svcRxSync_stores :
    after (exec (.svcRxSync .ch0 false false) (booted.serving.inject .ch0 (.rxFrame [0x10, 0x20]))) (fun t =>
      decide (t.portLog =
        [.read .ch0 .rs 3, .read .ch0 .sfifo 2, .read .ch0 .rxfifo 0x10, .read .ch0 .rxfifo 0x20, .read .ch0 .rs 0,
          .write .ch0 .cmd 1] ∧
        t.ch0.rx.entryCount = 1 ∧ t.ch0.rx.slot 0 = ⟨.ready, 2, 0⟩)) = true := by decide

/-- V5.4, the service. -/
theorem test_svcRxSync_error_entry :
    after (exec (.svcRxSync .ch0 false false) (booted.serving.inject .ch0 (.rxBad 1 [0xAA, 0xBB, 0xCC]))) (fun t =>
      decide (t.portLog.length = 7 ∧ t.ch0.stickyErr = some .overrun ∧ t.ch0.rx.entryCount = 0)) = true := by decide

/-- V6.3, the service, with one character. -/
theorem test_svcRxAsync_appends :
    after (exec (.svcRxAsync .ch1 false false) (booted.serving.inject .ch1 (.rxChar 0x61))) (fun t =>
      decide (t.portLog = [.read .ch1 .rs 2, .read .ch1 .rxfifo 0x61, .read .ch1 .rs 0, .write .ch1 .cmd 1] ∧
        (t.ch1.rx.slot 0).state = .filling ∧ (t.ch1.rx.slot 0).fill = 1 ∧ t.ch1.rx.entryCount = 0)) = true := by
  decide

/-- V6.4, the service, with the bad character alone. -/
theorem test_svcRxAsync_bad :
    after (exec (.svcRxAsync .ch1 false false) (booted.serving.inject .ch1 (.rxCharBad 1 0))) (fun t =>
      decide (t.portLog = [.read .ch1 .rs 0x0E, .read .ch1 .rxfifo 0, .read .ch1 .rs 0, .write .ch1 .cmd 1] ∧
        t.ch1.stickyErr = some .overrun)) = true := by decide

/-- V5.1 and V5.2. -/
theorem test_svcTxSync :
    after (exec (.svcTxSync .ch0 false) (booted.serving.holding .ch0 .tx [1, 2, 3])) (fun t =>
      decide (t.portLog =
        [.write .ch0 .txfifo 1, .write .ch0 .txfifo 2, .write .ch0 .txfifo 3, .write .ch0 .ctl 7,
          .write .ch0 .cmd 2]) && !t.ch0.txReady) = true ∧
    after (exec (.svcTxSync .ch0 false) booted.serving) (fun t =>
      decide (t.portLog = [.write .ch0 .cmd 2]) && t.ch0.txReady) = true := by decide

/-- V6.2 as a service, and the end of V6.1. -/
theorem test_svcTxAsync :
    after (exec (.svcTxAsync .ch1 false) (booted.serving.holding .ch1 .tx [0x5A])) (fun t =>
      decide (t.portLog = [.write .ch1 .txfifo 0x5A, .write .ch1 .cmd 2] ∧ t.ch1.tx.entryCount = 0) &&
      !t.ch1.txActive) = true ∧
    after (exec (.svcTxAsync .ch1 false) booted.serving) (fun t =>
      decide (t.portLog = [.write .ch1 .cmd 2]) && t.ch1.txBufEmpty) = true := by decide

/-- R208, the example, and V7.6. -/
theorem test_svcExt :
    after (exec (.svcExt .ch0 false) (booted.serving.inject .ch0 .brk)) (fun t =>
      decide (t.portLog = [.read .ch0 .es 1, .write .ch0 .cmd 3] ∧ t.ch0.stickyErr = some .breakAbort)) = true ∧
    after (exec (.svcExt .ch1 true) booted.serving) (fun t =>
      decide (t.portLog = [.read .ch1 .es 0, .write .ch1 .cmd 3] ∧ t.ch1.stickyErr = none)) = true := by decide

/-- V7.1 and V7.2. -/
theorem test_irq_not_mine :
    notEnabled (exec .irq S0) = true ∧
    after (exec .irq booted) (fun t =>
      decide (t.portLog = [.read .ch0 .ip 0, .read .ch1 .ip 0] ∧ t.irqLog = [.notMine] ∧ t.dev.irqCount = 0) &&
      !t.dev.inIsr) = true := by decide

/-- V7.5. -/
theorem test_irq_counter_wraps :
    after (exec .irq { booted.serving with dev := ⟨true, 0xFFFFFFFF, true, true⟩ }) (fun t =>
      decide (t.dev.irqCount = 0 ∧ t.irqLog = [.handled])) = true := by decide

/-- R132, the example: `CFG.TXNUM 0, 8`, then `CONT`. -/
theorem test_cont :
    after (exec (.cont 0)
        { S0.holding .ch0 .tx [9] with calls := [(0, .mid 0x30020000 (some 8))] }) (fun t =>
      decide (t.ch0.tx.cap = 8 ∧ t.ch0.tx.entryCount = 0 ∧ t.respLog = [⟨0, 0, []⟩] ∧ t.calls = [])) = true := by
  decide

/-- V4.12, the spurious `RESUME`. -/
theorem test_resume_blocks_again :
    after (exec (.resume 1) { S0.waiting (.read 16) .ch0 0xFFFFFFFF with
        ch0 := { (S0.waiting (.read 16) .ch0 0xFFFFFFFF).ch0 with rdTimeout := 0xFFFFFFFF } }) (fun t =>
      decide (t.calls = [(1, .blocked ⟨.read 16, .ch0, 0xFFFFFFFF, false⟩)] ∧ t.respLog = []) &&
      t.ch0.rx.waiter) = true := by decide

/-- V4.13, and V4.12 where `TIMEOUT` is not enabled. -/
theorem test_timeout :
    after (exec (.timeout 1) (S0.waiting (.read 16) .ch0 5)) (fun t =>
      decide (t.respLog = [⟨1, 0x000A0000, []⟩] ∧ t.calls = []) && !t.ch0.rx.waiter) = true ∧
    notEnabled (exec (.timeout 1) (S0.waiting (.read 16) .ch0 0xFFFFFFFF)) = true := by decide

/-- V4.12, `ABORT`. -/
theorem test_abort :
    after (exec (.abort 1) (S0.waiting (.read 16) .ch0 0xFFFFFFFF)) (fun t =>
      decide (t.respLog = [⟨1, 0x000B0000, []⟩] ∧ t.calls = []) && !t.ch0.rx.waiter) = true := by decide

/-- An interrupt in service goes on without a delivery, and the command waits (44_isr_dispatcher.md R200, R258). -/
theorem test_step_interrupt_goes_on :
    after (step { booted.serving with schedule := [.command ⟨0, 0x20000010, none, []⟩] }) (fun t =>
      decide (t.irqLog = [.handled] ∧ t.schedule.length = 1 ∧ t.respLog = []) && !t.dev.inIsr) = true := by decide

/-- `allocOK` is a parameter (00_scope.md R14): a rule that grants nothing, not even 0 slots, and one that grants
one pair. -/
theorem test_allocOk_listed :
    allocOk (.listed []) 0 5 = false ∧ allocOk (.pool 0) 0 5 = true ∧ allocOk (.listed [(2, 7)]) 2 7 = true ∧
    after (exec (.cont 0)
        { S0 with params := { S0.params with alloc := .listed [] }, calls := [(0, .mid 0x30020000 (some 8))] })
      (fun t => decide (t.ch0.tx.cap = 0 ∧ t.ch0.tx.fsz = 16 ∧ t.respLog = [⟨0, 0x00070000, []⟩])) = true := by
  decide

/-- A step takes its instruction from the schedule. -/
theorem test_step_fetches :
    after (step (S0.withFetchWord 32 0x20000010)) (fun t =>
      decide (t.respLog = [⟨0, 0x00010000, []⟩] ∧ t.schedule = [])) = true := by decide

/-! ## Witnesses: states and operands that meet the hypotheses of each statement -/

/-- Does a step answer a next state? -/
def isNext (r : Result) : Bool :=
  match r with
  | .next _ => true
  | .fault _ => false
  | .refused _ => false

theorem next_of {r : Result} (h : isNext r = true) : ∃ t, r = .next t := by
  cases r with
  | next t => exact ⟨t, rfl⟩
  | fault e => cases h
  | refused e => cases h

/-- The ring invariants of a channel as one check. -/
def ringsCheck (x : Channel) : Bool :=
  decide (RingShape x.tx) && decide (RingShape x.rx) && decide (QueuedReady x.tx) && decide (QueuedReady x.rx) &&
  decide (TxOthersEmpty x.tx) && decide (RxOthersEmpty x.rx) && decide (RxReadyUnfilled x.rx) &&
  decide (TxNonEmpty x.tx) && decide (TxSending x) && decide (TxUnsent x) && decide (SyncNoPartial x)

theorem rings_of {x : Channel} (h : ringsCheck x = true) : RingsOk x := by
  simp only [ringsCheck, Bool.and_eq_true, decide_eq_true_eq] at h
  obtain ⟨⟨⟨⟨⟨⟨⟨⟨⟨⟨h1, h2⟩, h3⟩, h4⟩, h5⟩, h6⟩, h7⟩, h8⟩, h9⟩, h10⟩, h11⟩ := h
  exact ⟨h1, h2, h3, h4, h5, h6, h7, h8, h9, h10, h11⟩

/-- The invariants as one check. -/
def invCheck (s : State) : Bool :=
  decide (1 ≤ s.params.qfullThreshold) && Memory.wf s.mem && callsSorted none s.calls &&
  decide (∀ e ∈ s.calls, e.2.legal = true) && ringsCheck s.ch0 && ringsCheck s.ch1 &&
  decide (MirrorOk s.ch0) && decide (MirrorOk s.ch1) && decide (QfullOk s.params s.ch0) &&
  decide (QfullOk s.params s.ch1) && decide (ValuesOk s.ch0) && decide (ValuesOk s.ch1) && decide (WaitersOk s) &&
  decide (MidOk s) && decide (KeyOk s)

theorem inv_of {s : State} (h : invCheck s = true) : Inv s := by
  simp only [invCheck, Bool.and_eq_true, decide_eq_true_eq] at h
  obtain ⟨⟨⟨⟨⟨⟨⟨⟨⟨⟨⟨⟨⟨⟨h1, h2⟩, h3⟩, h4⟩, h5⟩, h6⟩, h7⟩, h8⟩, h9⟩, h10⟩, h11⟩, h12⟩, h13⟩, h14⟩, h15⟩ := h
  exact ⟨h1, h2, h3, h4, ⟨rings_of h5, rings_of h6⟩, ⟨h7, h8⟩, ⟨h9, h10⟩, ⟨h11, h12⟩, h13, h14, h15⟩

/-- A small machine: threshold 2, a pool of 64 bytes, rings of 2 slots of 4 bytes, channel 0 `SYNC`, channel 1
`ASYNC`. -/
def W : State :=
  State.init ⟨2, .pool 64, false, 4⟩ (.script []) ⟨.sync, 4, 2, 4, 2, 0, 0⟩ ⟨.async, 4, 2, 4, 2, 0, 0⟩

/-- The script of what the controller answers next. -/
def told (s : State) (answers : List Word) : State := { s with oracle := .script answers }

/-- The next state of a meaning. -/
def went (r : Result) (s : State) : State :=
  match r with
  | .next t => t
  | .fault _ => s
  | .refused _ => s

/-- A thread of `s` between the steps of a command. -/
def between (i : Instr) (s : State) : State := went (exec i s) s

/-- `W` with every ring of a channel offline. -/
def offline (c : Chan) (s : State) : State :=
  s.modChan c fun x => { x with tx := { x.tx with online := false }, rx := { x.rx with online := false } }

/-- `W` with every timeout of a channel `v`. -/
def patient (c : Chan) (v : Word) (s : State) : State :=
  s.modChan c fun x => { x with rdTimeout := v, wrTimeout := v }

/-- `W` with a partial frame of the bytes in the receive ring of channel 1. -/
def partly (bytes : List Byte) (s : State) : State :=
  bytes.foldl (fun u b => went (appendByte .ch1 b u) u) s

/-! ### Encoding and the step -/

theorem meets_DecodeInvertsEncode : (Instr.cfgMode 0 .ch1 0xFFFFFFFF).wellFormed = true := by decide

theorem meets_EncodeInvertsDecode :
    decode (.event 0 none) = .ok .irq ∧ decode (.key .ch1 0xF) = .ok (.svcRxAsync .ch1 true true) := by decide

theorem meets_LegalWordsAreTheEighteenRows :
    Command.formed ⟨0, 0x610100FF, none, []⟩ = true ∧ Command.formed ⟨0, 0x61010000, none, []⟩ = true := by decide

theorem meets_IllegalCommandAnswersInvalidParameter :
    W.key = none ∧ commandEnabled 7 W = true ∧
    ([(0x00000000, none), (0x70000000, none), (0x22000001, none), (0x50010000, none), (0x300C0000, some 0),
      (0x60020000, none), (0x60000001, none)] : List (Word × Option Word)).all (fun e =>
        Command.formed ⟨7, e.1, e.2, []⟩ && decide (IllegalFields e.1)) = true := by decide

theorem meets_ResponseWordFields : 0 ≤ 65535 ∧ 65535 ≤ 65535 := by decide

theorem meets_StepRunsTheDecodedInstruction :
    W.key = none ∧ W.dev.inIsr = false ∧ decode (.command ⟨0, 0x20000000, none, []⟩) = .ok (.read 0 .ch0 0) ∧
    decode (.event 4 (some 9)) = .ok (.abort 9) ∧
    ({ W.serving with key := some (.ch1, 0b1100) } : State).key = some (.ch1, 0b1100) ∧
    decode (.key .ch1 0b1100) = .ok (.svcRxAsync .ch1 false false) ∧ decode (.event 0 none) = .ok .irq ∧
    W.serving.key = none ∧ W.serving.dev.inIsr = true ∧ W.serving.schedule = [] ∧
    decode (.event 0 (some 1)) ≠ .ok .irq ∧ decode (.event 1 none) ≠ .ok .irq := by decide

theorem meets_DeliveriesThatAreNoInstruction :
    W.key = none ∧ W.dev.inIsr = false ∧ W.schedule = [] ∧ Command.formed ⟨0, 0x10000001, none, []⟩ = false ∧
    5 ≤ (5 : BitVec 3).toNat ∧ 5 ≤ (7 : BitVec 3).toNat ∧ 1 ≤ (1 : BitVec 3).toNat ∧ (4 : BitVec 3).toNat ≤ 4 ∧
    S0.key = none ∧ S0.oracle = .reference RefChannel.init RefChannel.init := by decide

/-! ### Invariants -/

theorem meets_InitializationMeetsTheInvariants :
    1 ≤ 1 ∧ 1 ≤ 65535 ∧ -1 ≤ (0xFFFFFFFF : Word).toInt ∧ -1 ≤ (0x7FFFFFFF : Word).toInt := by decide

theorem inv_W : Inv W := inv_of (by decide +kernel)

theorem meets_StepKeepsTheInvariants :
    Inv (W.withDelivery (.command ⟨0, 0x11000001, none, [5]⟩)) ∧
    ∃ t, step (W.withDelivery (.command ⟨0, 0x11000001, none, [5]⟩)) = .next t :=
  ⟨inv_of (by decide +kernel), next_of (by decide +kernel)⟩

theorem meets_InvariantStatesNeverFault : Inv W := inv_W

theorem meets_StepKeepsTheMemoryForm :
    Memory.wf (W.holding .ch0 .rx [1]).mem = true ∧
    ∃ t, step ((W.holding .ch0 .rx [1]).withDelivery (.command ⟨0, 0x20000001, none, []⟩)) = .next t :=
  ⟨by decide +kernel, next_of (by decide +kernel)⟩

/-- `W` with a `CFG.GIRQEN` to come. -/
def enabling : State := W.withDelivery (.command ⟨0, 0x300B0000, some 1, []⟩)

theorem meets_StepKeeps :
    (MirrorOk enabling.ch0 ∧ MirrorOk enabling.ch1 ∧ 1 ≤ enabling.params.qfullThreshold ∧
    QfullOk enabling.params enabling.ch0 ∧ QfullOk enabling.params enabling.ch1 ∧ ValuesOk enabling.ch0 ∧
    ValuesOk enabling.ch1 ∧ callsSorted none enabling.calls = true ∧ WaitersOk enabling ∧ MidOk enabling) ∧
    ∃ t, step enabling = .next t :=
  ⟨by decide +kernel, next_of (by decide +kernel)⟩

/-! ### The commands as a whole -/

theorem meets_EveryCommandCompletes :
    Inv W ∧ commandTid (.cfgMode 0 .ch0 1) = some 0 ∧ commandEnabled 0 W = true ∧
    quiescent ((W.holding .ch0 .tx [1]).chan .ch0) = false :=
  ⟨inv_W, by decide +kernel⟩

theorem meets_CommandsNeedAnIdleBlock :
    W.serving.dev.inIsr = true ∧ anyMid (between (.resetDevice 3 .ch1) W).calls = true ∧
    callOf (W.waiting (.read 1) .ch0 1).calls 1 ≠ none := by decide +kernel

theorem meets_ErrorsCarryNoCount : ∃ t, exec (.notifyRemove 0 .ch0) W = .next t := next_of (by decide +kernel)

theorem meets_ChannelsAreIndependent :
    Inv W ∧ onChannel (.write 0 .ch1 [1]) = some .ch1 ∧ ∃ t, exec (.write 0 .ch1 [1]) W = .next t :=
  ⟨inv_W, by decide +kernel, next_of (by decide +kernel)⟩

/-! ### WRITE and READ -/

/-- `W` with both transmit slots of a channel taken. -/
def fullTx (c : Chan) : State := (W.holding c .tx [1]).holding c .tx [2]

theorem meets_WriteFailsOrBlocks :
    commandEnabled 0 (fullTx .ch0) = true ∧ ((fullTx .ch0).ring .ch0 .tx).entryCount = 2 ∧
    ((fullTx .ch0).ring .ch0 .tx).cap = 2 ∧ ((fullTx .ch0).chan .ch0).wrTimeout = 0 ∧
    ((patient .ch0 0xFFFFFFFF (fullTx .ch0)).chan .ch0).wrTimeout ≠ 0 ∧
    commandEnabled 0 (offline .ch0 W) = true ∧ ((offline .ch0 W).ring .ch0 .tx).online = false ∧
    (W.ring .ch0 .tx).fsz = ([1, 2, 3, 4] : List Byte).length ∧
    (W.ring .ch0 .tx).fsz < ([1, 2, 3, 4, 5] : List Byte).length := by decide +kernel

/-- `W` with both transmitters busy. -/
def busy : State := { W with ch0 := { W.ch0 with txReady := false }, ch1 := { W.ch1 with txBufEmpty := false } }

theorem meets_WriteQueuesWhileBusy :
    Inv busy ∧ Inv (busy.holding .ch0 .tx [7]) ∧ commandEnabled 0 busy = true ∧
    ([1, 2, 3, 4] : List Byte).length ≤ (busy.ring .ch0 .tx).fsz ∧
    (busy.ring .ch0 .tx).entryCount ≠ (busy.ring .ch0 .tx).cap ∧ (busy.ring .ch1 .tx).online = true ∧
    (busy.chan .ch0).mode = .sync ∧ (busy.chan .ch0).txReady = false ∧ (busy.chan .ch1).mode = .async ∧
    (busy.chan .ch1).txBufEmpty = false ∧ ((busy.holding .ch0 .tx [7]).ring .ch0 .tx).entryCount = 1 :=
  ⟨inv_of (by decide +kernel), inv_of (by decide +kernel), by decide +kernel⟩

theorem meets_WriteStartsAnIdleTransmitter :
    Inv W ∧ commandEnabled 0 W = true ∧ ([1, 2, 3, 4] : List Byte).length ≤ (W.ring .ch0 .tx).fsz ∧
    ([2, 3, 4] : List Byte).length + 1 ≤ (W.ring .ch1 .tx).fsz ∧ (W.chan .ch0).mode = .sync ∧
    (W.chan .ch0).txReady = true ∧ (W.chan .ch1).mode = .async ∧ (W.chan .ch1).txBufEmpty = true ∧
    0 < (W.ring .ch0 .tx).cap ∧ (W.ring .ch0 .tx).entryCount = 0 ∧ (W.ring .ch0 .tx).online = true ∧
    0 < (W.ring .ch1 .tx).cap ∧ (W.ring .ch1 .tx).entryCount = 0 ∧ (W.ring .ch1 .tx).online = true :=
  ⟨inv_W, by decide +kernel⟩

theorem meets_TransmitStreamIsFifo :
    Inv W ∧ ∃ t, exec (.write 0 .ch0 [1, 2]) W = .next t :=
  ⟨inv_W, next_of (by decide +kernel)⟩

theorem meets_ReadFailsOrBlocks :
    commandEnabled 0 W = true ∧
    (({ W with ch0 := { W.ch0 with stickyErr := some .overrun } } : State).chan .ch0).stickyErr = some .overrun ∧
    (W.chan .ch0).stickyErr = none ∧ (W.ring .ch0 .rx).entryCount = 0 ∧ (W.chan .ch0).mode = .sync ∧
    (W.chan .ch0).rdTimeout = 0 ∧ ((patient .ch1 1 W).chan .ch1).rdTimeout ≠ 0 ∧
    (W.ring .ch1 .rx).entryCount = 0 ∧ ((W.ring .ch1 .rx).slot (W.ring .ch1 .rx).tail).state ≠ .filling ∧
    commandEnabled 0 (offline .ch1 W) = true ∧ ((offline .ch1 W).ring .ch1 .rx).online = false := by decide +kernel

theorem meets_ReadDeliversTheOldestFrame :
    Inv (W.holding .ch0 .rx [1, 2, 3, 4]) ∧ Inv (W.holding .ch0 .rx []) ∧
    commandEnabled 0 (W.holding .ch0 .rx [1, 2, 3, 4]) = true ∧
    ((W.holding .ch0 .rx [1, 2, 3, 4]).chan .ch0).stickyErr = none ∧
    ((W.holding .ch0 .rx [1, 2, 3, 4]).ring .ch0 .rx).online = true ∧
    queued (W.holding .ch0 .rx [1, 2, 3, 4]) .ch0 .rx = [1, 2, 3, 4] :: [] ∧
    ([1, 2, 3, 4] : List Byte).length ≤ (4 : BitVec 16).toNat ∧
    (3 : BitVec 16).toNat < ([1, 2, 3, 4] : List Byte).length ∧ queued (W.holding .ch0 .rx []) .ch0 .rx = [] :: [] :=
  ⟨inv_of (by decide +kernel), inv_of (by decide +kernel), by decide +kernel⟩

theorem meets_ReadFlushesThePartialFrame :
    Inv (partly [1, 2, 3] W) ∧ Inv (partly [1] W) ∧ commandEnabled 0 (partly [1, 2, 3] W) = true ∧
    ((partly [1, 2, 3] W).chan .ch1).stickyErr = none ∧ ((partly [1, 2, 3] W).chan .ch1).mode = .async ∧
    ((partly [1, 2, 3] W).ring .ch1 .rx).online = true ∧ 0 < ((partly [1, 2, 3] W).ring .ch1 .rx).cap ∧
    ((partly [1, 2, 3] W).ring .ch1 .rx).entryCount = 0 ∧
    (((partly [1, 2, 3] W).ring .ch1 .rx).slot ((partly [1, 2, 3] W).ring .ch1 .rx).tail) = ⟨.filling, 0, 3⟩ ∧
    ((partly [1] W).ring .ch1 .rx).slot 0 = ⟨.filling, 0, 1⟩ :=
  ⟨inv_of (by decide +kernel), inv_of (by decide +kernel), by decide +kernel⟩

/-! ### Waiting -/

/-- Thread 1 waits with a `WRITE` to the full channel 0, forever. -/
def writerWaits : State := (patient .ch0 0xFFFFFFFF (fullTx .ch0)).waiting (.write [1]) .ch0 0xFFFFFFFF

/-- Thread 1 waits with a `READ` from the empty channel 1, for one unit. -/
def readerWaits : State := (patient .ch1 1 W).waiting (.read 65535) .ch1 1

theorem meets_WakeSignalsEveryWaiter :
    (W.ring .ch0 .tx).waiter = false ∧ (writerWaits.ring .ch0 .tx).waiter = true ∧
    callOf writerWaits.calls 1 = some (.blocked ⟨.write [1], .ch0, 0xFFFFFFFF, false⟩) ∧
    callOf writerWaits.calls 0 = none := by decide +kernel

theorem meets_Resume :
    Inv writerWaits ∧ Inv readerWaits ∧ callersFree writerWaits = true ∧ callersFree readerWaits = true ∧
    callOf writerWaits.calls 1 = some (.blocked ⟨.write [1], .ch0, 0xFFFFFFFF, false⟩) ∧
    callOf readerWaits.calls 1 = some (.blocked ⟨.read 65535, .ch1, 1, false⟩) ∧ 65535 < 65536 :=
  ⟨inv_of (by decide +kernel), inv_of (by decide +kernel), by decide +kernel⟩

theorem meets_TimeoutAndAbortEndAWait :
    readerWaits.dev.inIsr = false ∧ anyMid readerWaits.calls = false ∧
    callOf readerWaits.calls 1 = some (.blocked ⟨.read 65535, .ch1, 1, false⟩) ∧ 0 < (1 : Word).toInt ∧
    ¬ 0 < (0xFFFFFFFF : Word).toInt ∧ readerWaits.serving.dev.inIsr = true ∧ callOf W.calls 1 = none ∧
    anyMid (between (.resetChannel 2 .ch0) readerWaits).calls = true := by decide +kernel

/-! ### Configuration, notification, reset -/

theorem meets_CfgModeSetsTheMode :
    commandEnabled 0 W = true ∧ 1 < (2 : Word).toNat ∧ (W.chan .ch0).mode = .sync ∧ (W.chan .ch1).mode = .async ∧
    quiescent (W.chan .ch0) = true ∧ quiescent (W.chan .ch1) = true ∧
    (((fullTx .ch0).ring .ch0 .tx).entryCount ≠ 0) ∧
    (((partly [1] W).ring .ch1 .rx).slot ((partly [1] W).ring .ch1 .rx).tail).state = .filling := by decide +kernel

theorem meets_CfgTimeoutsAndWatermark :
    commandEnabled 0 W = true ∧ ¬ -1 ≤ (0xFFFFFFFE : Word).toInt ∧ -1 ≤ (0xFFFFFFFF : Word).toInt ∧
    ¬ (65536 : Word).toNat ≤ 65535 ∧ (65535 : Word).toNat ≤ 65535 := by decide +kernel

theorem meets_CfgEnables :
    commandEnabled 0 booted = true ∧ commandEnabled 0 S0 = true ∧ 1 < (2 : Word).toNat ∧
    S0.dev.irqEnable = false ∧ booted.dev.irqEnable = true ∧ (booted.chan .ch0).irqEnabled = true := by decide +kernel

theorem meets_ReallocationTakesTheRingOffline :
    commandEnabled 0 W = true ∧ (0 : Word).toNat < 1 ∧ 65535 < (65536 : Word).toNat ∧ 1 ≤ (1 : Word).toNat ∧
    (65535 : Word).toNat ≤ 65535 := by decide +kernel

theorem meets_ContFinishesAReallocation :
    (between (.cfgTxSize 2 .ch0 32) W).dev.inIsr = false ∧
    callOf (between (.cfgTxSize 2 .ch0 32) W).calls 2 = some (.mid (commandWord 3 .ch0 1 0) (some 32)) ∧
    ((between (.cfgTxSize 2 .ch0 32) W).ring .ch0 .tx).cap * 32 ≤ 64 ∧
    callOf (between (.cfgTxNum 2 .ch1 17) W).calls 2 = some (.mid (commandWord 3 .ch1 2 0) (some 17)) ∧
    64 < 17 * ((between (.cfgTxNum 2 .ch1 17) W).ring .ch1 .tx).fsz ∧
    callOf (between (.cfgRxSize 2 .ch0 33) W).calls 2 = some (.mid (commandWord 3 .ch0 3 0) (some 33)) ∧
    callOf (between (.cfgRxNum 2 .ch1 16) W).calls 2 = some (.mid (commandWord 3 .ch1 4 0) (some 16)) ∧
    W.params.alloc = .pool 64 ∧
    callOf { between (.cfgRxNum 2 .ch1 16) W with params := { W.params with alloc := .listed [(16, 4)] } }.calls 2 =
      some (.mid (commandWord 3 .ch1 4 0) (some 16)) := by
  decide +kernel

theorem meets_NotifyStoresAndClearsTheHandle :
    commandEnabled 0 W = true ∧ (W.chan .ch0).sigHandle = none ∧
    commandEnabled 0 (between (.notifyInstall 0 .ch0 0) W) = true ∧
    ((between (.notifyInstall 0 .ch0 0) W).chan .ch0).sigHandle = some 0 := by decide +kernel

theorem meets_ResetTakesTheChannelOffline : commandEnabled 0 (fullTx .ch1) = true := by decide +kernel

theorem meets_ContFinishesAReset :
    (between (.resetChannel 2 .ch1) (fullTx .ch1)).dev.inIsr = false ∧
    callOf (between (.resetChannel 2 .ch1) (fullTx .ch1)).calls 2 = some (.mid (commandWord 6 .ch1 0 0) none) ∧
    callOf (between (.resetDevice 2 .ch1) readerWaits).calls 2 = some (.mid (commandWord 6 .ch1 1 0) none) := by
  decide +kernel

theorem meets_ContNeedsAMidThread :
    Inv (between (.resetDevice 2 .ch1) readerWaits) ∧ Inv (between (.cfgRxNum 2 .ch1 65535) W) :=
  ⟨inv_of (by decide +kernel), inv_of (by decide +kernel)⟩

/-! ### The interrupt context -/

/-- `W` with the device's interrupt enable set. -/
def awake : State := { W with dev := { W.dev with irqEnable := true } }

theorem meets_IrqEntersAndEnds :
    W.dev.inIsr = false ∧ W.dev.irqEnable = false ∧ awake.dev.irqEnable = true ∧ awake.key = none ∧
    W.serving.dev.inIsr = true ∧ (portAnswer .ch0 .ip (told awake [0xFFFFFFF8, 0])).extractLsb' 0 3 = 0#3 ∧
    (portAnswer .ch1 .ip (regRead .ch0 .ip (told awake [0xFFFFFFF8, 0]))).extractLsb' 0 3 = 0#3 := by
  decide +kernel

theorem meets_IrqDispatchesTheFirstCause :
    (portAnswer .ch0 .ip (told awake [1])).extractLsb' 0 3 ≠ 0#3 ∧
    decodeKey .ch0 (dispatchKey W.ch0.mode 1) = .ok (.svcExt .ch0 false) ∧
    (portAnswer .ch0 .ip (told awake [0, 7])).extractLsb' 0 3 = 0#3 ∧
    (portAnswer .ch1 .ip (regRead .ch0 .ip (told awake [0, 7]))).extractLsb' 0 3 ≠ 0#3 ∧
    decodeKey .ch1 (dispatchKey W.ch1.mode 7) = .ok (.svcRxAsync .ch1 true true) := by decide +kernel

theorem meets_InterruptStepsComplete :
    Inv W.serving ∧ Inv awake ∧ Inv { W.serving with key := some (.ch0, 0b0100) } ∧ W.serving.dev.inIsr = true ∧
    (W.serving.chan .ch0).mode = .sync ∧ (W.serving.chan .ch1).mode = .async ∧ W.serving.schedule = [] ∧
    CausePending (told W.serving [1]) ∧ CausePending (told W.serving [0, 4]) ∧
    ¬ CausePending (told W.serving [0xFFFFFFF8, 0]) :=
  ⟨inv_of (by decide +kernel), inv_of (by decide +kernel), inv_of (by decide +kernel), by decide +kernel⟩

/-- Threads can wait for ever for the end of an interrupt (44_isr_dispatcher.md R207): a run of any number of steps. -/
theorem meets_interrupt_without_end (n : Nat) :
    ∃ t, runSteps n { W.serving with oracle := .cycle [1, 0], schedule := [.command ⟨0, 0x20000010, none, []⟩] } =
      .next t ∧ t.dev.inIsr = true :=
  interrupt_without_end (by decide) n

theorem meets_SvcExtPostsTheBreak :
    (portAnswer .ch0 .es (told W.serving [1])).getLsbD 0 = true ∧
    (portAnswer .ch1 .es (told W.serving [0xFFFFFFFE])).getLsbD 0 = false := by decide +kernel

theorem meets_SvcTxSyncBurstsOneFrame :
    Inv (fullTx .ch0).serving ∧ W.serving.dev.inIsr = true ∧ (W.serving.chan .ch0).mode = .sync ∧
    (W.serving.ring .ch0 .tx).entryCount = 0 ∧ ((offline .ch0 W.serving).ring .ch0 .tx).online = false ∧
    ((fullTx .ch0).serving.ring .ch0 .tx).online = true ∧ queued (fullTx .ch0).serving .ch0 .tx = [1] :: [[2]] :=
  ⟨inv_of (by decide +kernel), by decide +kernel⟩

theorem meets_SvcTxAsyncSendsOneByte :
    Inv W.serving ∧ Inv (fullTx .ch1).serving ∧ Inv (W.holding .ch1 .tx [1, 2]).serving ∧
    (W.serving.ring .ch1 .tx).entryCount = 0 ∧ 0 < ((fullTx .ch1).serving.ring .ch1 .tx).entryCount ∧
    ((fullTx .ch1).serving.ring .ch1 .tx).slot 0 = ⟨.ready, 1, 0⟩ ∧
    ((W.holding .ch1 .tx [1, 2]).serving.ring .ch1 .tx).slot 0 = ⟨.ready, 2, 0⟩ :=
  ⟨inv_of (by decide +kernel), inv_of (by decide +kernel), inv_of (by decide +kernel), by decide +kernel⟩

/-- Both receive slots of both channels taken, with the answers the controller gives. -/
def fullRx (answers : List Word) : State :=
  told ((((W.holding .ch0 .rx [1]).holding .ch0 .rx [2]).holding .ch1 .rx [3]).holding .ch1 .rx [4]).serving answers

theorem meets_RxServiceWithoutWorkOrRoom :
    (fullRx []).dev.inIsr = true ∧ 1 ≤ (fullRx []).params.passBudget ∧
    rsIdle .sync (portAnswer .ch0 .rs (fullRx [2])) = true ∧ rsIdle .async (portAnswer .ch1 .rs (fullRx [1])) = true ∧
    rsWaiting .sync (portAnswer .ch0 .rs (fullRx [1])) = true ∧
    rsWaiting .async (portAnswer .ch1 .rs (fullRx [2])) = true ∧
    ((fullRx []).ring .ch0 .rx).entryCount = ((fullRx []).ring .ch0 .rx).cap ∧
    ((fullRx []).ring .ch1 .rx).entryCount = ((fullRx []).ring .ch1 .rx).cap ∧
    ((fullRx []).chan .ch0).qfullCount + 1 < (fullRx []).params.qfullThreshold ∧
    (fullRx []).params.qfullThreshold ≤ 1 + 1 := by decide +kernel

/-- A receive service on `W` and what the controller answers. -/
def rxAt (answers : List Word) : State := told W.serving answers

theorem meets_SvcRxSyncStoresAFrame :
    Inv (rxAt [1, 4, 10, 11, 12, 13, 0]) ∧ 2 ≤ (rxAt []).params.passBudget ∧
    ((rxAt []).ring .ch0 .rx).entryCount ≠ ((rxAt []).ring .ch0 .rx).cap ∧ ((rxAt []).ring .ch0 .rx).online = true ∧
    (portAnswer .ch0 .rs (rxAt [1, 4, 10, 11, 12, 13, 0])).getLsbD 0 = true ∧
    (portAnswer .ch0 .sfifo (regRead .ch0 .rs (rxAt [1, 4, 10, 11, 12, 13, 0]))) = 4 ∧
    ((rxAt []).ring .ch0 .rx).fsz = 4 ∧
    (portAnswer .ch0 .rs (readFifo .ch0 4 (regRead .ch0 .sfifo (regRead .ch0 .rs (rxAt [1, 4, 10, 11, 12, 13,
      0]))))).getLsbD 0 = false ∧
    (portAnswer .ch0 .sfifo (regRead .ch0 .rs (rxAt [1, 0, 0]))) = 0 :=
  ⟨inv_of (by decide +kernel), by decide +kernel⟩

theorem meets_SvcRxSyncDrainsABadFrame :
    (rxAt []).dev.inIsr = true ∧
    (portAnswer .ch0 .sfifo (regRead .ch0 .rs (rxAt [1, 0x30001, 9, 0]))).getLsbD 16 = true ∧
    (portAnswer .ch0 .rs (readFifo .ch0 1 (regRead .ch0 .sfifo (regRead .ch0 .rs
      (rxAt [1, 0x30001, 9, 0]))))).getLsbD 0 = false ∧
    ((rxAt []).ring .ch0 .rx).fsz <
      ((portAnswer .ch0 .sfifo (regRead .ch0 .rs (rxAt [1, 5, 1, 2, 3, 4, 5, 0]))).extractLsb' 0 16).toNat ∧
    (portAnswer .ch0 .rs (readFifo .ch0 5 (regRead .ch0 .sfifo (regRead .ch0 .rs
      (rxAt [1, 5, 1, 2, 3, 4, 5, 0]))))).getLsbD 0 = false := by decide +kernel

theorem meets_SvcRxAsyncAppendsACharacter :
    Inv (rxAt [2, 0x61, 0]) ∧ Inv (told (partly [1, 2, 3] W).serving [2, 0x61, 0]) ∧
    (((partly [1, 2, 3] W).ring .ch1 .rx).slot 0).fill + 1 = ((partly [1, 2, 3] W).ring .ch1 .rx).fsz ∧
    (portAnswer .ch1 .rs (rxAt [2, 0x61, 0])).getLsbD 1 = true ∧
    (portAnswer .ch1 .rs (rxAt [2, 0x61, 0])).getLsbD 2 = false ∧
    (portAnswer .ch1 .rs (regRead .ch1 .rxfifo (regRead .ch1 .rs (rxAt [2, 0x61, 0])))).getLsbD 1 = false :=
  ⟨inv_of (by decide +kernel), inv_of (by decide +kernel), by decide +kernel⟩

theorem meets_SvcRxAsyncAbortsOnABadCharacter :
    Inv (rxAt [0x16, 0, 0]) ∧ Inv (told (partly [1] W).serving [0x16, 0, 0]) ∧
    (((partly [1] W).ring .ch1 .rx).slot 0).state = .filling ∧
    (portAnswer .ch1 .rs (rxAt [0x16, 0, 0])).getLsbD 1 = true ∧
    (portAnswer .ch1 .rs (rxAt [0x16, 0, 0])).getLsbD 2 = true ∧
    (portAnswer .ch1 .rs (regRead .ch1 .rxfifo (regRead .ch1 .rs (rxAt [0x16, 0, 0])))).getLsbD 1 = false :=
  ⟨inv_of (by decide +kernel), inv_of (by decide +kernel), by decide +kernel⟩

/-! ### Rules of the whole machine -/

theorem meets_InterruptContextFrame :
    Inv (rxAt [1, 2, 8, 9, 0]) ∧ isInterrupt (.svcRxSync .ch0 false false) = true ∧
    ∃ t, exec (.svcRxSync .ch0 false false) (rxAt [1, 2, 8, 9, 0]) = .next t :=
  ⟨inv_of (by decide +kernel), by decide +kernel, next_of (by decide +kernel)⟩

theorem meets_InterruptsKeepTheQueues :
    Inv (fullTx .ch0).serving ∧ isInterrupt (.svcTxSync .ch0 false) = true ∧
    ∃ t, exec (.svcTxSync .ch0 false) (fullTx .ch0).serving = .next t :=
  ⟨inv_of (by decide +kernel), by decide +kernel, next_of (by decide +kernel)⟩

theorem meets_OnlyInterruptsSignalAndPost :
    isInterrupt (.read 0 .ch0 1) = false ∧ ∃ t, exec (.read 0 .ch0 1) W = .next t :=
  ⟨by decide +kernel, next_of (by decide +kernel)⟩

theorem meets_OnlyHandledInterruptsAreCounted : ∃ t, exec .irq (told W.serving [0, 0]) = .next t :=
  next_of (by decide +kernel)

end Sys2Proof.Tests
end

