-- ==== Sys2Proof/Proofs/FetchStep.lean ====
section
/-! What is fetched and what the fetch takes off the schedule, one rule for each thing that can be next: the service
in progress, the interrupt in service, the first delivery (44_isr_dispatcher.md R200; notes/assumptions/3.md, 7.md).
From these rules the statement about the step. -/

namespace Sys2Proof.Machine

open Sys2Proof

/-! ## Decoded deliveries -/

theorem fetchCommand_of_decode {k : Command} {i : Instr} (h : decode (.command k) = .ok i) :
    fetchCommand k = .run i := by
  have hd : decodeCommand k = .ok i := h
  simp [fetchCommand, hd]

theorem fetchEvent_of_decode {ev : BitVec 3} {tid : Option Tid} {i : Instr}
    (h : decode (.event ev tid) = .ok i) : fetchEvent ev tid = .run i := by
  have hd : decodeEvent ev tid = .ok i := h
  simp [fetchEvent, hd]

/-- The events an interrupt in service lets in are those that decode to `IRQ` (30_encoding.md R113). -/
theorem decode_event_eq_irq {ev : BitVec 3} {tid : Option Tid} :
    decode (.event ev tid) = .ok .irq ↔ (Delivery.event ev tid).duringInterrupt = true := by
  have hev : ev = 0#3 ↔ ev.toNat = 0 := by simp [← BitVec.toNat_inj]
  simp only [decode, decodeEvent, Delivery.duringInterrupt, Bool.and_eq_true, decide_eq_true_eq, hev]
  split <;> simp_all

/-! ## Whether the interrupt in service goes on by itself -/

theorem goesOn_of_not_inIsr {s : State} (h : s.dev.inIsr = false) : goesOn s = false := by
  simp [goesOn, h]

theorem goesOn_of_empty {s : State} (hi : s.dev.inIsr = true) (hs : s.schedule = []) : goesOn s = true := by
  simp [goesOn, hi, hs]

theorem goesOn_of_first {s : State} {d : Delivery} {rest : List Delivery} (hs : s.schedule = d :: rest) :
    goesOn s = (s.dev.inIsr && !d.duringInterrupt) := by
  simp [goesOn, hs]

/-! ## The fetch -/

theorem fetch_of_command {s : State} {k : Command} {rest : List Delivery} (hk : s.key = none)
    (hg : goesOn s = false) (hs : s.schedule = .command k :: rest) : fetch s = fetchCommand k := by
  simp [fetch, hk, hg, hs]

theorem fetch_of_event {s : State} {ev : BitVec 3} {tid : Option Tid} {rest : List Delivery} (hk : s.key = none)
    (hg : goesOn s = false) (hs : s.schedule = .event ev tid :: rest) : fetch s = fetchEvent ev tid := by
  simp [fetch, hk, hg, hs]

theorem fetch_of_key {s : State} {c : Chan} {dk : BitVec 4} {i : Instr} (hk : s.key = some (c, dk))
    (hd : decode (.key c dk) = .ok i) : fetch s = .run i := by
  have hd : decodeKey c dk = .ok i := hd
  simp [fetch, hk, hd]

/-- Where the first delivery does not wait, it leaves the schedule. -/
theorem advance_of_first {s : State} {d : Delivery} {rest : List Delivery} (hk : s.key = none)
    (hg : goesOn s = false) (hs : s.schedule = d :: rest) : advance s = { s with schedule := rest } := by
  simp [advance, hk, hg, hs]

theorem advance_of_key {s : State} {k : Chan × BitVec 4} (hk : s.key = some k) : advance s = s := by
  simp [advance, hk]

/-! ## The step -/

theorem step_of_fetch_run {s : State} {i : Instr} (h : fetch s = .run i) : step s = exec i (advance s) := by
  simp [step, h]

theorem step_of_command {s : State} {k : Command} {rest : List Delivery} {i : Instr} (hk : s.key = none)
    (hg : goesOn s = false) (hs : s.schedule = .command k :: rest) (hd : decode (.command k) = .ok i) :
    step s = exec i { s with schedule := rest } := by
  rw [step_of_fetch_run ((fetch_of_command hk hg hs).trans (fetchCommand_of_decode hd)),
    advance_of_first hk hg hs]

theorem step_of_event {s : State} {ev : BitVec 3} {tid : Option Tid} {rest : List Delivery} {i : Instr}
    (hk : s.key = none) (hg : goesOn s = false) (hs : s.schedule = .event ev tid :: rest)
    (hd : decode (.event ev tid) = .ok i) : step s = exec i { s with schedule := rest } := by
  rw [step_of_fetch_run ((fetch_of_event hk hg hs).trans (fetchEvent_of_decode hd)),
    advance_of_first hk hg hs]

theorem step_of_key {s : State} {c : Chan} {dk : BitVec 4} {i : Instr} (hk : s.key = some (c, dk))
    (hd : decode (.key c dk) = .ok i) : step s = exec i s := by
  rw [step_of_fetch_run (fetch_of_key hk hd), advance_of_key hk]

/-- Settles O8, by the rule of the step for each thing that can be next. What the cases turn on is `goesOn`: an `IRQ`
delivered during an interrupt is taken, and every command and other event waits. -/
theorem stepRunsTheDecodedInstruction : Obligations.StepRunsTheDecodedInstruction := by
  refine ⟨fun s k rest i hk hi hs hd => step_of_command hk (goesOn_of_not_inIsr hi) hs hd, ?event,
    fun s c dk i hk hd => step_of_key hk hd, fun s hk hi hs => step_of_goesOn hk ?waits⟩
  case event =>
    intro s ev tid rest i hk hi hs hd
    have hg : goesOn s = false := by
      obtain hi | rfl := hi
      · exact goesOn_of_not_inIsr hi
      · simp [goesOn_of_first hs, decode_event_eq_irq.mp hd]
    exact step_of_event hk hg hs hd
  case waits =>
    obtain hs | ⟨k, rest, hs⟩ | ⟨ev, tid, rest, hs, hd⟩ := hs
    · exact goesOn_of_empty hi hs
    · simp [goesOn_of_first hs, hi, Delivery.duringInterrupt]
    · simpa [goesOn_of_first hs, hi, decode_event_eq_irq] using hd

end Sys2Proof.Machine
end

