-- ==== Sys2Proof/Proofs/ThreadTable.lean ====
section
/-! The thread table as a whole: its canonical order, and that putting an entry in, taking one out and waking change it
by that entry alone, up to order (10_state.md R51; 41_blocking_io.md R157 to R160). -/

namespace Sys2Proof.Machine

open Sys2Proof

/-! ## The canonical order -/

/-- The canonical form is that the identifiers rise. -/
theorem callsSorted_iff {lo : Option Tid} {calls : List (Tid × Call)} :
    callsSorted lo calls = true ↔
      (∀ l ∈ lo, ∀ e ∈ calls, l < e.1) ∧ calls.Pairwise fun e e' => e.1 < e'.1 := by
  induction calls generalizing lo with
  | nil => simp [callsSorted]
  | cons e rest ih =>
    obtain ⟨t, k⟩ := e
    cases lo with
    | none => simp [callsSorted, ih]
    | some l =>
      simp only [callsSorted, Bool.and_eq_true, decide_eq_true_eq, ih, Option.mem_some_iff, forall_eq', List.mem_cons,
        forall_eq_or_imp, List.pairwise_cons]
      exact ⟨fun ⟨hl, habove, hrest⟩ => ⟨⟨hl, fun e he => hl.trans (habove e he)⟩, habove, hrest⟩,
        fun ⟨hl, habove, hrest⟩ => ⟨hl.1, habove, hrest⟩⟩

theorem callsSorted_none_iff {calls : List (Tid × Call)} :
    callsSorted none calls = true ↔ calls.Pairwise fun e e' => e.1 < e'.1 := by
  simp [callsSorted_iff]

theorem mem_insertCall {calls : List (Tid × Call)} {tid : Tid} {k : Call} {e : Tid × Call}
    (h : e ∈ insertCall calls tid k) : e = (tid, k) ∨ e ∈ calls := by
  induction calls with
  | nil => simpa [insertCall] using h
  | cons e' rest ih =>
    rw [insertCall] at h
    split at h
    · simpa using h
    · split at h
      · simp only [List.mem_cons] at h ⊢; tauto
      · simp only [List.mem_cons] at h ⊢; tauto

theorem callsSorted_insertCall {calls : List (Tid × Call)} (h : callsSorted none calls = true) (tid : Tid) (k : Call) :
    callsSorted none (insertCall calls tid k) = true := by
  rw [callsSorted_none_iff] at h ⊢
  induction calls with
  | nil => simp [insertCall]
  | cons e rest ih =>
    obtain ⟨t, k'⟩ := e
    obtain ⟨habove, hrest⟩ := List.pairwise_cons.mp h
    rw [insertCall]
    split
    case isTrue hlt =>
      refine List.pairwise_cons.mpr ⟨?_, h⟩
      intro e he
      obtain rfl | he := List.mem_cons.mp he
      · exact hlt
      · exact hlt.trans (habove e he)
    case isFalse hlt =>
      split
      case isTrue heq => subst heq; exact List.pairwise_cons.mpr ⟨habove, hrest⟩
      case isFalse hne =>
        refine List.pairwise_cons.mpr ⟨?_, ih hrest⟩
        intro e he
        obtain rfl | he := mem_insertCall he
        · exact Nat.lt_of_le_of_ne (Nat.le_of_not_lt hlt) (Ne.symm hne)
        · exact habove e he

theorem callsSorted_dropCall {calls : List (Tid × Call)} (h : callsSorted none calls = true) (tid : Tid) :
    callsSorted none (dropCall calls tid) = true :=
  callsSorted_none_iff.mpr ((callsSorted_none_iff.mp h).filter _)

theorem callsSorted_wake {calls : List (Tid × Call)} (h : callsSorted none calls = true) (c : Chan) (d : Dir) :
    callsSorted none (calls.map fun e => (e.1, e.2.wake c d)) = true :=
  callsSorted_none_iff.mpr (List.pairwise_map.mpr (callsSorted_none_iff.mp h))

/-! ## The entries, up to order -/

theorem mem_of_callOf {calls : List (Tid × Call)} {tid : Tid} {k : Call} (h : callOf calls tid = some k) :
    (tid, k) ∈ calls := by
  induction calls with
  | nil => simp [callOf] at h
  | cons e rest ih =>
    obtain ⟨t, k'⟩ := e
    rw [callOf] at h
    split at h
    · next ht => cases h; simp [ht]
    · exact List.mem_cons_of_mem _ (ih h)

/-- An entry put in for an `Idle` thread is one entry more. -/
theorem insertCall_perm {calls : List (Tid × Call)} {tid : Tid} (k : Call) (h : callOf calls tid = none) :
    (insertCall calls tid k).Perm ((tid, k) :: calls) := by
  induction calls with
  | nil => exact .refl _
  | cons e rest ih =>
    obtain ⟨t, k'⟩ := e
    have ht : ¬ tid = t := by rintro rfl; simp [callOf] at h
    have hr : callOf rest tid = none := by simpa [callOf, ht] using h
    rw [insertCall]
    split
    · exact .refl _
    · exact ((ih hr).cons _).trans (.swap _ _ _)

/-- In a canonical table a thread has one entry, and `calls[tid] <- Idle` takes out that one alone. -/
theorem perm_dropCall {calls : List (Tid × Call)} {tid : Tid} {k : Call} (hs : callsSorted none calls = true)
    (h : callOf calls tid = some k) : calls.Perm ((tid, k) :: dropCall calls tid) := by
  rw [callsSorted_none_iff] at hs
  induction calls with
  | nil => simp [callOf] at h
  | cons e rest ih =>
    obtain ⟨t, k'⟩ := e
    obtain ⟨habove, hrest⟩ := List.pairwise_cons.mp hs
    by_cases ht : tid = t
    · subst ht
      obtain rfl : k' = k := by simpa [callOf] using h
      have hdrop : dropCall rest tid = rest :=
        List.filter_eq_self.mpr fun e he => decide_eq_true (Nat.ne_of_gt (habove e he))
      have : dropCall ((tid, k') :: rest) tid = rest := by simpa [dropCall] using hdrop
      rw [this]
    · have hr : callOf rest tid = some k := by simpa [callOf, ht] using h
      have : dropCall ((t, k') :: rest) tid = (t, k') :: dropCall rest tid := by
        simp [dropCall, Ne.symm ht]
      rw [this]
      exact ((ih hrest hr).cons _).trans (.swap _ _ _)

/-! ## Which records sleep, hold a ring, are `Mid` -/

/-- `Wake` of one ring does not touch the records that wait on another. -/
theorem asleepOn_wake_other (k : Call) {c c' : Chan} {d d' : Dir} (h : ¬ (c' = c ∧ d' = d)) :
    (k.wake c d).asleepOn c' d' = k.asleepOn c' d' := by
  cases k with
  | mid cw w1 => rfl
  | blocked b =>
    by_cases hw : b.ch = c ∧ b.dir = d
    · obtain ⟨rfl, rfl⟩ := hw
      have hn : ¬ (b.ch = c' ∧ b.dir = d') := fun ⟨h1, h2⟩ => h ⟨h1.symm, h2.symm⟩
      have hwake : (Call.blocked b).wake b.ch b.dir = .blocked { b with woken := true } := by
        simp [Call.wake, Call.waitsOn]
      rw [hwake]
      simp only [Call.asleepOn, Blocked.dir] at hn ⊢
      grind
    · have : (Call.blocked b).wake c d = .blocked b := by
        simp only [Call.wake, Call.waitsOn]
        grind
      rw [this]

theorem anyAsleep_wake_other (calls : List (Tid × Call)) {c c' : Chan} {d d' : Dir} (h : ¬ (c' = c ∧ d' = d)) :
    anyAsleep (calls.map fun e => (e.1, e.2.wake c d)) c' d' = anyAsleep calls c' d' := by
  simp [anyAsleep, List.any_map, Function.comp_def, asleepOn_wake_other _ h]

@[simp] theorem holds_wake (k : Call) (c c' : Chan) (d d' : Dir) : (k.wake c d).holds c' d' = k.holds c' d' := by
  cases k with
  | mid cw w1 => rfl
  | blocked b => rw [Call.wake]; split <;> rfl

@[simp] theorem isMid_wake (k : Call) (c : Chan) (d : Dir) : (k.wake c d).isMid = k.isMid := by
  cases k with
  | mid cw w1 => rfl
  | blocked b => rw [Call.wake]; split <;> rfl

@[simp] theorem legal_wake (k : Call) (c : Chan) (d : Dir) : (k.wake c d).legal = k.legal := by
  cases k with
  | mid cw w1 => rfl
  | blocked b => rw [Call.wake]; split <;> rfl

/-- Only a `Mid` record holds a ring. -/
theorem isMid_of_holds {k : Call} {c : Chan} {d : Dir} (h : k.holds c d = true) : k.isMid = true := by
  cases k with
  | mid cw w1 => rfl
  | blocked b => cases h

theorem anyHolds_of_not_anyMid {calls : List (Tid × Call)} (h : anyMid calls = false) (c : Chan) (d : Dir) :
    anyHolds calls c d = false := by
  rw [anyMid, List.any_eq_false] at h
  rw [anyHolds, List.any_eq_false]
  exact fun e he hh => h e he (isMid_of_holds hh)

theorem filter_isMid_eq_nil {calls : List (Tid × Call)} :
    (calls.filter fun e => e.2.isMid) = [] ↔ anyMid calls = false := by
  simp [anyMid, List.filter_eq_nil_iff]

/-- The second step of a `Mid` record touches the rings it holds. -/
theorem holds_mid {cw : Word} {w1 : Option Word} {ts : TwoStep} (h : midStep cw w1 = some ts) (c : Chan) (d : Dir) :
    (Call.mid cw w1).holds c d = ts.touches c d := by
  simp [Call.holds, h]

end Sys2Proof.Machine
end

