-- ==== Sys2Proof/Proofs/RingInvariants.lean ====
section
/-! The ring invariants INV1 to INV7 of 10_state.md R50 under each ring micro-operation (40_ring_buffer.md). How far a
slot is behind `head` decides whether it is queued, so the facts about `age` come first. -/

namespace Sys2Proof.Machine

open Sys2Proof

/-! ## Cursors and ages -/

theorem next_eq {rb : Ring} {i : Nat} (h : i < rb.cap) : rb.next i = if i + 1 = rb.cap then 0 else i + 1 := by
  rw [Ring.next]
  split
  · next he => rw [he, Nat.mod_self]
  · exact Nat.mod_eq_of_lt (by omega)

theorem age_eq {rb : Ring} {i : Nat} (hi : i < rb.cap) (hh : rb.head < rb.cap) :
    rb.age i = if rb.head ≤ i then i - rb.head else i + rb.cap - rb.head := by
  rw [Ring.age]
  split
  · next hle => rw [show i + rb.cap - rb.head = i - rb.head + rb.cap by omega, Nat.add_mod_right,
      Nat.mod_eq_of_lt (by omega)]
  · exact Nat.mod_eq_of_lt (by omega)

theorem head_lt_cap {rb : Ring} (h : RingShape rb) (hc : 0 < rb.cap) : rb.head < rb.cap := by
  obtain ⟨-, -, -, -, -, -, hcur⟩ := h
  exact (hcur hc).1

theorem tail_eq {rb : Ring} (h : RingShape rb) (hc : 0 < rb.cap) :
    rb.tail = if rb.head + rb.entryCount < rb.cap then rb.head + rb.entryCount
      else rb.head + rb.entryCount - rb.cap := by
  obtain ⟨-, -, -, -, hle, -, hcur⟩ := h
  obtain ⟨hh, ht⟩ := hcur hc
  rw [ht]
  split
  · next hlt => exact Nat.mod_eq_of_lt hlt
  · rw [show rb.head + rb.entryCount = rb.head + rb.entryCount - rb.cap + rb.cap by omega, Nat.add_mod_right,
      Nat.mod_eq_of_lt (by omega)]
    omega

theorem tail_lt_cap {rb : Ring} (h : RingShape rb) (hc : 0 < rb.cap) : rb.tail < rb.cap := by
  obtain ⟨-, -, -, -, -, -, hcur⟩ := h
  rw [(hcur hc).2]
  exact Nat.mod_lt _ hc

theorem entryCount_le_cap {rb : Ring} (h : RingShape rb) : rb.entryCount ≤ rb.cap := by
  obtain ⟨-, -, -, -, hle, -⟩ := h
  exact hle

theorem slots_length {rb : Ring} (h : RingShape rb) : rb.slots.length = rb.cap := by
  obtain ⟨hl, -⟩ := h
  exact hl

/-- The tail slot of a ring with room is the first that is not queued. -/
theorem age_eq_entryCount_iff {rb : Ring} (h : RingShape rb) (hroom : rb.entryCount ≠ rb.cap) {i : Nat}
    (hi : i < rb.cap) : rb.age i = rb.entryCount ↔ i = rb.tail := by
  have hle := entryCount_le_cap h
  have hh := head_lt_cap h (by omega)
  rw [age_eq hi hh, tail_eq h (by omega)]
  split <;> split <;> omega

theorem age_head {rb : Ring} (hh : rb.head < rb.cap) : rb.age rb.head = 0 := by
  rw [age_eq hh hh]; simp

@[simp] theorem age_commit (rb : Ring) (n i : Nat) : (rb.commit n).age i = rb.age i := rfl

@[simp] theorem age_setSlot (rb : Ring) (j : Nat) (x : Slot) (i : Nat) : (rb.setSlot j x).age i = rb.age i := rfl

/-- After `Consume` the slot that was the head is the last in the round, and every other is one nearer. -/
theorem age_consume {rb : Ring} {i : Nat} (hi : i < rb.cap) (hh : rb.head < rb.cap) :
    rb.consume.age i = if i = rb.head then rb.cap - 1 else rb.age i - 1 := by
  have hh' : rb.consume.head < rb.consume.cap := next_lt rb _ (by omega)
  rw [age_eq (rb := rb.consume) hi hh', age_eq hi hh, consume_head, consume_cap, next_eq hh]
  grind

theorem age_pos {rb : Ring} {i : Nat} (hi : i < rb.cap) (hh : rb.head < rb.cap) (hne : i ≠ rb.head) :
    0 < rb.age i := by
  rw [age_eq hi hh]
  split <;> omega

/-- A ring with `cap = 0` has no slot, so a slot that is not as a blank one is a slot of the ring. -/
theorem lt_length_of_slot_ne {rb : Ring} {i : Nat} (h : (rb.slot i).state ≠ .empty) : i < rb.slots.length := by
  by_contra hge
  exact h (by simp [Ring.slot, Slot.blank, List.getElem?_eq_none (Nat.le_of_not_lt hge)])

/-! ## `Commit` -/

section Commit

variable {rb : Ring} {n : Nat} (hs : RingShape rb) (hroom : rb.entryCount ≠ rb.cap)
include hs hroom

theorem commit_shape : RingShape (rb.commit n) := by
  have ⟨hl, hcap, h1, hf, hle, hzero, hcur⟩ := hs
  refine ⟨by simpa using hl, hcap, h1, hf, by simp; omega, ?_, ?_⟩
  · intro hc
    simp at hc
    omega
  · intro hc
    obtain ⟨hh, ht⟩ := hcur hc
    refine ⟨hh, ?_⟩
    simp only [commit_tail, commit_head, commit_entryCount, commit_cap, Ring.next]
    rw [ht, Nat.mod_add_mod, Nat.add_assoc]

/-- The slots of a ring after `Commit`: the tail slot is the new frame, the others are as before. -/
theorem commit_slot (i : Nat) : (rb.commit n).slot i = if i = rb.tail then ⟨.ready, n, 0⟩ else rb.slot i := by
  have hle := entryCount_le_cap hs
  have ht : rb.tail < rb.slots.length := by rw [slots_length hs]; exact tail_lt_cap hs (by omega)
  split
  · next h => rw [h, commit_slot_tail rb n ht]
  · next h => exact commit_slot_other rb n h

theorem commit_queuedReady (hq : QueuedReady rb) (hn : n ≤ rb.fsz) : QueuedReady (rb.commit n) := by
  intro i hi hage
  rw [commit_slot hs hroom]
  split
  · exact ⟨rfl, hn⟩
  · next hne =>
    have := mt (age_eq_entryCount_iff hs hroom hi).mp hne
    exact hq i hi (by simp at hage; omega)

theorem commit_txOthersEmpty (ho : TxOthersEmpty rb) : TxOthersEmpty (rb.commit n) := by
  intro i hi hage
  have hne : i ≠ rb.tail := by
    rw [← (age_eq_entryCount_iff hs hroom hi).ne]
    simp at hage
    omega
  rw [commit_slot hs hroom, if_neg hne]
  exact ho i hi (by simp at hage; omega)

theorem commit_txNonEmpty (he : TxNonEmpty rb) (hn : 1 ≤ n) : TxNonEmpty (rb.commit n) := by
  intro i hi hage
  rw [commit_slot hs hroom]
  split
  · exact hn
  · next hne =>
    have := mt (age_eq_entryCount_iff hs hroom hi).mp hne
    exact he i hi (by simp at hage; omega)

/-- `Commit` leaves no partial frame: the tail slot was the only one (41_blocking_io.md R154). -/
theorem commit_rxOthersEmpty (ho : RxOthersEmpty rb) : RxOthersEmpty (rb.commit n) := by
  intro i hi hage
  have hne : i ≠ rb.tail := by
    rw [← (age_eq_entryCount_iff hs hroom hi).ne]
    simp at hage
    omega
  rw [commit_slot hs hroom, if_neg hne]
  obtain hempty | ⟨htail, -⟩ := ho i hi (by simp at hage; omega)
  · exact .inl hempty
  · exact absurd htail hne

theorem commit_rxReadyUnfilled (hu : RxReadyUnfilled rb) : RxReadyUnfilled (rb.commit n) := by
  intro i hi
  rw [commit_slot hs hroom]
  split
  · exact fun _ => rfl
  · exact hu i hi

end Commit

/-! ## `Consume` -/

section Consume

variable {rb : Ring} (hs : RingShape rb) (hpos : 0 < rb.entryCount)
include hs hpos

theorem consume_shape : RingShape rb.consume := by
  have ⟨hl, hcap, h1, hf, hle, hzero, hcur⟩ := hs
  refine ⟨by simpa using hl, hcap, h1, hf, by simp; omega, ?_, ?_⟩
  · intro hc
    simp at hc
    omega
  · intro hc
    refine ⟨next_lt rb _ hc, ?_⟩
    simp only [consume_tail, consume_head, consume_entryCount, consume_cap, Ring.next]
    rw [(hcur hc).2, Nat.mod_add_mod]
    congr 1
    omega

theorem head_lt_cap_of_pos : rb.head < rb.cap := by
  have hle := entryCount_le_cap hs
  exact head_lt_cap hs (by omega)

/-- The slots of a ring after `Consume`: the head slot is empty, the others are as before. -/
theorem consume_slot (i : Nat) : rb.consume.slot i =
    if i = rb.head then { rb.slot rb.head with state := .empty, fill := 0 } else rb.slot i := by
  have hh : rb.head < rb.slots.length := by rw [slots_length hs]; exact head_lt_cap_of_pos hs hpos
  split
  · next h => rw [h, consume_slot_head rb hh]
  · next h => exact consume_slot_other rb h

/-- What is queued after `Consume` was queued before and is not the old head. -/
theorem queued_of_consume {i : Nat} (hi : i < rb.cap) (hage : rb.consume.age i < rb.consume.entryCount) :
    i ≠ rb.head ∧ rb.age i < rb.entryCount := by
  have hle := entryCount_le_cap hs
  have hh := head_lt_cap_of_pos hs hpos
  rw [age_consume hi hh, consume_entryCount] at hage
  split at hage
  · omega
  · next hne => exact ⟨hne, by omega⟩

/-- What is not queued after `Consume` is the old head, or was not queued before. -/
theorem not_queued_of_consume {i : Nat} (hi : i < rb.cap) (hage : rb.consume.entryCount ≤ rb.consume.age i) :
    i = rb.head ∨ (i ≠ rb.head ∧ rb.entryCount ≤ rb.age i) := by
  have hh := head_lt_cap_of_pos hs hpos
  rw [age_consume hi hh, consume_entryCount] at hage
  split at hage
  · next he => exact .inl he
  · next hne =>
    have := age_pos hi hh hne
    exact .inr ⟨hne, by omega⟩

theorem consume_queuedReady (hq : QueuedReady rb) : QueuedReady rb.consume := by
  intro i hi hage
  obtain ⟨hne, hold⟩ := queued_of_consume hs hpos hi hage
  rw [consume_slot hs hpos, if_neg hne]
  exact hq i hi hold

theorem consume_txNonEmpty (he : TxNonEmpty rb) : TxNonEmpty rb.consume := by
  intro i hi hage
  obtain ⟨hne, hold⟩ := queued_of_consume hs hpos hi hage
  rw [consume_slot hs hpos, if_neg hne]
  exact he i hi hold

theorem consume_txOthersEmpty (ho : TxOthersEmpty rb) : TxOthersEmpty rb.consume := by
  intro i hi hage
  rw [consume_slot hs hpos]
  obtain he | ⟨hne, hold⟩ := not_queued_of_consume hs hpos hi hage
  · rw [if_pos he]; exact ⟨rfl, rfl⟩
  · rw [if_neg hne]; exact ho i hi hold

theorem consume_rxOthersEmpty (ho : RxOthersEmpty rb) : RxOthersEmpty rb.consume := by
  intro i hi hage
  rw [consume_slot hs hpos]
  obtain he | ⟨hne, hold⟩ := not_queued_of_consume hs hpos hi hage
  · rw [if_pos he]; exact .inl ⟨rfl, rfl⟩
  · rw [if_neg hne]; exact ho i hi hold

theorem consume_rxReadyUnfilled (hu : RxReadyUnfilled rb) : RxReadyUnfilled rb.consume := by
  intro i hi
  rw [consume_slot hs hpos]
  split
  · nofun
  · exact hu i hi

end Consume

/-! ## Writing one slot -/

theorem setSlot_slot {rb : Ring} {j : Nat} (h : j < rb.slots.length) (x : Slot) (i : Nat) :
    (rb.setSlot j x).slot i = if i = j then x else rb.slot i := by
  split
  · next he => rw [he, setSlot_slot_same rb j x h]
  · next hne => exact setSlot_slot_other rb x hne

theorem setSlot_setSlot (rb : Ring) (j : Nat) (x y : Slot) : (rb.setSlot j x).setSlot j y = rb.setSlot j y := by
  simp [Ring.setSlot]

/-- `Commit` overwrites whatever the tail slot held. -/
theorem setSlot_tail_commit (rb : Ring) (x : Slot) (n : Nat) : (rb.setSlot rb.tail x).commit n = rb.commit n := by
  simp [Ring.setSlot, Ring.commit, Ring.next]

theorem setSlot_shape {rb : Ring} (h : RingShape rb) (j : Nat) (x : Slot) : RingShape (rb.setSlot j x) := by
  obtain ⟨hl, hrest⟩ := h
  exact ⟨by simpa using hl, hrest⟩

/-! ## A fresh ring -/

/-- Of a ring with nothing queued and every slot empty, all the invariants but its shape say nothing or hold. -/
theorem slot_of_allEmpty {rb : Ring} (h : AllEmpty rb) (i : Nat) : (rb.slot i).state = .empty ∧ (rb.slot i).fill = 0 := by
  by_cases hi : i < rb.slots.length
  · have : rb.slot i = rb.slots[i] := by simp [Ring.slot, hi]
    rw [this]
    exact h _ (List.getElem_mem hi)
  · simp [Ring.slot, List.getElem?_eq_none (Nat.le_of_not_lt hi), Slot.blank]

theorem allocate_allEmpty (rule : AllocRule) (num size : Nat) (rb : Ring) : AllEmpty (rb.allocate rule num size) := by
  intro x hx
  simp only [Ring.allocate] at hx
  split at hx
  · rw [List.eq_of_mem_replicate hx]; exact ⟨rfl, rfl⟩
  · cases hx

theorem clear_allEmpty (rb : Ring) : AllEmpty rb.clear := by
  intro x hx
  obtain ⟨y, -, rfl⟩ := List.mem_map.mp hx
  exact ⟨rfl, rfl⟩

end Sys2Proof.Machine
end

