-- ==== Sys2Proof/Proofs/Moves.lean ====
section
/-! What a step can do to the state, said once: every step is a sequence of the moves below, so a property that each
move keeps is kept by every step. Each move is one indivisible change of 10_state.md R50's invariants: a flag with its
mirror bit, a slot with its cursors, a record with its ring's flag. -/

namespace Sys2Proof.Machine

open Sys2Proof

/-! ## The moves -/

/-- The channel after byte `k` of its head frame has gone to the controller (43_async_engine.md R186). -/
def Channel.byteSent (x : Channel) (k : Nat) : Channel :=
  if k + 1 = (x.tx.slot x.tx.head).len then
    { x with
      tx := (x.tx.setSlot x.tx.head { x.tx.slot x.tx.head with fill := k + 1 }).consume
      txActive := false }
  else
    { x with
      tx := x.tx.setSlot x.tx.head { x.tx.slot x.tx.head with fill := k + 1 }
      txActive := true }

/-- How the rules change one channel, its mode, its `waiter` and `online` flags and its ring sizes apart. -/
inductive ChanMove (p : Params) : Channel → Channel → Prop where
  | rxEnabled (x : Channel) (b : Bool) :
    ChanMove p x { x with rxEnabled := b, mirror := replaceBit x.mirror ctlRxen b }
  | txEnabled (x : Channel) (b : Bool) :
    ChanMove p x { x with txEnabled := b, mirror := replaceBit x.mirror ctlTxen b }
  | irqEnabled (x : Channel) (b : Bool) :
    ChanMove p x { x with irqEnabled := b, mirror := replaceBit x.mirror ctlIrqen b }
  | disable (x : Channel) :
    ChanMove p x
      { x with rxEnabled := false, txEnabled := false, mirror := x.mirror &&& (ctlIrqen ||| ctlMode) }
  | ready (x : Channel) (sync async : Bool) : ChanMove p x { x with txReady := sync, txBufEmpty := async }
  | qfullCount (x : Channel) (n : Nat) (h : 0 < n → n < p.qfullThreshold) : ChanMove p x { x with qfullCount := n }
  | sticky (x : Channel) (e : Option ErrCode) (h : e.all stickyCode = true) : ChanMove p x { x with stickyErr := e }
  | handle (x : Channel) (h : Option Word) : ChanMove p x { x with sigHandle := h }
  | rdTimeout (x : Channel) (v : Word) (h : legalTimeout v = true) : ChanMove p x { x with rdTimeout := v }
  | wrTimeout (x : Channel) (v : Word) (h : legalTimeout v = true) : ChanMove p x { x with wrTimeout := v }
  | watermark (x : Channel) (n : Nat) (h : n ≤ Config.watermarkLimit) : ChanMove p x { x with watermark := n }
  | errReported (x : Channel) (b : Bool) : ChanMove p x { x with rx := { x.rx with errReported := b } }
  | queueTx (x : Channel) (n : Nat) (hroom : x.tx.entryCount ≠ x.tx.cap) (hon : x.tx.online = true) (h1 : 1 ≤ n)
      (hn : n ≤ x.tx.fsz) : ChanMove p x { x with tx := x.tx.commit n }
  | sendFrame (x : Channel) (hm : x.mode = .sync) (ha : x.tx.avail = true) :
    ChanMove p x { x with tx := x.tx.consume }
  | sendByte (x : Channel) (k : Nat) (hm : x.mode = .async)
      (hk : (x.txActive = true ∧ k = (x.tx.slot x.tx.head).fill) ∨
        (x.txActive = false ∧ x.tx.avail = true ∧ k = 0)) : ChanMove p x (x.byteSent k)
  | queueRx (x : Channel) (n : Nat) (hroom : x.rx.entryCount ≠ x.rx.cap)
      (hn : n ≤ x.rx.fsz ∨ (x.rx.filling x.rx.tail = true ∧ n = (x.rx.slot x.rx.tail).fill)) :
    ChanMove p x { x with rx := x.rx.commit n }
  | append (x : Channel) (hm : x.mode = .async) (hroom : x.rx.entryCount ≠ x.rx.cap)
      (hfit : partialFill x.rx + 1 < x.rx.fsz) :
    ChanMove p x
      { x with rx := x.rx.setSlot x.rx.tail ⟨.filling, (x.rx.slot x.rx.tail).len, partialFill x.rx + 1⟩ }
  | dropPartial (x : Channel) (hf : x.rx.filling x.rx.tail = true) :
    ChanMove p x { x with rx := x.rx.setSlot x.rx.tail { x.rx.slot x.rx.tail with state := .empty, fill := 0 } }
  | deliver (x : Channel) (hpos : 0 < x.rx.entryCount) : ChanMove p x { x with rx := x.rx.consume }

/-- The first step of a two-step command on a channel: its rings go offline, a half-sent frame is given up
(40_ring_buffer.md R132, 45_config_control.md R235). -/
def TwoStep.suspend (ts : TwoStep) (c : Chan) (x : Channel) : Channel :=
  { x with
    tx := if ts.touches c .tx then { x.tx with online := false } else x.tx
    rx := if ts.touches c .rx then { x.rx with online := false } else x.rx
    txActive := x.txActive && !ts.touches c .tx }

/-- The value a two-step command keeps has passed its check (45_config_control.md R215, R216). -/
def TwoStep.legal : TwoStep → Bool
  | .size _ _ v => legalSize v
  | .num _ _ v => legalNum v
  | .channel _ => true
  | .device => true

/-- A ring after the second step of a two-step command on it, its `Wake` apart (40_ring_buffer.md R131, R135). -/
def TwoStep.renewRing (ts : TwoStep) (rule : AllocRule) (rb : Ring) : Ring :=
  match ts with
  | .size _ _ v => { rb.allocate rule rb.cap v.toNat with online := true }
  | .num _ _ v => { rb.allocate rule v.toNat rb.fsz with online := true }
  | .channel _ => rb.clear
  | .device => rb.clear

/-- The second step of a two-step command on a channel, its `Wake`s apart. -/
def TwoStep.renew (ts : TwoStep) (rule : AllocRule) (c : Chan) (x : Channel) : Channel :=
  { x with
    tx := if ts.touches c .tx then ts.renewRing rule x.tx else x.tx
    rx := if ts.touches c .rx then ts.renewRing rule x.rx else x.rx }

/-- Nothing but the channels, the port, the responses, the signals and the schedule is changed, but for slot storage in
its canonical form, the entry of the interrupt context and a service that begins, goes on or ends. -/
structure Frame (s t : State) : Prop where
  calls : t.calls = s.calls
  params : t.params = s.params
  irqLog : t.irqLog = s.irqLog
  irqCount : t.dev.irqCount = s.dev.irqCount
  memory : Memory.wf s.mem = true → Memory.wf t.mem = true
  inIsr : s.dev.inIsr = true → t.dev.inIsr = true
  key : t.key = s.key ∨ KeyOk t

/-- One move of the machine. -/
inductive Move : State → State → Prop where
  | quiet {s t : State} (hf : Frame s t) (hc : ∀ c, t.chan c = s.chan c) : Move s t
  | chan {s : State} (c : Chan) {y : Channel} (h : ChanMove s.params (s.chan c) y) : Move s (s.modChan c fun _ => y)
  | mode {s : State} (c : Chan) (m : Mode) (hi : s.dev.inIsr = false) (hq : quiescent (s.chan c) = true) :
    Move s (s.modChan c fun x => { x with mode := m, mirror := replaceBit x.mirror ctlMode m.bit })
  | wake (s : State) (c : Chan) (d : Dir) : Move s (wake c d s)
  | block {s : State} (tid : Tid) (b : Blocked) (hidle : callOf s.calls tid = none) (hw : b.woken = false)
      (htmo : b.tmo = (s.chan b.ch).rdTimeout ∨ b.tmo = (s.chan b.ch).wrTimeout) (hwait : noWait b.tmo = false) :
    Move s
      { s.modRing b.ch b.dir fun rb => { rb with waiter := true } with
        calls := insertCall s.calls tid (.blocked b) }
  | leave {s : State} (tid : Tid) (b : Blocked) (h : callOf s.calls tid = some (.blocked b)) : Move s (leave tid b s)
  | suspend {s : State} (tid : Tid) (cw : Word) (w1 : Option Word) (ts : TwoStep) (hidle : callOf s.calls tid = none)
      (hfree : anyMid s.calls = false) (hmid : midStep cw w1 = some ts) (hlegal : ts.legal = true) :
    Move s
      { s with
        ch0 := ts.suspend .ch0 s.ch0
        ch1 := ts.suspend .ch1 s.ch1
        calls := insertCall s.calls tid (.mid cw w1) }
  | renew {s : State} (tid : Tid) (cw : Word) (w1 : Option Word) (ts : TwoStep)
      (h : callOf s.calls tid = some (.mid cw w1)) (hmid : midStep cw w1 = some ts) :
    Move s
      { s with
        ch0 := ts.renew s.params.alloc .ch0 s.ch0
        ch1 := ts.renew s.params.alloc .ch1 s.ch1
        calls := dropCall s.calls tid }

/-- A sequence of moves. -/
abbrev Moves : State → State → Prop := Relation.ReflTransGen Move

/-- A sequence of changes of one channel. -/
abbrev ChanMoves (p : Params) : Channel → Channel → Prop := Relation.ReflTransGen (ChanMove p)

/-! ## Building sequences -/

theorem chan_ext {s t : State} (c : Chan) (h : t.chan c = s.chan c) (ho : t.chan c.other = s.chan c.other) :
    ∀ c', t.chan c' = s.chan c' := by
  intro c'
  cases c <;> cases c' <;> assumption

/-- Only the port, the responses, the signals, the schedule or the device's interrupt enable are changed. -/
theorem Frame.of_eq {s t : State} (calls : t.calls = s.calls) (params : t.params = s.params)
    (irqLog : t.irqLog = s.irqLog) (irqCount : t.dev.irqCount = s.dev.irqCount) (mem : t.mem = s.mem)
    (inIsr : t.dev.inIsr = s.dev.inIsr) (key : t.key = s.key) : Frame s t :=
  ⟨calls, params, irqLog, irqCount, fun h => mem ▸ h, fun h => inIsr ▸ h, .inl key⟩

theorem moves_quiet {s t : State} (hf : Frame s t) (hc : ∀ c, t.chan c = s.chan c) : Moves s t :=
  .single (.quiet hf hc)

theorem moves_setChan {s : State} {c : Chan} {y : Channel} (h : ChanMoves s.params (s.chan c) y) :
    Moves s (s.modChan c fun _ => y) := by
  induction h with
  | refl =>
    have : (s.modChan c fun _ => s.chan c) = s := by cases c <;> rfl
    rw [this]
  | @tail y z _ hm ih =>
    have hz : (s.modChan c fun _ => z) = (s.modChan c fun _ => y).modChan c fun _ => z := by simp
    rw [hz]
    exact ih.tail (.chan c (by simpa using hm))

/-- A change of one channel, whatever else in the frame goes with it. -/
theorem moves_of_chan {s t : State} (c : Chan) (h : ChanMoves s.params (s.chan c) (t.chan c))
    (ho : t.chan c.other = s.chan c.other) (hf : Frame s t) : Moves s t := by
  have hf' : Frame (s.modChan c fun _ => t.chan c) t :=
    ⟨by simpa using hf.calls, by simpa using hf.params, by simpa using hf.irqLog, by simpa using hf.irqCount,
      by simpa using hf.memory, by simpa using hf.inIsr, by simpa using hf.key⟩
  exact (moves_setChan h).trans (moves_quiet hf' (chan_ext c (by simp) (by simpa using ho)))

theorem moves_modChan {s : State} (c : Chan) {f : Channel → Channel}
    (h : ChanMoves s.params (s.chan c) (f (s.chan c))) : Moves s (s.modChan c f) :=
  moves_of_chan c (by simpa using h) (by simp)
    (.of_eq (by simp) (by simp) (by simp) (by simp) (by simp) (by simp) (by simp))

/-- A flag of the channel and the `CTL` write that goes with it are one change (10_state.md R37). -/
theorem moves_writeCtl {s : State} (c : Chan) {f : Channel → Channel} {v : Word}
    (h : ChanMoves s.params (s.chan c) { f (s.chan c) with mirror := v }) : Moves s (writeCtl c v (s.modChan c f)) :=
  moves_of_chan c (by simpa using h) (by simp)
    (.of_eq (by simp) (by simp) (by simp) (by simp) (by simp) (by simp) (by simp))

/-! ## What no move changes -/

theorem chanMove_mode {p : Params} {x y : Channel} (h : ChanMove p x y) : y.mode = x.mode := by
  cases h
  case sendByte => unfold Channel.byteSent; split <;> rfl
  all_goals rfl

/-- A move touches neither the parameters nor the count and the results of the interrupts. -/
theorem move_record {s t : State} (h : Move s t) :
    t.params = s.params ∧ t.irqLog = s.irqLog ∧ t.dev.irqCount = s.dev.irqCount := by
  cases h
  case quiet hf _ => exact ⟨hf.params, hf.irqLog, hf.irqCount⟩
  all_goals simp

theorem moves_record {s t : State} (h : Moves s t) :
    t.params = s.params ∧ t.irqLog = s.irqLog ∧ t.dev.irqCount = s.dev.irqCount := by
  induction h with
  | refl => exact ⟨rfl, rfl, rfl⟩
  | tail _ hm ih =>
    obtain ⟨hp, hl, hn⟩ := move_record hm
    exact ⟨hp.trans ih.1, hl.trans ih.2.1, hn.trans ih.2.2⟩

@[simp] theorem wake_mode (c : Chan) (d : Dir) (s : State) (c' : Chan) :
    ((wake c d s).chan c').mode = (s.chan c').mode := by
  unfold wake; split <;> cases c <;> cases c' <;> cases d <;> rfl

@[simp] theorem modRing_mode (s : State) (c : Chan) (d : Dir) (f : Ring → Ring) (c' : Chan) :
    ((s.modRing c d f).chan c').mode = (s.chan c').mode := by
  cases c <;> cases c' <;> cases d <;> rfl

@[simp] theorem leave_mode (tid : Tid) (b : Blocked) (s : State) (c : Chan) :
    ((leave tid b s).chan c).mode = (s.chan c).mode := by
  rw [leave, chan_with_calls, modRing_mode]

/-- An interrupt in service stays in service, in the modes it found. -/
theorem move_serving {s t : State} (h : Move s t) (hi : s.dev.inIsr = true) :
    t.dev.inIsr = true ∧ ∀ c, (t.chan c).mode = (s.chan c).mode := by
  cases h
  case quiet hf hc => exact ⟨hf.inIsr hi, fun c => by rw [hc]⟩
  case chan c y hm =>
    refine ⟨by simpa using hi, fun c' => ?_⟩
    rw [modChan_chan]
    split
    · next he => rw [he]; exact chanMove_mode hm
    · rfl
  case mode hi' _ => rw [hi] at hi'; cases hi'
  case wake => exact ⟨by simpa using hi, fun c => by simp⟩
  case block => exact ⟨by simpa using hi, fun c => by rw [chan_with_calls, modRing_mode]⟩
  case leave => exact ⟨by simpa using hi, fun c => by simp⟩
  case suspend => exact ⟨hi, fun c => by cases c <;> rfl⟩
  case renew => exact ⟨hi, fun c => by cases c <;> rfl⟩

theorem moves_serving {s t : State} (h : Moves s t) (hi : s.dev.inIsr = true) :
    t.dev.inIsr = true ∧ ∀ c, (t.chan c).mode = (s.chan c).mode := by
  induction h with
  | refl => exact ⟨hi, fun _ => rfl⟩
  | tail _ hm ih =>
    obtain ⟨hi', hmode⟩ := ih
    obtain ⟨hi'', hmode'⟩ := move_serving hm hi'
    exact ⟨hi'', fun c => (hmode' c).trans (hmode c)⟩

/-! ## The shared operations -/

theorem moves_regRead (c : Chan) (r : ReadReg) (s : State) : Moves s (regRead c r s) :=
  moves_quiet (.of_eq rfl rfl rfl rfl rfl rfl rfl) (by simp)

theorem moves_readFifo (c : Chan) (n : Nat) (s : State) : Moves s (readFifo c n s) :=
  moves_quiet (.of_eq (by simp) (by simp) (by simp) (by simp) (by simp) (by simp) (by simp)) (by simp)

theorem moves_respond (tid : Tid) (n : Nat) (e : ErrCode) (out : List Byte) (s : State) :
    Moves s (respond tid n e out s) :=
  moves_quiet (.of_eq rfl rfl rfl rfl rfl rfl rfl) (by simp)

theorem moves_raiseSignal (c : Chan) (s : State) : Moves s (raiseSignal c s) :=
  moves_quiet (.of_eq (by simp) (by simp) (by simp) (by simp) (by simp) (by simp) (by simp)) (by simp)

theorem moves_acknowledge (c : Chan) (cmd : Word) (s : State) : Moves s (acknowledge c cmd s) :=
  moves_quiet ⟨rfl, rfl, rfl, rfl, id, id, .inr (by simp)⟩ (by simp)

theorem moves_wake (c : Chan) (d : Dir) (s : State) : Moves s (wake c d s) := .single (.wake s c d)

theorem moves_notifyRx (c : Chan) (s : State) : Moves s (notifyRx c s) :=
  (moves_wake c .rx s).trans (moves_raiseSignal c _)

theorem moves_postError {e : ErrCode} (h : stickyCode e = true) (c : Chan) (s : State) : Moves s (postError c e s) :=
  .trans (moves_modChan c (.single (.sticky _ (some e) (by simpa using h))))
    ((moves_wake c .rx _).trans (moves_raiseSignal c _))

/-- A service that is not at its end stays in progress under its key (notes/assumptions/7.md). -/
theorem moves_keepService {s : State} {c : Chan} {dk : BitVec 4} (hi : s.dev.inIsr = true)
    (hrx : dk.getLsbD 2 = true) (hm : dk.getLsbD 3 = (s.chan c).mode.bit) :
    Moves s { s with key := some (c, dk) } :=
  moves_quiet ⟨rfl, rfl, rfl, rfl, id, id, .inr (by simpa using ⟨hi, hrx, hm⟩)⟩ (by simp)

theorem moves_enqueue {c : Chan} {d : Dir} {data : List Byte} {s t : State} (h : enqueue c d data s = .next t)
    (hm : data.length ≤ (s.ring c d).fsz →
      ChanMove s.params (s.chan c) ((s.chan c).modRing d (Ring.commit data.length))) : Moves s t := by
  obtain ⟨-, hfit, -, rfl⟩ := enqueue_eq_next.mp h
  have hc := chan_with_mem (s.modRing c d (Ring.commit data.length))
  refine moves_of_chan c (by rw [hc, modRing_chan_same]; exact .single (hm hfit)) (by rw [hc, modRing_chan_other]) ?_
  exact ⟨by simp, by simp, by simp, by simp, fun h => storeBytes_wf data h _, by simp, .inl (by simp)⟩

/-! ## The transfer engines -/

theorem replaceBit_true (v mask : Word) : replaceBit v mask true = v ||| mask := by
  ext i hi
  simp only [replaceBit, bitAt, if_true, BitVec.getElem_or, BitVec.getElem_and, BitVec.getElem_not]
  cases v[i] <;> cases mask[i] <;> rfl

theorem moves_txSyncBurst {c : Chan} {s : State} (hm : (s.chan c).mode = .sync)
    (ha : (s.chan c).tx.avail = true) : Moves s (txSyncBurst c s) := by
  have hchan : ChanMoves s.params (s.chan c)
      { s.chan c with
        txEnabled := true, mirror := (s.chan c).mirror ||| ctlTxen, tx := (s.chan c).tx.consume, txReady := false } := by
    rw [← replaceBit_true]
    exact ((Relation.ReflTransGen.single (.txEnabled _ true)).tail (.sendFrame _ hm ha)).tail
      (.ready _ false (s.chan c).txBufEmpty)
  exact .trans (moves_of_chan c (by simpa using hchan) (by simp)
      (.of_eq (by simp) (by simp) (by simp) (by simp) (by simp) (by simp) (by simp)))
    (moves_wake c .tx _)

theorem moves_txSyncStart {c : Chan} {s t : State} (hm : (s.chan c).mode = .sync) (h : txSyncStart c s = .next t) :
    Moves s t := by
  obtain ⟨-, rfl⟩ | ⟨ha, -, -, rfl⟩ := txSyncStart_eq_next.mp h
  · exact moves_modChan c (.single (.ready _ true (s.chan c).txBufEmpty))
  · exact moves_txSyncBurst hm ha

/-- The last byte of a frame is sent and the frame consumed. -/
theorem byteSent_last {x : Channel} {k : Nat} (h : k + 1 = (x.tx.slot x.tx.head).len) :
    x.byteSent k =
      { x with
        tx := (x.tx.setSlot x.tx.head { x.tx.slot x.tx.head with fill := k + 1 }).consume
        txActive := false } := if_pos h

/-- After any other byte the frame is the one being sent. -/
theorem byteSent_more {x : Channel} {k : Nat} (h : k + 1 ≠ (x.tx.slot x.tx.head).len) :
    x.byteSent k =
      { x with
        tx := x.tx.setSlot x.tx.head { x.tx.slot x.tx.head with fill := k + 1 }
        txActive := true } := if_neg h

/-- The sending of a byte of an active frame: the head frame is `READY`, its next byte goes out, and after the last one
the writers are woken (43_async_engine.md R186). -/
theorem txAsyncSend_next {c : Chan} {s t : State} (ha : (s.chan c).txActive = true)
    (h : txAsyncSend c s = .next t) :
    (s.chan c).tx.headReady = true ∧
    ∃ u, (t = u ∨ t = wake c .tx u) ∧ Frame s u ∧ u.chan c.other = s.chan c.other ∧
      u.chan c = { (s.chan c).byteSent ((s.chan c).tx.slot (s.chan c).tx.head).fill with txBufEmpty := false } := by
  unfold txAsyncSend at h
  simp only at h
  split at h
  · cases h
  · next hr =>
    have hframe : ∀ (v : Word) (f : Channel → Channel), Frame s ((portWrite c .txfifo v s).modChan c f) := fun v f =>
      .of_eq (by simp) (by simp) (by simp) (by simp) (by simp) (by simp) (by simp)
    refine ⟨by simpa using hr, ?_⟩
    split at h
    · cases h
    · split at h
      · next hlast =>
        cases h
        refine ⟨_, .inr rfl, by simpa using hframe _ _, by simp, ?_⟩
        rw [ring_tx] at hlast
        rw [byteSent_last hlast]
        simp
      · next hmore =>
        cases h
        refine ⟨_, .inl rfl, hframe _ _, by simp, ?_⟩
        rw [ring_tx] at hmore
        rw [byteSent_more hmore]
        simp [ha]

/-- Marking a frame active and sending its first byte is one change (43_async_engine.md R186). -/
theorem byteSent_activate {x : Channel} (h : x.tx.head < x.tx.slots.length) :
    Channel.byteSent
      { x with txActive := true, tx := x.tx.setSlot x.tx.head { x.tx.slot x.tx.head with fill := 0 } } 0 =
    x.byteSent 0 := by
  simp only [Channel.byteSent, setSlot_head, setSlot_slot_same _ _ _ h, setSlot_setSlot]

theorem moves_txAsyncByte {c : Chan} {s t : State} (hm : (s.chan c).mode = .async)
    (h : txAsyncByte c s = .next t) : Moves s t := by
  have send : ∀ {u : State} {k : Nat}, (t = u ∨ t = wake c .tx u) → Frame s u → u.chan c.other = s.chan c.other →
      u.chan c = { (s.chan c).byteSent k with txBufEmpty := false } →
      ((s.chan c).txActive = true ∧ k = ((s.chan c).tx.slot (s.chan c).tx.head).fill ∨
        (s.chan c).txActive = false ∧ (s.chan c).tx.avail = true ∧ k = 0) → Moves s t := by
    intro u k ht hf ho hu hk
    have hsu : Moves s u := moves_of_chan c
      (by rw [hu]; exact (Relation.ReflTransGen.single (.sendByte _ k hm hk)).tail (.ready _ _ false)) ho hf
    obtain rfl | rfl := ht
    · exact hsu
    · exact hsu.trans (moves_wake c .tx u)
  obtain ⟨-, -, rfl⟩ | ⟨ha, h⟩ | ⟨ha, hav, h⟩ := txAsyncByte_eq_next.mp h
  · exact moves_modChan c (.single (.ready _ (s.chan c).txReady true))
  · obtain ⟨-, u, ht, hf, ho, hu⟩ := txAsyncSend_next ha h
    exact send ht hf ho hu (.inl ⟨ha, rfl⟩)
  · obtain ⟨hr, u, ht, hf, ho, hu⟩ := txAsyncSend_next (by simp [txAsyncActivate]) h
    have hact : (txAsyncActivate c s).chan c = { s.chan c with
        txActive := true
        tx := (s.chan c).tx.setSlot (s.chan c).tx.head { (s.chan c).tx.slot (s.chan c).tx.head with fill := 0 } } := by
      simp [txAsyncActivate]
    have hlt : (s.chan c).tx.head < (s.chan c).tx.slots.length := by
      rw [hact] at hr
      have := lt_length_of_slot_ne (rb := (s.chan c).tx.setSlot (s.chan c).tx.head
        { (s.chan c).tx.slot (s.chan c).tx.head with fill := 0 }) (i := (s.chan c).tx.head)
        (by have := of_decide_eq_true hr; simp at this; simp [this])
      simpa using this
    rw [hact, setSlot_head, setSlot_slot_same _ _ _ hlt, byteSent_activate hlt] at hu
    have hf' : Frame s u := by
      have hs : Frame s (txAsyncActivate c s) :=
        .of_eq (by simp [txAsyncActivate]) (by simp [txAsyncActivate]) (by simp [txAsyncActivate])
          (by simp [txAsyncActivate]) (by simp [txAsyncActivate]) (by simp [txAsyncActivate]) (by simp [txAsyncActivate])
      exact ⟨hf.calls.trans hs.calls, hf.params.trans hs.params, hf.irqLog.trans hs.irqLog,
        hf.irqCount.trans hs.irqCount, hf.memory ∘ hs.memory, hf.inIsr ∘ hs.inIsr, by
          simpa [txAsyncActivate] using hf.key⟩
    exact send ht hf' (by simpa [txAsyncActivate] using ho) hu (.inr ⟨ha, by simpa using hav, rfl⟩)

end Sys2Proof.Machine
end

