-- ==== Sys2Proof/Proofs/InterruptMoves.lean ====
section
/-! The receive engines, the external service and the dispatcher as sequences of moves (42_sync_engine.md,
43_async_engine.md, 44_isr_dispatcher.md). -/

namespace Sys2Proof.Machine

open Sys2Proof

/-! ## What both receive engines share -/

theorem stickyCode_ecode (e : BitVec 2) : stickyCode (ecode e) = true := by
  unfold ecode
  split
  · rfl
  · split <;> rfl

/-- `qfullCount` is set where it stays below the threshold. -/
theorem moves_qfullCount {s : State} (c : Chan) (f : Nat → Nat)
    (h : 0 < f (s.chan c).qfullCount → f (s.chan c).qfullCount < s.params.qfullThreshold) :
    Moves s (s.modChan c fun x => { x with qfullCount := f x.qfullCount }) :=
  moves_modChan c (.single (.qfullCount _ _ h))

theorem moves_queueFullPass (c : Chan) (s : State) : Moves s (queueFullPass c s) := by
  unfold queueFullPass
  simp only
  split
  case isTrue =>
    refine .trans (moves_of_chan c ?chan (by simp) ?frame) (moves_postError rfl c _)
    case chan =>
      simpa using (Relation.ReflTransGen.single (.rxEnabled (s.chan c) false)).tail (.qfullCount _ 0 (by simp))
    case frame => exact .of_eq (by simp) (by simp) (by simp) (by simp) (by simp) (by simp) (by simp)
  case isFalse hlt => exact moves_qfullCount c (· + 1) fun _ => by simpa using hlt

/-! ## The synchronous receive loop -/

theorem moves_storeEntry {c : Chan} {n : Nat} {s t : State} (hroom : (s.chan c).rx.full = false)
    (h : storeEntry c n s = .next t) : Moves s t := by
  obtain ⟨u, hu, ht⟩ := andThen_eq_next.mp h
  cases ht
  have hm := moves_enqueue hu fun hfit =>
    .queueRx _ _ (by simpa using (full_eq_false.mp hroom).1) (.inl (by simpa using hfit))
  exact ((moves_readFifo c n s).trans hm).trans (moves_notifyRx c u)

theorem moves_rxSyncEntry {c : Chan} {s t : State} (hroom : (s.chan c).rx.full = false)
    (h : rxSyncEntry c s = .next t) : Moves s t := by
  have hstart := (moves_qfullCount (s := s) c (fun _ => 0) (by simp)).trans (moves_regRead c .sfifo _)
  refine hstart.trans ?_
  unfold rxSyncEntry at h
  simp only at h
  split at h
  · cases h
    exact (moves_readFifo c _ _).trans (moves_postError (stickyCode_ecode _) c _)
  · split at h
    · cases h
      exact (moves_readFifo c _ _).trans (moves_postError rfl c _)
    · exact moves_storeEntry (by simpa using hroom) h

theorem moves_rxSyncLoop {c : Chan} {dk : BitVec 4} {n : Nat} {s t : State} (hrx : dk.getLsbD 2 = true)
    (hdk : dk.getLsbD 3 = Mode.sync.bit) (hi : s.dev.inIsr = true) (hm : (s.chan c).mode = .sync)
    (h : rxSyncLoop c dk n s = .next t) : Moves s t := by
  induction n generalizing s with
  | zero =>
    cases h
    exact moves_keepService hi hrx (by rw [hm, hdk])
  | succ n ih =>
    refine (moves_regRead c .rs s).trans ?_
    by_cases hne : rsSfne (portAnswer c .rs s) = true
    · by_cases hfull : (s.ring c .rx).full = true
      · rw [rxSyncLoop_full hne hfull] at h
        cases h
        exact (moves_queueFullPass c _).trans (moves_acknowledge c _ _)
      · rw [rxSyncLoop_entry hne (by simpa using hfull)] at h
        obtain ⟨u, hu, ht⟩ := andThen_eq_next.mp h
        have hsu := moves_rxSyncEntry (by simpa using hfull) hu
        obtain ⟨hi', hm'⟩ := moves_serving hsu (by simpa using hi)
        exact hsu.trans (ih hi' (by rw [hm' c]; simpa using hm) ht)
    · rw [rxSyncLoop_empty (by simpa using hne)] at h
      cases h
      exact moves_acknowledge c _ _

/-! ## The asynchronous receive loop -/

/-- The watermark check raises a signal or does nothing (43_async_engine.md R192). -/
theorem watermarkCheck_eq (c : Chan) (f : Nat) (s : State) :
    ∃ log, watermarkCheck c f s = { s with sigLog := log } := by
  unfold watermarkCheck raiseSignal
  split
  · split
    · exact ⟨_, rfl⟩
    · exact ⟨s.sigLog, rfl⟩
  · exact ⟨s.sigLog, rfl⟩

theorem watermarkCheck_chan (c : Chan) (f : Nat) (s : State) (c' : Chan) :
    (watermarkCheck c f s).chan c' = s.chan c' := by
  obtain ⟨log, h⟩ := watermarkCheck_eq c f s
  rw [h, chan_with_sigLog]

theorem Frame.watermarkCheck {s t : State} (h : Frame s t) (c : Chan) (f : Nat) : Frame s (watermarkCheck c f t) := by
  obtain ⟨log, hlog⟩ := watermarkCheck_eq c f t
  rw [hlog]
  exact ⟨h.calls, h.params, h.irqLog, h.irqCount, h.memory, h.inIsr, h.key⟩

/-- The state with one more byte in the tail slot of a receive ring (43_async_engine.md R189). -/
def byteStored (c : Chan) (b : Byte) (s : State) : State :=
  { s.modRing c .rx fun r => r.setSlot r.tail ⟨.filling, (r.slot r.tail).len, partialFill (s.ring c .rx) + 1⟩ with
    mem := memWrite s.mem (slotAddr c .rx (s.ring c .rx).tail (partialFill (s.ring c .rx))) b }

theorem byteStored_chan_same (c : Chan) (b : Byte) (s : State) :
    (byteStored c b s).chan c = { s.chan c with
      rx := (s.chan c).rx.setSlot (s.chan c).rx.tail
        ⟨.filling, ((s.chan c).rx.slot (s.chan c).rx.tail).len, partialFill (s.chan c).rx + 1⟩ } := by
  rw [byteStored, chan_with_mem, modRing_chan_same]
  rfl

theorem byteStored_chan_other (c : Chan) (b : Byte) (s : State) :
    (byteStored c b s).chan c.other = s.chan c.other := by
  rw [byteStored, chan_with_mem, modRing_chan_other]

theorem frame_byteStored (c : Chan) (b : Byte) (s : State) : Frame s (byteStored c b s) :=
  ⟨by simp [byteStored], by simp [byteStored], by simp [byteStored], by simp [byteStored],
    fun hw => memWrite_wf hw _ _, by simp [byteStored], .inl (by simp [byteStored])⟩

/-- `AppendByte` puts one more byte into the tail slot, looks at the watermark, and seals the frame where the slot is
full (43_async_engine.md R189, R192, R193). -/
theorem appendByte_next {c : Chan} {b : Byte} {s t : State} (h : appendByte c b s = .next t) :
    partialFill (s.ring c .rx) < (s.ring c .rx).fsz ∧
    t = if partialFill (s.ring c .rx) + 1 = (s.ring c .rx).fsz
      then sealFrame c (watermarkCheck c (partialFill (s.ring c .rx) + 1) (byteStored c b s))
      else watermarkCheck c (partialFill (s.ring c .rx) + 1) (byteStored c b s) := by
  unfold appendByte at h
  simp only at h
  split at h
  · cases h
  · next hin =>
    refine ⟨Nat.lt_of_not_le (not_or.mp hin).2, ?_⟩
    split at h
    · exact (Host.Outcome.next.inj h).symm
    · cases h

/-- A character that completes its frame fills the slot and commits it in one change (43_async_engine.md R189,
R193). -/
theorem moves_appendByte {c : Chan} {b : Byte} {s t : State} (hm : (s.chan c).mode = .async)
    (hroom : (s.chan c).rx.full = false) (h : appendByte c b s = .next t) : Moves s t := by
  have hcount := (full_eq_false.mp hroom).1
  obtain ⟨hfit, ht⟩ := appendByte_next h
  generalize hu : watermarkCheck c (partialFill (s.ring c .rx) + 1) (byteStored c b s) = u at ht
  have hf : Frame s u := hu ▸ (frame_byteStored c b s).watermarkCheck c _
  have hc := byteStored_chan_same c b s
  rw [← watermarkCheck_chan c (partialFill (s.ring c .rx) + 1), hu] at hc
  have ho := byteStored_chan_other c b s
  rw [← watermarkCheck_chan c (partialFill (s.ring c .rx) + 1), hu] at ho
  subst ht
  split
  case isTrue hlast =>
    have hcommit : (u.chan c).rx.commit (u.chan c).rx.fsz = (s.chan c).rx.commit (s.chan c).rx.fsz := by
      rw [hc, setSlot_fsz, setSlot_tail_commit]
    refine .trans (moves_of_chan c ?chan ?other ?frame) (moves_notifyRx c _)
    case chan =>
      rw [modRing_chan_same, modRing_rx, hcommit, hc]
      exact .single (.queueRx _ _ hcount (.inl (Nat.le_refl _)))
    case other => rw [modRing_chan_other, ho]
    case frame =>
      exact ⟨by simpa using hf.calls, by simpa using hf.params, by simpa using hf.irqLog, by simpa using hf.irqCount,
        by simpa using hf.memory, by simpa using hf.inIsr, by simpa using hf.key⟩
  case isFalse hmore =>
    rw [ring_rx] at hfit hmore
    exact moves_of_chan c (by rw [hc]; exact .single (.append _ hm hcount (by omega))) ho hf

theorem moves_goodCharacter {c : Chan} {s t : State} (hm : (s.chan c).mode = .async)
    (hroom : (s.chan c).rx.full = false) (h : goodCharacter c s = .next t) : Moves s t :=
  ((moves_qfullCount (s := s) c (fun _ => 0) (by simp)).trans (moves_regRead c .rxfifo _)).trans
    (moves_appendByte (by simpa using hm) (by simpa using hroom) h)

theorem moves_abortPartial (c : Chan) (s : State) : Moves s (abortPartial c s) := by
  unfold abortPartial
  split
  · next h =>
    exact moves_modChan c (.single (.dropPartial _ (by simpa using h.2)))
  · exact .refl

theorem moves_badCharacter (c : Chan) (rs : Word) (s : State) : Moves s (badCharacter c rs s) :=
  ((moves_regRead c .rxfifo s).trans (moves_abortPartial c _)).trans (moves_postError (stickyCode_ecode _) c _)

/-- One pass of the asynchronous receive loop with a good character and a full ring ends the service
(43_async_engine.md R188). -/
theorem rxAsyncLoop_full {c : Chan} {dk : BitVec 4} {n : Nat} {s : State}
    (h : rsRca (portAnswer c .rs s) = true) (he : rsRxe (portAnswer c .rs s) = false)
    (hf : (s.ring c .rx).full = true) :
    rxAsyncLoop c dk (n + 1) s = .next (acknowledge c cmdAckRx (queueFullPass c (regRead c .rs s))) := by
  rw [ring_rx] at hf
  simp [rxAsyncLoop, h, he, hf]

/-- One pass of the asynchronous receive loop with a good character and room appends it and goes on
(43_async_engine.md R188). -/
theorem rxAsyncLoop_good {c : Chan} {dk : BitVec 4} {n : Nat} {s : State}
    (h : rsRca (portAnswer c .rs s) = true) (he : rsRxe (portAnswer c .rs s) = false)
    (hf : (s.ring c .rx).full = false) :
    rxAsyncLoop c dk (n + 1) s = andThen (goodCharacter c (regRead c .rs s)) (rxAsyncLoop c dk n) := by
  rw [ring_rx] at hf
  simp [rxAsyncLoop, h, he, hf]

theorem moves_rxAsyncLoop {c : Chan} {dk : BitVec 4} {n : Nat} {s t : State} (hrx : dk.getLsbD 2 = true)
    (hdk : dk.getLsbD 3 = Mode.async.bit) (hi : s.dev.inIsr = true) (hm : (s.chan c).mode = .async)
    (h : rxAsyncLoop c dk n s = .next t) : Moves s t := by
  induction n generalizing s with
  | zero =>
    cases h
    exact moves_keepService hi hrx (by rw [hm, hdk])
  | succ n ih =>
    have hread := moves_regRead c .rs s
    have again : ∀ {u : State}, Moves s u → rxAsyncLoop c dk n u = .next t → Moves s t := by
      intro u hsu hu
      obtain ⟨hi', hm'⟩ := moves_serving hsu hi
      exact hsu.trans (ih hi' ((hm' c).trans hm) hu)
    by_cases hne : rsRca (portAnswer c .rs s) = true
    · by_cases hbad : rsRxe (portAnswer c .rs s) = true
      · rw [rxAsyncLoop_bad hne hbad] at h
        exact again (hread.trans (moves_badCharacter c _ _)) h
      · have hgood : rsRxe (portAnswer c .rs s) = false := by simpa using hbad
        by_cases hfull : (s.ring c .rx).full = true
        · rw [rxAsyncLoop_full hne hgood hfull] at h
          cases h
          exact (hread.trans (moves_queueFullPass c _)).trans (moves_acknowledge c _ _)
        · have hroom : (s.ring c .rx).full = false := by simpa using hfull
          rw [rxAsyncLoop_good hne hgood hroom] at h
          obtain ⟨u, hu, ht⟩ := andThen_eq_next.mp h
          exact again (hread.trans (moves_goodCharacter (by simpa using hm) (by simpa using hroom) hu)) ht
    · rw [rxAsyncLoop_empty (by simpa using hne)] at h
      cases h
      exact hread.trans (moves_acknowledge c _ _)

/-! ## The services and the dispatcher -/

theorem moves_extService {c : Chan} {s t : State} (h : extService c s = .next t) : Moves s t := by
  cases h
  refine (moves_regRead c .es s).trans (.trans ?_ (moves_acknowledge c _ _))
  split
  · exact moves_postError rfl c _
  · exact .refl

theorem moves_txSyncService {c : Chan} {s t : State} (hm : (s.chan c).mode = .sync)
    (h : txSyncService c s = .next t) : Moves s t := by
  obtain ⟨u, hu, ht⟩ := andThen_eq_next.mp h
  cases ht
  exact (moves_txSyncStart hm hu).trans (moves_acknowledge c _ u)

theorem moves_txAsyncService {c : Chan} {s t : State} (hm : (s.chan c).mode = .async)
    (h : txAsyncService c s = .next t) : Moves s t := by
  obtain ⟨u, hu, ht⟩ := andThen_eq_next.mp h
  cases ht
  exact (moves_txAsyncByte hm hu).trans (moves_acknowledge c _ u)

/-- The mode of the service a key selects is bit 3 of the key, and a receive service has bit 2 (30_encoding.md
R112). -/
theorem serviceOf_bits (dk : BitVec 4) :
    (serviceOf dk = some .rxSync → dk.getLsbD 2 = true ∧ dk.getLsbD 3 = false) ∧
    (serviceOf dk = some .rxAsync → dk.getLsbD 2 = true ∧ dk.getLsbD 3 = true) ∧
    (serviceOf dk = some .txSync → dk.getLsbD 3 = false) ∧ (serviceOf dk = some .txAsync → dk.getLsbD 3 = true) := by
  revert dk; decide

theorem mode_of_bit {m : Mode} : (m.bit = false → m = .sync) ∧ (m.bit = true → m = .async) := by
  cases m <;> decide

theorem moves_runService {c : Chan} {dk : BitVec 4} {s t : State} (hi : s.dev.inIsr = true)
    (hdk : dk.getLsbD 3 = (s.chan c).mode.bit) (h : runService c dk s = .next t) : Moves s t := by
  obtain ⟨hrs, hra, hts, hta⟩ := serviceOf_bits dk
  unfold runService at h
  split at h
  case h_1 hs =>
    obtain ⟨h2, h3⟩ := hrs hs
    exact moves_rxSyncLoop h2 h3 hi (mode_of_bit.1 (hdk.symm.trans h3)) h
  case h_2 hs =>
    obtain ⟨h2, h3⟩ := hra hs
    exact moves_rxAsyncLoop h2 h3 hi (mode_of_bit.2 (hdk.symm.trans h3)) h
  case h_3 hs => exact moves_txSyncService (mode_of_bit.1 (hdk.symm.trans (hts hs))) h
  case h_4 hs => exact moves_txAsyncService (mode_of_bit.2 (hdk.symm.trans (hta hs))) h
  case h_5 => exact moves_extService h
  case h_6 => cases h

theorem dispatchKey_mode (m : Mode) (ip : BitVec 3) : (dispatchKey m ip).getLsbD 3 = m.bit := by
  revert ip; cases m <;> decide

theorem moves_dispatch {c : Chan} {ip : BitVec 3} {s t : State} (hi : s.dev.inIsr = true)
    (h : dispatch c ip s = .next t) : Moves s t := by
  have hrun := moves_runService (s := { s with dev := { s.dev with isrHandled := true } }) hi (dispatchKey_mode _ _) h
  refine .head (.quiet ?_ ?_) hrun
  · exact .of_eq rfl rfl rfl rfl rfl rfl rfl
  · exact fun c => chan_with_dev s c _

/-- An iteration dispatches one cause, or ends the interrupt with nothing but the port touched (44_isr_dispatcher.md
R201, R204). -/
theorem moves_scan {s t : State} (hi : s.dev.inIsr = true) (h : scan s = .next t) :
    Moves s t ∨ t = endInterrupt (regRead .ch1 .ip (regRead .ch0 .ip s)) := by
  by_cases h0 : ipBits (portAnswer .ch0 .ip s) = 0#3
  · by_cases h1 : ipBits (portAnswer .ch1 .ip (regRead .ch0 .ip s)) = 0#3
    · rw [scan_none h0 h1] at h
      cases h
      exact .inr rfl
    · rw [scan_second h0 h1] at h
      exact .inl (((moves_regRead _ _ s).trans (moves_regRead _ _ _)).trans (moves_dispatch (by simpa using hi) h))
  · rw [scan_first h0] at h
    exact .inl ((moves_regRead _ _ s).trans (moves_dispatch (by simpa using hi) h))

@[simp] theorem enterInterrupt_chan (s : State) (c : Chan) : (enterInterrupt s).chan c = s.chan c := by
  unfold enterInterrupt
  split
  · rfl
  · rw [chan_with_dev]

@[simp] theorem enterInterrupt_inIsr (s : State) : (enterInterrupt s).dev.inIsr = true := by
  unfold enterInterrupt
  split
  · assumption
  · rfl

@[simp] theorem enterInterrupt_key (s : State) : (enterInterrupt s).key = s.key := by
  unfold enterInterrupt
  split <;> rfl

theorem moves_enterInterrupt (s : State) : Moves s (enterInterrupt s) := by
  refine moves_quiet ⟨?_, ?_, ?_, ?_, ?_, fun _ => enterInterrupt_inIsr s, .inl (enterInterrupt_key s)⟩
    (enterInterrupt_chan s)
  all_goals unfold enterInterrupt; split <;> simp

theorem moves_execIrq {s t : State} (hk : s.key = none) (h : execIrq s = .next t) :
    Moves s t ∨ t = endInterrupt (regRead .ch1 .ip (regRead .ch0 .ip (enterInterrupt s))) := by
  unfold execIrq at h
  split at h
  · simp only [hk] at h
    exact (moves_scan (enterInterrupt_inIsr s) h).imp_left (moves_enterInterrupt s).trans
  · cases h

end Sys2Proof.Machine
end

