-- ==== Sys2Proof/Proofs/CommandMoves.lean ====
section
/-! The host commands, the wait events and the second steps as sequences of moves, and from them the step
(41_blocking_io.md, 45_config_control.md, 40_ring_buffer.md R132, 10_state.md R51). -/

namespace Sys2Proof.Machine

open Sys2Proof

/-! ## Commands and their responses -/

theorem callersFree_iff {s : State} : callersFree s = true ↔ s.dev.inIsr = false ∧ anyMid s.calls = false := by
  simp [callersFree]

theorem commandEnabled_iff {tid : Tid} {s : State} :
    commandEnabled tid s = true ↔ s.dev.inIsr = false ∧ anyMid s.calls = false ∧ callOf s.calls tid = none := by
  simp [commandEnabled, callersFree_iff, and_assoc]

theorem moves_fail {tid : Tid} {e : ErrCode} {s t : State} (h : fail tid e s = .next t) : Moves s t := by
  cases h
  exact moves_respond tid 0 e [] s

theorem moves_succeed {tid : Tid} {s u t : State} (hu : Moves s u) (h : succeed tid u = .next t) : Moves s t := by
  cases h
  exact hu.trans (moves_respond tid 0 .ok [] u)

theorem moves_checked {tid : Tid} {legal : Bool} {s t : State} {f : State → Result}
    (hf : legal = true → f s = .next t → Moves s t) (h : checked tid legal s f = .next t) : Moves s t := by
  obtain ⟨hl, h⟩ | ⟨-, rfl⟩ := checked_eq_next.mp h
  · exact hf hl h
  · exact moves_respond tid 0 .invalidParameter [] s

theorem moves_block {tid : Tid} {b : Blocked} {s t : State} (hidle : callOf s.calls tid = none) (hw : b.woken = false)
    (htmo : b.tmo = (s.chan b.ch).rdTimeout ∨ b.tmo = (s.chan b.ch).wrTimeout) (hwait : noWait b.tmo = false)
    (h : block tid b s = .next t) : Moves s t := by
  cases h
  exact .single (.block tid b hidle hw htmo hwait)

/-! ## `WRITE` and `READ` -/

theorem moves_sendAttempt {c : Chan} {s t : State} (h : sendAttempt c s = .next t) : Moves s t := by
  unfold sendAttempt at h
  split at h
  case h_1 hm =>
    split at h
    · exact moves_txSyncStart hm h
    · cases h; exact .refl
  case h_2 hm =>
    split at h
    · exact moves_txAsyncByte hm h
    · cases h; exact .refl

theorem moves_runWrite {tid : Tid} {c : Chan} {payload : List Byte} {s t : State} (hidle : callOf s.calls tid = none)
    (h : runWrite tid c payload s = .next t) : Moves s t := by
  unfold runWrite at h
  split at h
  case isTrue => exact moves_fail h
  case isFalse hne =>
  split at h
  case isTrue => exact moves_fail h
  case isFalse hfit =>
  split at h
  case isTrue =>
    split at h
    · exact moves_fail h
    · next hwait => exact moves_block hidle rfl (.inr rfl) (by simpa using hwait) h
  case isFalse hroom =>
    obtain ⟨hcount, hon⟩ := full_eq_false.mp (by simpa using hroom)
    obtain ⟨u, hu, h⟩ := andThen_eq_next.mp h
    obtain ⟨v, hv, h⟩ := andThen_eq_next.mp h
    cases h
    have hqueue : Moves s u :=
      moves_enqueue hu fun hn => .queueTx _ _ hcount hon (Nat.pos_of_ne_zero hne) (by simpa using hn)
    exact (hqueue.trans (moves_sendAttempt hv)).trans (moves_respond ..)

theorem moves_deliver {tid : Tid} {c : Chan} {maxLen : Nat} {s t : State} (hpos : 0 < (s.chan c).rx.entryCount)
    (h : deliver tid c maxLen s = .next t) : Moves s t := by
  obtain ⟨-, ⟨-, rfl⟩ | ⟨-, -, rfl⟩⟩ := deliver_eq_next.mp h
  · exact moves_respond ..
  · refine .trans (moves_modChan c ?_) (moves_respond ..)
    exact (Relation.ReflTransGen.single (.errReported _ false)).tail (.deliver _ (by exact hpos))

/-- A `READ` takes a partial frame where nothing else is queued (41_blocking_io.md R153, R154). -/
theorem moves_flushOnRead {c : Chan} {s : State} (ha : (s.chan c).rx.avail = false) (hf : canFlush c s = true) :
    Moves s (flushOnRead c s) := by
  simp only [canFlush, Bool.and_eq_true, decide_eq_true_eq] at hf
  obtain ⟨⟨⟨-, hon⟩, hcap⟩, hfilling⟩ := hf
  rw [ring_rx] at hon hcap hfilling
  have hempty : (s.chan c).rx.entryCount = 0 := by simpa [Ring.avail, hon] using ha
  have hroom : (s.chan c).rx.entryCount ≠ (s.chan c).rx.cap := by omega
  unfold flushOnRead
  refine moves_modChan c ?_
  exact .single (.queueRx _ _ hroom (.inr ⟨hfilling, rfl⟩))

theorem flushOnRead_entryCount (c : Chan) (s : State) :
    ((flushOnRead c s).chan c).rx.entryCount = (s.chan c).rx.entryCount + 1 := by
  simp [flushOnRead]

theorem moves_runRead {tid : Tid} {c : Chan} {maxLen : Nat} {s t : State} (hidle : callOf s.calls tid = none)
    (h : runRead tid c maxLen s = .next t) : Moves s t := by
  unfold runRead at h
  split at h
  case h_1 e _ =>
    refine .trans (moves_modChan c ?_) (moves_fail h)
    exact (Relation.ReflTransGen.single (.sticky _ none rfl)).tail (.errReported _ true)
  case h_2 =>
    split at h
    case isTrue ha => exact moves_deliver (avail_eq_true.mp ha).2 h
    case isFalse ha =>
    split at h
    case isTrue hf =>
      exact (moves_flushOnRead (by simpa using ha) hf).trans
        (moves_deliver (by rw [flushOnRead_entryCount]; exact Nat.succ_pos _) h)
    case isFalse =>
      split at h
      · exact moves_fail h
      · next hwait => exact moves_block hidle rfl (.inl rfl) (by simpa using hwait) h

/-! ## `CONFIGURE` and the notification commands -/

theorem valueBit_eq_mode {v : Word} (h : legalBit v = true) : valueBit v = (valueMode v).bit := by
  have hv : v.toNat ≤ 1 := by simpa [legalBit] using h
  unfold valueBit valueMode
  obtain h0 | h1 : v.toNat = 0 ∨ v.toNat = 1 := by omega
  · simp [h0, Mode.bit]
  · simp [h1, Mode.bit]

theorem txActive_of_quiescent {x : Channel} (h : quiescent x = true) : x.txActive = false := by
  simp only [quiescent, Bool.and_eq_true, Bool.not_eq_true'] at h
  exact h.1.2

/-- A change of mode on a quiescent channel: the mode with its mirror bit, then the transmitter and the counter as
after initialization (45_config_control.md R218). -/
theorem moves_setMode {c : Chan} {v : Word} {s : State} (hi : s.dev.inIsr = false) (hv : legalBit v = true)
    (hq : quiescent (s.chan c) = true) :
    Moves s
      ((writeCtl c (replaceBit ((s.modChan c fun x => { x with mode := valueMode v }).chan c).mirror ctlMode
          (valueBit v)) (s.modChan c fun x => { x with mode := valueMode v })).modChan c fun x =>
        { x with txReady := true, txBufEmpty := true, txActive := false, qfullCount := 0 }) := by
  refine .head (.mode c (valueMode v) hi hq) (moves_of_chan c ?chan (by simp) ?frame)
  case chan =>
    simpa [txActive_of_quiescent hq, valueBit_eq_mode hv] using
      (Relation.ReflTransGen.single (ChanMove.ready _ true true)).tail (.qfullCount _ 0 (by simp))
  case frame => exact .of_eq (by simp) (by simp) (by simp) (by simp) (by simp) (by simp) (by simp)

theorem moves_execCfgMode {tid : Tid} {c : Chan} {v : Word} {s t : State} (h : execCfgMode tid c v s = .next t) :
    Moves s t := by
  obtain ⟨hen, h⟩ := asCommand_eq_next.mp h
  obtain ⟨hi, -, -⟩ := commandEnabled_iff.mp hen
  refine moves_checked (fun hv h => ?_) h
  split at h
  · exact moves_succeed .refl h
  · split at h
    · cases h
    · next hq => exact moves_succeed (moves_setMode hi hv (by simpa using hq)) h

theorem moves_execCfgRxEn {tid : Tid} {c : Chan} {v : Word} {s t : State} (h : execCfgRxEn tid c v s = .next t) :
    Moves s t := by
  obtain ⟨-, h⟩ := asCommand_eq_next.mp h
  refine moves_checked (fun _ h => ?_) h
  split at h
  · exact moves_fail h
  · exact moves_succeed (moves_writeCtl c (by simpa using .single (.rxEnabled (s.chan c) (valueBit v)))) h

theorem moves_execCfgTxEn {tid : Tid} {c : Chan} {v : Word} {s t : State} (h : execCfgTxEn tid c v s = .next t) :
    Moves s t := by
  obtain ⟨-, h⟩ := asCommand_eq_next.mp h
  refine moves_checked (fun _ h => ?_) h
  split at h
  · exact moves_fail h
  · exact moves_succeed (moves_writeCtl c (by simpa using .single (.txEnabled (s.chan c) (valueBit v)))) h

theorem moves_execCfgIrqEn {tid : Tid} {c : Chan} {v : Word} {s t : State} (h : execCfgIrqEn tid c v s = .next t) :
    Moves s t := by
  obtain ⟨-, h⟩ := asCommand_eq_next.mp h
  refine moves_checked (fun _ h => ?_) h
  exact moves_succeed (moves_writeCtl c (by simpa using .single (.irqEnabled (s.chan c) (valueBit v)))) h

theorem moves_execCfgGIrqEn {tid : Tid} {v : Word} {s t : State} (h : execCfgGIrqEn tid v s = .next t) :
    Moves s t := by
  obtain ⟨-, h⟩ := asCommand_eq_next.mp h
  refine moves_checked (fun _ h => ?_) h
  refine moves_succeed (moves_quiet ?_ ?_) h
  · exact .of_eq rfl rfl rfl rfl rfl rfl rfl
  · exact fun c => chan_with_dev s c _

/-- The commands whose whole effect is one stored value of the channel. -/
theorem moves_store {tid : Tid} {c : Chan} {legal : State → Bool} {f : Channel → Channel} {s t : State}
    (hf : legal s = true → ChanMove s.params (s.chan c) (f (s.chan c)))
    (h : (asCommand tid s fun s => checked tid (legal s) s fun s => succeed tid (s.modChan c f)) = .next t) :
    Moves s t := by
  obtain ⟨-, h⟩ := asCommand_eq_next.mp h
  exact moves_checked (fun hl h => moves_succeed (moves_modChan c (.single (hf hl))) h) h

/-! ## The first step of a two-step command -/

/-- The bits of a command word, field by field (30_encoding.md R101). -/
theorem getLsbD_commandWord (op : BitVec 4) (c : Chan) (sel : BitVec 8) (len : BitVec 16) (i : Nat) :
    (commandWord op c sel len).getLsbD i =
      if i < 16 then len.getLsbD i else if i < 24 then sel.getLsbD (i - 16)
      else if i < 28 then (chanField c).getLsbD (i - 24) else op.getLsbD (i - 28) := by
  have h : (commandWord op c sel len).getLsbD i =
      (op ++ chanField c ++ sel ++ len : BitVec (4 + 4 + 8 + 16)).getLsbD i := rfl
  rw [h, BitVec.getLsbD_append, BitVec.getLsbD_append, BitVec.getLsbD_append]
  grind

theorem opField_commandWord (op : BitVec 4) (c : Chan) (sel : BitVec 8) (len : BitVec 16) :
    opField (commandWord op c sel len) = op := by
  ext i hi
  simp [opField, getLsbD_commandWord]
  grind

theorem chField_commandWord (op : BitVec 4) (c : Chan) (sel : BitVec 8) (len : BitVec 16) :
    chField (commandWord op c sel len) = chanField c := by
  ext i hi
  simp [chField, getLsbD_commandWord]
  grind

theorem selField_commandWord (op : BitVec 4) (c : Chan) (sel : BitVec 8) (len : BitVec 16) :
    selField (commandWord op c sel len) = sel := by
  ext i hi
  simp [selField, getLsbD_commandWord]
  grind

theorem lenField_commandWord (op : BitVec 4) (c : Chan) (sel : BitVec 8) (len : BitVec 16) :
    lenField (commandWord op c sel len) = len := by
  ext i hi
  simp [lenField, getLsbD_commandWord]
  grind

theorem chanOfField_chanField (c : Chan) : chanOfField (chanField c) = some c := by
  cases c <;> rfl

/-- The words a `Mid` record keeps give its second step back (10_state.md R51). -/
theorem midStep_realloc (c : Chan) (v : Word) :
    midStep (commandWord 3 c 1 0) (some v) = some (.size c .tx v) ∧
    midStep (commandWord 3 c 2 0) (some v) = some (.num c .tx v) ∧
    midStep (commandWord 3 c 3 0) (some v) = some (.size c .rx v) ∧
    midStep (commandWord 3 c 4 0) (some v) = some (.num c .rx v) := by
  simp [midStep, decodeCommand, Command.formed, opField_commandWord, chField_commandWord, selField_commandWord,
    lenField_commandWord, hasW1, opLegal, selLegal, lenLegal, chanOfField_chanField, commandInstr, cfgInstr, twoStepOf]

theorem midStep_reset (c : Chan) :
    midStep (commandWord 6 c 0 0) none = some (.channel c) ∧ midStep (commandWord 6 c 1 0) none = some .device := by
  simp [midStep, decodeCommand, Command.formed, opField_commandWord, chField_commandWord, selField_commandWord,
    lenField_commandWord, hasW1, opLegal, selLegal, lenLegal, chanOfField_chanField, commandInstr, twoStepOf]

theorem moves_reallocStart {tid : Tid} {c : Chan} {d : Dir} {sel : BitVec 8} {v : Word} {ts : TwoStep} {s t : State}
    (hen : commandEnabled tid s = true) (hts : ∀ c' d', ts.touches c' d' = (decide (c' = c) && decide (d' = d)))
    (hmid : midStep (commandWord 3 c sel 0) (some v) = some ts)
    (hlegal : ts.legal = true)
    (h : reallocStart tid c d sel v s = .next t) : Moves s t := by
  obtain ⟨-, hfree, hidle⟩ := commandEnabled_iff.mp hen
  refine .head (.suspend tid _ _ ts hidle hfree hmid hlegal) ?_
  cases h
  cases c <;> cases d <;> simp [TwoStep.suspend, hts, State.modChan] <;> exact .refl

/-- The commands that reallocate a ring. -/
theorem moves_realloc {tid : Tid} {c : Chan} {d : Dir} {sel : BitVec 8} {v : Word} {legal : Bool} {ts : TwoStep}
    {s t : State} (hts : ∀ c' d', ts.touches c' d' = (decide (c' = c) && decide (d' = d)))
    (hmid : midStep (commandWord 3 c sel 0) (some v) = some ts)
    (hlegal : ts.legal = legal)
    (h : (asCommand tid s fun s => checked tid legal s (reallocStart tid c d sel v)) = .next t) : Moves s t := by
  obtain ⟨hen, h⟩ := asCommand_eq_next.mp h
  exact moves_checked (fun hl h => moves_reallocStart hen hts hmid (hlegal.trans hl) h) h

/-- A channel after step 1 of `ResetChannel` but for its rings' `online` and its `txActive` (45_config_control.md R235,
R236). -/
def Channel.disarmed (clearsSticky : Bool) (x : Channel) : Channel :=
  { x with
    rxEnabled := false
    txEnabled := false
    mirror := x.mirror &&& (ctlIrqen ||| ctlMode)
    txReady := true
    txBufEmpty := true
    qfullCount := 0
    stickyErr := if clearsSticky then none else x.stickyErr }

theorem chanMoves_disarmed (p : Params) (clearsSticky : Bool) (x : Channel) :
    ChanMoves p x (x.disarmed clearsSticky) := by
  have h := ((Relation.ReflTransGen.single (ChanMove.disable (p := p) x)).tail (.ready _ true true)).tail
    (.qfullCount _ 0 (by simp))
  cases clearsSticky
  · exact h
  · exact h.tail (.sticky _ none rfl)

theorem resetStart_chan (c : Chan) (s : State) (c' : Chan) :
    (resetStart c s).chan c' =
      if c' = c then (TwoStep.channel c).suspend c ((s.chan c).disarmed s.params.resetClearsSticky) else s.chan c' := by
  cases c <;> cases c' <;>
    simp [resetStart, writeCtl, modChan_chan, TwoStep.suspend, TwoStep.touches, Channel.disarmed]

theorem resetStart_params (c : Chan) (s : State) : (resetStart c s).params = s.params := by simp [resetStart]

theorem suspend_untouched {ts : TwoStep} {c : Chan} (h : ∀ d, ts.touches c d = false) (x : Channel) :
    ts.suspend c x = x := by
  simp [TwoStep.suspend, h]

/-- The first step of `RESET` on the channels it works on: they are disarmed, then their rings go offline with the
record of the thread. -/
theorem moves_reset {tid : Tid} {cw : Word} {ts : TwoStep} {s u t : State} (hsu : Moves s u)
    (hfree : anyMid u.calls = false) (hidle : callOf u.calls tid = none) (hmid : midStep cw none = some ts)
    (hlegal : ts.legal = true) (hc : ∀ c, t.chan c = ts.suspend c (u.chan c))
    (hf : Frame { u with calls := insertCall u.calls tid (.mid cw none) } t) : Moves s t := by
  refine (hsu.tail (.suspend tid cw none ts hidle hfree hmid hlegal)).tail (.quiet ?_ fun c => ?_)
  · exact ⟨hf.calls, hf.params, hf.irqLog, hf.irqCount, hf.memory, hf.inIsr, hf.key⟩
  · rw [hc]
    cases c <;> rfl

theorem moves_execResetChannel {tid : Tid} {c : Chan} {s t : State} (h : execResetChannel tid c s = .next t) :
    Moves s t := by
  obtain ⟨hen, h⟩ := asCommand_eq_next.mp h
  obtain ⟨-, hfree, hidle⟩ := commandEnabled_iff.mp hen
  cases h
  have hmid := (midStep_reset c).1
  refine moves_reset (u := s.modChan c fun x => x.disarmed s.params.resetClearsSticky)
    (moves_modChan c (chanMoves_disarmed _ _ _)) (by simpa using hfree) (by simpa using hidle) hmid rfl
    (fun c' => ?_) ?_
  · rw [chan_with_calls, resetStart_chan, modChan_chan]
    split
    · next he => rw [he]
    · next hne => rw [suspend_untouched fun d => by simp [TwoStep.touches, hne]]
  · exact .of_eq (by simp) (by simp [resetStart]) (by simp [resetStart]) (by simp [resetStart]) (by simp [resetStart])
      (by simp [resetStart]) (by simp [resetStart])

theorem moves_execResetDevice {tid : Tid} {c : Chan} {s t : State} (h : execResetDevice tid c s = .next t) :
    Moves s t := by
  obtain ⟨hen, h⟩ := asCommand_eq_next.mp h
  obtain ⟨-, hfree, hidle⟩ := commandEnabled_iff.mp hen
  cases h
  have hmid := (midStep_reset c).2
  have hu : Moves s ((s.modChan .ch0 fun x => x.disarmed s.params.resetClearsSticky).modChan .ch1 fun x =>
      x.disarmed s.params.resetClearsSticky) :=
    (moves_modChan .ch0 (chanMoves_disarmed _ _ _)).trans (moves_modChan .ch1 (chanMoves_disarmed _ _ _))
  refine moves_reset hu (by simpa using hfree) (by simpa using hidle) hmid rfl
    (fun c' => ?_) ?_
  · rw [chan_with_calls, resetStart_chan, resetStart_chan, resetStart_chan, resetStart_params, modChan_chan,
      modChan_chan]
    cases c' <;> simp [TwoStep.suspend, TwoStep.touches]
  · exact .of_eq (by simp) (by simp [resetStart]) (by simp [resetStart]) (by simp [resetStart]) (by simp [resetStart])
      (by simp [resetStart]) (by simp [resetStart])

/-! ## The second step of a two-step command -/

theorem wake_chan (c : Chan) (d : Dir) (s : State) (c' : Chan) :
    (wake c d s).chan c' =
      if c' = c then (s.chan c).modRing d fun rb => { rb with waiter := false } else s.chan c' := by
  split
  · next h => rw [h, wake_chan_same]
  · next h =>
    have ho : c' = c.other := by cases c <;> cases c' <;> simp_all [Chan.other]
    rw [ho, wake_chan_other]

theorem wake_calls (c : Chan) (d : Dir) (s : State) :
    (wake c d s).calls =
      if (s.ring c d).waiter then s.calls.map fun e => (e.1, e.2.wake c d) else s.calls := by
  rw [wake_eq]
  split <;> rfl

/-- `Wake` leaves the `Mid` records as they are. -/
theorem callOf_wake_mid {c : Chan} {d : Dir} {s : State} {tid : Tid} {cw : Word} {w1 : Option Word}
    (h : callOf s.calls tid = some (.mid cw w1)) : callOf (wake c d s).calls tid = some (.mid cw w1) := by
  rw [wake_calls]
  split
  · generalize s.calls = calls at h
    induction calls with
    | nil => simp [callOf] at h
    | cons e rest ih =>
      obtain ⟨t, k⟩ := e
      rw [List.map_cons, callOf]
      rw [callOf] at h
      split
      · next ht => rw [if_pos ht] at h; cases h; rfl
      · next ht => rw [if_neg ht] at h; exact ih h
  · exact h

/-- The `Wake`s of a second step. -/
def TwoStep.wakes (ts : TwoStep) (s : State) : State :=
  match ts with
  | .size c d _ => wake c d s
  | .num c d _ => wake c d s
  | .channel c => wake c .rx (wake c .tx s)
  | .device => wake .ch1 .rx (wake .ch1 .tx (wake .ch0 .rx (wake .ch0 .tx s)))

theorem moves_wakes (ts : TwoStep) (s : State) : Moves s (ts.wakes s) := by
  cases ts
  case size => exact moves_wake ..
  case num => exact moves_wake ..
  case channel => exact (moves_wake ..).trans (moves_wake ..)
  case device => exact (((moves_wake ..).trans (moves_wake ..)).trans (moves_wake ..)).trans (moves_wake ..)

theorem callOf_wakes_mid {ts : TwoStep} {s : State} {tid : Tid} {cw : Word} {w1 : Option Word}
    (h : callOf s.calls tid = some (.mid cw w1)) : callOf (ts.wakes s).calls tid = some (.mid cw w1) := by
  cases ts
  case size => exact callOf_wake_mid h
  case num => exact callOf_wake_mid h
  case channel => exact callOf_wake_mid (callOf_wake_mid h)
  case device => exact callOf_wake_mid (callOf_wake_mid (callOf_wake_mid (callOf_wake_mid h)))

theorem reallocRing_chan (c : Chan) (d : Dir) (num size : Nat) (s : State) (c' : Chan) :
    (reallocRing c d num size s).chan c' =
      if c' = c then
        (s.chan c).modRing d fun rb => { rb.allocate s.params.alloc num size with online := true, waiter := false }
      else s.chan c' := by
  rw [reallocRing, wake_chan]
  split
  · rw [chan_with_mem, modRing_chan_same]
    cases d <;> rfl
  · next hne => rw [chan_with_mem, State.modRing, modChan_chan, if_neg hne]

theorem resetFinish_chan (c : Chan) (s : State) (c' : Chan) :
    (resetFinish c s).chan c' =
      if c' = c then
        { s.chan c with
          tx := { (s.chan c).tx.clear with waiter := false }, rx := { (s.chan c).rx.clear with waiter := false } }
      else s.chan c' := by
  rw [resetFinish, wake_chan]
  split
  · simp
  · next hne => rw [wake_chan, if_neg hne, modChan_chan, if_neg hne]

theorem renew_untouched {ts : TwoStep} {c : Chan} (h : ∀ d, ts.touches c d = false) (rule : AllocRule) (x : Channel) :
    ts.renew rule c x = x := by
  simp [TwoStep.renew, h]

/-- A second step can wake first: what it does to the rings does not touch their `waiter` flags. -/
theorem runTwoStep_chan (ts : TwoStep) (s : State) (c : Chan) :
    (runTwoStep ts s).chan c = ts.renew s.params.alloc c ((ts.wakes s).chan c) := by
  have realloc : ∀ (c' : Chan) (d : Dir) (num size : Nat) (ts : TwoStep),
      (∀ c d', ts.touches c d' = (decide (c = c') && decide (d' = d))) →
      (∀ rb : Ring, ts.renewRing s.params.alloc { rb with waiter := false } =
        { ts.renewRing s.params.alloc rb with waiter := false }) →
      ts.renewRing s.params.alloc (s.ring c' d) = { (s.ring c' d).allocate s.params.alloc num size with online := true } →
      (reallocRing c' d num size s).chan c = ts.renew s.params.alloc c ((wake c' d s).chan c) := by
    intro c' d num size ts hts hwaiter hring
    rw [reallocRing_chan, wake_chan]
    split
    · next h =>
      cases d <;> simp_all [TwoStep.renew]
    · next h => rw [renew_untouched fun d' => by simp [hts, h]]
  cases ts with
  | size c' d v => exact realloc c' d _ _ (.size c' d v) (fun _ _ => rfl) (fun _ => rfl) rfl
  | num c' d v => exact realloc c' d _ _ (.num c' d v) (fun _ _ => rfl) (fun _ => rfl) rfl
  | channel c' =>
    rw [runTwoStep, resetFinish_chan, TwoStep.wakes, wake_chan, wake_chan, wake_chan]
    by_cases h : c = c' <;> simp [h, TwoStep.renew, TwoStep.renewRing, TwoStep.touches, Ring.clear]
  | device =>
    simp only [runTwoStep, resetFinish_chan, TwoStep.wakes, wake_chan]
    cases c <;> simp [TwoStep.renew, TwoStep.renewRing, TwoStep.touches, Ring.clear]

@[simp] theorem allocate_waiter (rule : AllocRule) (num size : Nat) (rb : Ring) :
    (rb.allocate rule num size).waiter = rb.waiter := rfl

@[simp] theorem clear_waiter (rb : Ring) : rb.clear.waiter = rb.waiter := rfl

theorem reallocRing_calls (c : Chan) (d : Dir) (num size : Nat) (s : State) :
    (reallocRing c d num size s).calls = (wake c d s).calls := by
  rw [reallocRing, wake_calls, wake_calls, ring_with_mem, modRing_ring_same]
  simp

theorem resetFinish_calls (c : Chan) (s : State) : (resetFinish c s).calls = (wake c .rx (wake c .tx s)).calls := by
  simp [resetFinish, wake_calls]
  rfl

theorem runTwoStep_calls (ts : TwoStep) (s : State) : (runTwoStep ts s).calls = (ts.wakes s).calls := by
  cases ts with
  | size c d v => exact reallocRing_calls ..
  | num c d v => exact reallocRing_calls ..
  | channel c => exact resetFinish_calls ..
  | device => simp [runTwoStep, resetFinish_calls, TwoStep.wakes, wake_calls, wake_chan, resetFinish_chan]

theorem wakes_frame (ts : TwoStep) (s : State) :
    (ts.wakes s).dev = s.dev ∧ (ts.wakes s).mem = s.mem ∧ (ts.wakes s).key = s.key ∧ (ts.wakes s).irqLog = s.irqLog ∧
    (ts.wakes s).params = s.params := by
  cases ts <;> simp [TwoStep.wakes]

theorem runTwoStep_frame (ts : TwoStep) (s : State) :
    (runTwoStep ts s).dev = s.dev ∧ (runTwoStep ts s).key = s.key ∧ (runTwoStep ts s).irqLog = s.irqLog ∧
    (runTwoStep ts s).params = s.params ∧ (Memory.wf s.mem = true → Memory.wf (runTwoStep ts s).mem = true) := by
  cases ts with
  | size c d v =>
    exact ⟨by simp [runTwoStep, reallocRing], by simp [runTwoStep, reallocRing], by simp [runTwoStep, reallocRing],
      by simp [runTwoStep, reallocRing], fun h => by simpa [runTwoStep, reallocRing] using releaseRing_wf h c d⟩
  | num c d v =>
    exact ⟨by simp [runTwoStep, reallocRing], by simp [runTwoStep, reallocRing], by simp [runTwoStep, reallocRing],
      by simp [runTwoStep, reallocRing], fun h => by simpa [runTwoStep, reallocRing] using releaseRing_wf h c d⟩
  | channel c => simp [runTwoStep, resetFinish]
  | device => simp [runTwoStep, resetFinish]

/-- `CONT` answers a next state only for a `Mid` thread whose words ask for a second step, outside an interrupt; it is
that second step, the thread's return to `Idle` and the response (10_state.md R51). -/
theorem execCont_next {tid : Tid} {s t : State} (h : execCont tid s = .next t) :
    s.dev.inIsr = false ∧ ∃ cw w1 ts, callOf s.calls tid = some (.mid cw w1) ∧ midStep cw w1 = some ts ∧
      t = respond tid 0 (twoStepResult ts s) []
        { runTwoStep ts s with calls := dropCall (runTwoStep ts s).calls tid } := by
  unfold execCont at h
  split at h
  · cases h
  · next hi =>
    split at h
    · next cw w1 hcall =>
      split at h
      · next ts hmid => exact ⟨by simpa using hi, cw, w1, ts, hcall, hmid, (Host.Outcome.next.inj h).symm⟩
      · cases h
    · cases h
    · cases h

theorem moves_execCont {tid : Tid} {s t : State} (h : execCont tid s = .next t) : Moves s t := by
  obtain ⟨-, cw, w1, ts, hcall, hmid, rfl⟩ := execCont_next h
  obtain ⟨hdev, hkey, hlog, hparams, hmem⟩ := runTwoStep_frame ts s
  obtain ⟨wdev, wmem, wkey, wlog, wparams⟩ := wakes_frame ts s
  refine ((moves_wakes ts s).tail (.renew tid cw w1 ts (callOf_wakes_mid hcall) hmid)).tail (.quiet ?frame ?chan)
  case frame =>
    refine ⟨?_, hparams.trans wparams.symm, hlog.trans wlog.symm, ?_, ?_, ?_, .inl (hkey.trans wkey.symm)⟩
    · exact congrArg (dropCall · tid) (runTwoStep_calls ts s)
    · exact congrArg Dev.irqCount (hdev.trans wdev.symm)
    · rw [wmem]; exact hmem
    · rw [wdev]; exact fun hi => (congrArg Dev.inIsr hdev).trans hi
  case chan =>
    intro c
    rw [respond_chan, chan_with_calls, runTwoStep_chan, wparams]
    cases c <;> rfl

/-! ## The wait events, an illegal word -/

theorem moves_leave {tid : Tid} {b : Blocked} {s : State} (h : callOf s.calls tid = some (.blocked b)) :
    Moves s (leave tid b s) := .single (.leave tid b h)

theorem moves_execResume {tid : Tid} {s t : State} (h : execResume tid s = .next t) : Moves s t := by
  obtain ⟨-, b, hb, h⟩ := asBlocked_eq_next.mp h
  have hidle : callOf (leave tid b s).calls tid = none := by simp
  refine (moves_leave hb).trans ?_
  split at h
  · exact moves_runWrite hidle h
  · exact moves_runRead hidle h

theorem moves_execTimeout {tid : Tid} {s t : State} (h : execTimeout tid s = .next t) : Moves s t := by
  obtain ⟨-, b, hb, h⟩ := asBlocked_eq_next.mp h
  split at h
  · exact (moves_leave hb).trans (moves_fail h)
  · cases h

theorem moves_execAbort {tid : Tid} {s t : State} (h : execAbort tid s = .next t) : Moves s t := by
  obtain ⟨-, b, hb, h⟩ := asBlocked_eq_next.mp h
  exact (moves_leave hb).trans (moves_fail h)

theorem moves_execIllegal {tid : Tid} {s t : State} (h : execIllegal tid s = .next t) : Moves s t :=
  moves_fail (asCommand_eq_next.mp h).2

/-! ## Every instruction, and the step -/

/-- A host command or a wait event is a sequence of moves. -/
theorem moves_of_exec_command {i : Instr} {s t : State} (hi : isInterrupt i = false) (h : exec i s = .next t) :
    Moves s t := by
  cases i with
  | write tid c payload =>
    obtain ⟨hen, h⟩ := asCommand_eq_next.mp h
    exact moves_runWrite (commandEnabled_iff.mp hen).2.2 h
  | read tid c maxLen =>
    obtain ⟨hen, h⟩ := asCommand_eq_next.mp h
    exact moves_runRead (commandEnabled_iff.mp hen).2.2 h
  | cfgMode tid c v => exact moves_execCfgMode h
  | cfgTxSize tid c v => exact moves_realloc (fun _ _ => rfl) (midStep_realloc c v).1 rfl h
  | cfgTxNum tid c v => exact moves_realloc (fun _ _ => rfl) (midStep_realloc c v).2.1 rfl h
  | cfgRxSize tid c v => exact moves_realloc (fun _ _ => rfl) (midStep_realloc c v).2.2.1 rfl h
  | cfgRxNum tid c v => exact moves_realloc (fun _ _ => rfl) (midStep_realloc c v).2.2.2 rfl h
  | cfgRdTmo tid c v => exact moves_store (legal := fun _ => legalTimeout v) (fun hl => .rdTimeout _ v hl) h
  | cfgWrTmo tid c v => exact moves_store (legal := fun _ => legalTimeout v) (fun hl => .wrTimeout _ v hl) h
  | cfgWMark tid c v =>
    exact moves_store (legal := fun _ => legalWatermark v) (fun hl => .watermark _ _ (of_decide_eq_true hl)) h
  | cfgRxEn tid c v => exact moves_execCfgRxEn h
  | cfgTxEn tid c v => exact moves_execCfgTxEn h
  | cfgIrqEn tid c v => exact moves_execCfgIrqEn h
  | cfgGIrqEn tid c v => exact moves_execCfgGIrqEn h
  | notifyInstall tid c handle =>
    exact moves_store (legal := fun s => (s.chan c).sigHandle.isNone) (fun _ => .handle _ (some handle)) h
  | notifyRemove tid c =>
    exact moves_store (legal := fun s => (s.chan c).sigHandle.isSome) (fun _ => .handle _ none) h
  | resetChannel tid c => exact moves_execResetChannel h
  | resetDevice tid c => exact moves_execResetDevice h
  | cont tid => exact moves_execCont h
  | resume tid => exact moves_execResume h
  | timeout tid => exact moves_execTimeout h
  | abort tid => exact moves_execAbort h
  | svcRxSync | svcRxAsync | svcTxSync | svcTxAsync | svcExt | irq => cases hi

/-- A service inside the interrupt context, in its mode, is a sequence of moves. -/
theorem moves_of_exec_service {i : Instr} {s t : State} (hi : isInterrupt i = true) (hirq : i ≠ .irq)
    (h : exec i s = .next t) : Moves s t := by
  cases i with
  | svcRxSync c tx ext =>
    obtain ⟨hin, hm, h⟩ := asService_eq_next.mp h
    exact moves_rxSyncLoop (by cases tx <;> cases ext <;> rfl) (by cases tx <;> cases ext <;> rfl) hin hm h
  | svcRxAsync c tx ext =>
    obtain ⟨hin, hm, h⟩ := asService_eq_next.mp h
    exact moves_rxAsyncLoop (by cases tx <;> cases ext <;> rfl) (by cases tx <;> cases ext <;> rfl) hin hm h
  | svcTxSync c ext =>
    obtain ⟨-, hm, h⟩ := asService_eq_next.mp h
    exact moves_txSyncService hm h
  | svcTxAsync c ext =>
    obtain ⟨-, hm, h⟩ := asService_eq_next.mp h
    exact moves_txAsyncService hm h
  | svcExt c async =>
    obtain ⟨-, -, h⟩ := asService_eq_next.mp h
    exact moves_extService h
  | irq => exact absurd rfl hirq
  | _ => cases hi

theorem moves_of_exec_other {i : Instr} {s t : State} (hirq : i ≠ .irq) (h : exec i s = .next t) : Moves s t := by
  cases hi : isInterrupt i with
  | true => exact moves_of_exec_service hi hirq h
  | false => exact moves_of_exec_command hi h

/-- The moves of an `IRQ` that ends its interrupt, up to `EndInterrupt`, only touch the port and enter the context. -/
theorem moves_of_exec {i : Instr} {s t : State} (hirq : i = .irq → s.key = none) (h : exec i s = .next t) :
    Moves s t ∨ ∃ u, Moves s u ∧ u.key = none ∧ t = endInterrupt u := by
  by_cases he : i = .irq
  · subst he
    obtain hm | rfl := moves_execIrq (hirq rfl) h
    · exact .inl hm
    · refine .inr ⟨_, ?_, by simpa using hirq rfl, rfl⟩
      exact ((moves_enterInterrupt s).trans (moves_regRead ..)).trans (moves_regRead ..)
  · exact .inl (moves_of_exec_other he h)

/-- A key in progress never selects `IRQ`. -/
theorem decodeKey_ne_irq (c : Chan) (dk : BitVec 4) : decodeKey c dk ≠ .ok .irq := by
  unfold decodeKey
  split <;> nofun

/-- What runs `IRQ` has no service in progress. -/
theorem key_of_fetch_irq {s : State} (h : fetch s = .run .irq) : s.key = none := by
  unfold fetch at h
  split at h
  · next k _ =>
    split at h
    · next hi => cases h; exact absurd hi (decodeKey_ne_irq _ _)
    · cases h
  · assumption

theorem moves_advance (s : State) : Moves s (advance s) := by
  unfold advance
  split
  · exact .refl
  · split
    · exact .refl
    · refine moves_quiet ?_ fun c => chan_with_schedule s c _
      exact .of_eq rfl rfl rfl rfl rfl rfl rfl

theorem advance_key (s : State) : (advance s).key = s.key := by
  unfold advance
  split
  · rfl
  · split <;> rfl

/-- Every step is a sequence of moves, and the step that ends an interrupt has `EndInterrupt` after it. -/
theorem moves_of_step {s t : State} (h : step s = .next t) :
    Moves s t ∨ ∃ u, Moves s u ∧ u.key = none ∧ t = endInterrupt u := by
  have hadv := moves_advance s
  unfold step at h
  split at h
  · cases h; exact .inl .refl
  · next i hf =>
    have hirq : i = .irq → (advance s).key = none := by
      rintro rfl
      rw [advance_key]
      exact key_of_fetch_irq hf
    obtain hm | ⟨u, hm, hk, ht⟩ := moves_of_exec hirq h
    · exact .inl (hadv.trans hm)
    · exact .inr ⟨u, hadv.trans hm, hk, ht⟩
  · exact .inl (hadv.trans (moves_execIllegal h))
  · cases h
  · next c e _ =>
    unfold injectEvent at h
    split at h
    · cases h
      refine .inl (hadv.tail (.quiet ?_ fun c => chan_with_oracle _ c _))
      exact .of_eq rfl rfl rfl rfl rfl rfl rfl
    · cases h

/-- What each move keeps and the end of an interrupt keeps, every step keeps. -/
theorem step_keeps {P : State → Prop} (hmove : ∀ {s t}, Move s t → P s → P t)
    (hend : ∀ s, s.key = none → P s → P (endInterrupt s)) {s t : State} (hs : P s) (h : step s = .next t) : P t := by
  have hmoves : ∀ {u}, Moves s u → P u := by
    intro u hu
    induction hu with
    | refl => exact hs
    | tail _ hm ih => exact hmove hm ih
  obtain hm | ⟨u, hm, hk, rfl⟩ := moves_of_step h
  · exact hmoves hm
  · exact hend u hk (hmoves hm)

end Sys2Proof.Machine
end

