-- ==== Sys2Proof/Proofs/ChannelInvariants.lean ====
section
/-! The invariants of one channel under each of its moves: the rings and the frame being sent (INV1 to INV7 of
10_state.md R50), the register mirror (INV8), the counter and the stored values (INV10; R28, R30, R36). -/

namespace Sys2Proof.Machine

open Sys2Proof

/-! ## The two halves of the ring invariants -/

/-- What `RingsOk` says of the transmit ring and the frame being sent. -/
structure TxOk (x : Channel) : Prop where
  shape : RingShape x.tx
  queued : QueuedReady x.tx
  others : TxOthersEmpty x.tx
  nonEmpty : TxNonEmpty x.tx
  sending : TxSending x
  unsent : TxUnsent x

/-- What `RingsOk` says of the receive ring and the partial frame. -/
structure RxOk (x : Channel) : Prop where
  shape : RingShape x.rx
  queued : QueuedReady x.rx
  others : RxOthersEmpty x.rx
  ready : RxReadyUnfilled x.rx
  sync : SyncNoPartial x

theorem ringsOk_iff {x : Channel} : RingsOk x ↔ TxOk x ∧ RxOk x := by
  constructor
  · rintro ⟨h1, h2, h3, h4, h5, h6, h7, h8, h9, h10, h11⟩
    exact ⟨⟨h1, h3, h5, h8, h9, h10⟩, ⟨h2, h4, h6, h7, h11⟩⟩
  · rintro ⟨⟨h1, h3, h5, h8, h9, h10⟩, ⟨h2, h4, h6, h7, h11⟩⟩
    exact ⟨h1, h2, h3, h4, h5, h6, h7, h8, h9, h10, h11⟩

/-- A transmit ring with nothing queued, every slot empty and no frame being sent. -/
theorem TxOk.of_empty {x : Channel} (shape : RingShape x.tx) (hcount : x.tx.entryCount = 0) (hempty : AllEmpty x.tx)
    (hact : x.txActive = false) : TxOk x where
  shape := shape
  queued := fun i _ hage => by rw [hcount] at hage; exact absurd hage (Nat.not_lt_zero _)
  others := fun i _ _ => slot_of_allEmpty hempty i
  nonEmpty := fun i _ hage => by rw [hcount] at hage; exact absurd hage (Nat.not_lt_zero _)
  sending := fun h => by rw [hact] at h; cases h
  unsent := fun _ i _ _ => (slot_of_allEmpty hempty i).2

/-- A receive ring with nothing queued and every slot empty. -/
theorem RxOk.of_empty {x : Channel} (shape : RingShape x.rx) (hcount : x.rx.entryCount = 0)
    (hempty : AllEmpty x.rx) : RxOk x where
  shape := shape
  queued := fun i _ hage => by rw [hcount] at hage; exact absurd hage (Nat.not_lt_zero _)
  others := fun i _ _ => .inl (slot_of_allEmpty hempty i)
  ready := fun i _ _ => (slot_of_allEmpty hempty i).2
  sync := fun _ i _ hf => by rw [(slot_of_allEmpty hempty i).1] at hf; cases hf

/-! ## The transmit moves -/

theorem TxOk.queueTx {x : Channel} {n : Nat} (h : TxOk x) (hroom : x.tx.entryCount ≠ x.tx.cap) (h1 : 1 ≤ n)
    (hn : n ≤ x.tx.fsz) : TxOk { x with tx := x.tx.commit n } where
  shape := commit_shape h.shape hroom
  queued := commit_queuedReady h.shape hroom h.queued hn
  others := commit_txOthersEmpty h.shape hroom h.others
  nonEmpty := commit_txNonEmpty h.shape hroom h.nonEmpty h1
  sending := by
    intro hact
    obtain ⟨hm, hpos, hon, hfill⟩ := h.sending hact
    have hh : x.tx.head < x.tx.cap := head_lt_cap_of_pos h.shape hpos
    have hne : x.tx.head ≠ x.tx.tail := by
      rw [← (age_eq_entryCount_iff h.shape hroom hh).ne, age_head hh]
      exact Nat.ne_of_lt hpos
    refine ⟨hm, by simp, hon, ?_⟩
    rw [commit_head, commit_slot h.shape hroom, if_neg hne]
    exact hfill
  unsent := by
    intro hon i hi hi'
    change ((x.tx.commit n).slot i).fill = 0
    rw [commit_slot h.shape hroom]
    split
    · rfl
    · exact h.unsent hon i hi hi'

theorem TxOk.not_active_of_sync {x : Channel} (h : TxOk x) (hm : x.mode = .sync) : x.txActive = false := by
  by_contra hact
  obtain ⟨hasync, -⟩ := h.sending (by simpa using hact)
  rw [hm] at hasync
  cases hasync

/-- `Consume` of the head frame, where no other slot has sent bytes and no frame is being sent afterwards. -/
theorem TxOk.consumeHead {x : Channel} {active : Bool} (h : TxOk x) (hpos : 0 < x.tx.entryCount)
    (hunsent : ∀ i < x.tx.cap, i ≠ x.tx.head → (x.tx.slot i).fill = 0) (hact : active = false) :
    TxOk { x with tx := x.tx.consume, txActive := active } where
  shape := consume_shape h.shape hpos
  queued := consume_queuedReady h.shape hpos h.queued
  others := consume_txOthersEmpty h.shape hpos h.others
  nonEmpty := consume_txNonEmpty h.shape hpos h.nonEmpty
  sending := fun hs => absurd (hact.symm.trans hs) (by decide)
  unsent := by
    intro _ i hi _
    change (x.tx.consume.slot i).fill = 0
    rw [consume_slot h.shape hpos]
    split
    · rfl
    · next hne => exact hunsent i hi hne

theorem TxOk.sendFrame {x : Channel} (h : TxOk x) (hm : x.mode = .sync) (ha : x.tx.avail = true) :
    TxOk { x with tx := x.tx.consume } := by
  obtain ⟨hon, hpos⟩ := avail_eq_true.mp ha
  have hact := h.not_active_of_sync hm
  exact h.consumeHead (active := x.txActive) hpos (fun i hi _ => h.unsent hon i hi (.inl hact)) hact

/-- One more byte of the head frame, not its last, has been sent. -/
theorem TxOk.setFill {x : Channel} {k : Nat} (h : TxOk x) (hm : x.mode = .async) (hpos : 0 < x.tx.entryCount)
    (hon : x.tx.online = true) (h1 : 1 ≤ k) (hk : k < (x.tx.slot x.tx.head).len)
    (hunsent : ∀ i < x.tx.cap, i ≠ x.tx.head → (x.tx.slot i).fill = 0) :
    TxOk { x with tx := x.tx.setSlot x.tx.head { x.tx.slot x.tx.head with fill := k }, txActive := true } := by
  have hh : x.tx.head < x.tx.cap := head_lt_cap_of_pos h.shape hpos
  have hslot := setSlot_slot (rb := x.tx) (by rwa [slots_length h.shape]) { x.tx.slot x.tx.head with fill := k }
  exact {
    shape := setSlot_shape h.shape _ _
    queued := by
      intro i hi hage
      change ((x.tx.setSlot _ _).slot i).state = _ ∧ ((x.tx.setSlot _ _).slot i).len ≤ _
      rw [hslot]
      split
      · next he => subst he; exact h.queued _ hi hage
      · exact h.queued i hi hage
    others := by
      intro i hi hage
      change ((x.tx.setSlot _ _).slot i).state = _ ∧ ((x.tx.setSlot _ _).slot i).fill = _
      have hne : i ≠ x.tx.head := by
        rintro rfl
        simp [age_head hh] at hage
        omega
      rw [hslot, if_neg hne]
      exact h.others i hi hage
    nonEmpty := by
      intro i hi hage
      change 1 ≤ ((x.tx.setSlot _ _).slot i).len
      rw [hslot]
      split
      · exact Nat.lt_of_le_of_lt (Nat.zero_le _) hk
      · exact h.nonEmpty i hi hage
    sending := by
      intro _
      refine ⟨hm, hpos, hon, ?_⟩
      change 1 ≤ ((x.tx.setSlot _ _).slot x.tx.head).fill ∧
        ((x.tx.setSlot _ _).slot x.tx.head).fill < ((x.tx.setSlot _ _).slot x.tx.head).len
      rw [hslot, if_pos rfl]
      exact ⟨h1, hk⟩
    unsent := by
      intro _ i hi hne
      obtain hne | hne := hne
      · cases hne
      · change ((x.tx.setSlot _ _).slot i).fill = 0
        rw [hslot]
        split
        · next he => exact absurd he hne
        · next he => exact hunsent i hi he }

/-- The `fill` that `Consume` finds in the head slot is lost. -/
theorem setFill_consume {rb : Ring} (k : Nat) (h : rb.head < rb.slots.length) :
    (rb.setSlot rb.head { rb.slot rb.head with fill := k }).consume = rb.consume := by
  simp only [Ring.consume, setSlot_head, setSlot_slot_same _ _ _ h]
  simp [Ring.setSlot, Ring.next]

/-- What is known of the head slot when its next byte goes out: byte `k` is in it, and the others are unsent. -/
theorem TxOk.head_of_sendByte {x : Channel} {k : Nat} (h : TxOk x)
    (hk : (x.txActive = true ∧ k = (x.tx.slot x.tx.head).fill) ∨
      (x.txActive = false ∧ x.tx.avail = true ∧ k = 0)) :
    0 < x.tx.entryCount ∧ x.tx.online = true ∧ k < (x.tx.slot x.tx.head).len ∧
      ∀ i < x.tx.cap, i ≠ x.tx.head → (x.tx.slot i).fill = 0 := by
  obtain ⟨hact, rfl⟩ | ⟨hact, hav, rfl⟩ := hk
  · obtain ⟨-, hpos, hon, -, hlt⟩ := h.sending hact
    exact ⟨hpos, hon, hlt, fun i hi hne => h.unsent hon i hi (.inr hne)⟩
  · obtain ⟨hon, hpos⟩ := avail_eq_true.mp hav
    have hh : x.tx.head < x.tx.cap := head_lt_cap_of_pos h.shape hpos
    exact ⟨hpos, hon, h.nonEmpty _ hh (by rw [age_head hh]; exact hpos), fun i hi _ => h.unsent hon i hi (.inl hact)⟩

theorem TxOk.sendByte {x : Channel} {k : Nat} (h : TxOk x) (hm : x.mode = .async)
    (hk : (x.txActive = true ∧ k = (x.tx.slot x.tx.head).fill) ∨
      (x.txActive = false ∧ x.tx.avail = true ∧ k = 0)) : TxOk (x.byteSent k) := by
  obtain ⟨hpos, hon, hlt, hunsent⟩ := h.head_of_sendByte hk
  have hh : x.tx.head < x.tx.cap := head_lt_cap_of_pos h.shape hpos
  by_cases hlast : k + 1 = (x.tx.slot x.tx.head).len
  · rw [byteSent_last hlast, setFill_consume _ (by rwa [slots_length h.shape])]
    exact h.consumeHead hpos hunsent rfl
  · rw [byteSent_more hlast]
    exact h.setFill hm hpos hon (Nat.succ_pos k) (Nat.lt_of_le_of_ne hlt hlast) hunsent

/-! ## The receive moves -/

/-- A partial frame is in the tail slot and shorter than a slot. -/
theorem RxOk.fill_lt_of_filling {x : Channel} (h : RxOk x) (hc : 0 < x.rx.cap) (hf : x.rx.filling x.rx.tail = true) :
    (x.rx.slot x.rx.tail).fill < x.rx.fsz := by
  have hstate : (x.rx.slot x.rx.tail).state = .filling := of_decide_eq_true hf
  have ht := tail_lt_cap h.shape hc
  by_cases hage : x.rx.age x.rx.tail < x.rx.entryCount
  · rw [(h.queued _ ht hage).1] at hstate
    cases hstate
  · obtain ⟨hempty, -⟩ | ⟨-, -, -, hlt⟩ := h.others _ ht (Nat.le_of_not_lt hage)
    · rw [hempty] at hstate
      cases hstate
    · exact hlt

theorem RxOk.queueRx {x : Channel} {n : Nat} (h : RxOk x) (hroom : x.rx.entryCount ≠ x.rx.cap)
    (hn : n ≤ x.rx.fsz ∨ (x.rx.filling x.rx.tail = true ∧ n = (x.rx.slot x.rx.tail).fill)) :
    RxOk { x with rx := x.rx.commit n } := by
  have hfit : n ≤ x.rx.fsz := by
    obtain hn | ⟨hf, rfl⟩ := hn
    · exact hn
    · have := entryCount_le_cap h.shape
      exact Nat.le_of_lt (h.fill_lt_of_filling (by omega) hf)
  exact {
    shape := commit_shape h.shape hroom
    queued := commit_queuedReady h.shape hroom h.queued hfit
    others := commit_rxOthersEmpty h.shape hroom h.others
    ready := commit_rxReadyUnfilled h.shape hroom h.ready
    sync := by
      intro hm i hi
      change ((x.rx.commit n).slot i).state ≠ .filling
      rw [commit_slot h.shape hroom]
      split
      · nofun
      · exact h.sync hm i hi }

theorem RxOk.deliver {x : Channel} (h : RxOk x) (hpos : 0 < x.rx.entryCount) :
    RxOk { x with rx := x.rx.consume } where
  shape := consume_shape h.shape hpos
  queued := consume_queuedReady h.shape hpos h.queued
  others := consume_rxOthersEmpty h.shape hpos h.others
  ready := consume_rxReadyUnfilled h.shape hpos h.ready
  sync := by
    intro hm i hi
    change (x.rx.consume.slot i).state ≠ .filling
    rw [consume_slot h.shape hpos]
    split
    · nofun
    · exact h.sync hm i hi

/-- Writing the tail slot of a receive ring, where it is not queued: the slot may become empty, or in mode `ASYNC` a
partial frame shorter than the slot. -/
theorem RxOk.setTail {x : Channel} {y : Slot} (h : RxOk x) (ht : x.rx.tail < x.rx.cap)
    (hage : x.rx.entryCount ≤ x.rx.age x.rx.tail)
    (hy : (y.state = .empty ∧ y.fill = 0) ∨
      (x.mode = .async ∧ y.state = .filling ∧ 1 ≤ y.fill ∧ y.fill < x.rx.fsz)) :
    RxOk { x with rx := x.rx.setSlot x.rx.tail y } := by
  have hslot := setSlot_slot (rb := x.rx) (j := x.rx.tail) (by rwa [slots_length h.shape]) y
  exact {
    shape := setSlot_shape h.shape _ _
    queued := by
      intro i hi hi'
      change ((x.rx.setSlot _ _).slot i).state = _ ∧ ((x.rx.setSlot _ _).slot i).len ≤ _
      have hne : i ≠ x.rx.tail := by
        rintro rfl
        simp at hi'
        omega
      rw [hslot, if_neg hne]
      exact h.queued i hi hi'
    others := by
      intro i hi hi'
      change (((x.rx.setSlot _ _).slot i).state = _ ∧ ((x.rx.setSlot _ _).slot i).fill = _) ∨
        (i = x.rx.tail ∧ ((x.rx.setSlot _ _).slot i).state = _ ∧ 1 ≤ ((x.rx.setSlot _ _).slot i).fill ∧
          ((x.rx.setSlot _ _).slot i).fill < x.rx.fsz)
      rw [hslot]
      split
      · next he => exact hy.imp_right fun hy => ⟨he, hy.2⟩
      · exact h.others i hi hi'
    ready := by
      intro i hi
      change ((x.rx.setSlot _ _).slot i).state = _ → ((x.rx.setSlot _ _).slot i).fill = _
      rw [hslot]
      split
      · intro hready
        obtain ⟨-, hfill⟩ | ⟨-, hfilling, -⟩ := hy
        · exact hfill
        · rw [hfilling] at hready
          cases hready
      · exact h.ready i hi
    sync := by
      intro hm i hi
      change ((x.rx.setSlot _ _).slot i).state ≠ .filling
      rw [hslot]
      split
      · obtain ⟨hempty, -⟩ | ⟨hasync, -⟩ := hy
        · rw [hempty]; nofun
        · exact absurd (hm.symm.trans hasync) (by decide)
      · exact h.sync hm i hi }

theorem RxOk.append {x : Channel} {len k : Nat} (h : RxOk x) (hm : x.mode = .async)
    (hroom : x.rx.entryCount ≠ x.rx.cap) (hfit : k + 1 < x.rx.fsz) :
    RxOk { x with rx := x.rx.setSlot x.rx.tail ⟨.filling, len, k + 1⟩ } := by
  have hle := entryCount_le_cap h.shape
  have ht : x.rx.tail < x.rx.cap := tail_lt_cap h.shape (by omega)
  exact h.setTail ht (Nat.le_of_eq ((age_eq_entryCount_iff h.shape hroom ht).mpr rfl).symm)
    (.inr ⟨hm, rfl, Nat.succ_pos _, hfit⟩)

theorem RxOk.dropPartial {x : Channel} (h : RxOk x) (hf : x.rx.filling x.rx.tail = true) :
    RxOk { x with
      rx := x.rx.setSlot x.rx.tail { x.rx.slot x.rx.tail with state := .empty, fill := 0 } } := by
  have hstate : (x.rx.slot x.rx.tail).state = .filling := of_decide_eq_true hf
  have ht : x.rx.tail < x.rx.cap := by
    rw [← slots_length h.shape]
    exact lt_length_of_slot_ne (by rw [hstate]; nofun)
  refine h.setTail ht ?_ (.inl ⟨rfl, rfl⟩)
  by_contra hage
  rw [(h.queued _ ht (Nat.lt_of_not_le hage)).1] at hstate
  cases hstate

/-! ## Every move of a channel -/

theorem chanMove_txOk {p : Params} {x y : Channel} (h : ChanMove p x y) (hx : TxOk x) : TxOk y := by
  cases h
  case queueTx n hroom _ h1 hn => exact hx.queueTx hroom h1 hn
  case sendFrame hm ha => exact hx.sendFrame hm ha
  case sendByte k hm hk => exact hx.sendByte hm hk
  all_goals exact ⟨hx.shape, hx.queued, hx.others, hx.nonEmpty, hx.sending, hx.unsent⟩

theorem byteSent_rx (x : Channel) (k : Nat) : (x.byteSent k).rx = x.rx ∧ (x.byteSent k).mode = x.mode := by
  unfold Channel.byteSent
  split <;> exact ⟨rfl, rfl⟩

theorem chanMove_rxOk {p : Params} {x y : Channel} (h : ChanMove p x y) (hx : RxOk x) : RxOk y := by
  cases h
  case queueRx n hroom hn => exact hx.queueRx hroom hn
  case deliver hpos => exact hx.deliver hpos
  case append hm hroom hfit => exact hx.append hm hroom hfit
  case dropPartial hf => exact hx.dropPartial hf
  case sendByte k hm hk =>
    obtain ⟨hrx, hmode⟩ := byteSent_rx x k
    constructor
    · rw [hrx]; exact hx.shape
    · rw [hrx]; exact hx.queued
    · rw [hrx]; exact hx.others
    · rw [hrx]; exact hx.ready
    · unfold SyncNoPartial; rw [hrx, hmode]; exact hx.sync
  all_goals exact ⟨hx.shape, hx.queued, hx.others, hx.ready, hx.sync⟩

theorem chanMove_ringsOk {p : Params} {x y : Channel} (h : ChanMove p x y) (hx : RingsOk x) : RingsOk y := by
  rw [ringsOk_iff] at hx ⊢
  exact ⟨chanMove_txOk h hx.1, chanMove_rxOk h hx.2⟩

/-- No move of a channel touches the `waiter` and `online` flags of its rings. -/
theorem chanMove_flags {p : Params} {x y : Channel} (h : ChanMove p x y) (d : Dir) :
    (y.ring d).waiter = (x.ring d).waiter ∧ (y.ring d).online = (x.ring d).online := by
  cases h
  case sendByte =>
    unfold Channel.byteSent
    split <;> cases d <;> exact ⟨rfl, rfl⟩
  all_goals cases d <;> exact ⟨rfl, rfl⟩

/-! ## The change of mode, the two steps of a reallocation or a reset -/

/-- A quiescent channel has no partial frame and none being sent, so its rings are right in either mode
(45_config_control.md R217, R218). -/
theorem RingsOk.setMode {x : Channel} (h : RingsOk x) (hq : quiescent x = true) (m : Mode) (v : Word) :
    RingsOk { x with mode := m, mirror := v } := by
  rw [ringsOk_iff] at h ⊢
  obtain ⟨htx, hrx⟩ := h
  have hact : x.txActive = false := txActive_of_quiescent hq
  simp only [quiescent, Bool.and_eq_true, Bool.or_eq_true, decide_eq_true_eq, Bool.not_eq_true'] at hq
  obtain ⟨⟨⟨-, hcount⟩, -⟩, hpartial⟩ := hq
  refine ⟨⟨htx.shape, htx.queued, htx.others, htx.nonEmpty, fun hs => ?_, htx.unsent⟩,
    ⟨hrx.shape, hrx.queued, hrx.others, hrx.ready, fun _ i hi hfilling => ?_⟩⟩
  · exact absurd (hact.symm.trans hs) (by decide)
  · obtain hc | hnot := hpartial
    · change i < x.rx.cap at hi
      omega
    · obtain ⟨hempty, -⟩ | ⟨htail, -⟩ := hrx.others i hi (by omega)
      · exact absurd (hempty.symm.trans hfilling) (by decide)
      · subst htail
        exact absurd hfilling (of_decide_eq_false hnot)

theorem RingsOk.suspend {x : Channel} (h : RingsOk x) (ts : TwoStep) (c : Chan) : RingsOk (ts.suspend c x) := by
  rw [ringsOk_iff] at h ⊢
  obtain ⟨htx, hrx⟩ := h
  constructor
  · by_cases ht : ts.touches c .tx = true
    · simp only [TwoStep.suspend, ht, if_true, Bool.not_true, Bool.and_false]
      exact ⟨htx.shape, htx.queued, htx.others, htx.nonEmpty, nofun, nofun⟩
    · simp only [TwoStep.suspend, ht, Bool.not_false, Bool.and_true]
      exact ⟨htx.shape, htx.queued, htx.others, htx.nonEmpty, htx.sending, htx.unsent⟩
  · by_cases ht : ts.touches c .rx = true
    · simp only [TwoStep.suspend, ht, if_true]
      exact ⟨hrx.shape, hrx.queued, hrx.others, hrx.ready, hrx.sync⟩
    · simp only [TwoStep.suspend, ht]
      exact ⟨hrx.shape, hrx.queued, hrx.others, hrx.ready, hrx.sync⟩

/-- A renewed ring has the right shape and nothing in it. -/
theorem renewRing_empty {ts : TwoStep} (hl : ts.legal = true) (rule : AllocRule) {rb : Ring} (h : RingShape rb) :
    RingShape (ts.renewRing rule rb) ∧ (ts.renewRing rule rb).entryCount = 0 ∧ AllEmpty (ts.renewRing rule rb) := by
  obtain ⟨-, hcap, hf1, hf, -⟩ := id h
  cases ts with
  | size c d v =>
    simp only [TwoStep.legal, legalSize, Bool.and_eq_true, decide_eq_true_eq] at hl
    exact ⟨allocate_shape rule _ _ rb hcap hl.1 hl.2, rfl, allocate_allEmpty rule _ _ rb⟩
  | num c d v =>
    simp only [TwoStep.legal, legalNum, Bool.and_eq_true, decide_eq_true_eq] at hl
    exact ⟨allocate_shape rule _ _ rb hl.2 hf1 hf, rfl, allocate_allEmpty rule _ _ rb⟩
  | channel c => exact ⟨clear_shape h, rfl, clear_allEmpty rb⟩
  | device => exact ⟨clear_shape h, rfl, clear_allEmpty rb⟩

/-- A ring that comes back was offline, so no frame of it was being sent. -/
theorem RingsOk.renew {x : Channel} (h : RingsOk x) {ts : TwoStep} (hl : ts.legal = true) (rule : AllocRule) {c : Chan}
    (hoff : ts.touches c .tx = true → x.tx.online = false) : RingsOk (ts.renew rule c x) := by
  rw [ringsOk_iff] at h ⊢
  obtain ⟨htx, hrx⟩ := h
  constructor
  · by_cases ht : ts.touches c .tx = true
    · obtain ⟨hshape, hcount, hempty⟩ := renewRing_empty hl rule htx.shape
      have hact : x.txActive = false := by
        by_contra hact
        obtain ⟨-, -, hon, -⟩ := htx.sending (by simpa using hact)
        exact absurd ((hoff ht).symm.trans hon) (by decide)
      simp only [TwoStep.renew, ht, if_true]
      exact .of_empty hshape hcount hempty hact
    · simp only [TwoStep.renew, ht]
      exact ⟨htx.shape, htx.queued, htx.others, htx.nonEmpty, htx.sending, htx.unsent⟩
  · by_cases ht : ts.touches c .rx = true
    · obtain ⟨hshape, hcount, hempty⟩ := renewRing_empty hl rule hrx.shape
      simp only [TwoStep.renew, ht, if_true]
      exact .of_empty hshape hcount hempty
    · simp only [TwoStep.renew, ht]
      exact ⟨hrx.shape, hrx.queued, hrx.others, hrx.ready, hrx.sync⟩

/-! ## The mirror, the counter and the stored values -/

/-- A bit of `CTL` replaced is a flag replaced (10_state.md R37). -/
theorem replaceBit_ctlOf (m : Mode) :
    (∀ rx tx irq b, replaceBit (ctlOf rx tx irq m) ctlRxen b = ctlOf b tx irq m) ∧
    (∀ rx tx irq b, replaceBit (ctlOf rx tx irq m) ctlTxen b = ctlOf rx b irq m) ∧
    (∀ rx tx irq b, replaceBit (ctlOf rx tx irq m) ctlIrqen b = ctlOf rx tx b m) ∧
    (∀ rx tx irq, ctlOf rx tx irq m &&& (ctlIrqen ||| ctlMode) = ctlOf false false irq m) := by
  cases m <;> decide

theorem replaceBit_ctlOf_mode (m m' : Mode) :
    ∀ rx tx irq, replaceBit (ctlOf rx tx irq m) ctlMode m'.bit = ctlOf rx tx irq m' := by
  cases m <;> cases m' <;> decide

theorem chanMove_mirrorOk {p : Params} {x y : Channel} (h : ChanMove p x y) (hx : MirrorOk x) : MirrorOk y := by
  obtain ⟨hrx, htx, hirq, hboth⟩ := replaceBit_ctlOf x.mode
  cases h
  case rxEnabled b => exact (congrArg (replaceBit · ctlRxen b) hx).trans (hrx ..)
  case txEnabled b => exact (congrArg (replaceBit · ctlTxen b) hx).trans (htx ..)
  case irqEnabled b => exact (congrArg (replaceBit · ctlIrqen b) hx).trans (hirq ..)
  case disable => exact (congrArg (· &&& (ctlIrqen ||| ctlMode)) hx).trans (hboth ..)
  case sendByte =>
    unfold Channel.byteSent
    split <;> exact hx
  all_goals exact hx

theorem chanMove_qfullOk {p : Params} {x y : Channel} (hp : 1 ≤ p.qfullThreshold) (h : ChanMove p x y)
    (hx : QfullOk p x) : QfullOk p y := by
  cases h
  case qfullCount n hn =>
    obtain rfl | hpos := Nat.eq_zero_or_pos n
    · exact hp
    · exact hn hpos
  case sendByte =>
    unfold Channel.byteSent
    split <;> exact hx
  all_goals exact hx

theorem chanMove_valuesOk {p : Params} {x y : Channel} (h : ChanMove p x y) (hx : ValuesOk x) : ValuesOk y := by
  obtain ⟨hs, hr, hw, hm⟩ := hx
  cases h
  case sticky e he => exact ⟨he, hr, hw, hm⟩
  case rdTimeout v hv => exact ⟨hs, hv, hw, hm⟩
  case wrTimeout v hv => exact ⟨hs, hr, hv, hm⟩
  case watermark n hn => exact ⟨hs, hr, hw, hn⟩
  case sendByte =>
    unfold Channel.byteSent
    split <;> exact ⟨hs, hr, hw, hm⟩
  all_goals exact ⟨hs, hr, hw, hm⟩

end Sys2Proof.Machine
end

