-- ==== Sys2Proof/Proofs/StateInvariants.lean ====
section
/-! Every move keeps the invariants of 10_state.md R50, each of them as a property of all channels and rings; with
`step_keeps`, so does every step. -/

namespace Sys2Proof.Machine

open Sys2Proof

/-! ## Properties of both channels, of all four rings -/

theorem forall_chan {s : State} {P : Channel → Prop} : (∀ c, P (s.chan c)) ↔ P s.ch0 ∧ P s.ch1 := by
  constructor
  · exact fun h => ⟨h .ch0, h .ch1⟩
  · rintro ⟨h0, h1⟩ (_ | _)
    · exact h0
    · exact h1

theorem waitersOk_iff {s : State} : WaitersOk s ↔ ∀ c d, (s.ring c d).waiter = anyAsleep s.calls c d := by
  constructor
  · rintro ⟨h0, h1, h2, h3⟩ (_ | _) (_ | _) <;> assumption
  · exact fun h => ⟨h .ch0 .tx, h .ch0 .rx, h .ch1 .tx, h .ch1 .rx⟩

theorem midOk_iff {s : State} :
    MidOk s ↔ (s.calls.filter fun e => e.2.isMid).length ≤ 1 ∧ ∀ c d, (s.ring c d).online = !anyHolds s.calls c d := by
  constructor
  · rintro ⟨hle, h0, h1, h2, h3⟩
    refine ⟨hle, ?_⟩
    rintro (_ | _) (_ | _) <;> assumption
  · rintro ⟨hle, h⟩
    exact ⟨hle, h .ch0 .tx, h .ch0 .rx, h .ch1 .tx, h .ch1 .rx⟩

/-! ## The channels and rings of a state after each move -/

/-- The record `rb.waiter <- b`. -/
def Ring.setWaiter (b : Bool) (rb : Ring) : Ring := { rb with waiter := b }

theorem modRing_chan (s : State) (c : Chan) (d : Dir) (f : Ring → Ring) (c' : Chan) :
    (s.modRing c d f).chan c' = if c' = c then (s.chan c').modRing d f else s.chan c' :=
  modChan_chan s c c' _

theorem setWaiter_ring (s : State) (c : Chan) (d : Dir) (b : Bool) (c' : Chan) (d' : Dir) :
    (s.modRing c d (Ring.setWaiter b)).ring c' d' =
      if c' = c ∧ d' = d then (s.ring c' d').setWaiter b else s.ring c' d' := by
  cases c <;> cases c' <;> cases d <;> cases d' <;> rfl

theorem wake_ring (s : State) (c : Chan) (d : Dir) (c' : Chan) (d' : Dir) :
    (wake c d s).ring c' d' = if c' = c ∧ d' = d then (s.ring c' d').setWaiter false else s.ring c' d' := by
  rw [wake_eq]
  split
  · rw [ring_with_calls]
    exact setWaiter_ring s c d false c' d'
  · next hw =>
    split
    · next h =>
      obtain ⟨rfl, rfl⟩ := h
      have hw' : (s.ring c' d').waiter = false := by simpa only [Bool.not_eq_true] using hw
      rw [Ring.setWaiter, ← hw']
    · rfl

theorem setChan_ring (s : State) (c : Chan) (y : Channel) (c' : Chan) (d : Dir) :
    (s.modChan c fun _ => y).ring c' d = if c' = c then y.ring d else s.ring c' d := by
  cases c <;> cases c' <;> rfl

theorem suspend_ring (ts : TwoStep) (c : Chan) (d : Dir) (x : Channel) :
    ((ts.suspend c x).ring d).waiter = (x.ring d).waiter ∧
    ((ts.suspend c x).ring d).online = ((x.ring d).online && !ts.touches c d) := by
  cases d <;> simp only [TwoStep.suspend, Channel.ring] <;> split <;> simp_all

theorem renewRing_flags (ts : TwoStep) (rule : AllocRule) (rb : Ring) :
    (ts.renewRing rule rb).waiter = rb.waiter ∧ (ts.renewRing rule rb).online = true := by
  cases ts <;> exact ⟨rfl, rfl⟩

theorem renew_ring (ts : TwoStep) (rule : AllocRule) (c : Chan) (d : Dir) (x : Channel) :
    ((ts.renew rule c x).ring d).waiter = (x.ring d).waiter ∧
    ((ts.renew rule c x).ring d).online = (ts.touches c d || (x.ring d).online) := by
  cases d <;> simp only [TwoStep.renew, Channel.ring] <;> split <;> simp_all [renewRing_flags]

/-! ## The parts of a channel that the table moves leave alone -/

/-- The mode, the flags with their mirror, the counter and the stored values are the same. -/
structure SameControl (x y : Channel) : Prop where
  mode : y.mode = x.mode
  rxEnabled : y.rxEnabled = x.rxEnabled
  txEnabled : y.txEnabled = x.txEnabled
  irqEnabled : y.irqEnabled = x.irqEnabled
  mirror : y.mirror = x.mirror
  qfullCount : y.qfullCount = x.qfullCount
  stickyErr : y.stickyErr = x.stickyErr
  rdTimeout : y.rdTimeout = x.rdTimeout
  wrTimeout : y.wrTimeout = x.wrTimeout
  watermark : y.watermark = x.watermark

theorem SameControl.of_eq {x y : Channel} (h : y = x) : SameControl x y := by
  subst h
  exact ⟨rfl, rfl, rfl, rfl, rfl, rfl, rfl, rfl, rfl, rfl⟩

theorem SameControl.modRing (x : Channel) (d : Dir) (f : Ring → Ring) : SameControl x (x.modRing d f) := by
  cases d <;> exact ⟨rfl, rfl, rfl, rfl, rfl, rfl, rfl, rfl, rfl, rfl⟩

/-- What a move does to the control part of a channel: nothing, one of the channel's moves, or a change of mode. -/
theorem move_control {s t : State} (h : Move s t) (c : Chan) :
    SameControl (s.chan c) (t.chan c) ∨ ChanMove s.params (s.chan c) (t.chan c) ∨
    ∃ m, quiescent (s.chan c) = true ∧
      t.chan c = { s.chan c with mode := m, mirror := replaceBit (s.chan c).mirror ctlMode m.bit } := by
  have table : ∀ (c' : Chan) (d : Dir) (f : Ring → Ring) (u : State), u.chan c = (s.modRing c' d f).chan c →
      SameControl (s.chan c) (u.chan c) := by
    intro c' d f u hu
    rw [hu, modRing_chan]
    split
    · exact .modRing _ d f
    · exact .of_eq rfl
  cases h
  case quiet hf hc => exact .inl (.of_eq (hc c))
  case chan c' y hm =>
    rw [modChan_chan]
    split
    · next he => subst he; exact .inr (.inl hm)
    · exact .inl (.of_eq rfl)
  case mode c' m _ hq =>
    rw [modChan_chan]
    split
    · next he => subst he; exact .inr (.inr ⟨m, hq, rfl⟩)
    · exact .inl (.of_eq rfl)
  case wake c' d =>
    rw [wake_chan]
    split
    · next he => subst he; exact .inl (.modRing _ d _)
    · exact .inl (.of_eq rfl)
  case block tid b _ _ _ _ => exact .inl (table b.ch b.dir _ _ (chan_with_calls _ _ _))
  case leave tid b _ => exact .inl (table b.ch b.dir _ _ (chan_with_calls _ _ _))
  case suspend => cases c <;> exact .inl ⟨rfl, rfl, rfl, rfl, rfl, rfl, rfl, rfl, rfl, rfl⟩
  case renew => cases c <;> exact .inl ⟨rfl, rfl, rfl, rfl, rfl, rfl, rfl, rfl, rfl, rfl⟩

theorem move_mirrorOk {s t : State} (h : Move s t) (hs : ∀ c, MirrorOk (s.chan c)) (c : Chan) :
    MirrorOk (t.chan c) := by
  have hx : (s.chan c).mirror = _ := hs c
  obtain hsame | hm | ⟨m, -, ht⟩ := move_control h c
  · rw [MirrorOk, hsame.mirror, hsame.rxEnabled, hsame.txEnabled, hsame.irqEnabled, hsame.mode]
    exact hx
  · exact chanMove_mirrorOk hm (hs c)
  · rw [ht]
    exact (congrArg (replaceBit · ctlMode m.bit) hx).trans (replaceBit_ctlOf_mode ..)

theorem move_qfullOk {s t : State} (h : Move s t) (hp : 1 ≤ s.params.qfullThreshold)
    (hs : ∀ c, QfullOk s.params (s.chan c)) (c : Chan) : QfullOk t.params (t.chan c) := by
  rw [(move_record h).1]
  obtain hsame | hm | ⟨m, -, ht⟩ := move_control h c
  · rw [QfullOk, hsame.qfullCount]
    exact hs c
  · exact chanMove_qfullOk hp hm (hs c)
  · rw [ht]
    exact hs c

theorem move_valuesOk {s t : State} (h : Move s t) (hs : ∀ c, ValuesOk (s.chan c)) (c : Chan) :
    ValuesOk (t.chan c) := by
  obtain hsame | hm | ⟨m, -, ht⟩ := move_control h c
  · rw [ValuesOk, hsame.stickyErr, hsame.rdTimeout, hsame.wrTimeout, hsame.watermark]
    exact hs c
  · exact chanMove_valuesOk hm (hs c)
  · rw [ht]
    exact hs c

/-! ## The thread table and the flags of the rings -/

theorem move_sorted {s t : State} (h : Move s t) (hs : callsSorted none s.calls = true) :
    callsSorted none t.calls = true := by
  cases h
  case quiet hf _ => rw [hf.calls]; exact hs
  case chan => simpa using hs
  case mode => simpa using hs
  case wake c d =>
    rw [wake_calls]
    split
    · exact callsSorted_wake hs c d
    · exact hs
  case block => exact callsSorted_insertCall hs _ _
  case leave => exact callsSorted_dropCall hs _
  case suspend => exact callsSorted_insertCall hs _ _
  case renew => exact callsSorted_dropCall hs _

/-- Where the rings' `waiter` flags and the table are as before, INV9 is as before. -/
theorem waitersOk_of_same {s t : State} (hw : ∀ c d, (t.ring c d).waiter = (s.ring c d).waiter)
    (ha : ∀ c d, anyAsleep t.calls c d = anyAsleep s.calls c d) (hs : WaitersOk s) : WaitersOk t := by
  rw [waitersOk_iff] at hs ⊢
  intro c d
  rw [hw, ha, hs]

theorem asleepOn_blocked {b : Blocked} (h : b.woken = false) (c : Chan) (d : Dir) :
    (Call.blocked b).asleepOn c d = decide (c = b.ch ∧ d = b.dir) := by
  simp only [Call.asleepOn, h]
  grind

theorem not_asleepOn_other {b : Blocked} {c : Chan} {d : Dir} (h : ¬ (c = b.ch ∧ d = b.dir)) :
    (Call.blocked b).asleepOn c d = false := by
  simp only [Call.asleepOn]
  grind

theorem anyAsleep_dropCall {calls : List (Tid × Call)} {tid : Tid} {k : Call} (hs : callsSorted none calls = true)
    (h : callOf calls tid = some k) (c : Chan) (d : Dir) :
    anyAsleep calls c d = (k.asleepOn c d || anyAsleep (dropCall calls tid) c d) :=
  (perm_dropCall hs h).any_eq

theorem anyHolds_dropCall {calls : List (Tid × Call)} {tid : Tid} {k : Call} (hs : callsSorted none calls = true)
    (h : callOf calls tid = some k) (c : Chan) (d : Dir) :
    anyHolds calls c d = (k.holds c d || anyHolds (dropCall calls tid) c d) :=
  (perm_dropCall hs h).any_eq

theorem move_waitersOk {s t : State} (h : Move s t) (hsorted : callsSorted none s.calls = true) (hs : WaitersOk s) :
    WaitersOk t := by
  cases h
  case quiet hf hc => exact waitersOk_of_same (fun c d => by rw [State.ring, hc]; rfl) (fun c d => by rw [hf.calls]) hs
  case chan c' y hm =>
    refine waitersOk_of_same (fun c d => ?_) (fun c d => by simp) hs
    rw [setChan_ring]
    split
    · next he => subst he; exact (chanMove_flags hm d).1
    · rfl
  case mode c' m _ _ =>
    refine waitersOk_of_same (fun c d => ?_) (fun c d => by simp) hs
    cases c <;> cases c' <;> cases d <;> rfl
  case wake c' d' =>
    rw [waitersOk_iff] at hs ⊢
    intro c d
    rw [wake_ring, wake_calls]
    by_cases he : c = c' ∧ d = d'
    · obtain ⟨rfl, rfl⟩ := he
      rw [if_pos ⟨rfl, rfl⟩]
      split
      · exact (anyAsleep_wake s.calls c d).symm
      · next hw => rw [← hs]; exact (Bool.not_eq_true _ ▸ hw).symm
    · rw [if_neg he, hs]
      split
      · exact (anyAsleep_wake_other s.calls he).symm
      · rfl
  case block tid b hidle hw _ _ =>
    rw [waitersOk_iff] at hs ⊢
    intro c d
    have hinsert : anyAsleep (insertCall s.calls tid (.blocked b)) c d =
        ((Call.blocked b).asleepOn c d || anyAsleep s.calls c d) :=
      any_insertCall s.calls tid (.blocked b) (·.asleepOn c d) hidle
    have hring := setWaiter_ring s b.ch b.dir true c d
    rw [ring_with_calls, hinsert, asleepOn_blocked hw, ← hs]
    refine (congrArg Ring.waiter hring).trans ?_
    by_cases he : c = b.ch ∧ d = b.dir
    · rw [if_pos he, decide_eq_true he]; rfl
    · rw [if_neg he, decide_eq_false he]; rfl
  case leave tid b hb =>
    rw [waitersOk_iff] at hs ⊢
    intro c d
    have hring := setWaiter_ring s b.ch b.dir (anyAsleep (dropCall s.calls tid) b.ch b.dir) c d
    rw [leave_calls, leave, ring_with_calls]
    refine (congrArg Ring.waiter hring).trans ?_
    by_cases he : c = b.ch ∧ d = b.dir
    · obtain ⟨rfl, rfl⟩ := he
      rw [if_pos ⟨rfl, rfl⟩]; rfl
    · rw [if_neg he, hs, anyAsleep_dropCall hsorted hb, not_asleepOn_other he, Bool.false_or]
  case suspend tid cw w1 ts hidle _ _ _ =>
    refine waitersOk_of_same (fun c d => ?_) (fun c d => ?_) hs
    · cases c <;> exact (suspend_ring ts _ d _).1
    · exact any_insertCall s.calls tid (.mid cw w1) (·.asleepOn c d) hidle
  case renew tid cw w1 ts hcall _ =>
    refine waitersOk_of_same (fun c d => ?_) (fun c d => ?_) hs
    · cases c <;> exact (renew_ring ts _ _ d _).1
    · exact (anyAsleep_dropCall hsorted hcall c d).symm

/-- Where the rings' `online` flags and the `Mid` records are as before, INV11 is as before. -/
theorem midOk_of_same {s t : State} (ho : ∀ c d, (t.ring c d).online = (s.ring c d).online)
    (ha : ∀ c d, anyHolds t.calls c d = anyHolds s.calls c d)
    (hl : (t.calls.filter fun e => e.2.isMid).length ≤ (s.calls.filter fun e => e.2.isMid).length) (hs : MidOk s) :
    MidOk t := by
  rw [midOk_iff] at hs ⊢
  exact ⟨hl.trans hs.1, fun c d => by rw [ho, ha, hs.2]⟩

/-- The entries of a thread that goes from `Idle` to a record, counted. -/
theorem length_isMid_insertCall {calls : List (Tid × Call)} {tid : Tid} (k : Call) (h : callOf calls tid = none) :
    ((insertCall calls tid k).filter fun e => e.2.isMid).length =
      (((tid, k) :: calls).filter fun e => e.2.isMid).length :=
  ((insertCall_perm k h).filter _).length_eq

theorem move_midOk {s t : State} (h : Move s t) (hsorted : callsSorted none s.calls = true) (hs : MidOk s) :
    MidOk t := by
  cases h
  case quiet hf hc =>
    exact midOk_of_same (fun c d => by rw [State.ring, hc]; rfl) (fun c d => by rw [hf.calls]) (by rw [hf.calls]) hs
  case chan c' y hm =>
    refine midOk_of_same (fun c d => ?_) (fun c d => by simp) (by simp) hs
    rw [setChan_ring]
    split
    · next he => subst he; exact (chanMove_flags hm d).2
    · rfl
  case mode c' m _ _ =>
    refine midOk_of_same (fun c d => ?_) (fun c d => by simp) (by simp) hs
    cases c <;> cases c' <;> cases d <;> rfl
  case wake c' d' =>
    refine midOk_of_same (fun c d => ?_) (fun c d => ?_) ?_ hs
    · rw [wake_ring]; split <;> rfl
    · rw [wake_calls]
      split
      · simp [anyHolds, List.any_map, Function.comp_def]
      · rfl
    · rw [wake_calls]
      split
      · simp [List.filter_map, Function.comp_def]
      · rfl
  case block tid b hidle hw _ _ =>
    refine midOk_of_same (fun c d => ?_) (fun c d => ?_) ?_ hs
    · rw [ring_with_calls]
      refine (congrArg Ring.online (setWaiter_ring s b.ch b.dir true c d)).trans ?_
      split <;> rfl
    · exact any_insertCall s.calls tid (.blocked b) (·.holds c d) hidle
    · exact Nat.le_of_eq (length_isMid_insertCall _ hidle)
  case leave tid b hb =>
    refine midOk_of_same (fun c d => ?_) (fun c d => ?_) ?_ hs
    · rw [leave, ring_with_calls]
      refine (congrArg Ring.online (setWaiter_ring s b.ch b.dir _ c d)).trans ?_
      split <;> rfl
    · exact (anyHolds_dropCall hsorted hb c d).symm
    · exact (List.filter_sublist.filter _).length_le
  case suspend tid cw w1 ts hidle hfree hmid _ =>
    rw [midOk_iff] at hs ⊢
    constructor
    · refine Nat.le_of_eq ((length_isMid_insertCall _ hidle).trans ?_)
      rw [List.filter_cons_of_pos rfl, filter_isMid_eq_nil.mpr hfree]
      rfl
    · intro c d
      have hholds : anyHolds (insertCall s.calls tid (.mid cw w1)) c d = ts.touches c d := by
        rw [← holds_mid hmid, ← Bool.or_false ((Call.mid cw w1).holds c d), ← anyHolds_of_not_anyMid hfree c d]
        exact any_insertCall s.calls tid (.mid cw w1) (·.holds c d) hidle
      have honline : (s.ring c d).online = true := by rw [hs.2, anyHolds_of_not_anyMid hfree c d]; rfl
      have hring : ((ts.suspend c (s.chan c)).ring d).online = !ts.touches c d := by
        rw [(suspend_ring ts c d _).2]
        exact (congrArg (· && !ts.touches c d) honline).trans (Bool.true_and _)
      rw [hholds, ← hring]
      cases c <;> rfl
  case renew tid cw w1 ts hcall hmid =>
    rw [midOk_iff] at hs ⊢
    have hnil : ((dropCall s.calls tid).filter fun e => e.2.isMid) = [] := by
      have hlen := ((perm_dropCall hsorted hcall).filter fun e => e.2.isMid).length_eq
      rw [List.filter_cons_of_pos rfl, List.length_cons] at hlen
      exact List.eq_nil_of_length_eq_zero (by omega)
    have hnone := anyHolds_of_not_anyMid (filter_isMid_eq_nil.mp hnil)
    constructor
    · rw [hnil]; exact Nat.zero_le 1
    · intro c d
      have hholds := anyHolds_dropCall hsorted hcall c d
      rw [holds_mid hmid, hnone, Bool.or_false] at hholds
      have hring : ((ts.renew s.params.alloc c (s.chan c)).ring d).online = true := by
        rw [(renew_ring ts _ c d _).2]
        refine (congrArg (ts.touches c d || ·) (hs.2 c d)).trans ?_
        rw [hholds, Bool.or_not_self]
      rw [hnone, Bool.not_false, ← hring]
      cases c <;> rfl

end Sys2Proof.Machine
end

