-- ==== Sys2Proof/Proofs/StepInvariants.lean ====
section
/-! The invariants of 10_state.md R50 as a whole: every move keeps them, so every step does. The statements about single
invariants are `step_keeps` with the lemma of that invariant. -/

namespace Sys2Proof.Machine

open Sys2Proof

/-! ## The service in progress, slot storage -/

theorem move_key {s t : State} (h : Move s t) : t.key = s.key ∨ KeyOk t := by
  cases h
  case quiet hf _ => exact hf.key
  all_goals exact .inl (by simp)

theorem move_keyOk {s t : State} (h : Move s t) (hs : KeyOk s) : KeyOk t := by
  obtain hk | hk := move_key h
  · intro k hmem
    obtain ⟨hi, hrx, hmode⟩ := hs k (hk ▸ hmem)
    obtain ⟨hi', hmode'⟩ := move_serving h hi
    exact ⟨hi', hrx, hmode.trans (congrArg Mode.bit (hmode' k.1).symm)⟩
  · exact hk

theorem move_memory {s t : State} (h : Move s t) (hs : Memory.wf s.mem = true) : Memory.wf t.mem = true := by
  cases h
  case quiet hf _ => exact hf.memory hs
  all_goals simpa using hs

/-! ## The records -/

theorem legal_mid {cw : Word} {w1 : Option Word} {ts : TwoStep} (h : midStep cw w1 = some ts) :
    (Call.mid cw w1).legal = ts.legal := by
  simp only [Call.legal, h]
  cases ts <;> rfl

theorem legal_blocked {b : Blocked} {x : Channel} (hx : ValuesOk x) (htmo : b.tmo = x.rdTimeout ∨ b.tmo = x.wrTimeout)
    (hwait : noWait b.tmo = false) : (Call.blocked b).legal = true := by
  obtain ⟨-, hr, hw, -⟩ := hx
  have htimeout : legalTimeout b.tmo = true := by
    obtain h | h := htmo
    · rw [h]; exact hr
    · rw [h]; exact hw
  simp [Call.legal, htimeout, hwait]

theorem move_legal {s t : State} (h : Move s t) (hv : ∀ c, ValuesOk (s.chan c))
    (hs : ∀ e ∈ s.calls, e.2.legal = true) : ∀ e ∈ t.calls, e.2.legal = true := by
  have insert : ∀ {tid : Tid} {k : Call}, k.legal = true → ∀ e ∈ insertCall s.calls tid k, e.2.legal = true := by
    intro tid k hk e he
    obtain rfl | he := mem_insertCall he
    · exact hk
    · exact hs e he
  have drop : ∀ {tid : Tid}, ∀ e ∈ dropCall s.calls tid, e.2.legal = true :=
    fun e he => hs e (List.mem_of_mem_filter he)
  cases h
  case quiet hf _ => rw [hf.calls]; exact hs
  case chan => simpa using hs
  case mode => simpa using hs
  case wake c d =>
    rw [wake_calls]
    split
    · intro e he
      obtain ⟨e', he', rfl⟩ := List.mem_map.mp he
      exact (legal_wake e'.2 c d).trans (hs e' he')
    · exact hs
  case block tid b _ _ htmo hwait => exact insert (legal_blocked (hv b.ch) htmo hwait)
  case leave => exact drop
  case suspend hmid hlegal => exact insert ((legal_mid hmid).trans hlegal)
  case renew => exact drop

/-! ## The rings -/

theorem ringsOk_setWaiter {x : Channel} (d : Dir) (b : Bool) (h : RingsOk x) : RingsOk (x.modRing d (Ring.setWaiter b)) := by
  cases d <;> exact h

theorem modRing_setWaiter_ringsOk {s : State} (hs : ∀ c, RingsOk (s.chan c)) (c : Chan) (d : Dir) (b : Bool)
    (c' : Chan) : RingsOk ((s.modRing c d (Ring.setWaiter b)).chan c') := by
  rw [modRing_chan]
  split
  · exact ringsOk_setWaiter d b (hs c')
  · exact hs c'

/-- The ring a second step comes back to is offline until then (INV11). -/
theorem offline_of_mid {s : State} {tid : Tid} {cw : Word} {w1 : Option Word} {ts : TwoStep} (hs : MidOk s)
    (hcall : callOf s.calls tid = some (.mid cw w1)) (hmid : midStep cw w1 = some ts) {c : Chan} {d : Dir}
    (ht : ts.touches c d = true) : (s.ring c d).online = false := by
  have hholds : anyHolds s.calls c d = true :=
    List.any_eq_true.mpr ⟨_, mem_of_callOf hcall, (holds_mid hmid c d).trans ht⟩
  rw [(midOk_iff.mp hs).2, hholds]
  rfl

theorem move_ringsOk {s t : State} (h : Move s t) (hs : Inv s) (c : Chan) : RingsOk (t.chan c) := by
  have hrings := forall_chan.mpr hs.rings
  cases h
  case quiet hf hc => rw [hc]; exact hrings c
  case chan c' y hm =>
    rw [modChan_chan]
    split
    · next he => subst he; exact chanMove_ringsOk hm (hrings c)
    · exact hrings c
  case mode c' m _ hq =>
    rw [modChan_chan]
    split
    · next he => subst he; exact (hrings c).setMode hq m _
    · exact hrings c
  case wake c' d =>
    rw [wake_chan]
    split
    · next he => subst he; exact ringsOk_setWaiter d false (hrings c)
    · exact hrings c
  case block tid b _ _ _ _ =>
    rw [chan_with_calls]
    exact modRing_setWaiter_ringsOk hrings b.ch b.dir true c
  case leave tid b _ =>
    rw [leave, chan_with_calls]
    exact modRing_setWaiter_ringsOk hrings b.ch b.dir _ c
  case suspend tid cw w1 ts _ _ _ _ =>
    cases c
    · exact hs.rings.1.suspend ts .ch0
    · exact hs.rings.2.suspend ts .ch1
  case renew tid cw w1 ts hcall hmid =>
    have hlegal : ts.legal = true := (legal_mid hmid).symm.trans (hs.legal _ (mem_of_callOf hcall))
    have hoff : ∀ c, ts.touches c .tx = true → (s.chan c).tx.online = false :=
      fun c ht => offline_of_mid hs.lock hcall hmid ht
    cases c
    · exact hs.rings.1.renew hlegal _ (hoff .ch0)
    · exact hs.rings.2.renew hlegal _ (hoff .ch1)

/-! ## All the invariants -/

theorem move_inv {s t : State} (h : Move s t) (hs : Inv s) : Inv t where
  threshold := by rw [(move_record h).1]; exact hs.threshold
  memory := move_memory h hs.memory
  sorted := move_sorted h hs.sorted
  legal := move_legal h (forall_chan.mpr hs.values) hs.legal
  rings := forall_chan.mp (move_ringsOk h hs)
  mirrors := forall_chan.mp (move_mirrorOk h (forall_chan.mpr hs.mirrors))
  counters := forall_chan.mp (move_qfullOk h hs.threshold (forall_chan.mpr hs.counters))
  values := forall_chan.mp (move_valuesOk h (forall_chan.mpr hs.values))
  waiters := move_waitersOk h hs.sorted hs.waiters
  lock := move_midOk h hs.sorted hs.lock
  service := move_keyOk h hs.service

/-- `EndInterrupt` touches the device and the results only, and no service is in progress (44_isr_dispatcher.md
R204). -/
theorem endInterrupt_inv {s : State} (hk : s.key = none) (hs : Inv s) : Inv (endInterrupt s) where
  threshold := hs.threshold
  memory := hs.memory
  sorted := hs.sorted
  legal := hs.legal
  rings := hs.rings
  mirrors := hs.mirrors
  counters := hs.counters
  values := hs.values
  waiters := hs.waiters
  lock := hs.lock
  service := by
    intro k hmem
    have hmem' : k ∈ s.key.toList := hmem
    rw [hk] at hmem'
    cases hmem'

/-- Settles O13: a step is a sequence of moves (`moves_of_step`), and each move keeps each of the invariants. -/
theorem stepKeepsTheInvariants : Obligations.StepKeepsTheInvariants :=
  fun _ _ hs h => step_keeps move_inv (fun _ hk hu => endInterrupt_inv hk hu) hs h

/-- Settles O16: no move touches a flag without its bit of the mirror. -/
theorem stepKeepsTheMirror : Obligations.StepKeepsTheMirror := by
  intro s t h0 h1 h
  exact step_keeps (P := fun s => MirrorOk s.ch0 ∧ MirrorOk s.ch1)
    (fun hm hs => forall_chan.mp (move_mirrorOk hm (forall_chan.mpr hs))) (fun _ _ hs => hs) ⟨h0, h1⟩ h

/-- The stored values of a state with the parameters `p` are legal. -/
structure StoredLegal (p : Params) (s : State) : Prop where
  params : s.params = p
  counters : ∀ c, QfullOk s.params (s.chan c)
  values : ∀ c, ValuesOk (s.chan c)

/-- Settles O17: each value is checked where it is stored, and the counter is reset at the threshold. -/
theorem stepKeepsTheStoredValuesLegal : Obligations.StepKeepsTheStoredValuesLegal := by
  intro s t hp hq0 hq1 hv0 hv1 h
  have hs : StoredLegal s.params s :=
    ⟨rfl, (forall_chan (P := QfullOk s.params)).mpr ⟨hq0, hq1⟩, forall_chan.mpr ⟨hv0, hv1⟩⟩
  have ht : StoredLegal s.params t := by
    refine step_keeps (fun {u v} hm hu => ?_) (fun u _ hu => ⟨hu.params, hu.counters, hu.values⟩) hs h
    have hpu : 1 ≤ u.params.qfullThreshold := by rw [hu.params]; exact hp
    exact ⟨(move_record hm).1.trans hu.params, move_qfullOk hm hpu hu.counters, move_valuesOk hm hu.values⟩
  obtain ⟨hq0', hq1'⟩ := forall_chan.mp ht.counters
  obtain ⟨hv0', hv1'⟩ := forall_chan.mp ht.values
  exact ⟨ht.params, hq0', hq1', hv0', hv1'⟩

/-- Settles O18: `Wake`, `block` and `Leave` set the flag with the records they change, and no other move touches
either. -/
theorem stepKeepsTheWaiterFlags : Obligations.StepKeepsTheWaiterFlags := by
  intro s t hsorted hs h
  exact step_keeps (P := fun s => callsSorted none s.calls = true ∧ WaitersOk s)
    (fun hm ⟨hsorted, hs⟩ => ⟨move_sorted hm hsorted, move_waitersOk hm hsorted hs⟩) (fun _ _ hs => hs)
    ⟨hsorted, hs⟩ h

/-- Settles O19: the rings go offline with the `Mid` record and come back with its end. -/
theorem stepKeepsTheLock : Obligations.StepKeepsTheLock := by
  intro s t hsorted hs h
  exact (step_keeps (P := fun s => callsSorted none s.calls = true ∧ MidOk s)
    (fun hm ⟨hsorted, hs⟩ => ⟨move_sorted hm hsorted, move_midOk hm hsorted hs⟩) (fun _ _ hs => hs)
    ⟨hsorted, hs⟩ h).2

end Sys2Proof.Machine
end

