-- ==== Sys2Proof/Proofs/StateFamily.lean ====
section
/-! The state after initialization, when commands and `CONT` are enabled, and what the interrupt counter counts
(10_state.md R23, R50, R51, R60; 44_isr_dispatcher.md R204). -/

namespace Sys2Proof.Machine

open Sys2Proof

/-! ## Initialization -/

theorem init_chan (p : Params) (o : Oracle) (i0 i1 : InitParams) (c : Chan) :
    (State.init p o i0 i1).chan c = Channel.init p (if c = .ch0 then i0 else i1) := by
  cases c <;> rfl

theorem allocate_ringAllocated (rule : AllocRule) (num size : Nat) (rb : Ring) :
    RingAllocated (allocOk rule num size) num size (rb.allocate rule num size) := by
  refine ⟨rfl, rfl, rfl, rfl, rfl, rfl, ?_, allocate_allEmpty rule num size rb⟩
  simp only [Ring.allocate]
  split <;> simp

theorem init_mirror (m : Mode) : ctlOf false false false m = if m = .async then 8#32 else 0#32 := by
  cases m <;> rfl

/-- Settles O10. -/
theorem initializationValues : Obligations.InitializationValues := by
  intro p o i0 i1 c
  simp only [init_chan]
  exact ⟨rfl, fun _ => rfl, rfl, rfl, rfl, rfl, rfl, rfl, rfl, rfl, rfl, rfl, rfl, rfl, rfl, rfl, rfl, init_mirror _,
    allocate_ringAllocated .., rfl, rfl, allocate_ringAllocated .., rfl, rfl⟩

/-- What 00_scope.md R13 and 45_config_control.md R216 ask of the initialization parameters of a channel. -/
abbrev InitLegal (i : InitParams) : Prop :=
  1 ≤ i.txSize ∧ i.txSize ≤ 65535 ∧ 1 ≤ i.txNum ∧ i.txNum ≤ 65535 ∧
  1 ≤ i.rxSize ∧ i.rxSize ≤ 65535 ∧ 1 ≤ i.rxNum ∧ i.rxNum ≤ 65535 ∧
  -1 ≤ i.rdTimeout.toInt ∧ -1 ≤ i.wrTimeout.toInt

/-- Both rings start empty, whether or not their storage is obtained. -/
theorem init_ringsOk (p : Params) {i : InitParams} (h : InitLegal i) : RingsOk (Channel.init p i) := by
  obtain ⟨hts, hts', -, htn, hrs, hrs', -, hrn, -⟩ := h
  exact ringsOk_iff.mpr
    ⟨.of_empty (allocate_shape _ _ _ _ htn hts hts') rfl (allocate_allEmpty p.alloc i.txNum i.txSize _) rfl,
      .of_empty (allocate_shape _ _ _ _ hrn hrs hrs') rfl (allocate_allEmpty p.alloc i.rxNum i.rxSize _)⟩

theorem init_valuesOk (p : Params) {i : InitParams} (h : InitLegal i) : ValuesOk (Channel.init p i) := by
  obtain ⟨-, -, -, -, -, -, -, -, hrd, hwr⟩ := h
  exact ⟨rfl, decide_eq_true hrd, decide_eq_true hwr, Nat.zero_le _⟩

theorem init_inv {p : Params} (o : Oracle) {i0 i1 : InitParams} (hp : 1 ≤ p.qfullThreshold) (h0 : InitLegal i0)
    (h1 : InitLegal i1) : Inv (State.init p o i0 i1) where
  threshold := hp
  memory := rfl
  sorted := rfl
  legal := nofun
  rings := ⟨init_ringsOk p h0, init_ringsOk p h1⟩
  mirrors := ⟨rfl, rfl⟩
  counters := ⟨hp, hp⟩
  values := ⟨init_valuesOk p h0, init_valuesOk p h1⟩
  waiters := ⟨rfl, rfl, rfl, rfl⟩
  lock := ⟨Nat.zero_le 1, rfl, rfl, rfl, rfl⟩
  service := nofun

/-- Settles O12: the tables are empty, so only the shape of the rings and the stored values depend on the
parameters. -/
theorem initializationMeetsTheInvariants : Obligations.InitializationMeetsTheInvariants :=
  fun _ o i0 i1 hp h => init_inv o hp (h i0 (by simp)) (h i1 (by simp))

/-- Settles O11: the parameters of the model's reset state are legal ones. -/
theorem resetMeetsTheInvariants : Obligations.ResetMeetsTheInvariants :=
  init_inv _ (by decide) (by decide) (by decide)

/-! ## When commands and `CONT` are enabled -/

/-- A host command is refused where its thread may issue none. -/
theorem exec_of_not_commandEnabled {i : Instr} {tid : Tid} {s : State} (hi : commandTid i = some tid)
    (h : commandEnabled tid s = false) : exec i s = .refused .notEnabled := by
  cases i with
  | svcRxSync | svcRxAsync | svcTxSync | svcTxAsync | svcExt | irq | cont | resume | timeout | abort => cases hi
  | _ =>
    cases hi
    simp [exec, execWrite, execRead, execCfgMode, execCfgTxSize, execCfgTxNum, execCfgRxSize, execCfgRxNum,
      execCfgRdTmo, execCfgWrTmo, execCfgWMark, execCfgRxEn, execCfgTxEn, execCfgIrqEn, execCfgGIrqEn,
      execNotifyInstall, execNotifyRemove, execResetChannel, execResetDevice, h]

/-- Settles O21: each of the three grounds makes `commandEnabled` false. -/
theorem commandsNeedAnIdleBlock : Obligations.CommandsNeedAnIdleBlock := by
  intro s tid i hi hbusy
  refine exec_of_not_commandEnabled hi ?_
  by_contra hen
  obtain ⟨hin, hfree, hidle⟩ := commandEnabled_iff.mp (by simpa using hen)
  obtain h | h | h := hbusy
  · exact absurd (hin.symm.trans h) (by decide)
  · exact absurd (hfree.symm.trans h) (by decide)
  · exact h hidle

/-- A legal `Mid` record has a second step. -/
theorem midStep_of_legal {cw : Word} {w1 : Option Word} (h : (Call.mid cw w1).legal = true) :
    ∃ ts, midStep cw w1 = some ts := by
  cases hmid : midStep cw w1 with
  | some ts => exact ⟨ts, rfl⟩
  | none => simp [Call.legal, hmid] at h

/-- Settles O45: the records of an invariant state are legal, so a `Mid` thread always has its second step. -/
theorem contNeedsAMidThread : Obligations.ContNeedsAMidThread := by
  intro s tid hs
  constructor
  · rintro ⟨t, ht⟩
    obtain ⟨hi, cw, w1, -, hcall, -⟩ := execCont_next ht
    exact ⟨hi, cw, w1, hcall⟩
  · rintro ⟨hi, cw, w1, hcall⟩
    obtain ⟨ts, hmid⟩ := midStep_of_legal (hs.legal _ (mem_of_callOf hcall))
    refine ⟨respond tid 0 (twoStepResult ts s) []
      { runTwoStep ts s with calls := dropCall (runTwoStep ts s).calls tid }, ?_⟩
    simp [exec, execCont, hi, hcall, hmid]

/-! ## The results of the interrupts -/

/-- The device and the dispatcher results are as before. -/
def SameResults (s t : State) : Prop := t.irqLog = s.irqLog ∧ t.dev = s.dev

@[simp] theorem sameResults_iff {s t : State} : SameResults s t ↔ t.irqLog = s.irqLog ∧ t.dev = s.dev := Iff.rfl

theorem SameResults.trans {s u t : State} (h : SameResults s u) (h' : SameResults u t) : SameResults s t :=
  ⟨h'.1.trans h.1, h'.2.trans h.2⟩

theorem regRead_results (c : Chan) (r : ReadReg) (s : State) : SameResults s (regRead c r s) := ⟨rfl, rfl⟩

theorem txSyncService_results {c : Chan} {s t : State} (h : txSyncService c s = .next t) : SameResults s t := by
  obtain ⟨u, hu, ht⟩ := andThen_eq_next.mp h
  cases ht
  obtain ⟨-, rfl⟩ | ⟨-, -, -, rfl⟩ := txSyncStart_eq_next.mp hu
  · simp
  · simp [txSyncBurst]

theorem txAsyncSend_results {c : Chan} {s t : State} (h : txAsyncSend c s = .next t) : SameResults s t := by
  unfold txAsyncSend at h
  simp only at h
  split at h
  · cases h
  · split at h
    · cases h
    · split at h
      · cases h; simp
      · cases h; simp

theorem txAsyncService_results {c : Chan} {s t : State} (h : txAsyncService c s = .next t) : SameResults s t := by
  obtain ⟨u, hu, ht⟩ := andThen_eq_next.mp h
  cases ht
  have hsu : SameResults s u := by
    obtain ⟨-, -, rfl⟩ | ⟨-, hu⟩ | ⟨-, -, hu⟩ := txAsyncByte_eq_next.mp hu
    · simp
    · exact txAsyncSend_results hu
    · simpa [txAsyncActivate] using txAsyncSend_results hu
  simpa using hsu

theorem queueFullPass_results (c : Chan) (s : State) : SameResults s (queueFullPass c s) := by
  unfold queueFullPass
  simp only
  split <;> simp

theorem rxSyncEntry_results {c : Chan} {s t : State} (h : rxSyncEntry c s = .next t) : SameResults s t := by
  unfold rxSyncEntry at h
  simp only at h
  split at h
  · cases h; simp [errorEntry]
  · split at h
    · cases h; simp [oversizeEntry]
    · obtain ⟨u, hu, ht⟩ := andThen_eq_next.mp h
      cases ht
      obtain ⟨-, -, -, rfl⟩ := enqueue_eq_next.mp hu
      simp

theorem rxSyncLoop_results {c : Chan} {dk : BitVec 4} {n : Nat} {s t : State} (h : rxSyncLoop c dk n s = .next t) :
    SameResults s t := by
  induction n generalizing s with
  | zero => cases h; exact ⟨rfl, rfl⟩
  | succ n ih =>
    by_cases hne : rsSfne (portAnswer c .rs s) = true
    · by_cases hfull : (s.ring c .rx).full = true
      · rw [rxSyncLoop_full hne hfull] at h
        cases h
        simpa using (regRead_results c .rs s).trans (queueFullPass_results c _)
      · rw [rxSyncLoop_entry hne (by simpa using hfull)] at h
        obtain ⟨u, hu, ht⟩ := andThen_eq_next.mp h
        exact ((regRead_results c .rs s).trans (rxSyncEntry_results hu)).trans (ih ht)
    · rw [rxSyncLoop_empty (by simpa using hne)] at h
      cases h
      simp

theorem goodCharacter_results {c : Chan} {s t : State} (h : goodCharacter c s = .next t) : SameResults s t := by
  obtain ⟨-, rfl⟩ := appendByte_next h
  obtain ⟨log, hlog⟩ := watermarkCheck_eq c _ (byteStored c _ (regRead c .rxfifo _))
  rw [hlog]
  split <;> simp [sealFrame, byteStored]

theorem badCharacter_results (c : Chan) (rs : Word) (s : State) : SameResults s (badCharacter c rs s) := by
  unfold badCharacter abortPartial
  split <;> simp

theorem rxAsyncLoop_results {c : Chan} {dk : BitVec 4} {n : Nat} {s t : State}
    (h : rxAsyncLoop c dk n s = .next t) : SameResults s t := by
  induction n generalizing s with
  | zero => cases h; exact ⟨rfl, rfl⟩
  | succ n ih =>
    by_cases hne : rsRca (portAnswer c .rs s) = true
    · by_cases hbad : rsRxe (portAnswer c .rs s) = true
      · rw [rxAsyncLoop_bad hne hbad] at h
        exact ((regRead_results c .rs s).trans (badCharacter_results c _ _)).trans (ih h)
      · have hgood : rsRxe (portAnswer c .rs s) = false := by simpa using hbad
        by_cases hfull : (s.ring c .rx).full = true
        · rw [rxAsyncLoop_full hne hgood hfull] at h
          cases h
          simpa using (regRead_results c .rs s).trans (queueFullPass_results c _)
        · rw [rxAsyncLoop_good hne hgood (by simpa using hfull)] at h
          obtain ⟨u, hu, ht⟩ := andThen_eq_next.mp h
          exact ((regRead_results c .rs s).trans (goodCharacter_results hu)).trans (ih ht)
    · rw [rxAsyncLoop_empty (by simpa using hne)] at h
      cases h
      simp

/-- No service ends an interrupt, whatever the mode of its channel (44_isr_dispatcher.md R203, R204). -/
theorem runService_results {c : Chan} {dk : BitVec 4} {s t : State} (h : runService c dk s = .next t) :
    SameResults s t := by
  unfold runService at h
  split at h
  · exact rxSyncLoop_results h
  · exact rxAsyncLoop_results h
  · exact txSyncService_results h
  · exact txAsyncService_results h
  · cases h
    split <;> simp
  · cases h

/-- `IRQ` leaves the count and the results alone, or it ends the interrupt (44_isr_dispatcher.md R201, R204). -/
theorem execIrq_results {s t : State} (h : execIrq s = .next t) :
    (t.irqLog = s.irqLog ∧ t.dev.irqCount = s.dev.irqCount) ∨
    t = endInterrupt (regRead .ch1 .ip (regRead .ch0 .ip (enterInterrupt s))) := by
  have henter := (moves_record (moves_enterInterrupt s)).2
  cases hk : s.key with
  | none => exact (moves_execIrq hk h).imp_left fun hm => (moves_record hm).2
  | some k =>
    unfold execIrq at h
    split at h
    · simp only [hk] at h
      obtain ⟨hlog, hdev⟩ := runService_results h
      exact .inl ⟨hlog.trans henter.1, (congrArg Dev.irqCount hdev).trans henter.2⟩
    · cases h

/-- An interrupt that ends with `isrHandled` set was in service before, because the entry clears it. -/
theorem enterInterrupt_isrHandled {s : State} (h : (enterInterrupt s).dev.isrHandled = true) : s.dev.inIsr = true := by
  unfold enterInterrupt at h
  split at h
  · assumption
  · cases h

/-- Settles O60: no other instruction ends an interrupt, and the end counts a handled one. -/
theorem onlyHandledInterruptsAreCounted : Obligations.OnlyHandledInterruptsAreCounted := by
  intro i s t h
  by_cases hirq : i = .irq
  case neg => exact .inr (.inr (moves_record (moves_of_exec_other hirq h)).2)
  case pos =>
    subst hirq
    obtain hsame | rfl := execIrq_results h
    · exact .inr (.inr hsame)
    · obtain ⟨-, hlog, hcount⟩ := moves_record (moves_enterInterrupt s)
      have hchan := enterInterrupt_chan s
      cases hh : (enterInterrupt s).dev.isrHandled with
      | true =>
        refine .inl ⟨?_, ?_, enterInterrupt_isrHandled hh⟩
        · simp [endInterrupt, hh, hlog]
        · simp [endInterrupt, hh, hcount]
      | false =>
        refine .inr (.inl ⟨?_, ?_, hchan .ch0, hchan .ch1⟩)
        · simp [endInterrupt, hh, hlog]
        · simp [endInterrupt, hh, hcount]

end Sys2Proof.Machine
end

