-- ==== Sys2Proof/Proofs/TransmitQueue.lean ====
section
/-! The bytes of a transmit ring that are still to be sent, under each ring micro-operation, and the bytes a port log
shows sent (20_memory.md R92; 40_ring_buffer.md R133, R136; 43_async_engine.md R186). -/

namespace Sys2Proof.Machine

open Sys2Proof

/-! ## The bytes sent -/

@[simp] theorem sentBytes_append (c : Chan) (log log' : List PortEvent) :
    sentBytes c (log ++ log') = sentBytes c log ++ sentBytes c log' := by
  induction log with
  | nil => rfl
  | cons e log ih =>
    cases e with
    | read => exact ih
    | write c' r v =>
      cases r with
      | ctl | cmd => exact ih
      | txfifo => rw [List.cons_append, sentBytes, ih, sentBytes, List.append_assoc]

@[simp] theorem sentBytes_read (c c' : Chan) (r : ReadReg) (v : Word) : sentBytes c [.read c' r v] = [] := rfl

@[simp] theorem sentBytes_ctl (c c' : Chan) (v : Word) : sentBytes c [.write c' .ctl v] = [] := rfl

@[simp] theorem sentBytes_cmd (c c' : Chan) (v : Word) : sentBytes c [.write c' .cmd v] = [] := rfl

/-- The byte in a `TXFIFO` write is the one that was zero-extended (20_memory.md R83). -/
@[simp] theorem sentBytes_txfifo (c c' : Chan) (b : Byte) :
    sentBytes c [.write c' .txfifo (b.setWidth 32)] = if c' = c then [b] else [] := by
  have hb : (b.setWidth 32).extractLsb' 0 8 = b := by
    ext i hi
    simp [show i < 32 by omega, BitVec.getLsbD_eq_getElem hi]
  simp [sentBytes, hb]

theorem sentBytes_writeFifo (c c' : Chan) (bs : List Byte) (s : State) :
    sentBytes c (writeFifo c' bs s).portLog = sentBytes c s.portLog ++ if c' = c then bs else [] := by
  induction bs generalizing s with
  | nil => simp [writeFifo]
  | cons b bs ih =>
    rw [writeFifo, ih]
    split <;> simp [*]

theorem sentBytes_readFifo (c c' : Chan) (n : Nat) (s : State) :
    sentBytes c (readFifo c' n s).portLog = sentBytes c s.portLog := by
  induction n generalizing s with
  | zero => rfl
  | succ n ih => simp [readFifo, ih]

/-! ## The parts of slot storage -/

theorem slotAddr_add (c : Chan) (d : Dir) (i j k : Nat) : slotAddr c d i j + k = slotAddr c d i (j + k) :=
  Nat.add_assoc _ j k

/-- No address is in the parts of two rings. -/
theorem inRing_unique {c c' : Chan} {d d' : Dir} {a : Nat} (h : inRing c d a = true) (h' : inRing c' d' a = true) :
    c = c' ∧ d = d' := by
  cases c <;> cases c' <;> cases d <;> cases d' <;> simp [inRing, slotAddr, ringNumber] at h h' ⊢ <;> omega

/-- A byte written to one ring's storage is read in no other's. -/
theorem memRead_memWrite_otherRing (m : Memory) {c c' : Chan} {d d' : Dir} {i k a : Nat} (v : Byte)
    (hne : ¬ (c = c' ∧ d = d')) (hi : i < 65536) (hk : k < 65536) (ha : inRing c' d' a = true) :
    memRead (memWrite m (slotAddr c d i k) v) a = memRead m a := by
  refine memRead_memWrite_other m v ?_
  rintro rfl
  exact hne (inRing_unique (slotAddr_inRing c d hi hk) ha)

/-- A frame stored in one ring's storage is read in no other's. -/
theorem memRead_storeBytes_otherRing (m : Memory) {c c' : Chan} {d d' : Dir} {i a : Nat} {data : List Byte}
    (hne : ¬ (c = c' ∧ d = d')) (hi : i < 65536) (hdata : data.length ≤ 65536) (ha : inRing c' d' a = true) :
    memRead (storeBytes m (slotAddr c d i 0) data) a = memRead m a := by
  refine memRead_storeBytes_outside _ _ _ _ ?_
  by_contra hin
  obtain ⟨hle, hlt⟩ := not_or.mp hin
  obtain ⟨k, rfl⟩ := Nat.exists_eq_add_of_le (Nat.le_of_not_lt hle)
  rw [slotAddr_add, Nat.zero_add] at ha
  exact hne (inRing_unique (slotAddr_inRing c d hi (by omega)) ha)

/-! ## The slots that are queued -/

/-- The bytes of the frame in slot `i`. -/
def frameAt (m : Memory) (c : Chan) (d : Dir) (rb : Ring) (i : Nat) : List Byte :=
  loadBytes m (slotAddr c d i 0) (rb.slot i).len

theorem queuedFrom_succ (m : Memory) (c : Chan) (d : Dir) (rb : Ring) (i n : Nat) :
    queuedFrom m c d rb i (n + 1) = frameAt m c d rb i :: queuedFrom m c d rb (rb.next i) n := rfl

/-- The queue is the frames of the slots from `i` on, going round the ring. -/
theorem queuedFrom_eq_map (m : Memory) (c : Chan) (d : Dir) (rb : Ring) {i : Nat} (n : Nat) (hi : i < rb.cap) :
    queuedFrom m c d rb i n = (List.range n).map fun k => frameAt m c d rb ((i + k) % rb.cap) := by
  induction n generalizing i with
  | zero => rfl
  | succ n ih =>
    rw [queuedFrom_succ, ih (next_lt rb i (by omega)), List.range_succ_eq_map, List.map_cons, List.map_map,
      Nat.add_zero, Nat.mod_eq_of_lt hi]
    refine congrArg _ (List.map_congr_left fun k _ => congrArg _ ?_)
    rw [Ring.next, Nat.mod_add_mod, Nat.succ_eq_add_one, Nat.add_assoc, Nat.add_comm 1 k]

/-- A queue depends on the capacity and the frame lengths of its ring only. -/
theorem queuedFrom_of_lens {rb rb' : Ring} (hcap : rb'.cap = rb.cap)
    (hlen : ∀ i, (rb'.slot i).len = (rb.slot i).len) (m : Memory) (c : Chan) (d : Dir) (i n : Nat) :
    queuedFrom m c d rb' i n = queuedFrom m c d rb i n := by
  induction n generalizing i with
  | zero => rfl
  | succ n ih => rw [queuedFrom_succ, queuedFrom_succ, ih, frameAt, frameAt, hlen, Ring.next, Ring.next, hcap]

/-- The slot `k` places behind the head is of age `k`. -/
theorem age_head_add {rb : Ring} {k : Nat} (hh : rb.head < rb.cap) (hk : k < rb.cap) :
    rb.age ((rb.head + k) % rb.cap) = k := by
  rw [age_eq (Nat.mod_lt _ (by omega)) hh]
  by_cases hlt : rb.head + k < rb.cap
  · rw [Nat.mod_eq_of_lt hlt]; split <;> omega
  · rw [show rb.head + k = rb.head + k - rb.cap + rb.cap by omega, Nat.add_mod_right, Nat.mod_eq_of_lt (by omega)]
    split <;> omega

/-- Two queues of the same length are equal where the frames of their queued slots are. -/
theorem queuedFrom_head_congr {m m' : Memory} {c : Chan} {d : Dir} {rb rb' : Ring} (hs : RingShape rb)
    (hcap : rb'.cap = rb.cap)
    (hframe : ∀ i < rb.cap, rb.age i < rb.entryCount → frameAt m' c d rb' i = frameAt m c d rb i) :
    queuedFrom m' c d rb' rb.head rb.entryCount = queuedFrom m c d rb rb.head rb.entryCount := by
  obtain hzero | hpos := Nat.eq_zero_or_pos rb.entryCount
  · rw [hzero]; rfl
  · have hh := head_lt_cap_of_pos hs hpos
    have hle := entryCount_le_cap hs
    rw [queuedFrom_eq_map _ _ _ _ _ (hcap.symm ▸ hh), queuedFrom_eq_map _ _ _ _ _ hh, hcap]
    refine List.map_congr_left fun k hk => hframe _ (Nat.mod_lt _ (by omega)) ?_
    have hk : k < rb.entryCount := List.mem_range.mp hk
    rwa [age_head_add hh (by omega)]

/-! ## What is still to be sent -/

/-- The bytes of a transmit ring that have not been written to the controller. -/
def unsentOf (m : Memory) (c : Chan) (rb : Ring) : List Byte :=
  (queuedFrom m c .tx rb rb.head rb.entryCount).flatten.drop (rb.slot rb.head).fill

theorem unsent_eq (s : State) (c : Chan) : unsent s c = unsentOf s.mem c (s.chan c).tx := rfl

theorem loadBytes_drop (m : Memory) (a n k : Nat) : (loadBytes m a n).drop k = loadBytes m (a + k) (n - k) := by
  induction k generalizing a n with
  | zero => rfl
  | succ k ih =>
    cases n with
    | zero => simp [loadBytes]
    | succ n => rw [loadBytes, List.drop_succ_cons, ih, Nat.add_right_comm, Nat.add_assoc, Nat.add_sub_add_right]

/-- Only the slots, the capacity, the head and the count of a ring say what is still to be sent. -/
theorem unsentOf_congr {m : Memory} {c : Chan} {rb rb' : Ring} (hslots : rb'.slots = rb.slots) (hcap : rb'.cap = rb.cap)
    (hhead : rb'.head = rb.head) (hcount : rb'.entryCount = rb.entryCount) :
    unsentOf m c rb' = unsentOf m c rb := by
  have hslot : ∀ i, rb'.slot i = rb.slot i := fun i => by rw [Ring.slot, Ring.slot, hslots]
  rw [unsentOf, unsentOf, hhead, hcount, hslot, queuedFrom_of_lens hcap fun i => by rw [hslot]]

/-- The bytes of the queued frames are in the ring's own part of slot storage. -/
theorem unsentOf_of_bytes {m m' : Memory} {c : Chan} {rb : Ring} (hs : RingShape rb) (hq : QueuedReady rb)
    (h : ∀ a, inRing c .tx a = true → memRead m' a = memRead m a) : unsentOf m' c rb = unsentOf m c rb := by
  rw [unsentOf, unsentOf]
  congr 2
  refine queuedFrom_head_congr hs rfl fun i hi hage => loadBytes_congr fun x hx hx' => h x ?_
  have hlen := (hq i hi hage).2
  obtain ⟨-, hcap, -, hf, -⟩ := hs
  simp only [Config.frameNumLimit] at hcap
  simp only [Config.frameSizeLimit] at hf
  obtain ⟨k, rfl⟩ := Nat.exists_eq_add_of_le hx
  rw [slotAddr_add, Nat.zero_add]
  exact slotAddr_inRing c .tx (by omega) (by omega)

/-- The rest of the head frame goes out before the frames behind it. -/
theorem unsentOf_head (m : Memory) (c : Chan) {rb : Ring} (hpos : 0 < rb.entryCount)
    (hfill : (rb.slot rb.head).fill ≤ (rb.slot rb.head).len) :
    unsentOf m c rb =
      loadBytes m (slotAddr c .tx rb.head (rb.slot rb.head).fill) ((rb.slot rb.head).len - (rb.slot rb.head).fill) ++
        (queuedFrom m c .tx rb (rb.next rb.head) (rb.entryCount - 1)).flatten := by
  obtain ⟨n, hn⟩ := Nat.exists_eq_succ_of_ne_zero hpos.ne'
  rw [unsentOf, hn, queuedFrom_succ, List.flatten_cons, frameAt,
    List.drop_append_of_le_length (by simpa using hfill), loadBytes_drop,
    slotAddr_add, Nat.zero_add, Nat.add_one_sub_one]

/-- `Consume` takes what is left of the head frame, where no other frame has been begun (40_ring_buffer.md R136). -/
theorem unsentOf_consume (m : Memory) (c : Chan) {rb : Ring} (hs : RingShape rb) (hpos : 0 < rb.entryCount)
    (hfill : (rb.slot rb.head).fill ≤ (rb.slot rb.head).len)
    (hothers : ∀ i < rb.cap, i ≠ rb.head → (rb.slot i).fill = 0) :
    unsentOf m c rb =
      loadBytes m (slotAddr c .tx rb.head (rb.slot rb.head).fill) ((rb.slot rb.head).len - (rb.slot rb.head).fill) ++
        unsentOf m c rb.consume := by
  have hslot := consume_slot hs hpos
  have hlen : ∀ i, (rb.consume.slot i).len = (rb.slot i).len := by
    intro i
    rw [hslot]
    split
    · next h => rw [h]
    · rfl
  have hnew : (rb.consume.slot (rb.next rb.head)).fill = 0 := by
    rw [hslot]
    split
    · rfl
    · next hne => exact hothers _ (next_lt rb _ (by have := head_lt_cap_of_pos hs hpos; omega)) hne
  rw [unsentOf_head m c hpos hfill, unsentOf, consume_head, hnew, List.drop_zero, consume_entryCount,
    queuedFrom_of_lens (consume_cap rb) hlen]

/-- One more byte counted in the head slot's `fill` is one byte fewer to send (43_async_engine.md R186). -/
theorem unsentOf_setFill (m : Memory) (c : Chan) {rb : Ring} (hs : RingShape rb) (hpos : 0 < rb.entryCount)
    (hfill : (rb.slot rb.head).fill < (rb.slot rb.head).len) :
    unsentOf m c rb =
      memRead m (slotAddr c .tx rb.head (rb.slot rb.head).fill) ::
        unsentOf m c (rb.setSlot rb.head { rb.slot rb.head with fill := (rb.slot rb.head).fill + 1 }) := by
  have hh : rb.head < rb.slots.length := by rw [slots_length hs]; exact head_lt_cap_of_pos hs hpos
  have hslot := setSlot_slot hh { rb.slot rb.head with fill := (rb.slot rb.head).fill + 1 }
  have hlen : ∀ i, ((rb.setSlot rb.head { rb.slot rb.head with fill := (rb.slot rb.head).fill + 1 }).slot i).len =
      (rb.slot i).len := by
    intro i
    rw [hslot]
    split
    · next h => rw [h]
    · rfl
  have hnext : (rb.slot rb.head).len - (rb.slot rb.head).fill =
      (rb.slot rb.head).len - ((rb.slot rb.head).fill + 1) + 1 := by omega
  rw [unsentOf_head m c hpos hfill.le, unsentOf_head m c (by exact hpos) (by simpa [hh] using hfill),
    setSlot_head, setSlot_slot_same _ _ _ hh, queuedFrom_of_lens (setSlot_cap ..) hlen, hnext, loadBytes,
    slotAddr_add]
  rfl

theorem head_add_entryCount {rb : Ring} (hs : RingShape rb) (hc : 0 < rb.cap) :
    (rb.head + rb.entryCount) % rb.cap = rb.tail := by
  obtain ⟨-, -, -, -, -, -, hcur⟩ := hs
  exact (hcur hc).2.symm

/-- A payload stored in the tail slot and committed is the last frame of the queue (40_ring_buffer.md R133, R136). -/
theorem queuedFrom_commit (m : Memory) (c : Chan) (d : Dir) {rb : Ring} {data : List Byte} (hs : RingShape rb)
    (hq : QueuedReady rb) (hroom : rb.entryCount ≠ rb.cap) (hdata : data.length ≤ rb.fsz) :
    queuedFrom (storeBytes m (slotAddr c d rb.tail 0) data) c d (rb.commit data.length) rb.head (rb.entryCount + 1) =
      queuedFrom m c d rb rb.head rb.entryCount ++ [data] := by
  have hle := entryCount_le_cap hs
  have hh : rb.head < rb.cap := head_lt_cap hs (by omega)
  have hslot := commit_slot (n := data.length) hs hroom
  rw [queuedFrom_eq_map _ _ _ _ _ (by exact hh), List.range_succ, List.map_append,
    ← queuedFrom_eq_map _ _ _ _ _ (by exact hh)]
  congr 1
  · refine queuedFrom_head_congr hs rfl fun i hi hage => ?_
    have hne : i ≠ rb.tail := mt (age_eq_entryCount_iff hs hroom hi).mpr hage.ne
    rw [frameAt, frameAt, hslot, if_neg hne]
    refine loadBytes_congr fun x hx hx' => memRead_storeBytes_outside _ _ _ _ ?_
    have hlen := (hq i hi hage).2
    obtain ⟨-, -, -, hf, -⟩ := hs
    simp only [Config.frameSizeLimit] at hf
    simp only [slotAddr] at hx hx' ⊢
    omega
  · rw [List.map_singleton, commit_cap, head_add_entryCount hs (by omega), frameAt, hslot, if_pos rfl,
      loadBytes_storeBytes]

/-- `Commit` of a stored payload puts it behind everything that was to be sent. -/
theorem unsentOf_commit (m : Memory) (c : Chan) {rb : Ring} {data : List Byte} (hs : RingShape rb)
    (hq : QueuedReady rb) (hroom : rb.entryCount ≠ rb.cap)
    (hfill : 0 < rb.entryCount → (rb.slot rb.head).fill ≤ (rb.slot rb.head).len) (hdata : data.length ≤ rb.fsz) :
    unsentOf (storeBytes m (slotAddr c .tx rb.tail 0) data) c (rb.commit data.length) = unsentOf m c rb ++ data := by
  have hle := entryCount_le_cap hs
  have hh : rb.head < rb.cap := head_lt_cap hs (by omega)
  have hslot := commit_slot (n := data.length) hs hroom
  rw [unsentOf, unsentOf, commit_head, commit_entryCount, queuedFrom_commit m c .tx hs hq hroom hdata,
    List.flatten_append, List.flatten_singleton, hslot]
  obtain hzero | hpos := Nat.eq_zero_or_pos rb.entryCount
  · have htail : rb.head = rb.tail := by
      rw [← head_add_entryCount hs (by omega), hzero, Nat.add_zero, Nat.mod_eq_of_lt hh]
    rw [if_pos htail, hzero]
    simp [queuedFrom]
  · have hne : rb.head ≠ rb.tail := by
      refine mt (age_eq_entryCount_iff hs hroom hh).mpr ?_
      rw [age_head hh]
      omega
    obtain ⟨n, hn⟩ := Nat.exists_eq_succ_of_ne_zero hpos.ne'
    have hlen : (rb.slot rb.head).fill ≤ (queuedFrom m c .tx rb rb.head rb.entryCount).flatten.length := by
      rw [hn, queuedFrom_succ, List.flatten_cons, List.length_append, frameAt, loadBytes_length]
      exact (hfill hpos).trans (Nat.le_add_right ..)
    rw [if_neg hne, List.drop_append_of_le_length hlen]

end Sys2Proof.Machine
end

