-- ==== Sys2Proof/Proofs/TransmitFrame.lean ====
section
/-! What leaves the transmit streams alone: the receive engines, the external service, `READ`, the `CONFIGURE` and
notification commands, the first steps of the two-step commands, and the ends of a wait (20_memory.md R92). -/

namespace Sys2Proof.Machine

open Sys2Proof

/-! ## The relation -/

/-- The transmit queue of a channel is the same, and its receive storage has the same bounds. -/
structure KeepsQueue (x y : Channel) : Prop where
  slots : y.tx.slots = x.tx.slots
  cap : y.tx.cap = x.tx.cap
  head : y.tx.head = x.tx.head
  entryCount : y.tx.entryCount = x.tx.entryCount
  rxLength : y.rx.slots.length = x.rx.slots.length
  rxSize : y.rx.fsz = x.rx.fsz

/-- Nothing of the transmit side is changed: neither the queues, nor the bytes in them, nor what has been sent. -/
structure KeepsTransmit (s t : State) : Prop where
  queue : ∀ c, KeepsQueue (s.chan c) (t.chan c)
  bytes : ∀ c a, inRing c .tx a = true → memRead t.mem a = memRead s.mem a
  sent : ∀ c, sentBytes c t.portLog = sentBytes c s.portLog

theorem KeepsQueue.of_eq {x y : Channel} (h : y = x) : KeepsQueue x y := by
  subst h
  exact ⟨rfl, rfl, rfl, rfl, rfl, rfl⟩

theorem KeepsQueue.trans {x y z : Channel} (h : KeepsQueue x y) (h' : KeepsQueue y z) : KeepsQueue x z :=
  ⟨h'.slots.trans h.slots, h'.cap.trans h.cap, h'.head.trans h.head, h'.entryCount.trans h.entryCount,
    h'.rxLength.trans h.rxLength, h'.rxSize.trans h.rxSize⟩

theorem KeepsTransmit.trans {s u t : State} (h : KeepsTransmit s u) (h' : KeepsTransmit u t) : KeepsTransmit s t :=
  ⟨fun c => (h.queue c).trans (h'.queue c), fun c a ha => (h'.bytes c a ha).trans (h.bytes c a ha),
    fun c => (h'.sent c).trans (h.sent c)⟩

theorem KeepsTransmit.refl (s : State) : KeepsTransmit s s := ⟨fun _ => .of_eq rfl, fun _ _ _ => rfl, fun _ => rfl⟩

/-- The channels and slot storage are the same, and no byte was sent. -/
theorem KeepsTransmit.of_eq {s t : State} (chan : ∀ c, t.chan c = s.chan c) (mem : t.mem = s.mem)
    (sent : ∀ c, sentBytes c t.portLog = sentBytes c s.portLog) : KeepsTransmit s t :=
  ⟨fun c => .of_eq (chan c), fun _ _ _ => by rw [mem], sent⟩

theorem KeepsTransmit.modChan (s : State) (c : Chan) {f : Channel → Channel}
    (h : KeepsQueue (s.chan c) (f (s.chan c))) : KeepsTransmit s (s.modChan c f) where
  queue c' := by
    rw [modChan_chan]
    split
    · next he => rw [he]; exact h
    · exact .of_eq rfl
  bytes _ _ _ := by rw [modChan_mem]
  sent _ := by rw [modChan_portLog]

/-! ## The transmit stream -/

/-- The bytes sent on a channel, then those still to be sent (20_memory.md R92). -/
def stream (s : State) (c : Chan) : List Byte := sentBytes c s.portLog ++ unsent s c

theorem KeepsTransmit.stream {s t : State} (h : KeepsTransmit s t) (hs : Inv s) (c : Chan) :
    stream t c = stream s c := by
  obtain ⟨htx, -⟩ := ringsOk_iff.mp (forall_chan.mpr hs.rings c)
  have hc := h.queue c
  rw [Machine.stream, Machine.stream, unsent_eq, unsent_eq, h.sent,
    unsentOf_congr hc.slots hc.cap hc.head hc.entryCount, unsentOf_of_bytes htx.shape htx.queued (h.bytes c)]

/-! ## The shared operations -/

theorem keeps_regRead (c : Chan) (r : ReadReg) (s : State) : KeepsTransmit s (regRead c r s) :=
  .of_eq (by simp) rfl (by simp)

theorem keeps_readFifo (c : Chan) (n : Nat) (s : State) : KeepsTransmit s (readFifo c n s) :=
  .of_eq (by simp) (by simp) fun c' => sentBytes_readFifo c' c n s

theorem keeps_portWrite {r : WriteReg} (h : r ≠ .txfifo) (c : Chan) (v : Word) (s : State) :
    KeepsTransmit s (portWrite c r v s) := by
  refine .of_eq (by simp) rfl fun c' => ?_
  cases r with
  | ctl | cmd => simp
  | txfifo => exact absurd rfl h

theorem keeps_writeCtl (c : Chan) (v : Word) (s : State) : KeepsTransmit s (writeCtl c v s) :=
  (KeepsTransmit.modChan s c ⟨rfl, rfl, rfl, rfl, rfl, rfl⟩).trans (keeps_portWrite (by decide) c v _)

theorem keeps_acknowledge (c : Chan) (cmd : Word) (s : State) : KeepsTransmit s (acknowledge c cmd s) :=
  .of_eq (by simp) rfl (by simp)

theorem keeps_respond (tid : Tid) (n : Nat) (e : ErrCode) (out : List Byte) (s : State) :
    KeepsTransmit s (respond tid n e out s) :=
  .of_eq (fun c => respond_chan tid n e out s c) rfl fun _ => rfl

theorem keeps_raiseSignal (c : Chan) (s : State) : KeepsTransmit s (raiseSignal c s) :=
  .of_eq (by simp) (by simp) (by simp)

theorem keeps_waiter (s : State) (c : Chan) (d : Dir) (b : Bool) (calls : List (Tid × Call)) :
    KeepsTransmit s { s.modRing c d fun rb => { rb with waiter := b } with calls := calls } := by
  refine .trans (.modChan s c (f := fun x => x.modRing d fun rb => { rb with waiter := b }) ?_)
    (.of_eq (fun c' => chan_with_calls _ c' calls) rfl fun _ => rfl)
  cases d <;> exact ⟨rfl, rfl, rfl, rfl, rfl, rfl⟩

theorem keeps_wake (c : Chan) (d : Dir) (s : State) : KeepsTransmit s (wake c d s) := by
  rw [wake_eq]
  split
  · exact keeps_waiter s c d false _
  · exact .refl s

theorem keeps_leave (tid : Tid) (b : Blocked) (s : State) : KeepsTransmit s (leave tid b s) :=
  keeps_waiter s b.ch b.dir _ _

theorem keeps_notifyRx (c : Chan) (s : State) : KeepsTransmit s (notifyRx c s) :=
  (keeps_wake c .rx s).trans (keeps_raiseSignal c _)

theorem keeps_postError (c : Chan) (e : ErrCode) (s : State) : KeepsTransmit s (postError c e s) :=
  ((KeepsTransmit.modChan s c ⟨rfl, rfl, rfl, rfl, rfl, rfl⟩).trans (keeps_wake c .rx _)).trans
    (keeps_raiseSignal c _)

theorem keeps_enterInterrupt (s : State) : KeepsTransmit s (enterInterrupt s) := by
  unfold enterInterrupt
  split
  · exact .refl s
  · exact .of_eq (fun c => chan_with_dev s c _) rfl fun _ => rfl

theorem keeps_endInterrupt (s : State) : KeepsTransmit s (endInterrupt s) :=
  .of_eq (fun c => by cases c <;> rfl) rfl fun _ => rfl

/-! ## Receive storage -/

/-- The storage of a receive ring is inside its part of the address space (10_state.md R39). -/
structure RxFits (x : Channel) : Prop where
  length : x.rx.slots.length ≤ 65536
  size : x.rx.fsz ≤ 65536

theorem KeepsQueue.rxFits {x y : Channel} (h : KeepsQueue x y) (hx : RxFits x) : RxFits y :=
  ⟨h.rxLength ▸ hx.length, h.rxSize ▸ hx.size⟩

theorem rxFits_of_inv {s : State} (hs : Inv s) (c : Chan) : RxFits (s.chan c) := by
  obtain ⟨-, hrx⟩ := ringsOk_iff.mp (forall_chan.mpr hs.rings c)
  obtain ⟨hl, hcap, -, hf, -⟩ := hrx.shape
  simp only [Config.frameNumLimit] at hcap
  simp only [Config.frameSizeLimit] at hf
  exact ⟨by omega, by omega⟩

/-- A change of a receive ring with a write to its storage. -/
theorem keeps_rxStore (s : State) (c : Chan) {f : Ring → Ring} {m : Memory}
    (hlength : (f (s.chan c).rx).slots.length = (s.chan c).rx.slots.length)
    (hsize : (f (s.chan c).rx).fsz = (s.chan c).rx.fsz)
    (hm : ∀ c' a, inRing c' .tx a = true → memRead m a = memRead s.mem a) :
    KeepsTransmit s { s.modRing c .rx f with mem := m } := by
  refine .trans (.modChan s c (f := fun x => x.modRing .rx f) ⟨rfl, rfl, rfl, rfl, hlength, hsize⟩)
    ⟨fun c' => .of_eq (chan_with_mem _ c' m), fun c' a ha => ?_, fun _ => rfl⟩
  rw [modChan_mem]
  exact hm c' a ha

theorem keeps_enqueue_rx {c : Chan} {data : List Byte} {s t : State} (hs : RxFits (s.chan c))
    (h : enqueue c .rx data s = .next t) : KeepsTransmit s t := by
  obtain ⟨htail, hdata, -, rfl⟩ := enqueue_eq_next.mp h
  have htail := Nat.lt_of_lt_of_le htail hs.length
  have hdata := Nat.le_trans hdata hs.size
  exact keeps_rxStore s c (commit_length ..) rfl fun _ _ ha =>
    memRead_storeBytes_otherRing _ (by simp) htail hdata ha

/-! ## The receive engines and the external service -/

theorem keeps_queueFullPass (c : Chan) (s : State) : KeepsTransmit s (queueFullPass c s) := by
  have hcount : KeepsTransmit s (s.modChan c fun x => { x with qfullCount := x.qfullCount + 1 }) :=
    .modChan s c ⟨rfl, rfl, rfl, rfl, rfl, rfl⟩
  unfold queueFullPass
  simp only
  split
  · exact (((hcount.trans (.modChan _ c ⟨rfl, rfl, rfl, rfl, rfl, rfl⟩)).trans (keeps_writeCtl c _ _)).trans
      (.modChan _ c ⟨rfl, rfl, rfl, rfl, rfl, rfl⟩)).trans (keeps_postError c _ _)
  · exact hcount

theorem keeps_qfullReset (c : Chan) (s : State) : KeepsTransmit s (s.modChan c fun x => { x with qfullCount := 0 }) :=
  .modChan s c ⟨rfl, rfl, rfl, rfl, rfl, rfl⟩

theorem keeps_storeEntry {c : Chan} {n : Nat} {s t : State} (hs : RxFits (s.chan c)) (h : storeEntry c n s = .next t) :
    KeepsTransmit s t := by
  obtain ⟨u, hu, ht⟩ := andThen_eq_next.mp h
  cases ht
  have hread := keeps_readFifo c n s
  exact (hread.trans (keeps_enqueue_rx ((hread.queue c).rxFits hs) hu)).trans (keeps_notifyRx c u)

theorem keeps_rxSyncEntry {c : Chan} {s t : State} (hs : RxFits (s.chan c)) (h : rxSyncEntry c s = .next t) :
    KeepsTransmit s t := by
  have hstart := (keeps_qfullReset c s).trans (keeps_regRead c .sfifo _)
  unfold rxSyncEntry at h
  simp only at h
  split at h
  · cases h
    exact (hstart.trans (keeps_readFifo c _ _)).trans (keeps_postError c _ _)
  · split at h
    · cases h
      exact (hstart.trans (keeps_readFifo c _ _)).trans (keeps_postError c _ _)
    · exact hstart.trans (keeps_storeEntry ((hstart.queue c).rxFits hs) h)

theorem keeps_rxSyncLoop {c : Chan} {dk : BitVec 4} {n : Nat} {s t : State} (hs : RxFits (s.chan c))
    (h : rxSyncLoop c dk n s = .next t) : KeepsTransmit s t := by
  induction n generalizing s with
  | zero => cases h; exact .of_eq (fun c' => chan_with_key s c' _) rfl fun _ => rfl
  | succ n ih =>
    have hread := keeps_regRead c .rs s
    by_cases hne : rsSfne (portAnswer c .rs s) = true
    · by_cases hfull : (s.ring c .rx).full = true
      · rw [rxSyncLoop_full hne hfull] at h
        cases h
        exact (hread.trans (keeps_queueFullPass c _)).trans (keeps_acknowledge c _ _)
      · rw [rxSyncLoop_entry hne (by simpa using hfull)] at h
        obtain ⟨u, hu, ht⟩ := andThen_eq_next.mp h
        have hsu := hread.trans (keeps_rxSyncEntry ((hread.queue c).rxFits hs) hu)
        exact hsu.trans (ih ((hsu.queue c).rxFits hs) ht)
    · rw [rxSyncLoop_empty (by simpa using hne)] at h
      cases h
      exact hread.trans (keeps_acknowledge c _ _)

/-- `AppendByte` answers a next state only for a tail slot of the ring. -/
theorem tail_lt_of_appendByte {c : Chan} {b : Byte} {s t : State} (h : appendByte c b s = .next t) :
    (s.ring c .rx).tail < (s.ring c .rx).slots.length := by
  unfold appendByte at h
  simp only at h
  split at h
  · cases h
  · next hin => exact Nat.lt_of_not_le (not_or.mp hin).1

theorem keeps_byteStored {c : Chan} {b : Byte} {s : State} (hs : RxFits (s.chan c))
    (htail : (s.ring c .rx).tail < (s.ring c .rx).slots.length)
    (hfill : partialFill (s.ring c .rx) < (s.ring c .rx).fsz) : KeepsTransmit s (byteStored c b s) :=
  keeps_rxStore s c (setSlot_length ..) rfl fun _ _ ha =>
    memRead_memWrite_otherRing _ _ (by simp) (Nat.lt_of_lt_of_le htail hs.length) (Nat.lt_of_lt_of_le hfill hs.size) ha

theorem keeps_sealFrame (c : Chan) (s : State) : KeepsTransmit s (sealFrame c s) :=
  (KeepsTransmit.modChan s c (f := fun x => x.modRing .rx fun rb => rb.commit rb.fsz)
    ⟨rfl, rfl, rfl, rfl, by simp, rfl⟩).trans (keeps_notifyRx c _)

theorem keeps_watermarkCheck (c : Chan) (f : Nat) (s : State) : KeepsTransmit s (watermarkCheck c f s) := by
  obtain ⟨log, h⟩ := watermarkCheck_eq c f s
  rw [h]
  exact .of_eq (by simp) rfl fun _ => rfl

theorem keeps_appendByte {c : Chan} {b : Byte} {s t : State} (hs : RxFits (s.chan c))
    (h : appendByte c b s = .next t) : KeepsTransmit s t := by
  have htail := tail_lt_of_appendByte h
  obtain ⟨hfill, rfl⟩ := appendByte_next h
  have hstored := (keeps_byteStored (b := b) hs htail hfill).trans
    (keeps_watermarkCheck c (partialFill (s.ring c .rx) + 1) _)
  split
  · exact hstored.trans (keeps_sealFrame c _)
  · exact hstored

theorem keeps_goodCharacter {c : Chan} {s t : State} (hs : RxFits (s.chan c)) (h : goodCharacter c s = .next t) :
    KeepsTransmit s t := by
  have hstart := (keeps_qfullReset c s).trans (keeps_regRead c .rxfifo _)
  exact hstart.trans (keeps_appendByte ((hstart.queue c).rxFits hs) h)

theorem keeps_badCharacter (c : Chan) (rs : Word) (s : State) : KeepsTransmit s (badCharacter c rs s) := by
  refine ((keeps_regRead c .rxfifo s).trans ?_).trans (keeps_postError c _ _)
  unfold abortPartial
  split
  · exact .modChan _ c (f := fun x => x.modRing .rx _) ⟨rfl, rfl, rfl, rfl, by simp, rfl⟩
  · exact .refl _

theorem keeps_rxAsyncLoop {c : Chan} {dk : BitVec 4} {n : Nat} {s t : State} (hs : RxFits (s.chan c))
    (h : rxAsyncLoop c dk n s = .next t) : KeepsTransmit s t := by
  induction n generalizing s with
  | zero => cases h; exact .of_eq (fun c' => chan_with_key s c' _) rfl fun _ => rfl
  | succ n ih =>
    have hread := keeps_regRead c .rs s
    have again : ∀ {u : State}, KeepsTransmit s u → rxAsyncLoop c dk n u = .next t → KeepsTransmit s t :=
      fun hsu hu => hsu.trans (ih ((hsu.queue c).rxFits hs) hu)
    by_cases hne : rsRca (portAnswer c .rs s) = true
    · by_cases hbad : rsRxe (portAnswer c .rs s) = true
      · rw [rxAsyncLoop_bad hne hbad] at h
        exact again (hread.trans (keeps_badCharacter c _ _)) h
      · have hgood : rsRxe (portAnswer c .rs s) = false := by simpa using hbad
        by_cases hfull : (s.ring c .rx).full = true
        · rw [rxAsyncLoop_full hne hgood hfull] at h
          cases h
          exact (hread.trans (keeps_queueFullPass c _)).trans (keeps_acknowledge c _ _)
        · rw [rxAsyncLoop_good hne hgood (by simpa using hfull)] at h
          obtain ⟨u, hu, ht⟩ := andThen_eq_next.mp h
          exact again (hread.trans (keeps_goodCharacter ((hread.queue c).rxFits hs) hu)) ht
    · rw [rxAsyncLoop_empty (by simpa using hne)] at h
      cases h
      exact hread.trans (keeps_acknowledge c _ _)

theorem keeps_extService {c : Chan} {s t : State} (h : extService c s = .next t) : KeepsTransmit s t := by
  cases h
  refine (keeps_regRead c .es s).trans (.trans ?_ (keeps_acknowledge c _ _))
  split
  · exact keeps_postError c _ _
  · exact .refl _

/-! ## The commands -/

/-- Whatever next state the outcome answers, the transmit side is as in `s`. -/
def Preserves (s : State) (r : Result) : Prop := ∀ t, r = .next t → KeepsTransmit s t

theorem preserves_next {s u : State} (h : KeepsTransmit s u) : Preserves s (.next u) := by
  rintro t ⟨⟩
  exact h

theorem preserves_refused (s : State) (r : Refusal) : Preserves s (.refused r) := by
  intro t h
  cases h

theorem preserves_succeed {s u : State} (tid : Tid) (h : KeepsTransmit s u) : Preserves s (succeed tid u) :=
  preserves_next (h.trans (keeps_respond ..))

theorem preserves_fail {s u : State} (tid : Tid) (e : ErrCode) (h : KeepsTransmit s u) : Preserves s (fail tid e u) :=
  preserves_next (h.trans (keeps_respond ..))

theorem preserves_block {s u : State} (tid : Tid) (b : Blocked) (h : KeepsTransmit s u) :
    Preserves s (block tid b u) :=
  preserves_next (h.trans (keeps_waiter ..))

theorem preserves_asCommand {tid : Tid} {s : State} {f : State → Result} (h : Preserves s (f s)) :
    Preserves s (asCommand tid s f) :=
  fun t ht => h t (asCommand_eq_next.mp ht).2

theorem preserves_checked {tid : Tid} {legal : Bool} {s : State} {f : State → Result} (h : Preserves s (f s)) :
    Preserves s (checked tid legal s f) := by
  intro t ht
  obtain ⟨-, ht⟩ | ⟨-, rfl⟩ := checked_eq_next.mp ht
  · exact h t ht
  · exact keeps_respond ..

theorem preserves_ite {p : Prop} [Decidable p] {s : State} {r r' : Result} (h : Preserves s r) (h' : Preserves s r') :
    Preserves s (if p then r else r') := by
  split
  · exact h
  · exact h'

/-- The commands whose whole effect is one stored value of the channel. -/
theorem preserves_store {tid : Tid} {c : Chan} {legal : State → Bool} {f : Channel → Channel} (s : State)
    (h : KeepsQueue (s.chan c) (f (s.chan c))) :
    Preserves s (asCommand tid s fun s => checked tid (legal s) s fun s => succeed tid (s.modChan c f)) :=
  preserves_asCommand (preserves_checked (preserves_succeed tid (.modChan s c h)))

theorem preserves_execCfgMode (tid : Tid) (c : Chan) (v : Word) (s : State) : Preserves s (execCfgMode tid c v s) := by
  refine preserves_asCommand (preserves_checked (preserves_ite (preserves_succeed tid (.refl s))
    (preserves_ite (preserves_refused s _) (preserves_succeed tid ?_))))
  exact ((KeepsTransmit.modChan s c ⟨rfl, rfl, rfl, rfl, rfl, rfl⟩).trans (keeps_writeCtl c _ _)).trans
    (.modChan _ c ⟨rfl, rfl, rfl, rfl, rfl, rfl⟩)

/-- A flag of the channel with its `CTL` write. -/
theorem keeps_flag {s : State} {c : Chan} {f : Channel → Channel} (v : Word)
    (h : KeepsQueue (s.chan c) (f (s.chan c))) : KeepsTransmit s (writeCtl c v (s.modChan c f)) :=
  (KeepsTransmit.modChan s c h).trans (keeps_writeCtl c v _)

theorem preserves_execCfgRxEn (tid : Tid) (c : Chan) (v : Word) (s : State) : Preserves s (execCfgRxEn tid c v s) :=
  preserves_asCommand (preserves_checked (preserves_ite (preserves_fail tid _ (.refl s))
    (preserves_succeed tid (keeps_flag _ ⟨rfl, rfl, rfl, rfl, rfl, rfl⟩))))

theorem preserves_execCfgTxEn (tid : Tid) (c : Chan) (v : Word) (s : State) : Preserves s (execCfgTxEn tid c v s) :=
  preserves_asCommand (preserves_checked (preserves_ite (preserves_fail tid _ (.refl s))
    (preserves_succeed tid (keeps_flag _ ⟨rfl, rfl, rfl, rfl, rfl, rfl⟩))))

theorem preserves_execCfgIrqEn (tid : Tid) (c : Chan) (v : Word) (s : State) : Preserves s (execCfgIrqEn tid c v s) :=
  preserves_asCommand (preserves_checked (preserves_succeed tid (keeps_flag _ ⟨rfl, rfl, rfl, rfl, rfl, rfl⟩)))

theorem preserves_execCfgGIrqEn (tid : Tid) (v : Word) (s : State) : Preserves s (execCfgGIrqEn tid v s) :=
  preserves_asCommand (preserves_checked (preserves_succeed tid
    (.of_eq (fun c => chan_with_dev s c _) rfl fun _ => rfl)))

/-- The commands that reallocate a ring: the frames stay queued until the second step (40_ring_buffer.md R132). -/
theorem preserves_realloc (tid : Tid) (c : Chan) (d : Dir) (sel : BitVec 8) (v : Word) (legal : Bool) (s : State) :
    Preserves s (asCommand tid s fun s => checked tid legal s (reallocStart tid c d sel v)) := by
  refine preserves_asCommand (preserves_checked (preserves_next (.trans (.modChan s c ?_)
    (.of_eq (fun c' => chan_with_calls _ c' _) rfl fun _ => rfl))))
  cases d <;> exact ⟨rfl, rfl, rfl, rfl, rfl, rfl⟩

theorem keeps_resetStart (c : Chan) (s : State) : KeepsTransmit s (resetStart c s) := by
  unfold resetStart
  extract_lets s1 s2 s3
  have h1 : KeepsTransmit s s1 := keeps_portWrite (by decide) c cmdChreset s
  have h2 : KeepsTransmit s1 s2 := .modChan s1 c ⟨rfl, rfl, rfl, rfl, rfl, rfl⟩
  have h3 : KeepsTransmit s2 s3 := keeps_writeCtl c _ s2
  exact ((h1.trans h2).trans h3).trans (.modChan s3 c ⟨rfl, rfl, rfl, rfl, rfl, rfl⟩)

theorem keeps_calls (s : State) (calls : List (Tid × Call)) : KeepsTransmit s { s with calls := calls } :=
  .of_eq (fun c => chan_with_calls s c calls) rfl fun _ => rfl

theorem preserves_execResetChannel (tid : Tid) (c : Chan) (s : State) : Preserves s (execResetChannel tid c s) :=
  preserves_asCommand (preserves_next ((keeps_resetStart c s).trans (keeps_calls _ _)))

theorem preserves_execResetDevice (tid : Tid) (c : Chan) (s : State) : Preserves s (execResetDevice tid c s) :=
  preserves_asCommand (preserves_next
    (((keeps_resetStart .ch0 s).trans (keeps_resetStart .ch1 _)).trans (keeps_calls _ _)))

theorem preserves_deliver {s u : State} (tid : Tid) (c : Chan) (maxLen : Nat) (h : KeepsTransmit s u) :
    Preserves s (deliver tid c maxLen u) := by
  intro t ht
  obtain ⟨-, ⟨-, rfl⟩ | ⟨-, -, rfl⟩⟩ := deliver_eq_next.mp ht
  · exact h.trans (keeps_respond ..)
  · exact (h.trans (.modChan u c (f := fun x => x.modRing .rx fun r => { r with errReported := false }.consume)
      ⟨rfl, rfl, rfl, rfl, by simp, rfl⟩)).trans (keeps_respond ..)

theorem preserves_runRead {s u : State} (tid : Tid) (c : Chan) (maxLen : Nat) (h : KeepsTransmit s u) :
    Preserves s (runRead tid c maxLen u) := by
  unfold runRead
  split
  case h_1 => exact preserves_fail tid _ (h.trans (.modChan u c ⟨rfl, rfl, rfl, rfl, rfl, rfl⟩))
  case h_2 =>
    have hflush : KeepsTransmit u (flushOnRead c u) :=
      .modChan u c (f := fun x => x.modRing .rx fun rb => rb.commit (rb.slot rb.tail).fill)
        ⟨rfl, rfl, rfl, rfl, by simp, rfl⟩
    exact preserves_ite (preserves_deliver tid c maxLen h)
      (preserves_ite (preserves_deliver tid c maxLen (h.trans hflush))
        (preserves_ite (preserves_fail tid _ h) (preserves_block tid _ h)))

end Sys2Proof.Machine
end

