-- ==== Sys2Proof/Proofs/TransmitStream.lean ====
section
/-! The transmit stream as a FIFO of bytes: the transmit engines move bytes from queued to sent, an accepted `WRITE` adds
its payload at the end, and nothing else but `CONT` touches the stream (20_memory.md R92; 42_sync_engine.md R171;
43_async_engine.md R186; 41_blocking_io.md R151). The canonical form of slot storage follows from the moves of a step. -/

namespace Sys2Proof.Machine

open Sys2Proof

/-- Every channel's stream is as before. -/
def SameStream (s t : State) : Prop := ∀ c, stream t c = stream s c

theorem SameStream.trans {s u t : State} (h : SameStream s u) (h' : SameStream u t) : SameStream s t :=
  fun c => (h' c).trans (h c)

theorem moves_inv {s t : State} (h : Moves s t) (hs : Inv s) : Inv t := by
  induction h with
  | refl => exact hs
  | tail _ hm ih => exact move_inv hm ih

theorem txOk_of_inv {s : State} (hs : Inv s) (c : Chan) : TxOk (s.chan c) :=
  (ringsOk_iff.mp (forall_chan.mpr hs.rings c)).1

theorem stream_eq (s : State) (c : Chan) :
    stream s c = sentBytes c s.portLog ++ unsentOf s.mem c (s.chan c).tx := rfl

theorem other_of_ne {c c' : Chan} (h : c' ≠ c) : c' = c.other := by
  cases c <;> cases c' <;> simp [Chan.other] at h ⊢

/-- Where only one channel is worked on, the stream of that channel decides. -/
theorem sameStream_of_chan {s t : State} (c : Chan) (hsent : sentBytes c.other t.portLog = sentBytes c.other s.portLog)
    (hmem : t.mem = s.mem) (hother : t.chan c.other = s.chan c.other) (h : stream t c = stream s c) :
    SameStream s t := by
  intro c'
  by_cases hc : c' = c
  · rw [hc, h]
  · rw [other_of_ne hc, stream_eq, stream_eq, hsent, hmem, hother]

theorem other_ne (c : Chan) : ¬ c = c.other := by
  cases c <;> simp [Chan.other]

/-! ## The transmit engines -/

theorem sameStream_acknowledge (c : Chan) (cmd : Word) (s : State) : SameStream s (acknowledge c cmd s) :=
  fun c' => by simp [stream_eq]

/-- The burst sends the whole head frame, none of which had been sent (42_sync_engine.md R171). -/
theorem sameStream_txSyncBurst {c : Chan} {s : State} (hs : TxOk (s.chan c)) (hm : (s.chan c).mode = .sync)
    (ha : (s.chan c).tx.avail = true) : SameStream s (txSyncBurst c s) := by
  obtain ⟨hon, hpos⟩ := avail_eq_true.mp ha
  have hact := hs.not_active_of_sync hm
  have hzero : ∀ i < (s.chan c).tx.cap, ((s.chan c).tx.slot i).fill = 0 := fun i hi => hs.unsent hon i hi (.inl hact)
  have hhead := hzero _ (head_lt_cap_of_pos hs.shape hpos)
  have hsend := unsentOf_consume s.mem c hs.shape hpos (by rw [hhead]; exact Nat.zero_le _) fun i hi _ => hzero i hi
  rw [hhead, Nat.sub_zero] at hsend
  refine sameStream_of_chan c ?_ (by simp [txSyncBurst]) (by simp [txSyncBurst]) ?_
  · simp [txSyncBurst, sentBytes_writeFifo, other_ne]
  · rw [stream_eq, stream_eq, hsend, ← List.append_assoc]
    congr 1
    · simp [txSyncBurst, sentBytes_writeFifo]
    · simp only [txSyncBurst, wake_mem, modChan_mem, writeCtl_mem, writeFifo_mem, wake_chan_same, modChan_chan_same,
        writeCtl_chan_same, writeFifo_chan, modRing_tx]
      exact unsentOf_congr rfl rfl rfl rfl

theorem sameStream_txSyncStart {c : Chan} {s t : State} (hs : Inv s) (hm : (s.chan c).mode = .sync)
    (h : txSyncStart c s = .next t) : SameStream s t := by
  obtain ⟨-, rfl⟩ | ⟨ha, -, -, rfl⟩ := txSyncStart_eq_next.mp h
  · exact (KeepsTransmit.modChan s c ⟨rfl, rfl, rfl, rfl, rfl, rfl⟩).stream hs
  · exact sameStream_txSyncBurst (txOk_of_inv hs c) hm ha

/-- The next byte of the head frame is written to the controller and counted (43_async_engine.md R186). -/
def bytePut (c : Chan) (s : State) : State :=
  (portWrite c .txfifo
    ((memRead s.mem (slotAddr c .tx (s.chan c).tx.head ((s.chan c).tx.slot (s.chan c).tx.head).fill)).setWidth 32)
    s).modChan c fun y =>
      { y with
        tx := y.tx.setSlot y.tx.head
          { (s.chan c).tx.slot (s.chan c).tx.head with fill := ((s.chan c).tx.slot (s.chan c).tx.head).fill + 1 }
        txBufEmpty := false }

theorem txAsyncSend_eq_next {c : Chan} {s t : State} (h : txAsyncSend c s = .next t) :
    t = if ((s.chan c).tx.slot (s.chan c).tx.head).fill + 1 = ((s.chan c).tx.slot (s.chan c).tx.head).len
      then wake c .tx ((bytePut c s).modChan c fun y => { y with tx := y.tx.consume, txActive := false })
      else bytePut c s := by
  unfold txAsyncSend at h
  simp only at h
  split at h
  · cases h
  · split at h
    · cases h
    · split at h
      · next hlast => exact (Host.Outcome.next.inj h).symm.trans (if_pos hlast).symm
      · next hmore => exact (Host.Outcome.next.inj h).symm.trans (if_neg hmore).symm

theorem sameStream_txAsyncSend {c : Chan} {s t : State} (hs : RingShape (s.chan c).tx)
    (hpos : 0 < (s.chan c).tx.entryCount)
    (hfill : ((s.chan c).tx.slot (s.chan c).tx.head).fill < ((s.chan c).tx.slot (s.chan c).tx.head).len)
    (hothers : ∀ i < (s.chan c).tx.cap, i ≠ (s.chan c).tx.head → ((s.chan c).tx.slot i).fill = 0)
    (h : txAsyncSend c s = .next t) : SameStream s t := by
  have hh : (s.chan c).tx.head < (s.chan c).tx.slots.length := by
    rw [slots_length hs]
    exact head_lt_cap_of_pos hs hpos
  rw [txAsyncSend_eq_next h]
  split
  case isTrue hlast =>
    have hsend := unsentOf_consume s.mem c hs hpos hfill.le hothers
    rw [← hlast, Nat.add_sub_cancel_left, loadBytes, loadBytes] at hsend
    refine sameStream_of_chan c (by simp [bytePut, other_ne]) (by simp [bytePut]) (by simp [bytePut]) ?_
    rw [stream_eq, stream_eq, hsend, ← List.append_assoc]
    congr 1
    · simp [bytePut]
    · simp only [bytePut, wake_mem, modChan_mem, portWrite_mem, wake_chan_same, modChan_chan_same, portWrite_chan,
        modRing_tx, setFill_consume _ hh]
      exact unsentOf_congr rfl rfl rfl rfl
  case isFalse hmore =>
    refine sameStream_of_chan c (by simp [bytePut, other_ne]) (by simp [bytePut]) (by simp [bytePut]) ?_
    rw [stream_eq, stream_eq, unsentOf_setFill s.mem c hs hpos hfill]
    simp [bytePut]

/-- Marking a frame active changes no slot: the frame had not been begun (INV7 of 10_state.md R50). -/
theorem txAsyncActivate_chan {c : Chan} {s : State} (hh : (s.chan c).tx.head < (s.chan c).tx.slots.length)
    (hfill : ((s.chan c).tx.slot (s.chan c).tx.head).fill = 0) :
    (txAsyncActivate c s).chan c = { s.chan c with txActive := true } := by
  have hslot : { (s.chan c).tx.slot (s.chan c).tx.head with fill := 0 } = (s.chan c).tx.slots[(s.chan c).tx.head] := by
    rw [← hfill]
    simp [Ring.slot, hh]
  simp [txAsyncActivate, Ring.setSlot, hslot]

theorem sameStream_txAsyncByte {c : Chan} {s t : State} (hs : Inv s) (h : txAsyncByte c s = .next t) :
    SameStream s t := by
  have hx := txOk_of_inv hs c
  obtain ⟨-, -, rfl⟩ | ⟨hact, h⟩ | ⟨hact, hav, h⟩ := txAsyncByte_eq_next.mp h
  · exact (KeepsTransmit.modChan s c ⟨rfl, rfl, rfl, rfl, rfl, rfl⟩).stream hs
  · obtain ⟨hpos, -, hfill, hothers⟩ := hx.head_of_sendByte (.inl ⟨hact, rfl⟩)
    exact sameStream_txAsyncSend hx.shape hpos hfill hothers h
  · obtain ⟨hpos, hon, hlen, hothers⟩ := hx.head_of_sendByte (.inr ⟨hact, hav, rfl⟩)
    have hh := head_lt_cap_of_pos hx.shape hpos
    have hfill := hx.unsent hon _ hh (.inl hact)
    have hchan := txAsyncActivate_chan (by rwa [slots_length hx.shape]) hfill
    have hstart : SameStream s (txAsyncActivate c s) :=
      sameStream_of_chan c (by simp [txAsyncActivate]) (by simp [txAsyncActivate]) (by simp [txAsyncActivate]) (by
        rw [stream_eq, stream_eq, hchan]
        simp [txAsyncActivate])
    refine hstart.trans (sameStream_txAsyncSend ?_ ?_ ?_ ?_ h)
    all_goals rw [hchan]
    · exact hx.shape
    · exact hpos
    · rwa [hfill]
    · exact hothers

theorem sameStream_txSyncService {c : Chan} {s t : State} (hs : Inv s) (hm : (s.chan c).mode = .sync)
    (h : txSyncService c s = .next t) : SameStream s t := by
  obtain ⟨u, hu, ht⟩ := andThen_eq_next.mp h
  cases ht
  exact (sameStream_txSyncStart hs hm hu).trans (sameStream_acknowledge c _ u)

theorem sameStream_txAsyncService {c : Chan} {s t : State} (hs : Inv s) (h : txAsyncService c s = .next t) :
    SameStream s t := by
  obtain ⟨u, hu, ht⟩ := andThen_eq_next.mp h
  cases ht
  exact (sameStream_txAsyncByte hs hu).trans (sameStream_acknowledge c _ u)

/-! ## The dispatcher -/

theorem sameStream_runService {c : Chan} {dk : BitVec 4} {s t : State} (hs : Inv s)
    (hdk : dk.getLsbD 3 = (s.chan c).mode.bit) (h : runService c dk s = .next t) : SameStream s t := by
  obtain ⟨-, -, hts, -⟩ := serviceOf_bits dk
  have hfits := rxFits_of_inv hs c
  unfold runService at h
  split at h
  case h_1 => exact (keeps_rxSyncLoop hfits h).stream hs
  case h_2 => exact (keeps_rxAsyncLoop hfits h).stream hs
  case h_3 hsvc => exact sameStream_txSyncService hs (mode_of_bit.1 (hdk.symm.trans (hts hsvc))) h
  case h_4 => exact sameStream_txAsyncService hs h
  case h_5 => exact (keeps_extService h).stream hs
  case h_6 => cases h

theorem sameStream_dispatch {c : Chan} {ip : BitVec 3} {s t : State} (hs : Inv s)
    (h : dispatch c ip s = .next t) : SameStream s t := by
  have hchan : ∀ c, State.chan { s with dev := { s.dev with isrHandled := true } } c = s.chan c :=
    fun c => chan_with_dev s c _
  have hm : Moves s { s with dev := { s.dev with isrHandled := true } } :=
    moves_quiet (.of_eq rfl rfl rfl rfl rfl rfl rfl) hchan
  have hk : KeepsTransmit s { s with dev := { s.dev with isrHandled := true } } := .of_eq hchan rfl fun _ => rfl
  exact .trans (hk.stream hs) (sameStream_runService (moves_inv hm hs) (dispatchKey_mode _ _) h)

theorem sameStream_scan {s t : State} (hs : Inv s) (h : scan s = .next t) : SameStream s t := by
  have h0 := keeps_regRead .ch0 .ip s
  have hs0 := moves_inv (moves_regRead .ch0 .ip s) hs
  have h1 := h0.trans (keeps_regRead .ch1 .ip _)
  by_cases hip0 : ipBits (portAnswer .ch0 .ip s) = 0#3
  · by_cases hip1 : ipBits (portAnswer .ch1 .ip (regRead .ch0 .ip s)) = 0#3
    · rw [scan_none hip0 hip1] at h
      cases h
      exact (h1.trans (keeps_endInterrupt _)).stream hs
    · rw [scan_second hip0 hip1] at h
      exact .trans (h1.stream hs) (sameStream_dispatch (moves_inv (moves_regRead .ch1 .ip _) hs0) h)
  · rw [scan_first hip0] at h
    exact .trans (h0.stream hs) (sameStream_dispatch hs0 h)

theorem sameStream_execIrq {s t : State} (hs : Inv s) (h : execIrq s = .next t) : SameStream s t := by
  have henter : SameStream s (enterInterrupt s) := (keeps_enterInterrupt s).stream hs
  have hs' := moves_inv (moves_enterInterrupt s) hs
  unfold execIrq at h
  split at h
  · split at h
    · next k hk =>
      obtain ⟨-, -, hmode⟩ := hs.service k (by simp [hk])
      exact henter.trans (sameStream_runService hs' (by simpa using hmode) h)
    · exact henter.trans (sameStream_scan hs' h)
  · cases h

/-- A step of the interrupt context moves bytes from queued to sent, or does not touch the transmit side. -/
theorem sameStream_of_exec_interrupt {i : Instr} {s t : State} (hi : isInterrupt i = true) (hs : Inv s)
    (h : exec i s = .next t) : SameStream s t := by
  cases i with
  | svcRxSync c tx ext =>
    obtain ⟨-, -, h⟩ := asService_eq_next.mp h
    exact (keeps_rxSyncLoop (rxFits_of_inv hs c) h).stream hs
  | svcRxAsync c tx ext =>
    obtain ⟨-, -, h⟩ := asService_eq_next.mp h
    exact (keeps_rxAsyncLoop (rxFits_of_inv hs c) h).stream hs
  | svcTxSync c ext =>
    obtain ⟨-, hm, h⟩ := asService_eq_next.mp h
    exact sameStream_txSyncService hs hm h
  | svcTxAsync c ext =>
    obtain ⟨-, -, h⟩ := asService_eq_next.mp h
    exact sameStream_txAsyncService hs h
  | svcExt c async =>
    obtain ⟨-, -, h⟩ := asService_eq_next.mp h
    exact (keeps_extService h).stream hs
  | irq => exact sameStream_execIrq hs h
  | _ => cases hi

/-! ## `WRITE` -/

/-- A queued payload goes to the end of its channel's stream (40_ring_buffer.md R133). -/
theorem stream_enqueue {c : Chan} {data : List Byte} {s t : State} (hs : Inv s) (hroom : (s.chan c).tx.full = false)
    (h : enqueue c .tx data s = .next t) (c' : Chan) :
    stream t c' = stream s c' ++ if c = c' then data else [] := by
  obtain ⟨htail, hdata, -, rfl⟩ := enqueue_eq_next.mp h
  have hx := txOk_of_inv hs c
  obtain ⟨hcount, hon⟩ := full_eq_false.mp hroom
  rw [ring_tx] at htail hdata
  rw [stream_eq, stream_eq, chan_with_mem, modRing_chan]
  by_cases hc : c' = c
  · subst hc
    have hfill : 0 < (s.chan c').tx.entryCount →
        ((s.chan c').tx.slot (s.chan c').tx.head).fill ≤ ((s.chan c').tx.slot (s.chan c').tx.head).len := by
      intro hpos
      cases hact : (s.chan c').txActive with
      | true =>
        obtain ⟨-, -, hlt, -⟩ := hx.head_of_sendByte (.inl ⟨hact, rfl⟩)
        exact hlt.le
      | false =>
        rw [hx.unsent hon _ (head_lt_cap_of_pos hx.shape hpos) (.inl hact)]
        exact Nat.zero_le _
    have := unsentOf_commit s.mem c' hx.shape hx.queued hcount hfill hdata
    simp [this]
  · have hx' := txOk_of_inv hs c'
    obtain ⟨hl, hcap, -, hf, -⟩ := hx.shape
    simp only [Config.frameNumLimit] at hcap
    simp only [Config.frameSizeLimit] at hf
    have hbytes := unsentOf_of_bytes (c := c') hx'.shape hx'.queued fun a ha =>
      memRead_storeBytes_otherRing (data := data) (c := c) (d := .tx) (i := (s.chan c).tx.tail) s.mem
        (by simp [Ne.symm hc]) (by omega) (by omega) ha
    simp [hc, Ne.symm hc, hbytes]

theorem sameStream_sendAttempt {c : Chan} {s t : State} (hs : Inv s) (h : sendAttempt c s = .next t) :
    SameStream s t := by
  unfold sendAttempt at h
  split at h
  case h_1 hm =>
    split at h
    · exact sameStream_txSyncStart hs hm h
    · cases h; exact fun _ => rfl
  case h_2 =>
    split at h
    · exact sameStream_txAsyncByte hs h
    · cases h; exact fun _ => rfl

theorem txAsyncSend_respLog {c : Chan} {s t : State} (h : txAsyncSend c s = .next t) : t.respLog = s.respLog := by
  rw [txAsyncSend_eq_next h]
  split <;> simp [bytePut]

/-- The send attempt answers nobody (41_blocking_io.md R152). -/
theorem sendAttempt_respLog {c : Chan} {s t : State} (h : sendAttempt c s = .next t) : t.respLog = s.respLog := by
  unfold sendAttempt at h
  split at h
  · split at h
    · obtain ⟨-, rfl⟩ | ⟨-, -, -, rfl⟩ := txSyncStart_eq_next.mp h
      · simp
      · simp [txSyncBurst]
    · cases h; rfl
  · split at h
    · obtain ⟨-, -, rfl⟩ | ⟨-, h⟩ | ⟨-, -, h⟩ := txAsyncByte_eq_next.mp h
      · simp
      · exact txAsyncSend_respLog h
      · simpa [txAsyncActivate] using txAsyncSend_respLog h
    · cases h; rfl

/-- The error code is a field of its own in a response word (30_encoding.md R104). -/
theorem responseWord_code (n : Nat) (e : ErrCode) : (responseWord n e).extractLsb' 16 8 = e.code := by
  have hfields : ∀ i, (responseWord n e).getLsbD i =
      (0#8 ++ e.code ++ BitVec.ofNat 16 n : BitVec (8 + 8 + 16)).getLsbD i := fun _ => rfl
  ext i hi
  rw [BitVec.getElem_extractLsb', hfields, BitVec.getLsbD_append, BitVec.getLsbD_append]
  simp [hi, BitVec.getLsbD_eq_getElem]

theorem responseWord_ne {n n' : Nat} {e e' : ErrCode} (h : e.code ≠ e'.code) : responseWord n e ≠ responseWord n' e' :=
  fun heq => h (by rw [← responseWord_code n e, heq, responseWord_code])

/-- A `WRITE` that answers `(|payload|, OK)` has put its payload at the end of the stream, and one that fails or blocks
has left the streams alone (41_blocking_io.md R151). -/
theorem stream_runWrite {tid : Tid} {c : Chan} {payload : List Byte} {s t : State} (hs : Inv s)
    (h : runWrite tid c payload s = .next t) (c' : Chan) :
    stream t c' = stream s c' ++
      if c = c' ∧ t.respLog = s.respLog ++ [⟨tid, responseWord payload.length .ok, []⟩] then payload else [] := by
  have failed : ∀ {e : ErrCode}, e.code ≠ ErrCode.ok.code → fail tid e s = .next t → stream t c' = stream s c' ++
      if c = c' ∧ t.respLog = s.respLog ++ [⟨tid, responseWord payload.length .ok, []⟩] then payload else [] := by
    intro e he ht
    cases ht
    rw [(keeps_respond tid 0 e [] s).stream hs, if_neg (by simp [responseWord_ne he]), List.append_nil]
  unfold runWrite at h
  split at h
  case isTrue => exact failed (by decide) h
  case isFalse hne =>
  split at h
  case isTrue => exact failed (by decide) h
  case isFalse hfit =>
  split at h
  case isTrue =>
    split at h
    · exact failed (by decide) h
    · cases h
      have hblock := (keeps_waiter s c .tx true
        (insertCall s.calls tid (.blocked ⟨.write payload, c, (s.chan c).wrTimeout, false⟩))).stream hs c'
      rw [if_neg (by simp [Blocked.dir]), List.append_nil]
      exact hblock
  case isFalse hroom =>
    have hfull : (s.chan c).tx.full = false := by simpa using hroom
    obtain ⟨hcount, hon⟩ := full_eq_false.mp hfull
    obtain ⟨u, hu, h⟩ := andThen_eq_next.mp h
    obtain ⟨v, hv, h⟩ := andThen_eq_next.mp h
    cases h
    have hqueue : Moves s u :=
      moves_enqueue hu fun hn => .queueTx _ _ hcount hon (Nat.pos_of_ne_zero hne) (by simpa using hn)
    have hsu := moves_inv hqueue hs
    have hlog : v.respLog = s.respLog := by
      rw [sendAttempt_respLog hv]
      obtain ⟨-, -, -, rfl⟩ := enqueue_eq_next.mp hu
      simp
    rw [(keeps_respond _ _ _ _ v).stream (moves_inv (moves_sendAttempt hv) hsu), sameStream_sendAttempt hsu hv,
      stream_enqueue hs hfull hu]
    simp [hlog]

/-! ## The commands and the wait events -/

/-- The commands other than `WRITE`, and `TIMEOUT` and `ABORT`, do not touch the transmit side. -/
theorem keeps_of_exec_command {i : Instr} {s t : State} (hi : isInterrupt i = false)
    (hwrite : ∀ tid c payload, i ≠ .write tid c payload) (hresume : ∀ tid, i ≠ .resume tid)
    (hcont : ∀ tid, i ≠ .cont tid) (h : exec i s = .next t) : KeepsTransmit s t := by
  revert t
  change Preserves s (exec i s)
  cases i with
  | write tid c payload => exact absurd rfl (hwrite tid c payload)
  | resume tid => exact absurd rfl (hresume tid)
  | cont tid => exact absurd rfl (hcont tid)
  | read tid c maxLen => exact preserves_asCommand (preserves_runRead tid c _ (.refl s))
  | cfgMode tid c v => exact preserves_execCfgMode tid c v s
  | cfgTxSize tid c v => exact preserves_realloc tid c .tx 1 v _ s
  | cfgTxNum tid c v => exact preserves_realloc tid c .tx 2 v _ s
  | cfgRxSize tid c v => exact preserves_realloc tid c .rx 3 v _ s
  | cfgRxNum tid c v => exact preserves_realloc tid c .rx 4 v _ s
  | cfgRdTmo tid c v => exact preserves_store (legal := fun _ => legalTimeout v) s ⟨rfl, rfl, rfl, rfl, rfl, rfl⟩
  | cfgWrTmo tid c v => exact preserves_store (legal := fun _ => legalTimeout v) s ⟨rfl, rfl, rfl, rfl, rfl, rfl⟩
  | cfgWMark tid c v => exact preserves_store (legal := fun _ => legalWatermark v) s ⟨rfl, rfl, rfl, rfl, rfl, rfl⟩
  | cfgRxEn tid c v => exact preserves_execCfgRxEn tid c v s
  | cfgTxEn tid c v => exact preserves_execCfgTxEn tid c v s
  | cfgIrqEn tid c v => exact preserves_execCfgIrqEn tid c v s
  | cfgGIrqEn tid c v => exact preserves_execCfgGIrqEn tid v s
  | notifyInstall tid c handle =>
    exact preserves_store (legal := fun s => (s.chan c).sigHandle.isNone) s ⟨rfl, rfl, rfl, rfl, rfl, rfl⟩
  | notifyRemove tid c =>
    exact preserves_store (legal := fun s => (s.chan c).sigHandle.isSome) s ⟨rfl, rfl, rfl, rfl, rfl, rfl⟩
  | resetChannel tid c => exact preserves_execResetChannel tid c s
  | resetDevice tid c => exact preserves_execResetDevice tid c s
  | timeout tid =>
    intro t h
    obtain ⟨-, b, -, h⟩ := asBlocked_eq_next.mp h
    exact preserves_ite (preserves_fail tid _ (keeps_leave tid b s)) (preserves_refused s _) t h
  | abort tid =>
    intro t h
    obtain ⟨-, b, -, h⟩ := asBlocked_eq_next.mp h
    exact preserves_fail tid _ (keeps_leave tid b s) t h
  | svcRxSync | svcRxAsync | svcTxSync | svcTxAsync | svcExt | irq => cases hi

/-- A blocked `WRITE` that `RESUME` runs again accepts its payload as a first issue does (41_blocking_io.md R161,
R164). -/
theorem stream_execResume {tid : Tid} {s t : State} (hs : Inv s) (h : execResume tid s = .next t) (c : Chan) :
    stream t c = stream s c ++ acceptedBytes (.resume tid) s t c := by
  obtain ⟨-, b, hb, h⟩ := asBlocked_eq_next.mp h
  have hleave := keeps_leave tid b s
  have hs' := moves_inv (moves_leave hb) hs
  split at h
  case h_1 payload hop =>
    have hrun := stream_runWrite hs' h c
    rw [hleave.stream hs, leave_respLog] at hrun
    simpa [acceptedBytes, hb, hop] using hrun
  case h_2 maxLen hop =>
    have hrun := (preserves_runRead tid b.ch maxLen hleave t h).stream hs c
    simpa [acceptedBytes, hb, hop] using hrun

theorem acceptedBytes_eq_nil {i : Instr} (hwrite : ∀ tid c payload, i ≠ .write tid c payload)
    (hresume : ∀ tid, i ≠ .resume tid) (s t : State) (c : Chan) : acceptedBytes i s t c = [] := by
  cases i with
  | write tid c payload => exact absurd rfl (hwrite tid c payload)
  | resume tid => exact absurd rfl (hresume tid)
  | _ => rfl

/-! ## The statements of the memory family -/

/-- Settles O28: only `WRITE` and a resumed `WRITE` add to a stream, and every other instruction but `CONT` leaves it as
it is or moves bytes from queued to sent. -/
theorem transmitStreamIsFifo : Obligations.TransmitStreamIsFifo := by
  intro i s t c hs hcont h
  change stream t c = stream s c ++ acceptedBytes i s t c
  by_cases hwrite' : ∃ tid c' payload, i = .write tid c' payload
  · obtain ⟨tid, c', payload, rfl⟩ := hwrite'
    obtain ⟨-, h⟩ := asCommand_eq_next.mp h
    exact stream_runWrite hs h c
  by_cases hresume' : ∃ tid, i = .resume tid
  · obtain ⟨tid, rfl⟩ := hresume'
    exact stream_execResume hs h c
  have hwrite : ∀ tid c' payload, i ≠ .write tid c' payload := fun tid c' p he => hwrite' ⟨tid, c', p, he⟩
  have hresume : ∀ tid, i ≠ .resume tid := fun tid he => hresume' ⟨tid, he⟩
  rw [acceptedBytes_eq_nil hwrite hresume, List.append_nil]
  cases hi : isInterrupt i with
  | true => exact sameStream_of_exec_interrupt hi hs h c
  | false => exact (keeps_of_exec_command hi hwrite hresume hcont h).stream hs c

/-- Settles O15: a byte write, a burst and the release of a ring keep the canonical form, and nothing else touches slot
storage. -/
theorem stepKeepsTheMemoryForm : Obligations.StepKeepsTheMemoryForm :=
  fun _ _ hs h => step_keeps move_memory (fun _ _ hu => hu) hs h

end Sys2Proof.Machine
end

