-- ==== Sys2Proof/Proofs/CommandWords.lean ====
section
/-! The fields of a command word and when a command tuple decodes, said once for both directions of the round trip
(30_encoding.md R101 to R111). -/

namespace Sys2Proof.Machine

open Sys2Proof

/-! ## A command word is its fields -/

theorem getLsbD_eq_field (cw : Word) (i : Nat) :
    cw.getLsbD i =
      if i < 16 then (lenField cw).getLsbD i else if i < 24 then (selField cw).getLsbD (i - 16)
      else if i < 28 then (chField cw).getLsbD (i - 24) else (opField cw).getLsbD (i - 28) := by
  simp only [opField, chField, selField, lenField, BitVec.getLsbD_extractLsb']
  grind

theorem opField_and (a b : Word) : opField (a &&& b) = opField a &&& opField b := BitVec.extractLsb'_and ..

theorem chField_and (a b : Word) : chField (a &&& b) = chField a &&& chField b := BitVec.extractLsb'_and ..

theorem selField_and (a b : Word) : selField (a &&& b) = selField a &&& selField b := BitVec.extractLsb'_and ..

theorem lenField_and (a b : Word) : lenField (a &&& b) = lenField a &&& lenField b := BitVec.extractLsb'_and ..

/-- The four fields are the whole word (30_encoding.md R101). -/
theorem word_eq_iff {a b : Word} :
    a = b ↔ opField a = opField b ∧ chField a = chField b ∧ selField a = selField b ∧ lenField a = lenField b := by
  constructor
  · rintro rfl; exact ⟨rfl, rfl, rfl, rfl⟩
  · rintro ⟨hop, hch, hsel, hlen⟩
    refine BitVec.eq_of_getLsbD_eq fun i _ => ?_
    rw [getLsbD_eq_field a, getLsbD_eq_field b, hop, hch, hsel, hlen]

theorem chanOfField_eq_some {ch : BitVec 4} {c : Chan} : chanOfField ch = some c ↔ ch = chanField c := by
  revert ch; cases c <;> decide

theorem commandWord_fields {cw : Word} {c : Chan} (hc : chanOfField (chField cw) = some c) :
    commandWord (opField cw) c (selField cw) (lenField cw) = cw :=
  word_eq_iff.mpr ⟨opField_commandWord .., (chField_commandWord ..).trans (chanOfField_eq_some.mp hc).symm,
    selField_commandWord .., lenField_commandWord ..⟩

/-- Only the numbers 0 and 1 name a channel (30_encoding.md R101). -/
theorem chanOfField_isSome (ch : BitVec 4) : (chanOfField ch).isSome = decide (ch.toNat ≤ 1) := by
  revert ch; decide

/-! ## Which tuples are formed -/

/-- A formed tuple has `W1` where its operation has one, and a payload where it is a `WRITE` (30_encoding.md R103,
R109). -/
theorem formed_iff {k : Command} :
    k.formed = true ↔ k.w1.isSome = hasW1 (opField k.cw) ∧
      k.payload.length = if opField k.cw = 1 then (lenField k.cw).toNat else 0 := by
  unfold Command.formed
  rw [Bool.and_eq_true]
  refine and_congr ?_ ?_
  · split <;> simp_all
  · split <;> simp

/-! ## Which tuples decode -/

/-- The parameters of `CONFIGURE` are the numbers 0 to 11 (30_encoding.md R106). -/
theorem cfgInstr_isSome (sel : Nat) (tid : Tid) (c : Chan) (v : Word) :
    (cfgInstr sel tid c v).isSome = decide (sel ≤ 11) := by
  unfold cfgInstr
  split
  case h_13 => grind
  all_goals rfl

/-- The four checks of 30_encoding.md R110 leave no word without an instruction. -/
theorem commandInstr_isSome {k : Command} (c : Chan) (hop : opLegal (opField k.cw) = true)
    (hsel : selLegal (opField k.cw) (selField k.cw) = true) : (commandInstr k c).isSome = true := by
  simp only [opLegal, Bool.and_eq_true, decide_eq_true_eq] at hop
  unfold commandInstr
  split
  case h_3 h =>
    have h3 : opField k.cw = 3 := BitVec.eq_of_toNat_eq h
    rw [cfgInstr_isSome]
    simpa [selLegal, h3] using hsel
  case h_6 => split <;> rfl
  case h_7 => grind
  all_goals rfl

/-- A tuple decodes when it is formed and its word passes the four checks of 30_encoding.md R110. -/
theorem decodeCommand_eq_ok {k : Command} {i : Instr} :
    decodeCommand k = .ok i ↔
      k.formed = true ∧ opLegal (opField k.cw) = true ∧ selLegal (opField k.cw) (selField k.cw) = true ∧
      lenLegal (opField k.cw) (lenField k.cw) = true ∧
      ∃ c, chanOfField (chField k.cw) = some c ∧ commandInstr k c = some i := by
  unfold decodeCommand
  split
  · simp_all
  split
  · simp_all
  split
  · simp_all
  split
  · simp_all
  split
  · simp_all
  split <;> simp_all

/-- The four checks of 30_encoding.md R110 on a command word. -/
def legalWord (cw : Word) : Bool :=
  opLegal (opField cw) && (chanOfField (chField cw)).isSome && selLegal (opField cw) (selField cw) &&
    lenLegal (opField cw) (lenField cw)

theorem decodeCommand_isOk {k : Command} :
    (∃ i, decodeCommand k = .ok i) ↔ k.formed = true ∧ legalWord k.cw = true := by
  simp only [decodeCommand_eq_ok, legalWord, Bool.and_eq_true]
  constructor
  · rintro ⟨i, hf, hop, hsel, hlen, c, hc, -⟩
    exact ⟨hf, ⟨⟨hop, by simp [hc]⟩, hsel⟩, hlen⟩
  · rintro ⟨hf, ⟨⟨hop, hch⟩, hsel⟩, hlen⟩
    obtain ⟨c, hc⟩ := Option.isSome_iff_exists.mp hch
    obtain ⟨i, hi⟩ := Option.isSome_iff_exists.mp (commandInstr_isSome c hop hsel)
    exact ⟨i, hf, hop, hsel, hlen, c, hc, hi⟩

/-- The grounds for an illegal word are the failures of the four checks (30_encoding.md R110). -/
theorem illegalFields_iff {cw : Word} : IllegalFields cw ↔ legalWord cw = false := by
  have hop : opLegal (opField cw) = false ↔ opField cw = 0 ∨ 7 ≤ (opField cw).toNat := by
    generalize opField cw = op; revert op; decide
  have hch : (chanOfField (chField cw)).isSome = false ↔ 1 < (chField cw).toNat := by
    simp [chanOfField_isSome]
  have hsel : selLegal (opField cw) (selField cw) = false ↔
      (selField cw ≠ 0 ∧ opField cw ≠ 3 ∧ opField cw ≠ 6) ∨ (11 < (selField cw).toNat ∧ opField cw = 3) ∨
        (1 < (selField cw).toNat ∧ opField cw = 6) := by
    unfold selLegal
    grind
  have hlen : lenLegal (opField cw) (lenField cw) = false ↔
      lenField cw ≠ 0 ∧ opField cw ≠ 1 ∧ opField cw ≠ 2 := by
    unfold lenLegal
    grind
  simp only [IllegalFields, legalWord, Bool.and_eq_false_iff, hop, hch, hsel, hlen, or_assoc]

/-! ## The rows of the opcode table -/

/-- The operation and selector of each command row (30_encoding.md R120). -/
def rowKeys : List (BitVec 4 × BitVec 8) :=
  [(1, 0), (2, 0), (3, 0), (3, 1), (3, 2), (3, 3), (3, 4), (3, 5), (3, 6), (3, 7), (3, 8), (3, 9), (3, 10), (3, 11),
    (4, 0), (5, 0), (6, 0), (6, 1)]

/-- The bits of `CW` a row fixes: all but bit 24 of `CH`, and but `LEN` for `WRITE` and `READ` (30_encoding.md R101,
R120). -/
def rowMask (op : BitVec 4) : Word := if op = 1 ∨ op = 2 then 0xFEFF0000 else 0xFEFFFFFF

theorem commandRows_eq : commandRows = rowKeys.map fun k => (rowMask k.1, commandWord k.1 .ch0 k.2 0) := by decide

/-- The rows are those of the legal operations and selectors (30_encoding.md R110, R120). -/
theorem mem_rowKeys (op : BitVec 4) (sel : BitVec 8) :
    (op, sel) ∈ rowKeys ↔ opLegal op = true ∧ selLegal op sel = true := by
  by_cases h3 : op = 3
  · subst h3
    simp [rowKeys, opLegal, selLegal, ← BitVec.toNat_inj]
    omega
  by_cases h6 : op = 6
  · subst h6
    simp [rowKeys, opLegal, selLegal, ← BitVec.toNat_inj]
    omega
  have hop : op = 1 ∨ op = 2 ∨ op = 4 ∨ op = 5 ↔ opLegal op = true := by
    revert op; decide
  simp only [rowKeys, List.mem_cons, Prod.mk.injEq, List.not_mem_nil, or_false, selLegal, ← hop]
  grind

theorem rowMask_fields (op : BitVec 4) :
    opField (rowMask op) = 0xF ∧ chField (rowMask op) = 0xE ∧ selField (rowMask op) = 0xFF ∧
      lenField (rowMask op) = if op = 1 ∨ op = 2 then 0 else 0xFFFF := by
  unfold rowMask
  split <;> decide

/-- A word is in a row when it has the row's operation and selector, a legal `CH` and a legal `LEN`. -/
theorem and_rowMask_eq_iff (cw : Word) (op : BitVec 4) (sel : BitVec 8) :
    cw &&& rowMask op = commandWord op .ch0 sel 0 ↔
      opField cw = op ∧ (chanOfField (chField cw)).isSome = true ∧ selField cw = sel ∧
        lenLegal op (lenField cw) = true := by
  obtain ⟨mop, mch, msel, mlen⟩ := rowMask_fields op
  have hop : opField (cw &&& rowMask op) = opField cw := by
    rw [opField_and, mop]; exact BitVec.and_allOnes
  have hch : chField (cw &&& rowMask op) = 0 ↔ (chanOfField (chField cw)).isSome = true := by
    rw [chField_and, mch]
    generalize chField cw = ch; revert ch; decide
  have hsel : selField (cw &&& rowMask op) = selField cw := by
    rw [selField_and, msel]; exact BitVec.and_allOnes
  have hlen : lenField (cw &&& rowMask op) = 0 ↔ lenLegal op (lenField cw) = true := by
    rw [lenField_and, mlen]
    split
    · next h => obtain rfl | rfl := h <;> simp [lenLegal]
    · next h =>
      have hall : lenField cw &&& 0xFFFF = lenField cw := BitVec.and_allOnes
      rw [hall, lenLegal]
      simpa using fun hop => absurd hop h
  rw [word_eq_iff, opField_commandWord, chField_commandWord, selField_commandWord, lenField_commandWord, hop, hsel,
    hlen, ← hch]
  rfl

/-- The 18 rows are the words that pass the four checks (30_encoding.md R111). -/
theorem matchesRow_iff {cw : Word} :
    (∃ row ∈ commandRows, cw &&& row.1 = row.2) ↔ legalWord cw = true := by
  simp only [commandRows_eq, List.mem_map, exists_exists_and_eq_and, and_rowMask_eq_iff, legalWord, Bool.and_eq_true]
  constructor
  · rintro ⟨⟨op, sel⟩, hmem, rfl, hch, rfl, hlen⟩
    obtain ⟨hop, hsel⟩ := (mem_rowKeys _ _).mp hmem
    exact ⟨⟨⟨hop, hch⟩, hsel⟩, hlen⟩
  · rintro ⟨⟨⟨hop, hch⟩, hsel⟩, hlen⟩
    exact ⟨(opField cw, selField cw), (mem_rowKeys _ _).mpr ⟨hop, hsel⟩, rfl, hch, rfl, hlen⟩

/-- Settles O4: being in a row and having no illegal field both say that the word passes the four checks, which decide
for a formed tuple whether it decodes. -/
theorem legalWordsAreTheEighteenRows : Obligations.LegalWordsAreTheEighteenRows := by
  intro k hk
  rw [matchesRow_iff, decodeCommand_isOk, illegalFields_iff]
  simp [hk]

end Sys2Proof.Machine
end

