-- ==== Sys2Proof/Proofs/RoundTrips.lean ====
section
/-! The round trips of the three key spaces: a dispatch key is its four bits, an event its number, a command tuple its
fields and parts; and the fields of a response word (30_encoding.md R101 to R113, R120). -/

namespace Sys2Proof.Machine

open Sys2Proof

/-! ## Commands -/

/-- A tuple with the parts and the legal fields of its operation decodes as its word asks. -/
theorem decode_commandWord {tid : Tid} {op : BitVec 4} {c : Chan} {sel : BitVec 8} {len : BitVec 16} {w1 : Option Word}
    {payload : List Byte} {i : Instr} (hw1 : w1.isSome = hasW1 op)
    (hpayload : payload.length = if op = 1 then len.toNat else 0) (hop : opLegal op = true)
    (hsel : selLegal op sel = true) (hlen : lenLegal op len = true)
    (hi : commandInstr ⟨tid, commandWord op c sel len, w1, payload⟩ c = some i) :
    decode (.command ⟨tid, commandWord op c sel len, w1, payload⟩) = .ok i := by
  refine decodeCommand_eq_ok.mpr ⟨formed_iff.mpr ⟨?_, ?_⟩, ?_, ?_, ?_, c,
    chanOfField_eq_some.mpr (chField_commandWord ..), hi⟩
  all_goals simpa only [opField_commandWord, selField_commandWord, lenField_commandWord]

theorem decode_encodeCfg {tid : Tid} {c : Chan} {sel : BitVec 8} {v : Word} {i : Instr}
    (hi : cfgInstr sel.toNat tid c v = some i) : decode (encodeCfg tid c sel v) = .ok i := by
  have hsel : selLegal 3 sel = true := by
    simpa [selLegal, hi] using cfgInstr_isSome sel.toNat tid c v
  refine decode_commandWord rfl rfl rfl hsel rfl ?_
  simpa [commandInstr, opField_commandWord, selField_commandWord] using hi

/-- What a `CONFIGURE` selector stands for is encoded with that selector (30_encoding.md R106). -/
theorem encode_of_cfgInstr {sel : BitVec 8} {tid : Tid} {c : Chan} {v : Word} {i : Instr}
    (h : cfgInstr sel.toNat tid c v = some i) : encode i = encodeCfg tid c sel v ∧ i.wellFormed = true := by
  have hsel : sel = BitVec.ofNat 8 sel.toNat := by simp
  rw [hsel]
  generalize sel.toNat = n at h
  unfold cfgInstr at h
  split at h
  case h_13 => cases h
  all_goals cases h; exact ⟨rfl, rfl⟩

theorem selLegal_reset {sel : BitVec 8} : selLegal 6 sel = true ↔ sel = 0 ∨ sel = 1 := by
  simp [selLegal, ← BitVec.toNat_inj]
  omega

/-- A formed command is rebuilt from the fields of its word and its parts. -/
theorem encode_of_commandInstr {k : Command} {c : Chan} {i : Instr} (hf : k.formed = true)
    (hsel : selLegal (opField k.cw) (selField k.cw) = true) (hlen : lenLegal (opField k.cw) (lenField k.cw) = true)
    (hc : chanOfField (chField k.cw) = some c) (h : commandInstr k c = some i) :
    encode i = .command k ∧ i.wellFormed = true := by
  obtain ⟨tid, cw, w1, payload⟩ := k
  obtain ⟨hw1, hpayload⟩ := formed_iff.mp hf
  have hcw := commandWord_fields hc
  unfold commandInstr at h
  simp only at hw1 hpayload hsel hlen hcw h
  generalize opField cw = op, selField cw = sel, lenField cw = len at hw1 hpayload hsel hlen hcw h
  subst hcw
  have hno : hasW1 op = false → w1 = none := fun hop => by simpa [hop] using hw1
  have hyes : hasW1 op = true → ∃ v, w1 = some v := fun hop => by simpa [hop, Option.isSome_iff_exists] using hw1
  have hempty : op ≠ 1 → payload = [] := fun hop => List.length_eq_zero_iff.mp (hpayload.trans (if_neg hop))
  have hsel0 : op ≠ 3 → op ≠ 6 → sel = 0 := fun h3 h6 => by
    rw [selLegal, if_neg h3, if_neg h6] at hsel
    exact eq_of_beq hsel
  have hlen0 : op ≠ 1 → op ≠ 2 → len = 0 := fun h1 h2 => by
    simpa only [lenLegal, Bool.or_eq_true, beq_iff_eq, h1, h2, false_or] using hlen
  split at h
  case h_1 hop =>
    obtain rfl : op = 1 := BitVec.eq_of_toNat_eq hop
    cases hno rfl
    cases hsel0 (by decide) (by decide)
    have hlen : payload.length = len.toNat := by simpa using hpayload
    cases h
    simp [encode, Instr.wellFormed, hlen, len.isLt]
  case h_2 hop =>
    obtain rfl : op = 2 := BitVec.eq_of_toNat_eq hop
    cases hno rfl
    cases hempty (by decide)
    cases hsel0 (by decide) (by decide)
    cases h
    exact ⟨rfl, rfl⟩
  case h_3 hop =>
    obtain rfl : op = 3 := BitVec.eq_of_toNat_eq hop
    obtain ⟨v, rfl⟩ := hyes rfl
    cases hempty (by decide)
    cases hlen0 (by decide) (by decide)
    exact encode_of_cfgInstr h
  case h_4 hop =>
    obtain rfl : op = 4 := BitVec.eq_of_toNat_eq hop
    obtain ⟨v, rfl⟩ := hyes rfl
    cases hempty (by decide)
    cases hsel0 (by decide) (by decide)
    cases hlen0 (by decide) (by decide)
    cases h
    exact ⟨rfl, rfl⟩
  case h_5 hop =>
    obtain rfl : op = 5 := BitVec.eq_of_toNat_eq hop
    cases hno rfl
    cases hempty (by decide)
    cases hsel0 (by decide) (by decide)
    cases hlen0 (by decide) (by decide)
    cases h
    exact ⟨rfl, rfl⟩
  case h_6 hop =>
    obtain rfl : op = 6 := BitVec.eq_of_toNat_eq hop
    have hsel1 : sel = 0 ∨ sel = 1 := selLegal_reset.mp hsel
    cases hno rfl
    cases hempty (by decide)
    cases hlen0 (by decide) (by decide)
    obtain rfl | rfl := hsel1 <;> cases h <;> exact ⟨rfl, rfl⟩
  case h_7 => cases h

/-! ## Dispatch keys -/

/-- A dispatch key is its four bits (30_encoding.md R112). -/
theorem keyOf_getLsbD (dk : BitVec 4) :
    keyOf (dk.getLsbD 3) (dk.getLsbD 2) (dk.getLsbD 1) (dk.getLsbD 0) = dk := by
  revert dk; decide

theorem getLsbD_keyOf (mode rx tx ext : Bool) :
    (keyOf mode rx tx ext).getLsbD 3 = mode ∧ (keyOf mode rx tx ext).getLsbD 2 = rx ∧
      (keyOf mode rx tx ext).getLsbD 1 = tx ∧ (keyOf mode rx tx ext).getLsbD 0 = ext := by
  revert mode rx tx ext; decide

/-- The first match of 30_encoding.md R112 on the bits of a key. -/
theorem decodeKey_keyOf (c : Chan) (mode rx tx ext : Bool) :
    decodeKey c (keyOf mode rx tx ext) =
      if rx then .ok (if mode then .svcRxAsync c tx ext else .svcRxSync c tx ext)
      else if tx then .ok (if mode then .svcTxAsync c ext else .svcTxSync c ext)
      else if ext then .ok (.svcExt c mode)
      else .error .nothingPending := by
  obtain ⟨hmode, hrx, htx, hext⟩ := getLsbD_keyOf mode rx tx ext
  simp only [decodeKey, serviceOf, hmode, hrx, htx, hext]
  cases rx with
  | true => cases mode <;> rfl
  | false =>
    cases tx with
    | true => cases mode <;> rfl
    | false => cases ext <;> rfl

theorem encode_of_decodeKey {c : Chan} {dk : BitVec 4} {i : Instr} (h : decodeKey c dk = .ok i) :
    encode i = .key c dk ∧ i.wellFormed = true := by
  rw [← keyOf_getLsbD dk] at h ⊢
  generalize dk.getLsbD 3 = mode, dk.getLsbD 2 = rx, dk.getLsbD 1 = tx, dk.getLsbD 0 = ext at h ⊢
  rw [decodeKey_keyOf] at h
  split at h
  case isTrue hrx => cases mode <;> cases h <;> simp [encode, Instr.wellFormed, hrx]
  split at h
  case isTrue hrx htx => cases mode <;> cases h <;> simp [encode, Instr.wellFormed, hrx, htx]
  split at h
  case isTrue hrx htx hext => cases h; simp [encode, Instr.wellFormed, hrx, htx, hext]
  case isFalse => cases h

/-! ## Events -/

theorem encode_of_decodeEvent {ev : BitVec 3} {tid : Option Tid} {i : Instr} (h : decodeEvent ev tid = .ok i) :
    encode i = .event ev tid ∧ i.wellFormed = true := by
  have hev : ev = BitVec.ofNat 3 ev.toNat := by simp
  rw [hev]
  unfold decodeEvent at h
  split at h
  all_goals cases h
  all_goals simp_all [encode, Instr.wellFormed]

/-! ## The statements of the encoding family -/

/-- Settles O1: every command is a word of legal fields with the parts of its operation, and the keys and events are
their bits. -/
theorem decodeInvertsEncode : Obligations.DecodeInvertsEncode := by
  intro i hi
  cases i with
  | write tid c payload =>
    have hlen : payload.length < 65536 := of_decide_eq_true hi
    refine decode_commandWord rfl ?_ rfl rfl rfl ?_
    · simp [Nat.mod_eq_of_lt hlen]
    · simp [commandInstr, opField_commandWord]
  | read tid c maxLen =>
    exact decode_commandWord rfl rfl rfl rfl rfl (by simp [commandInstr, opField_commandWord, lenField_commandWord])
  | cfgMode | cfgTxSize | cfgTxNum | cfgRxSize | cfgRxNum | cfgRdTmo | cfgWrTmo | cfgWMark | cfgRxEn | cfgTxEn
  | cfgIrqEn | cfgGIrqEn => exact decode_encodeCfg rfl
  | notifyInstall tid c handle =>
    exact decode_commandWord rfl rfl rfl rfl rfl (by simp [commandInstr, opField_commandWord])
  | notifyRemove tid c =>
    exact decode_commandWord rfl rfl rfl rfl rfl (by simp [commandInstr, opField_commandWord])
  | resetChannel tid c =>
    exact decode_commandWord rfl rfl rfl rfl rfl
      (by simp [commandInstr, opField_commandWord, selField_commandWord])
  | resetDevice tid c =>
    exact decode_commandWord rfl rfl rfl rfl rfl
      (by simp [commandInstr, opField_commandWord, selField_commandWord])
  | svcRxSync | svcRxAsync | svcTxSync | svcTxAsync | svcExt => exact decodeKey_keyOf ..
  | irq | cont | resume | timeout | abort => rfl

/-- Settles O2: a key and an event are rebuilt from their bits, a command from the fields of its word and the parts its
operation requires. -/
theorem encodeInvertsDecode : Obligations.EncodeInvertsDecode := by
  intro r i h
  cases r with
  | command k =>
    obtain ⟨hf, -, hsel, hlen, c, hc, hi⟩ := decodeCommand_eq_ok.mp h
    exact encode_of_commandInstr hf hsel hlen hc hi
  | key c dk => exact encode_of_decodeKey h
  | event ev tid => exact encode_of_decodeEvent h

/-- Settles O6: the key is its four bits, `MODE` first. -/
theorem dispatchKeySelectsByPriority : Obligations.DispatchKeySelectsByPriority := by
  intro c m rx tx ext
  refine (decodeKey_keyOf c (decide (m = .async)) rx tx ext).trans ?_
  simp only [decide_eq_true_eq]

/-- Settles O3: each word is the encoding of its instruction. -/
theorem sampleWordsDecode : Obligations.SampleWordsDecode :=
  ⟨decodeInvertsEncode (.write 3 .ch1 [0xAA, 0xBB]) rfl, decodeInvertsEncode (.read 0 .ch0 16) rfl,
    decodeInvertsEncode (.cfgIrqEn 0 .ch1 1) rfl, decodeInvertsEncode (.notifyInstall 0 .ch1 0xBEEF) rfl,
    decodeInvertsEncode (.resetDevice 0 .ch1) rfl, decodeInvertsEncode (.svcRxSync .ch0 true false) rfl,
    decodeInvertsEncode (.svcTxAsync .ch1 true) rfl, decodeInvertsEncode (.timeout 7) rfl⟩

/-! ## Response words -/

theorem responseWord_reserved (n : Nat) (e : ErrCode) : (responseWord n e).extractLsb' 24 8 = 0#8 := by
  have : responseWord n e = (0#8 ++ e.code ++ BitVec.ofNat 16 n : BitVec (8 + 8 + 16)) := rfl
  rw [this, BitVec.extractLsb'_append_eq_of_le (by decide), BitVec.extractLsb'_append_eq_of_le (by decide)]
  rfl

theorem responseWord_count (n : Nat) (e : ErrCode) : (responseWord n e).extractLsb' 0 16 = BitVec.ofNat 16 n := by
  have : responseWord n e = (0#8 ++ e.code ++ BitVec.ofNat 16 n : BitVec (8 + 8 + 16)) := rfl
  rw [this, BitVec.extractLsb'_append_eq_of_add_le (by decide)]
  exact BitVec.extractLsb'_eq_self

/-- Settles O7: the word is the three fields one after the other, and a count up to 65535 fits its field. -/
theorem responseWordFields : Obligations.ResponseWordFields := by
  refine ⟨fun n e hn => ⟨responseWord_reserved n e, responseWord_code n e, ?_⟩, by decide⟩
  rw [responseWord_count, BitVec.toNat_ofNat, Nat.mod_eq_of_lt (by omega)]

end Sys2Proof.Machine
end

