-- ==== Sys2Proof/Proofs/NoInstruction.lean ====
section
/-! What a step does with a delivery that is no instruction: an illegal command word is answered, an ill-formed tuple
and an event number without an instruction are refused, a test event reaches the reference controller (30_encoding.md
R109, R110, R113; 20_memory.md R99; notes/assumptions/3.md, 11.md, 19.md). -/

namespace Sys2Proof.Machine

open Sys2Proof

/-! ## What is fetched -/

theorem decodeCommand_of_not_formed {k : Command} (h : k.formed = false) : decodeCommand k = .error .illFormed := by
  simp [decodeCommand, h]

/-- Of a formed tuple the decoder rejects only the word (30_encoding.md R109, R110). -/
theorem decodeCommand_ne_illFormed {k : Command} (h : k.formed = true) : decodeCommand k ≠ .error .illFormed := by
  unfold decodeCommand
  split
  · simp_all
  split
  · nofun
  split
  · nofun
  split
  · nofun
  split
  · nofun
  split <;> nofun

theorem fetchCommand_of_not_formed {k : Command} (h : k.formed = false) : fetchCommand k = .reject .illFormed := by
  simp [fetchCommand, decodeCommand_of_not_formed h]

theorem fetchCommand_of_illegal {k : Command} (hf : k.formed = true) (h : IllegalFields k.cw) :
    fetchCommand k = .illegal k.tid := by
  have hlegal := illegalFields_iff.mp h
  have hdecode : ∀ i, decodeCommand k ≠ .ok i := fun i hi => by
    have hok := (decodeCommand_isOk.mp ⟨i, hi⟩).2
    rw [hlegal] at hok
    cases hok
  have hformed := decodeCommand_ne_illFormed hf
  unfold fetchCommand
  split
  · next i hi => exact absurd hi (hdecode i)
  · next hi => exact absurd hi hformed
  all_goals rfl

theorem fetchEvent_of_unused {ev : BitVec 3} (tid : Option Tid) (h : 5 ≤ ev.toNat) :
    fetchEvent ev tid = .reject .unusedEvent := by
  have hev : ev = 5 ∨ ev = 6 ∨ ev = 7 := by
    revert ev; decide
  obtain rfl | rfl | rfl := hev <;> cases tid <;> rfl

theorem fetchEvent_of_no_thread {ev : BitVec 3} (h1 : 1 ≤ ev.toNat) (h4 : ev.toNat ≤ 4) :
    fetchEvent ev none = .reject .illFormed := by
  revert ev; decide

/-! ## The step -/

theorem step_of_reject {s : State} {r : Refusal} (h : fetch s = .reject r) : step s = .refused r := by
  simp [step, h]

theorem step_of_empty {s : State} (hk : s.key = none) (hi : s.dev.inIsr = false) (hs : s.schedule = []) :
    step s = .next s := by
  simp [step, fetch, hk, hs, goesOn_of_not_inIsr hi]

/-- A test event is taken off the schedule also during an interrupt (20_memory.md R99). -/
theorem step_of_env {s : State} {c : Chan} {e : Injection} {rest : List Delivery} (hk : s.key = none)
    (hs : s.schedule = .env c e :: rest) : step s = injectEvent c e { s with schedule := rest } := by
  have hg : goesOn s = false := by simp [goesOn_of_first hs, Delivery.duringInterrupt]
  have hf : fetch s = .env c e := by simp [fetch, hk, hg, hs]
  simp only [step, hf, advance_of_first hk hg hs]

theorem injectEvent_reference {c : Chan} {e : Injection} {s : State} {a b : RefChannel}
    (h : s.oracle = .reference a b) :
    injectEvent c e s =
      .next { s with oracle := if c = .ch0 then .reference (a.inject e) b else .reference a (b.inject e) } := by
  cases c <;> simp [injectEvent, h, Oracle.inject]

/-- The answer to an illegal word changes nothing but the responses (30_encoding.md R104, R110). -/
theorem execIllegal_of_enabled {tid : Tid} {s : State} (h : commandEnabled tid s = true) :
    execIllegal tid s = .next { s with respLog := s.respLog ++ [⟨tid, 0x00090000#32, []⟩] } :=
  asCommand_enabled _ h

/-- Settles O5: a word with an illegal field is fetched as such, and no interrupt in service makes it wait. -/
theorem illegalCommandAnswersInvalidParameter : Obligations.IllegalCommandAnswersInvalidParameter := by
  intro s k rest hk hs hf hill hen
  have hg := goesOn_of_not_inIsr (commandEnabled_iff.mp hen).1
  have hfetch := (fetch_of_command hk hg hs).trans (fetchCommand_of_illegal hf hill)
  simp only [step, hfetch, advance_of_first hk hg hs]
  exact execIllegal_of_enabled (s := { s with schedule := rest }) hen

/-- Settles O9: with no interrupt in service the first delivery is fetched, and what is no instruction is rejected by
its name; a test event is let in always. -/
theorem deliveriesThatAreNoInstruction : Obligations.DeliveriesThatAreNoInstruction := by
  intro s rest hk
  refine ⟨step_of_empty hk, fun k hi hs hf => ?_, fun ev tid hi hs h5 => ?_, fun ev hi hs h1 h4 => ?_,
    fun c e a b hs ho => ?_⟩
  · exact step_of_reject ((fetch_of_command hk (goesOn_of_not_inIsr hi) hs).trans (fetchCommand_of_not_formed hf))
  · exact step_of_reject ((fetch_of_event hk (goesOn_of_not_inIsr hi) hs).trans (fetchEvent_of_unused tid h5))
  · exact step_of_reject ((fetch_of_event hk (goesOn_of_not_inIsr hi) hs).trans (fetchEvent_of_no_thread h1 h4))
  · rw [step_of_env hk hs]
    exact injectEvent_reference ho

end Sys2Proof.Machine
end

