-- ==== Sys2Proof/Proofs/Responses.lean ====
section
/-! How a step answers: the interrupt context answers nobody, a command or a wait event gives at most one response, and
every response but that of a delivered or accepted frame has no count and no payload (30_encoding.md R104;
60_exceptions.md R250; 41_blocking_io.md R151, R155, R156). -/

namespace Sys2Proof.Machine

open Sys2Proof

/-! ## The interrupt context answers nobody -/

theorem txSyncService_respLog {c : Chan} {s t : State} (h : txSyncService c s = .next t) : t.respLog = s.respLog := by
  obtain ⟨u, hu, ht⟩ := andThen_eq_next.mp h
  cases ht
  obtain ⟨-, rfl⟩ | ⟨-, -, -, rfl⟩ := txSyncStart_eq_next.mp hu
  · simp
  · simp [txSyncBurst]

theorem txAsyncService_respLog {c : Chan} {s t : State} (h : txAsyncService c s = .next t) :
    t.respLog = s.respLog := by
  obtain ⟨u, hu, ht⟩ := andThen_eq_next.mp h
  cases ht
  rw [acknowledge_respLog]
  obtain ⟨-, -, rfl⟩ | ⟨-, hu⟩ | ⟨-, -, hu⟩ := txAsyncByte_eq_next.mp hu
  · simp
  · exact txAsyncSend_respLog hu
  · simpa [txAsyncActivate] using txAsyncSend_respLog hu

@[simp] theorem queueFullPass_respLog (c : Chan) (s : State) : (queueFullPass c s).respLog = s.respLog := by
  unfold queueFullPass
  simp only
  split <;> simp

theorem rxSyncEntry_respLog {c : Chan} {s t : State} (h : rxSyncEntry c s = .next t) : t.respLog = s.respLog := by
  unfold rxSyncEntry at h
  simp only at h
  split at h
  · cases h; simp [errorEntry]
  · split at h
    · cases h; simp [oversizeEntry]
    · obtain ⟨u, hu, ht⟩ := andThen_eq_next.mp h
      cases ht
      obtain ⟨-, -, -, rfl⟩ := enqueue_eq_next.mp hu
      simp

theorem rxSyncLoop_respLog {c : Chan} {dk : BitVec 4} {n : Nat} {s t : State} (h : rxSyncLoop c dk n s = .next t) :
    t.respLog = s.respLog := by
  induction n generalizing s with
  | zero => cases h; rfl
  | succ n ih =>
    by_cases hne : rsSfne (portAnswer c .rs s) = true
    · by_cases hfull : (s.ring c .rx).full = true
      · rw [rxSyncLoop_full hne hfull] at h
        cases h
        simp
      · rw [rxSyncLoop_entry hne (by simpa using hfull)] at h
        obtain ⟨u, hu, ht⟩ := andThen_eq_next.mp h
        exact (ih ht).trans ((rxSyncEntry_respLog hu).trans (regRead_respLog ..))
    · rw [rxSyncLoop_empty (by simpa using hne)] at h
      cases h
      simp

theorem goodCharacter_respLog {c : Chan} {s t : State} (h : goodCharacter c s = .next t) :
    t.respLog = s.respLog := by
  obtain ⟨-, rfl⟩ := appendByte_next h
  obtain ⟨log, hlog⟩ := watermarkCheck_eq c _ (byteStored c _ (regRead c .rxfifo _))
  rw [hlog]
  split <;> simp [sealFrame, byteStored]

theorem badCharacter_respLog (c : Chan) (rs : Word) (s : State) : (badCharacter c rs s).respLog = s.respLog := by
  unfold badCharacter abortPartial
  split <;> simp

theorem rxAsyncLoop_respLog {c : Chan} {dk : BitVec 4} {n : Nat} {s t : State}
    (h : rxAsyncLoop c dk n s = .next t) : t.respLog = s.respLog := by
  induction n generalizing s with
  | zero => cases h; rfl
  | succ n ih =>
    by_cases hne : rsRca (portAnswer c .rs s) = true
    · by_cases hbad : rsRxe (portAnswer c .rs s) = true
      · rw [rxAsyncLoop_bad hne hbad] at h
        exact (ih h).trans ((badCharacter_respLog ..).trans (regRead_respLog ..))
      · have hgood : rsRxe (portAnswer c .rs s) = false := by simpa using hbad
        by_cases hfull : (s.ring c .rx).full = true
        · rw [rxAsyncLoop_full hne hgood hfull] at h
          cases h
          simp
        · rw [rxAsyncLoop_good hne hgood (by simpa using hfull)] at h
          obtain ⟨u, hu, ht⟩ := andThen_eq_next.mp h
          exact (ih ht).trans ((goodCharacter_respLog hu).trans (regRead_respLog ..))
    · rw [rxAsyncLoop_empty (by simpa using hne)] at h
      cases h
      simp

theorem extService_respLog {c : Chan} {s t : State} (h : extService c s = .next t) : t.respLog = s.respLog := by
  cases h
  split <;> simp

theorem runService_respLog {c : Chan} {dk : BitVec 4} {s t : State} (h : runService c dk s = .next t) :
    t.respLog = s.respLog := by
  unfold runService at h
  split at h
  · exact rxSyncLoop_respLog h
  · exact rxAsyncLoop_respLog h
  · exact txSyncService_respLog h
  · exact txAsyncService_respLog h
  · exact extService_respLog h
  · cases h

theorem dispatch_respLog {c : Chan} {ip : BitVec 3} {s t : State} (h : dispatch c ip s = .next t) :
    t.respLog = s.respLog :=
  runService_respLog (s := { s with dev := { s.dev with isrHandled := true } }) h

theorem scan_respLog {s t : State} (h : scan s = .next t) : t.respLog = s.respLog := by
  by_cases h0 : ipBits (portAnswer .ch0 .ip s) = 0#3
  · by_cases h1 : ipBits (portAnswer .ch1 .ip (regRead .ch0 .ip s)) = 0#3
    · rw [scan_none h0 h1] at h
      cases h
      simp [endInterrupt]
    · rw [scan_second h0 h1] at h
      exact (dispatch_respLog h).trans (by simp)
  · rw [scan_first h0] at h
    exact (dispatch_respLog h).trans (by simp)

theorem enterInterrupt_respLog (s : State) : (enterInterrupt s).respLog = s.respLog := by
  unfold enterInterrupt
  split <;> rfl

theorem execIrq_respLog {s t : State} (h : execIrq s = .next t) : t.respLog = s.respLog := by
  rw [← enterInterrupt_respLog s]
  unfold execIrq at h
  split at h
  · split at h
    · exact runService_respLog h
    · exact scan_respLog h
  · cases h

/-- Responses are given by commands and wait events only (30_encoding.md R104). -/
theorem respLog_of_exec_interrupt {i : Instr} {s t : State} (hi : isInterrupt i = true) (h : exec i s = .next t) :
    t.respLog = s.respLog := by
  cases i with
  | svcRxSync c tx ext => exact rxSyncLoop_respLog (asService_eq_next.mp h).2.2
  | svcRxAsync c tx ext => exact rxAsyncLoop_respLog (asService_eq_next.mp h).2.2
  | svcTxSync c ext => exact txSyncService_respLog (asService_eq_next.mp h).2.2
  | svcTxAsync c ext => exact txAsyncService_respLog (asService_eq_next.mp h).2.2
  | svcExt c async => exact extService_respLog (asService_eq_next.mp h).2.2
  | irq => exact execIrq_respLog h
  | _ => cases hi

/-! ## What a command answers -/

/-- Bits 31:24 of the response word are zero, and an error has no count and no payload (30_encoding.md R104;
60_exceptions.md R250). -/
def Response.legal (r : Response) : Prop :=
  r.rw.extractLsb' 24 8 = 0#8 ∧ (r.rw.extractLsb' 16 8 ≠ 0#8 → r.rw.extractLsb' 0 16 = 0#16 ∧ r.payload = [])

theorem legal_of_empty (tid : Tid) (e : ErrCode) : (⟨tid, responseWord 0 e, []⟩ : Response).legal :=
  ⟨responseWord_reserved 0 e, fun _ => ⟨responseWord_count 0 e, rfl⟩⟩

theorem legal_of_ok (tid : Tid) (n : Nat) (out : List Byte) : (⟨tid, responseWord n .ok, out⟩ : Response).legal :=
  ⟨responseWord_reserved n .ok, fun h => absurd (responseWord_code n .ok) h⟩

/-- At most one response is added to the log, and it is a legal one. -/
def GivesOne (log : List Response) (t : State) : Prop :=
  t.respLog = log ∨ ∃ r : Response, t.respLog = log ++ [r] ∧ r.legal

/-- Whatever next state the outcome answers has at most one more response than `log`. -/
def AnswersOnce (log : List Response) (r : Result) : Prop := ∀ t, r = .next t → GivesOne log t

section
variable {log : List Response} {s : State}

theorem answers_silent (h : s.respLog = log) : AnswersOnce log (.next s) := by
  rintro t ⟨⟩
  exact .inl h

theorem answers_refused (r : Refusal) : AnswersOnce log (.refused r) := by
  intro t h
  cases h

theorem answers_fault (e : Fault) : AnswersOnce log (.fault e) := by
  intro t h
  cases h

theorem answers_respond {tid : Tid} {n : Nat} {e : ErrCode} {out : List Byte} (h : s.respLog = log)
    (hl : (⟨tid, responseWord n e, out⟩ : Response).legal) : AnswersOnce log (.next (respond tid n e out s)) := by
  rintro t ⟨⟩
  exact .inr ⟨_, by rw [respond_respLog, h], hl⟩

theorem answers_fail (tid : Tid) (e : ErrCode) (h : s.respLog = log) : AnswersOnce log (fail tid e s) :=
  answers_respond h (legal_of_empty tid e)

theorem answers_succeed (tid : Tid) (h : s.respLog = log) : AnswersOnce log (succeed tid s) :=
  answers_respond h (legal_of_empty tid .ok)

/-- A blocked call is answered later (41_blocking_io.md R157). -/
theorem answers_block (tid : Tid) (b : Blocked) (h : s.respLog = log) : AnswersOnce log (block tid b s) :=
  answers_silent (by simpa using h)

theorem answers_ite {p : Prop} [Decidable p] {r r' : Result} (h : AnswersOnce log r) (h' : AnswersOnce log r') :
    AnswersOnce log (if p then r else r') := by
  split
  · exact h
  · exact h'

theorem answers_asCommand {tid : Tid} {f : State → Result} (h : AnswersOnce log (f s)) :
    AnswersOnce log (asCommand tid s f) :=
  answers_ite h (answers_refused _)

theorem answers_checked {tid : Tid} {legal : Bool} {f : State → Result} (hs : s.respLog = log)
    (h : AnswersOnce log (f s)) : AnswersOnce log (checked tid legal s f) :=
  answers_ite h (answers_fail tid _ hs)

theorem answers_asBlocked {tid : Tid} {f : Blocked → Result} (h : ∀ b, AnswersOnce log (f b)) :
    AnswersOnce log (asBlocked tid s f) := by
  intro t ht
  obtain ⟨-, b, -, hb⟩ := asBlocked_eq_next.mp ht
  exact h b t hb

/-! ## `WRITE` and `READ` -/

theorem answers_runWrite (tid : Tid) (c : Chan) (payload : List Byte) (h : s.respLog = log) :
    AnswersOnce log (runWrite tid c payload s) := by
  refine answers_ite (answers_fail tid _ h) (answers_ite (answers_fail tid _ h)
    (answers_ite (answers_ite (answers_fail tid _ h) (answers_block tid _ h)) ?accepted))
  intro t ht
  obtain ⟨u, hu, ht⟩ := andThen_eq_next.mp ht
  obtain ⟨v, hv, ht⟩ := andThen_eq_next.mp ht
  have hlog : v.respLog = log := by
    rw [sendAttempt_respLog hv]
    obtain ⟨-, -, -, rfl⟩ := enqueue_eq_next.mp hu
    simpa using h
  exact answers_respond hlog (legal_of_ok tid _ []) t ht

theorem answers_deliver (tid : Tid) (c : Chan) (maxLen : Nat) (h : s.respLog = log) :
    AnswersOnce log (deliver tid c maxLen s) :=
  answers_ite (answers_refused _) (answers_ite (answers_fail tid _ h) (answers_ite (answers_fault _)
    (answers_respond (by simpa using h) (legal_of_ok tid _ _))))

theorem answers_runRead (tid : Tid) (c : Chan) (maxLen : Nat) (h : s.respLog = log) :
    AnswersOnce log (runRead tid c maxLen s) := by
  unfold runRead
  split
  · exact answers_fail tid _ (by simpa using h)
  · exact answers_ite (answers_deliver tid c maxLen h)
      (answers_ite (answers_deliver tid c maxLen (by simpa [flushOnRead] using h))
        (answers_ite (answers_fail tid _ h) (answers_block tid _ h)))

end

/-! ## The other commands -/

theorem answers_execCfgMode (tid : Tid) (c : Chan) (v : Word) (s : State) :
    AnswersOnce s.respLog (execCfgMode tid c v s) :=
  answers_asCommand (answers_checked rfl (answers_ite (answers_succeed tid rfl)
    (answers_ite (answers_refused _) (answers_succeed tid (by simp)))))

theorem answers_execCfgRxEn (tid : Tid) (c : Chan) (v : Word) (s : State) :
    AnswersOnce s.respLog (execCfgRxEn tid c v s) :=
  answers_asCommand (answers_checked rfl (answers_ite (answers_fail tid _ rfl) (answers_succeed tid (by simp))))

theorem answers_execCfgTxEn (tid : Tid) (c : Chan) (v : Word) (s : State) :
    AnswersOnce s.respLog (execCfgTxEn tid c v s) :=
  answers_asCommand (answers_checked rfl (answers_ite (answers_fail tid _ rfl) (answers_succeed tid (by simp))))

theorem answers_execCfgIrqEn (tid : Tid) (c : Chan) (v : Word) (s : State) :
    AnswersOnce s.respLog (execCfgIrqEn tid c v s) :=
  answers_asCommand (answers_checked rfl (answers_succeed tid (by simp)))

theorem answers_execCfgGIrqEn (tid : Tid) (v : Word) (s : State) :
    AnswersOnce s.respLog (execCfgGIrqEn tid v s) :=
  answers_asCommand (answers_checked rfl (answers_succeed tid rfl))

/-- The commands whose whole effect is one stored value of the channel. -/
theorem answers_store {tid : Tid} {c : Chan} {legal : State → Bool} {f : Channel → Channel} (s : State) :
    AnswersOnce s.respLog (asCommand tid s fun s => checked tid (legal s) s fun s => succeed tid (s.modChan c f)) :=
  answers_asCommand (answers_checked rfl (answers_succeed tid (by simp)))

/-- The first step of a reallocation is not answered yet (40_ring_buffer.md R132). -/
theorem answers_realloc (tid : Tid) (c : Chan) (d : Dir) (sel : BitVec 8) (v : Word) (legal : Bool) (s : State) :
    AnswersOnce s.respLog (asCommand tid s fun s => checked tid legal s (reallocStart tid c d sel v)) :=
  answers_asCommand (answers_checked rfl (answers_silent (by simp)))

@[simp] theorem resetStart_respLog (c : Chan) (s : State) : (resetStart c s).respLog = s.respLog := by
  simp [resetStart]

theorem answers_execResetChannel (tid : Tid) (c : Chan) (s : State) :
    AnswersOnce s.respLog (execResetChannel tid c s) :=
  answers_asCommand (answers_silent (resetStart_respLog c s))

theorem answers_execResetDevice (tid : Tid) (c : Chan) (s : State) :
    AnswersOnce s.respLog (execResetDevice tid c s) :=
  answers_asCommand (answers_silent ((resetStart_respLog .ch1 _).trans (resetStart_respLog .ch0 s)))

@[simp] theorem reallocRing_respLog (c : Chan) (d : Dir) (num size : Nat) (s : State) :
    (reallocRing c d num size s).respLog = s.respLog := by
  simp [reallocRing]

@[simp] theorem resetFinish_respLog (c : Chan) (s : State) : (resetFinish c s).respLog = s.respLog := by
  simp [resetFinish]

@[simp] theorem runTwoStep_respLog (ts : TwoStep) (s : State) : (runTwoStep ts s).respLog = s.respLog := by
  cases ts <;> simp [runTwoStep]

theorem answers_execCont (tid : Tid) (s : State) : AnswersOnce s.respLog (execCont tid s) := by
  intro t ht
  obtain ⟨-, cw, w1, ts, -, -, rfl⟩ := execCont_next ht
  exact answers_respond (by simp) (legal_of_empty tid _) _ rfl

theorem answers_execResume (tid : Tid) (s : State) : AnswersOnce s.respLog (execResume tid s) := by
  refine answers_asBlocked fun b => ?_
  split
  · exact answers_runWrite tid b.ch _ (by simp)
  · exact answers_runRead tid b.ch _ (by simp)

/-- Every host command and wait event gives at most one response, a legal one. -/
theorem answers_of_exec_command {i : Instr} (hi : isInterrupt i = false) (s : State) :
    AnswersOnce s.respLog (exec i s) := by
  cases i with
  | write tid c payload => exact answers_asCommand (answers_runWrite tid c payload rfl)
  | read tid c maxLen => exact answers_asCommand (answers_runRead tid c _ rfl)
  | cfgMode tid c v => exact answers_execCfgMode tid c v s
  | cfgTxSize tid c v => exact answers_realloc tid c .tx 1 v _ s
  | cfgTxNum tid c v => exact answers_realloc tid c .tx 2 v _ s
  | cfgRxSize tid c v => exact answers_realloc tid c .rx 3 v _ s
  | cfgRxNum tid c v => exact answers_realloc tid c .rx 4 v _ s
  | cfgRdTmo tid c v => exact answers_store (legal := fun _ => legalTimeout v) s
  | cfgWrTmo tid c v => exact answers_store (legal := fun _ => legalTimeout v) s
  | cfgWMark tid c v => exact answers_store (legal := fun _ => legalWatermark v) s
  | cfgRxEn tid c v => exact answers_execCfgRxEn tid c v s
  | cfgTxEn tid c v => exact answers_execCfgTxEn tid c v s
  | cfgIrqEn tid c v => exact answers_execCfgIrqEn tid c v s
  | cfgGIrqEn tid c v => exact answers_execCfgGIrqEn tid v s
  | notifyInstall tid c handle => exact answers_store (legal := fun s => (s.chan c).sigHandle.isNone) s
  | notifyRemove tid c => exact answers_store (legal := fun s => (s.chan c).sigHandle.isSome) s
  | resetChannel tid c => exact answers_execResetChannel tid c s
  | resetDevice tid c => exact answers_execResetDevice tid c s
  | cont tid => exact answers_execCont tid s
  | resume tid => exact answers_execResume tid s
  | timeout tid =>
    exact answers_asBlocked fun b => answers_ite (answers_fail tid _ (by simp)) (answers_refused _)
  | abort tid => exact answers_asBlocked fun b => answers_fail tid _ (by simp)
  | svcRxSync | svcRxAsync | svcTxSync | svcTxAsync | svcExt | irq => cases hi

/-- Settles O22: the interrupt context answers nobody, and a command answers with one legal response or not at all. -/
theorem errorsCarryNoCount : Obligations.ErrorsCarryNoCount := by
  intro i s t h
  cases hi : isInterrupt i with
  | true => exact .inl (respLog_of_exec_interrupt hi h)
  | false => exact answers_of_exec_command hi s t h

end Sys2Proof.Machine
end

