-- ==== Sys2Proof/Proofs/RingQueues.lean ====
section
/-! The queue a ring stands for under the ring micro-operations that the interrupt context makes: `Commit` adds a frame
behind those queued, `Consume` takes the first one (20_memory.md R92; 40_ring_buffer.md R133, R136, R138). -/

namespace Sys2Proof.Machine

open Sys2Proof

/-- The frames queued in a ring record over a slot storage. -/
def queuedOf (m : Memory) (c : Chan) (d : Dir) (rb : Ring) : List (List Byte) :=
  queuedFrom m c d rb rb.head rb.entryCount

theorem queued_eq (s : State) (c : Chan) (d : Dir) : queued s c d = queuedOf s.mem c d (s.ring c d) := rfl

/-! ## What leaves a queue alone -/

/-- The queued slots of a ring are where they were, with the lengths they had. -/
structure SameFrames (rb rb' : Ring) : Prop where
  cap : rb'.cap = rb.cap
  head : rb'.head = rb.head
  entryCount : rb'.entryCount = rb.entryCount
  len : ∀ i, (rb'.slot i).len = (rb.slot i).len

theorem SameFrames.refl (rb : Ring) : SameFrames rb rb := ⟨rfl, rfl, rfl, fun _ => rfl⟩

theorem SameFrames.queuedOf {rb rb' : Ring} (h : SameFrames rb rb') (m : Memory) (c : Chan) (d : Dir) :
    queuedOf m c d rb' = queuedOf m c d rb := by
  rw [Machine.queuedOf, Machine.queuedOf, h.head, h.entryCount, queuedFrom_of_lens h.cap h.len]

theorem queuedOf_waiter (m : Memory) (c : Chan) (d : Dir) (rb : Ring) (b : Bool) :
    queuedOf m c d { rb with waiter := b } = queuedOf m c d rb :=
  SameFrames.queuedOf (rb := rb) (rb' := { rb with waiter := b }) ⟨rfl, rfl, rfl, fun _ => rfl⟩ m c d

/-- Writing a slot keeps every length where it keeps that slot's. -/
theorem setSlot_len (rb : Ring) (j : Nat) {x : Slot} (h : x.len = (rb.slot j).len) (i : Nat) :
    ((rb.setSlot j x).slot i).len = (rb.slot i).len := by
  by_cases hi : i = j
  · subst hi
    by_cases hin : i < rb.slots.length
    · rw [setSlot_slot_same rb i x hin, h]
    · simp [Ring.setSlot, List.set_eq_of_length_le (Nat.le_of_not_lt hin), Ring.slot]
  · rw [setSlot_slot_other rb x hi]

theorem sameFrames_setSlot (rb : Ring) (j : Nat) {x : Slot} (h : x.len = (rb.slot j).len) :
    SameFrames rb (rb.setSlot j x) := ⟨rfl, rfl, rfl, setSlot_len rb j h⟩

/-- A queue is in its ring's own part of slot storage. -/
theorem queuedOf_of_bytes {m m' : Memory} {c : Chan} {d : Dir} {rb : Ring} (hs : RingShape rb) (hq : QueuedReady rb)
    (h : ∀ a, inRing c d a = true → memRead m' a = memRead m a) : queuedOf m' c d rb = queuedOf m c d rb := by
  refine queuedFrom_head_congr hs rfl fun i hi hage => loadBytes_congr fun x hx hx' => h x ?_
  have hlen := (hq i hi hage).2
  obtain ⟨-, hcap, -, hf, -⟩ := hs
  simp only [Config.frameNumLimit] at hcap
  simp only [Config.frameSizeLimit] at hf
  obtain ⟨k, rfl⟩ := Nat.exists_eq_add_of_le hx
  rw [slotAddr_add, Nat.zero_add]
  exact slotAddr_inRing c d (by omega) (by omega)

/-- A byte in the tail slot of a ring with room is in none of its queued frames. -/
theorem queuedOf_writeTail (m : Memory) (c : Chan) (d : Dir) {rb : Ring} (hs : RingShape rb) (hq : QueuedReady rb)
    (hroom : rb.entryCount ≠ rb.cap) {k : Nat} (hk : k < rb.fsz) (b : Byte) :
    queuedOf (memWrite m (slotAddr c d rb.tail k) b) c d rb = queuedOf m c d rb := by
  refine queuedFrom_head_congr hs rfl fun i hi hage => loadBytes_congr fun x hx hx' => memRead_memWrite_other m b ?_
  have hne : i ≠ rb.tail := mt (age_eq_entryCount_iff hs hroom hi).mpr hage.ne
  have hlen := (hq i hi hage).2
  obtain ⟨-, -, -, hf, -⟩ := hs
  simp only [Config.frameSizeLimit] at hf
  simp only [slotAddr] at hx hx' ⊢
  omega

/-! ## `Commit` and `Consume` -/

/-- `Commit` queues the tail slot behind the frames already there (40_ring_buffer.md R136). -/
theorem queuedOf_commit (m : Memory) (c : Chan) (d : Dir) {rb : Ring} (n : Nat) (hs : RingShape rb)
    (hroom : rb.entryCount ≠ rb.cap) :
    queuedOf m c d (rb.commit n) = queuedOf m c d rb ++ [loadBytes m (slotAddr c d rb.tail 0) n] := by
  have hle := entryCount_le_cap hs
  have hh : rb.head < rb.cap := head_lt_cap hs (by omega)
  have hslot := commit_slot (n := n) hs hroom
  rw [queuedOf, queuedFrom_eq_map _ _ _ _ _ (by exact hh), commit_entryCount, List.range_succ, List.map_append,
    ← queuedFrom_eq_map _ _ _ _ _ (by exact hh)]
  refine congrArg₂ (· ++ ·) ?_ ?_
  · refine queuedFrom_head_congr hs rfl fun i hi hage => ?_
    have hne : i ≠ rb.tail := mt (age_eq_entryCount_iff hs hroom hi).mpr hage.ne
    rw [frameAt, frameAt, hslot, if_neg hne]
  · rw [List.map_singleton, commit_cap, commit_head, head_add_entryCount hs (by omega), frameAt, hslot, if_pos rfl]

/-- `Consume` takes the first frame, or does nothing to an empty queue (40_ring_buffer.md R136). -/
theorem queuedOf_consume (m : Memory) (c : Chan) (d : Dir) (rb : Ring) :
    queuedOf m c d rb.consume = (queuedOf m c d rb).tail := by
  have hlen : ∀ i, (rb.consume.slot i).len = (rb.slot i).len := setSlot_len rb rb.head rfl
  rw [queuedOf, consume_head, consume_entryCount, queuedFrom_of_lens (consume_cap rb) hlen, queuedOf]
  cases rb.entryCount with
  | zero => rfl
  | succ n => rfl

end Sys2Proof.Machine
end

