-- ==== Sys2Proof/Proofs/InterruptQueues.lean ====
section
/-! The queues under the interrupt context: the receive engines append to the receive queues, the transmit engines take
from the front of the transmit queues, and nothing else of an interrupt step touches a queue (20_memory.md R92;
40_ring_buffer.md R138; 60_exceptions.md R253). -/

namespace Sys2Proof.Machine

open Sys2Proof

/-! ## The receive queues -/

/-- Whatever was in a receive queue is still at its front. -/
def Appends (s t : State) : Prop := ∀ c, queued s c .rx <+: queued t c .rx

theorem Appends.trans {s u t : State} (h : Appends s u) (h' : Appends u t) : Appends s t :=
  fun c => (h c).trans (h' c)

theorem Appends.refl (s : State) : Appends s s := fun _ => List.prefix_rfl

/-- The receive rings hold the frames they held, over the same slot storage. -/
theorem Appends.of_same {s t : State} (hmem : t.mem = s.mem)
    (h : ∀ c, SameFrames (s.chan c).rx (t.chan c).rx) : Appends s t := by
  intro c
  rw [queued_eq, queued_eq, hmem, ring_rx, ring_rx, (h c).queuedOf]

/-- One channel is worked on, and slot storage is as before. -/
theorem Appends.of_chan {s t : State} (c : Chan) (hmem : t.mem = s.mem) (ho : t.chan c.other = s.chan c.other)
    (h : queuedOf s.mem c .rx (s.chan c).rx <+: queuedOf s.mem c .rx (t.chan c).rx) : Appends s t := by
  intro c'
  rw [queued_eq, queued_eq, hmem, ring_rx, ring_rx]
  by_cases hc : c' = c
  · rw [hc]; exact h
  · rw [other_of_ne hc, ho]

theorem Appends.of_frames {s t : State} (c : Chan) (hmem : t.mem = s.mem) (ho : t.chan c.other = s.chan c.other)
    (h : SameFrames (s.chan c).rx (t.chan c).rx) : Appends s t :=
  .of_chan c hmem ho (by rw [h.queuedOf])

theorem Appends.modChan (s : State) (c : Chan) {f : Channel → Channel}
    (h : SameFrames (s.chan c).rx (f (s.chan c)).rx) : Appends s (s.modChan c f) :=
  .of_frames c (by simp) (by simp) (by simpa using h)

theorem appends_regRead (c : Chan) (r : ReadReg) (s : State) : Appends s (regRead c r s) :=
  .of_same rfl fun _ => by rw [regRead_chan]; exact .refl _

theorem appends_readFifo (c : Chan) (n : Nat) (s : State) : Appends s (readFifo c n s) :=
  .of_same (by simp) fun _ => by rw [readFifo_chan]; exact .refl _

theorem appends_acknowledge (c : Chan) (cmd : Word) (s : State) : Appends s (acknowledge c cmd s) :=
  .of_same rfl fun _ => by rw [acknowledge_chan]; exact .refl _

theorem appends_keepService (s : State) (k : Option (Chan × BitVec 4)) : Appends s { s with key := k } :=
  .of_same rfl fun _ => by rw [chan_with_key]; exact .refl _

theorem appends_notifyRx (c : Chan) (s : State) : Appends s (notifyRx c s) :=
  .of_frames c (by simp) (by simp) (by rw [notifyRx_chan_same]; exact ⟨rfl, rfl, rfl, fun _ => rfl⟩)

/-- A posted error removes no queued frame (60_exceptions.md R253). -/
theorem appends_postError (c : Chan) (e : ErrCode) (s : State) : Appends s (postError c e s) :=
  .of_frames c (by simp) (by simp) (by rw [postError_chan_same]; exact ⟨rfl, rfl, rfl, fun _ => rfl⟩)

theorem appends_queueFullPass (c : Chan) (s : State) : Appends s (queueFullPass c s) := by
  unfold queueFullPass
  simp only
  split
  · exact .trans (.of_frames c (by simp) (by simp) (by simpa using .refl _)) (appends_postError c _ _)
  · exact .modChan s c (.refl _)

theorem appends_qfullReset (c : Chan) (s : State) : Appends s (s.modChan c fun x => { x with qfullCount := 0 }) :=
  .modChan s c (.refl _)

/-! ## The synchronous receive engine -/

theorem rxOk_of_inv {s : State} (hs : Inv s) (c : Chan) : RxOk (s.chan c) :=
  (ringsOk_iff.mp (forall_chan.mpr hs.rings c)).2

/-- A change of a receive ring with a write to its storage. -/
theorem appends_rxStore {s : State} (hs : Inv s) (c : Chan) {f : Ring → Ring} {m : Memory}
    (hother : ∀ a, inRing c.other .rx a = true → memRead m a = memRead s.mem a)
    (h : queuedOf s.mem c .rx (s.chan c).rx <+: queuedOf m c .rx (f (s.chan c).rx)) :
    Appends s { s.modRing c .rx f with mem := m } := by
  have hchan := fun c' => chan_with_mem (s.modRing c .rx f) c' m
  intro c'
  rw [queued_eq, queued_eq, ring_rx, ring_rx, hchan]
  by_cases hc : c' = c
  · rw [hc, modRing_chan_same]
    exact h
  · have hx := rxOk_of_inv hs c.other
    rw [other_of_ne hc, modRing_chan_other, queuedOf_of_bytes hx.shape hx.queued hother]

/-- A received frame is queued behind those already there (42_sync_engine.md R177; 40_ring_buffer.md R133). -/
theorem appends_enqueue {c : Chan} {data : List Byte} {s t : State} (hs : Inv s)
    (hroom : (s.chan c).rx.full = false) (h : enqueue c .rx data s = .next t) : Appends s t := by
  obtain ⟨htail, hdata, -, rfl⟩ := enqueue_eq_next.mp h
  have hfits := rxFits_of_inv hs c
  have hx := rxOk_of_inv hs c
  refine appends_rxStore hs c (fun a ha => ?_)
    ⟨[data], (queuedFrom_commit s.mem c .rx hx.shape hx.queued (full_eq_false.mp hroom).1 hdata).symm⟩
  exact memRead_storeBytes_otherRing s.mem (by simp [other_ne]) (Nat.lt_of_lt_of_le htail hfits.length)
    (Nat.le_trans hdata hfits.size) ha

theorem appends_storeEntry {c : Chan} {n : Nat} {s t : State} (hs : Inv s) (hroom : (s.chan c).rx.full = false)
    (h : storeEntry c n s = .next t) : Appends s t := by
  obtain ⟨u, hu, ht⟩ := andThen_eq_next.mp h
  cases ht
  have hread := moves_inv (moves_readFifo c n s) hs
  exact ((appends_readFifo c n s).trans (appends_enqueue hread (by simpa using hroom) hu)).trans (appends_notifyRx c u)

theorem appends_rxSyncEntry {c : Chan} {s t : State} (hs : Inv s) (hroom : (s.chan c).rx.full = false)
    (h : rxSyncEntry c s = .next t) : Appends s t := by
  have hmoves := (moves_qfullCount (s := s) c (fun _ => 0) (by simp)).trans (moves_regRead c .sfifo _)
  have hstart := (appends_qfullReset c s).trans (appends_regRead c .sfifo _)
  refine hstart.trans ?_
  unfold rxSyncEntry at h
  simp only at h
  split at h
  · cases h
    exact (appends_readFifo c _ _).trans (appends_postError c _ _)
  · split at h
    · cases h
      exact (appends_readFifo c _ _).trans (appends_postError c _ _)
    · exact appends_storeEntry (moves_inv hmoves hs) (by simpa using hroom) h

theorem appends_rxSyncLoop {c : Chan} {dk : BitVec 4} {n : Nat} {s t : State} (hs : Inv s)
    (h : rxSyncLoop c dk n s = .next t) : Appends s t := by
  induction n generalizing s with
  | zero => cases h; exact appends_keepService s _
  | succ n ih =>
    have hread := appends_regRead c .rs s
    by_cases hne : rsSfne (portAnswer c .rs s) = true
    · by_cases hfull : (s.ring c .rx).full = true
      · rw [rxSyncLoop_full hne hfull] at h
        cases h
        exact (hread.trans (appends_queueFullPass c _)).trans (appends_acknowledge c _ _)
      · rw [rxSyncLoop_entry hne (by simpa using hfull)] at h
        obtain ⟨u, hu, ht⟩ := andThen_eq_next.mp h
        have hroom : ((regRead c .rs s).chan c).rx.full = false := by simpa using hfull
        have hs' := moves_inv (moves_regRead c .rs s) hs
        exact (hread.trans (appends_rxSyncEntry hs' hroom hu)).trans
          (ih (moves_inv (moves_rxSyncEntry hroom hu) hs') ht)
    · rw [rxSyncLoop_empty (by simpa using hne)] at h
      cases h
      exact hread.trans (appends_acknowledge c _ _)

/-! ## The asynchronous receive engine -/

/-- A received byte goes to the tail slot, which is not queued (43_async_engine.md R189). -/
theorem appends_byteStored {c : Chan} (b : Byte) {s : State} (hs : Inv s) (hroom : (s.chan c).rx.full = false)
    (htail : (s.chan c).rx.tail < (s.chan c).rx.slots.length)
    (hfill : partialFill (s.chan c).rx < (s.chan c).rx.fsz) : Appends s (byteStored c b s) := by
  have hfits := rxFits_of_inv hs c
  have hx := rxOk_of_inv hs c
  refine appends_rxStore hs c (fun a ha => ?_) ?_
  · exact memRead_memWrite_otherRing s.mem b (by simp [other_ne]) (Nat.lt_of_lt_of_le htail hfits.length)
      (Nat.lt_of_lt_of_le hfill hfits.size) ha
  · have hframes := sameFrames_setSlot (s.chan c).rx (s.chan c).rx.tail
      (x := ⟨.filling, ((s.chan c).rx.slot (s.chan c).rx.tail).len, partialFill (s.chan c).rx + 1⟩) rfl
    rw [ring_rx, hframes.queuedOf, queuedOf_writeTail _ _ _ hx.shape hx.queued (full_eq_false.mp hroom).1 hfill]

theorem appends_watermarkCheck (c : Chan) (f : Nat) (s : State) : Appends s (watermarkCheck c f s) := by
  obtain ⟨log, h⟩ := watermarkCheck_eq c f s
  rw [h]
  exact .of_same rfl fun _ => by rw [chan_with_sigLog]; exact .refl _

/-- A full partial frame is queued behind those already there (43_async_engine.md R193). -/
theorem appends_sealFrame {c : Chan} {s : State} (hs : RingShape (s.chan c).rx)
    (hroom : (s.chan c).rx.entryCount ≠ (s.chan c).rx.cap) : Appends s (sealFrame c s) := by
  refine .trans (.of_chan c (by simp) (by simp) ?_) (appends_notifyRx c _)
  rw [modRing_chan_same, modRing_rx, queuedOf_commit _ _ _ _ hs hroom]
  exact List.prefix_append ..

theorem appends_appendByte {c : Chan} {b : Byte} {s t : State} (hs : Inv s) (hroom : (s.chan c).rx.full = false)
    (h : appendByte c b s = .next t) : Appends s t := by
  have htail := tail_lt_of_appendByte h
  obtain ⟨hfill, rfl⟩ := appendByte_next h
  have hstored := (appends_byteStored b hs hroom htail hfill).trans
    (appends_watermarkCheck c (partialFill (s.ring c .rx) + 1) _)
  split
  · refine hstored.trans (appends_sealFrame ?_ ?_)
    · rw [watermarkCheck_chan, byteStored_chan_same]
      exact setSlot_shape (rxOk_of_inv hs c).shape _ _
    · rw [watermarkCheck_chan, byteStored_chan_same]
      exact (full_eq_false.mp hroom).1
  · exact hstored

theorem appends_goodCharacter {c : Chan} {s t : State} (hs : Inv s) (hroom : (s.chan c).rx.full = false)
    (h : goodCharacter c s = .next t) : Appends s t := by
  have hmoves := (moves_qfullCount (s := s) c (fun _ => 0) (by simp)).trans (moves_regRead c .rxfifo _)
  exact ((appends_qfullReset c s).trans (appends_regRead c .rxfifo _)).trans
    (appends_appendByte (moves_inv hmoves hs) (by simpa using hroom) h)

/-- A partial frame is not queued: its loss removes no frame (43_async_engine.md R191). -/
theorem appends_abortPartial (c : Chan) (s : State) : Appends s (abortPartial c s) := by
  unfold abortPartial
  split
  · exact .modChan s c (sameFrames_setSlot _ _ rfl)
  · exact .refl s

theorem appends_badCharacter (c : Chan) (rs : Word) (s : State) : Appends s (badCharacter c rs s) :=
  ((appends_regRead c .rxfifo s).trans (appends_abortPartial c _)).trans (appends_postError c _ _)

theorem appends_rxAsyncLoop {c : Chan} {dk : BitVec 4} {n : Nat} {s t : State} (hs : Inv s) (hi : s.dev.inIsr = true)
    (hm : (s.chan c).mode = .async) (h : rxAsyncLoop c dk n s = .next t) : Appends s t := by
  induction n generalizing s with
  | zero => cases h; exact appends_keepService s _
  | succ n ih =>
    have hread := appends_regRead c .rs s
    have again : ∀ {u : State}, Moves (regRead c .rs s) u → Appends (regRead c .rs s) u →
        rxAsyncLoop c dk n u = .next t → Appends s t := by
      intro u hmoves hu ht
      have hsu := (moves_regRead c .rs s).trans hmoves
      obtain ⟨hi', hm'⟩ := moves_serving hsu hi
      exact (hread.trans hu).trans (ih (moves_inv hsu hs) hi' ((hm' c).trans hm) ht)
    by_cases hne : rsRca (portAnswer c .rs s) = true
    · by_cases hbad : rsRxe (portAnswer c .rs s) = true
      · rw [rxAsyncLoop_bad hne hbad] at h
        exact again (moves_badCharacter c _ _) (appends_badCharacter c _ _) h
      · have hgood : rsRxe (portAnswer c .rs s) = false := by simpa using hbad
        by_cases hfull : (s.ring c .rx).full = true
        · rw [rxAsyncLoop_full hne hgood hfull] at h
          cases h
          exact (hread.trans (appends_queueFullPass c _)).trans (appends_acknowledge c _ _)
        · rw [rxAsyncLoop_good hne hgood (by simpa using hfull)] at h
          obtain ⟨u, hu, ht⟩ := andThen_eq_next.mp h
          have hroom : ((regRead c .rs s).chan c).rx.full = false := by simpa using hfull
          exact again (moves_goodCharacter (by simpa using hm) hroom hu)
            (appends_goodCharacter (moves_inv (moves_regRead c .rs s) hs) hroom hu) ht
    · rw [rxAsyncLoop_empty (by simpa using hne)] at h
      cases h
      exact hread.trans (appends_acknowledge c _ _)

theorem appends_extService {c : Chan} {s t : State} (h : extService c s = .next t) : Appends s t := by
  cases h
  refine (appends_regRead c .es s).trans (.trans ?_ (appends_acknowledge c _ _))
  split
  · exact appends_postError c _ _
  · exact .refl _

/-! ## The transmit queues -/

/-- The receive queues only grow behind and the transmit queues only shrink in front. -/
structure QueuesKept (s t : State) : Prop where
  received : Appends s t
  toSend : ∀ c, queued t c .tx <:+ queued s c .tx

theorem QueuesKept.trans {s u t : State} (h : QueuesKept s u) (h' : QueuesKept u t) : QueuesKept s t :=
  ⟨h.received.trans h'.received, fun c => (h'.toSend c).trans (h.toSend c)⟩

theorem QueuesKept.of_eq {s t : State} (hmem : t.mem = s.mem) (h : ∀ c, t.chan c = s.chan c) : QueuesKept s t where
  received := .of_same hmem fun c => by rw [h]; exact .refl _
  toSend c := by rw [queued_eq, queued_eq, hmem, ring_tx, ring_tx, h]

/-- What leaves the transmit side alone and appends to the receive queues. -/
theorem KeepsTransmit.queuesKept {s t : State} (h : KeepsTransmit s t) (hs : Inv s) (ha : Appends s t) :
    QueuesKept s t := by
  refine ⟨ha, fun c => ?_⟩
  have hx := txOk_of_inv hs c
  have hc := h.queue c
  have hframes : SameFrames (s.chan c).tx (t.chan c).tx :=
    ⟨hc.cap, hc.head, hc.entryCount, fun i => by rw [Ring.slot, Ring.slot, hc.slots]⟩
  rw [queued_eq, queued_eq, ring_tx, ring_tx, hframes.queuedOf, queuedOf_of_bytes hx.shape hx.queued (h.bytes c)]

/-- A transmit engine works on the transmit ring of its channel alone, and slot storage is as before. -/
theorem QueuesKept.of_tx {s t : State} (c : Chan) (hmem : t.mem = s.mem) (ho : t.chan c.other = s.chan c.other)
    (hrx : (t.chan c).rx = (s.chan c).rx)
    (htx : queuedOf s.mem c .tx (t.chan c).tx <:+ queuedOf s.mem c .tx (s.chan c).tx) : QueuesKept s t := by
  refine ⟨.of_frames c hmem ho (by rw [hrx]; exact .refl _), fun c' => ?_⟩
  rw [queued_eq, queued_eq, hmem, ring_tx, ring_tx]
  by_cases hc : c' = c
  · rw [hc]; exact htx
  · rw [other_of_ne hc, ho]

/-- The frame a transmit engine has finished is the first of its queue. -/
theorem queuedOf_consume_suffix (m : Memory) (c : Chan) (d : Dir) (rb : Ring) :
    queuedOf m c d rb.consume <:+ queuedOf m c d rb := by
  rw [queuedOf_consume]
  exact List.tail_suffix _

/-- The burst takes the head frame off the queue (42_sync_engine.md R171). -/
theorem queuesKept_txSyncBurst (c : Chan) (s : State) : QueuesKept s (txSyncBurst c s) := by
  refine .of_tx c (by simp [txSyncBurst]) (by simp [txSyncBurst]) (by simp [txSyncBurst]) ?_
  simp only [txSyncBurst, wake_chan_same, modChan_chan_same, writeCtl_chan_same, writeFifo_chan, modRing_tx,
    queuedOf_waiter]
  exact queuedOf_consume_suffix ..

theorem queuesKept_txSyncStart {c : Chan} {s t : State} (h : txSyncStart c s = .next t) : QueuesKept s t := by
  obtain ⟨-, rfl⟩ | ⟨-, -, -, rfl⟩ := txSyncStart_eq_next.mp h
  · exact .of_tx c (by simp) (by simp) (by simp) (by simp)
  · exact queuesKept_txSyncBurst c s

/-- A byte sent leaves its frame queued, but for the last byte of the head frame (43_async_engine.md R186). -/
theorem queuesKept_txAsyncSend {c : Chan} {s t : State} (h : txAsyncSend c s = .next t) : QueuesKept s t := by
  have hput : QueuesKept s (bytePut c s) := by
    refine .of_tx c (by simp [bytePut]) (by simp [bytePut]) (by simp [bytePut]) ?_
    have hframes : SameFrames (s.chan c).tx ((bytePut c s).chan c).tx := by
      rw [bytePut, modChan_chan_same, portWrite_chan]
      exact sameFrames_setSlot _ _ rfl
    rw [hframes.queuedOf]
  rw [txAsyncSend_eq_next h]
  split
  · refine hput.trans (.of_tx c (by simp) (by simp) (by simp) ?_)
    rw [wake_chan_same, modChan_chan_same, modRing_tx, queuedOf_waiter]
    exact queuedOf_consume_suffix ..
  · exact hput

theorem queuesKept_txAsyncActivate (c : Chan) (s : State) : QueuesKept s (txAsyncActivate c s) := by
  refine .of_tx c (by simp [txAsyncActivate]) (by simp [txAsyncActivate]) (by simp [txAsyncActivate]) ?_
  have hframes : SameFrames (s.chan c).tx ((txAsyncActivate c s).chan c).tx := by
    rw [txAsyncActivate, modChan_chan_same]
    exact sameFrames_setSlot _ _ rfl
  rw [hframes.queuedOf]

theorem queuesKept_txAsyncByte {c : Chan} {s t : State} (h : txAsyncByte c s = .next t) : QueuesKept s t := by
  obtain ⟨-, -, rfl⟩ | ⟨-, h⟩ | ⟨-, -, h⟩ := txAsyncByte_eq_next.mp h
  · exact .of_tx c (by simp) (by simp) (by simp) (by simp)
  · exact queuesKept_txAsyncSend h
  · exact (queuesKept_txAsyncActivate c s).trans (queuesKept_txAsyncSend h)

theorem queuesKept_acknowledge (c : Chan) (cmd : Word) (s : State) : QueuesKept s (acknowledge c cmd s) :=
  .of_eq rfl fun _ => by simp

/-! ## The services -/

theorem queuesKept_rxSyncLoop {c : Chan} {dk : BitVec 4} {n : Nat} {s t : State} (hs : Inv s)
    (h : rxSyncLoop c dk n s = .next t) : QueuesKept s t :=
  (keeps_rxSyncLoop (rxFits_of_inv hs c) h).queuesKept hs (appends_rxSyncLoop hs h)

theorem queuesKept_rxAsyncLoop {c : Chan} {dk : BitVec 4} {n : Nat} {s t : State} (hs : Inv s)
    (hi : s.dev.inIsr = true) (hm : (s.chan c).mode = .async) (h : rxAsyncLoop c dk n s = .next t) : QueuesKept s t :=
  (keeps_rxAsyncLoop (rxFits_of_inv hs c) h).queuesKept hs (appends_rxAsyncLoop hs hi hm h)

theorem queuesKept_txSyncService {c : Chan} {s t : State} (h : txSyncService c s = .next t) : QueuesKept s t := by
  obtain ⟨u, hu, ht⟩ := andThen_eq_next.mp h
  cases ht
  exact (queuesKept_txSyncStart hu).trans (queuesKept_acknowledge c _ u)

theorem queuesKept_txAsyncService {c : Chan} {s t : State} (h : txAsyncService c s = .next t) : QueuesKept s t := by
  obtain ⟨u, hu, ht⟩ := andThen_eq_next.mp h
  cases ht
  exact (queuesKept_txAsyncByte hu).trans (queuesKept_acknowledge c _ u)

theorem queuesKept_extService {c : Chan} {s t : State} (hs : Inv s) (h : extService c s = .next t) : QueuesKept s t :=
  (keeps_extService h).queuesKept hs (appends_extService h)

/-! ## The dispatcher -/

theorem queuesKept_runService {c : Chan} {dk : BitVec 4} {s t : State} (hs : Inv s) (hi : s.dev.inIsr = true)
    (hdk : dk.getLsbD 3 = (s.chan c).mode.bit) (h : runService c dk s = .next t) : QueuesKept s t := by
  obtain ⟨-, hra, -, -⟩ := serviceOf_bits dk
  unfold runService at h
  split at h
  case h_1 => exact queuesKept_rxSyncLoop hs h
  case h_2 hsvc =>
    obtain ⟨-, h3⟩ := hra hsvc
    exact queuesKept_rxAsyncLoop hs hi (mode_of_bit.2 (hdk.symm.trans h3)) h
  case h_3 => exact queuesKept_txSyncService h
  case h_4 => exact queuesKept_txAsyncService h
  case h_5 => exact queuesKept_extService hs h
  case h_6 => cases h

theorem queuesKept_dispatch {c : Chan} {ip : BitVec 3} {s t : State} (hs : Inv s) (hi : s.dev.inIsr = true)
    (h : dispatch c ip s = .next t) : QueuesKept s t := by
  have hchan : ∀ c, State.chan { s with dev := { s.dev with isrHandled := true } } c = s.chan c :=
    fun c => chan_with_dev s c _
  have hm : Moves s { s with dev := { s.dev with isrHandled := true } } :=
    moves_quiet (.of_eq rfl rfl rfl rfl rfl rfl rfl) hchan
  have hset : QueuesKept s { s with dev := { s.dev with isrHandled := true } } := .of_eq rfl hchan
  have hrun := queuesKept_runService (s := { s with dev := { s.dev with isrHandled := true } }) (moves_inv hm hs) hi
    (dispatchKey_mode _ _) h
  exact hset.trans hrun

theorem queuesKept_regRead (c : Chan) (r : ReadReg) (s : State) : QueuesKept s (regRead c r s) :=
  .of_eq rfl fun _ => by simp

theorem queuesKept_scan {s t : State} (hs : Inv s) (hi : s.dev.inIsr = true) (h : scan s = .next t) :
    QueuesKept s t := by
  have h0 := queuesKept_regRead .ch0 .ip s
  have hs0 := moves_inv (moves_regRead .ch0 .ip s) hs
  have h1 := h0.trans (queuesKept_regRead .ch1 .ip _)
  by_cases hip0 : ipBits (portAnswer .ch0 .ip s) = 0#3
  · by_cases hip1 : ipBits (portAnswer .ch1 .ip (regRead .ch0 .ip s)) = 0#3
    · rw [scan_none hip0 hip1] at h
      cases h
      exact h1.trans (.of_eq rfl fun c => by cases c <;> rfl)
    · rw [scan_second hip0 hip1] at h
      exact h1.trans (queuesKept_dispatch (moves_inv (moves_regRead .ch1 .ip _) hs0) hi h)
  · rw [scan_first hip0] at h
    exact h0.trans (queuesKept_dispatch hs0 hi h)

theorem queuesKept_execIrq {s t : State} (hs : Inv s) (h : execIrq s = .next t) : QueuesKept s t := by
  have henter : QueuesKept s (enterInterrupt s) :=
    .of_eq (by unfold enterInterrupt; split <;> rfl) (enterInterrupt_chan s)
  have hs' := moves_inv (moves_enterInterrupt s) hs
  have hi := enterInterrupt_inIsr s
  unfold execIrq at h
  split at h
  · split at h
    · next k hk =>
      obtain ⟨-, -, hmode⟩ := hs.service k (by simp [hk])
      exact henter.trans (queuesKept_runService hs' hi (by simpa using hmode) h)
    · exact henter.trans (queuesKept_scan hs' hi h)
  · cases h

/-- Settles O58: the receive engines append, the transmit engines take from the front, and the rest of an interrupt step
leaves the queues alone. -/
theorem interruptsKeepTheQueues : Obligations.InterruptsKeepTheQueues := by
  intro i s t hs hi h
  suffices hkept : QueuesKept s t from fun c => ⟨hkept.received c, hkept.toSend c⟩
  cases i with
  | svcRxSync c tx ext =>
    obtain ⟨-, -, h⟩ := asService_eq_next.mp h
    exact queuesKept_rxSyncLoop hs h
  | svcRxAsync c tx ext =>
    obtain ⟨hisr, hm, h⟩ := asService_eq_next.mp h
    exact queuesKept_rxAsyncLoop hs hisr hm h
  | svcTxSync c ext =>
    obtain ⟨-, -, h⟩ := asService_eq_next.mp h
    exact queuesKept_txSyncService h
  | svcTxAsync c ext =>
    obtain ⟨-, -, h⟩ := asService_eq_next.mp h
    exact queuesKept_txAsyncService h
  | svcExt c async =>
    obtain ⟨-, -, h⟩ := asService_eq_next.mp h
    exact queuesKept_extService hs h
  | irq => exact queuesKept_execIrq hs h
  | _ => cases hi

end Sys2Proof.Machine
end

