-- ==== Sys2Proof/Proofs/Reallocation.lean ====
section
/-! The two steps of the size and count parameters: the ring goes offline with its contents, then it is allocated anew
and comes back empty (40_ring_buffer.md R131, R132; 45_config_control.md R219 to R222). -/

namespace Sys2Proof.Machine

open Sys2Proof

/-! ## One ring of a channel -/

theorem modRing_ring_self (x : Channel) (d : Dir) (f : Ring → Ring) : (x.modRing d f).ring d = f (x.ring d) := by
  cases d <;> rfl

theorem modRing_ring_of_ne (x : Channel) {d d' : Dir} (f : Ring → Ring) (h : d' ≠ d) :
    (x.modRing d f).ring d' = x.ring d' := by
  cases d with
  | tx =>
    cases d' with
    | tx => exact absurd rfl h
    | rx => rfl
  | rx =>
    cases d' with
    | tx => rfl
    | rx => exact absurd rfl h

/-! ## The first step -/

/-- The state after the first step of a reallocation (40_ring_buffer.md R132). -/
def suspended (tid : Tid) (c : Chan) (d : Dir) (sel : BitVec 8) (v : Word) (s : State) : State :=
  { s.modChan c fun x =>
      { x.modRing d fun rb => { rb with online := false } with
        txActive := if d = .tx then false else x.txActive } with
    calls := insertCall s.calls tid (.mid (commandWord 3 c sel 0) (some v)) }

theorem reallocStart_eq (tid : Tid) (c : Chan) (d : Dir) (sel : BitVec 8) (v : Word) (s : State) :
    reallocStart tid c d sel v s = .next (suspended tid c d sel v s) := by
  cases d <;> rfl

theorem suspended_chan_same (tid : Tid) (c : Chan) (d : Dir) (sel : BitVec 8) (v : Word) (s : State) :
    (suspended tid c d sel v s).chan c =
      { (s.chan c).modRing d fun rb => { rb with online := false } with
        txActive := if d = .tx then false else (s.chan c).txActive } := by
  rw [suspended, chan_with_calls, modChan_chan_same]

theorem suspended_chan_other (tid : Tid) (c : Chan) (d : Dir) (sel : BitVec 8) (v : Word) (s : State) :
    (suspended tid c d sel v s).chan c.other = s.chan c.other := by
  rw [suspended, chan_with_calls, modChan_chan_other]

theorem callIs_suspended (tid : Tid) (c : Chan) (d : Dir) (sel : BitVec 8) (v : Word) (s : State) :
    CallIs s (suspended tid c d sel v s) tid (some (.mid (commandWord 3 c sel 0) (some v))) :=
  ⟨callOf_insertCall_same .., fun _ hu => callOf_insertCall_other _ _ hu⟩

theorem suspended_ring (tid : Tid) (c : Chan) (d : Dir) (sel : BitVec 8) (v : Word) (s : State) (d' : Dir) :
    (suspended tid c d sel v s).ring c d' =
      ((s.chan c).modRing d fun rb => { rb with online := false }).ring d' := by
  rw [State.ring, suspended_chan_same]
  cases d' <;> rfl

theorem sameRest_suspended (tid : Tid) (c : Chan) (d : Dir) (sel : BitVec 8) (v : Word) (s : State) :
    SameRest s (suspended tid c d sel v s) :=
  ⟨modChan_dev .., modChan_sigLog .., modChan_key .., modChan_irqLog .., modChan_schedule .., modChan_params ..⟩

/-- The four commands are one, with one legal range (45_config_control.md R216). -/
theorem exec_realloc {s : State} {tid : Tid} {c : Chan} {v : Word} {sel : BitVec 8} {d : Dir} {i : Instr}
    (hen : commandEnabled tid s = true)
    (hi : (i, sel, d) ∈
      [(.cfgTxSize tid c v, 1#8, .tx), (.cfgTxNum tid c v, 2#8, .tx), (.cfgRxSize tid c v, 3#8, .rx),
        (.cfgRxNum tid c v, 4#8, .rx)]) :
    exec i s = checked tid (legalSize v) s (reallocStart tid c d sel v) := by
  rw [← asCommand_enabled (fun s => checked tid (legalSize v) s (reallocStart tid c d sel v)) hen]
  simp only [List.mem_cons, Prod.mk.injEq, List.not_mem_nil, or_false] at hi
  obtain ⟨rfl, rfl, rfl⟩ | ⟨rfl, rfl, rfl⟩ | ⟨rfl, rfl, rfl⟩ | ⟨rfl, rfl, rfl⟩ := hi <;> rfl

theorem legalSize_iff {v : Word} : legalSize v = true ↔ 1 ≤ v.toNat ∧ v.toNat ≤ 65535 := by
  rw [legalSize, Bool.and_eq_true, decide_eq_true_iff, decide_eq_true_iff, Config.frameSizeLimit]

/-- Settles O40: the value check, then the ring offline and the thread `Mid`. -/
theorem reallocationTakesTheRingOffline : Obligations.ReallocationTakesTheRingOffline := by
  intro s tid c v sel d i hen hi
  rw [exec_realloc hen hi]
  constructor
  · intro hv
    have hillegal : legalSize v = false := by
      rw [← Bool.not_eq_true, legalSize_iff]
      omega
    rw [hillegal]
    rfl
  · intro h1 h2
    rw [legalSize_iff.mpr ⟨h1, h2⟩]
    refine ⟨suspended tid c d sel v s, reallocStart_eq .., ?ring, ?rest, ?chan, callIs_suspended ..,
      modChan_respLog .., suspended_chan_other .., ?bytes, ⟨modChan_portLog .., modChan_oracle ..⟩, sameRest_suspended ..⟩
    case ring => rw [suspended_ring, modRing_ring_self, State.ring]
    case rest => intro d' hd; rw [suspended_ring, modRing_ring_of_ne _ _ hd, State.ring]
    case chan => rw [suspended_chan_same]; cases d <;> rfl
    case bytes => exact fun a => congrArg (memRead · a) (modChan_mem ..)

/-! ## The second step -/

theorem reallocRing_chan_same (c : Chan) (d : Dir) (num size : Nat) (s : State) :
    (reallocRing c d num size s).chan c = (s.chan c).modRing d fun rb =>
      { rb.allocate s.params.alloc num size with online := true, waiter := false } := by
  rw [reallocRing_chan, if_pos rfl]

theorem sameRest_reallocRing (c : Chan) (d : Dir) (num size : Nat) (s : State) :
    SameRest s (reallocRing c d num size s) :=
  ⟨by simp [reallocRing], by simp [reallocRing], by simp [reallocRing], by simp [reallocRing], by simp [reallocRing],
    by simp [reallocRing]⟩

theorem samePort_reallocRing (c : Chan) (d : Dir) (num size : Nat) (s : State) :
    SamePort s (reallocRing c d num size s) :=
  ⟨by simp [reallocRing], by simp [reallocRing]⟩

theorem reallocRing_mem (c : Chan) (d : Dir) (num size : Nat) (s : State) :
    (reallocRing c d num size s).mem = releaseRing s.mem c d := by
  simp [reallocRing]

theorem allocate_allocated (rule : AllocRule) (num size : Nat) (rb : Ring) :
    RingAllocated (allocOk rule num size) num size (rb.allocate rule num size) := by
  refine ⟨rfl, rfl, rfl, rfl, rfl, rfl, ?_, allocate_allEmpty rule num size rb⟩
  simp only [Ring.allocate]
  split <;> simp

/-- The four parameters: `SEL`, the ring, and the slot count and frame size that the second step allocates, one of them
the command's value and the other the ring's own (45_config_control.md R219 to R222). -/
def reallocShapes (s : State) (c : Chan) (v : Word) : List (BitVec 8 × Dir × Nat × Nat) :=
  [(1#8, .tx, (s.ring c .tx).cap, v.toNat), (2#8, .tx, v.toNat, (s.ring c .tx).fsz),
    (3#8, .rx, (s.ring c .rx).cap, v.toNat), (4#8, .rx, v.toNat, (s.ring c .rx).fsz)]

/-- The second step that the words of the four commands ask for (45_config_control.md R219 to R222). -/
theorem twoStep_realloc {s : State} {c : Chan} {v : Word} {sel : BitVec 8} {d : Dir} {num size : Nat}
    (h : (sel, d, num, size) ∈ reallocShapes s c v) :
    ∃ ts, midStep (commandWord 3 c sel 0) (some v) = some ts ∧ runTwoStep ts s = reallocRing c d num size s ∧
      twoStepResult ts s = allocResult s.params.alloc num size := by
  obtain ⟨htxSize, htxNum, hrxSize, hrxNum⟩ := midStep_realloc c v
  simp only [reallocShapes, List.mem_cons, Prod.mk.injEq, List.not_mem_nil, or_false] at h
  obtain ⟨rfl, rfl, rfl, rfl⟩ | ⟨rfl, rfl, rfl, rfl⟩ | ⟨rfl, rfl, rfl, rfl⟩ | ⟨rfl, rfl, rfl, rfl⟩ := h
  · exact ⟨_, htxSize, rfl, rfl⟩
  · exact ⟨_, htxNum, rfl, rfl⟩
  · exact ⟨_, hrxSize, rfl, rfl⟩
  · exact ⟨_, hrxNum, rfl, rfl⟩

/-- The state after the second step of a reallocation (40_ring_buffer.md R132). -/
def reallocated (tid : Tid) (c : Chan) (d : Dir) (num size : Nat) (s : State) : State :=
  respond tid 0 (allocResult s.params.alloc num size) []
    { reallocRing c d num size s with calls := dropCall (reallocRing c d num size s).calls tid }

theorem reallocated_chan (tid : Tid) (c : Chan) (d : Dir) (num size : Nat) (s : State) (c' : Chan) :
    (reallocated tid c d num size s).chan c' = (reallocRing c d num size s).chan c' := by
  rw [reallocated, respond_chan, chan_with_calls]

/-- `CONT` of a thread that is `Mid` in one of the four commands. -/
theorem exec_cont_realloc {s : State} {tid : Tid} {c : Chan} {v : Word} {sel : BitVec 8} {d : Dir} {num size : Nat}
    (hi : s.dev.inIsr = false)
    (h : (sel, d, num, size) ∈ reallocShapes s c v)
    (hcall : callOf s.calls tid = some (.mid (commandWord 3 c sel 0) (some v))) :
    exec (.cont tid) s = .next (reallocated tid c d num size s) := by
  obtain ⟨ts, hmid, hrun, hresult⟩ := twoStep_realloc h
  simp only [exec, execCont, hi, hcall, hmid, hrun, hresult, reallocated, Bool.false_eq_true, if_false]

theorem allocResult_word (rule : AllocRule) (num size : Nat) :
    responseWord 0 (allocResult rule num size) = if allocOk rule num size then 0x00000000#32 else 0x00070000#32 := by
  rw [allocResult]
  split <;> rfl

theorem reallocated_respLog (tid : Tid) (c : Chan) (d : Dir) (num size : Nat) (s : State) :
    (reallocated tid c d num size s).respLog =
      s.respLog ++ [⟨tid, if allocOk s.params.alloc num size then 0x00000000#32 else 0x00070000#32, []⟩] := by
  rw [reallocated, respond_respLog, allocResult_word]
  exact congrArg (· ++ _) (reallocRing_respLog c d num size s)

/-- Settles O41: the second step is `Allocate`, `online <- 1` and `Wake` on the one ring, then the answer. -/
theorem contFinishesAReallocation : Obligations.ContFinishesAReallocation := by
  intro s tid c v sel d num size hi hmem hcall
  have hchan := (reallocated_chan tid c d num size s c).trans (reallocRing_chan_same ..)
  have hring : (reallocated tid c d num size s).ring c d =
      { (s.ring c d).allocate s.params.alloc num size with online := true, waiter := false } := by
    rw [State.ring, hchan, modRing_ring_self, State.ring]
  refine ⟨reallocated tid c d num size s, exec_cont_realloc hi hmem hcall, ?pool, ?listed, ?allocated, ?online,
    ?waiter, ?rest, ?chan, ?other, callOf_dropCall_same .., ?calls, reallocated_respLog .., ?bytes,
    samePort_reallocRing .., sameRest_reallocRing ..⟩
  case pool => rintro bytes halloc; rw [halloc]; exact allocOk_pool
  case listed => rintro pairs halloc; rw [halloc]; exact decide_eq_true_iff
  case allocated => rw [hring]; exact allocate_allocated s.params.alloc num size (s.ring c d)
  case online => rw [hring]
  case waiter => rw [hring]
  case rest => intro d' hd; rw [State.ring, hchan, modRing_ring_of_ne _ _ hd, State.ring]
  case chan => rw [hchan]; cases d <;> rfl
  case other => rw [reallocated_chan, reallocRing_chan, if_neg (Ne.symm (other_ne c))]
  case calls =>
    intro u hu
    rw [← reallocRing_calls c d num size]
    exact callOf_dropCall_other _ hu
  case bytes =>
    intro a ha
    rw [← memRead_releaseRing_outside s.mem c d a ha, ← reallocRing_mem c d num size]
    rfl

end Sys2Proof.Machine
end

