-- ==== Sys2Proof/Proofs/Completion.lean ====
section
/-! Where the rules complete: in a state that meets the invariants of 10_state.md R50 every data movement finds its slot
in the state it needs and inside its storage, so each service, command and wait event answers a next state wherever it
is enabled (41_blocking_io.md R150, R161, R166; 93_implementation_defined.md U6, U15). -/

namespace Sys2Proof.Machine

open Sys2Proof

/-! ## Outcomes -/

/-- The outcome is a next state. -/
def Completes (r : Result) : Prop := ∃ t, r = .next t

theorem completes_next (s : State) : Completes (.next s) := ⟨s, rfl⟩

theorem Completes.andThen {r : Result} {f : State → Result} (h : Completes r)
    (hf : ∀ t, r = .next t → Completes (f t)) : Completes (andThen r f) := by
  obtain ⟨t, rfl⟩ := h
  exact hf t rfl

theorem completes_ite {p : Prop} [Decidable p] {r r' : Result} (h : p → Completes r) (h' : ¬ p → Completes r') :
    Completes (if p then r else r') := by
  split
  · next hp => exact h hp
  · next hp => exact h' hp

/-! ## The slots at the cursors -/

/-- The head slot of a ring with a frame is `READY` and its frame inside the storage (INV3, INV6 of 10_state.md R50). -/
theorem head_ready {rb : Ring} (hs : RingShape rb) (hq : QueuedReady rb) (hpos : 0 < rb.entryCount) :
    rb.headReady = true ∧ (rb.slot rb.head).len ≤ rb.fsz := by
  have hh := head_lt_cap_of_pos hs hpos
  obtain ⟨hready, hlen⟩ := hq _ hh (by rwa [age_head hh])
  exact ⟨decide_eq_true hready, hlen⟩

/-- With room, the tail is a slot of the ring that is not queued. -/
theorem tail_unqueued {rb : Ring} (hs : RingShape rb) (hroom : rb.entryCount ≠ rb.cap) :
    rb.tail < rb.cap ∧ rb.entryCount ≤ rb.age rb.tail := by
  have hle := entryCount_le_cap hs
  have ht : rb.tail < rb.cap := tail_lt_cap hs (by omega)
  exact ⟨ht, ((age_eq_entryCount_iff hs hroom ht).mpr rfl).ge⟩

theorem TxOk.tail_empty {x : Channel} (h : TxOk x) (hroom : x.tx.entryCount ≠ x.tx.cap) :
    (x.tx.slot x.tx.tail).state = .empty := by
  obtain ⟨ht, hage⟩ := tail_unqueued h.shape hroom
  exact (h.others _ ht hage).1

/-- The tail slot of a receive ring with room is empty, or in mode `ASYNC` holds a partial frame shorter than a slot. -/
theorem RxOk.tail_partial {x : Channel} (h : RxOk x) (hroom : x.rx.entryCount ≠ x.rx.cap) :
    (x.rx.slot x.rx.tail).state = .empty ∨
      (x.mode = .async ∧ (x.rx.slot x.rx.tail).state = .filling ∧ (x.rx.slot x.rx.tail).fill < x.rx.fsz) := by
  obtain ⟨ht, hage⟩ := tail_unqueued h.shape hroom
  obtain ⟨hempty, -⟩ | ⟨-, hfilling, -, hlt⟩ := h.others _ ht hage
  · exact .inl hempty
  · refine .inr ⟨?_, hfilling, hlt⟩
    cases hm : x.mode with
    | sync => exact absurd hfilling (h.sync hm _ ht)
    | async => rfl

theorem RxOk.partialFill_lt {x : Channel} (h : RxOk x) (hroom : x.rx.entryCount ≠ x.rx.cap) :
    partialFill x.rx < x.rx.fsz := by
  obtain ⟨-, -, hpos, -⟩ := h.shape
  unfold partialFill
  split
  · next hf =>
    obtain hempty | ⟨-, -, hlt⟩ := h.tail_partial hroom
    · rw [Ring.filling, hempty] at hf
      cases hf
    · exact hlt
  · exact hpos

/-! ## Data movements -/

theorem completes_enqueue {c : Chan} {d : Dir} {data : List Byte} {s : State} (hs : RingShape (s.ring c d))
    (hroom : (s.ring c d).entryCount ≠ (s.ring c d).cap) (hfit : data.length ≤ (s.ring c d).fsz)
    (hempty : ((s.ring c d).slot (s.ring c d).tail).state = .empty) : Completes (enqueue c d data s) := by
  have ht := (tail_unqueued hs hroom).1
  exact ⟨_, enqueue_eq_next.mpr ⟨by rwa [slots_length hs], hfit, hempty, rfl⟩⟩

theorem completes_txSyncStart {c : Chan} {s : State} (hs : TxOk (s.chan c)) : Completes (txSyncStart c s) := by
  cases ha : (s.ring c .tx).avail with
  | false => exact ⟨_, txSyncStart_eq_next.mpr (.inl ⟨ha, rfl⟩)⟩
  | true =>
    obtain ⟨hready, hlen⟩ := head_ready hs.shape hs.queued (avail_eq_true.mp ha).2
    exact ⟨_, txSyncStart_eq_next.mpr (.inr ⟨ha, hready, hlen, rfl⟩)⟩

theorem completes_txAsyncSend {c : Chan} {s : State} (hready : (s.ring c .tx).headReady = true)
    (hfill : ((s.ring c .tx).slot (s.ring c .tx).head).fill < (s.ring c .tx).fsz) : Completes (txAsyncSend c s) := by
  simp only [txAsyncSend, hready, Nat.not_le.mpr hfill, Bool.not_true, Bool.false_eq_true, if_false]
  exact completes_ite (fun _ => completes_next _) (fun _ => completes_next _)

theorem completes_txAsyncByte {c : Chan} {s : State} (hs : TxOk (s.chan c)) : Completes (txAsyncByte c s) := by
  unfold txAsyncByte
  refine completes_ite (fun hact => ?active) fun hidle => completes_ite (fun hav => ?start) fun _ => completes_next _
  case active =>
    obtain ⟨hpos, -, hlt, -⟩ := hs.head_of_sendByte (.inl ⟨hact, rfl⟩)
    obtain ⟨hready, hlen⟩ := head_ready hs.shape hs.queued hpos
    exact completes_txAsyncSend hready (Nat.lt_of_lt_of_le hlt hlen)
  case start =>
    have hidle : (s.chan c).txActive = false := by simpa using hidle
    obtain ⟨hpos, hon, hlt, -⟩ := hs.head_of_sendByte (.inr ⟨hidle, hav, rfl⟩)
    obtain ⟨hready, hlen⟩ := head_ready hs.shape hs.queued hpos
    have hh := head_lt_cap_of_pos hs.shape hpos
    have hfill := hs.unsent hon _ hh (.inl hidle)
    have hchan := txAsyncActivate_chan (by rwa [slots_length hs.shape]) hfill
    refine completes_txAsyncSend ?_ ?_
    · rw [ring_tx, hchan]; exact hready
    · rw [ring_tx, hchan]; exact hfill ▸ Nat.lt_of_lt_of_le hlt hlen

theorem completes_appendByte {c : Chan} {b : Byte} {s : State} (hs : RxOk (s.chan c))
    (hroom : (s.chan c).rx.entryCount ≠ (s.chan c).rx.cap) : Completes (appendByte c b s) := by
  have ht := (tail_unqueued hs.shape hroom).1
  have hin : ¬ ((s.ring c .rx).slots.length ≤ (s.ring c .rx).tail ∨ (s.ring c .rx).fsz ≤ partialFill (s.ring c .rx)) :=
    not_or.mpr ⟨by rw [ring_rx, slots_length hs.shape]; omega, Nat.not_le.mpr (hs.partialFill_lt hroom)⟩
  have hslot : ((s.ring c .rx).slot (s.ring c .rx).tail).state = .empty ∨
      ((s.ring c .rx).slot (s.ring c .rx).tail).state = .filling :=
    (hs.tail_partial hroom).imp_right fun h => h.2.1
  simp only [appendByte, hin, hslot, if_false, if_true]
  exact completes_next _

/-! ## The services -/

theorem fifoBytes_length (c : Chan) (n : Nat) (s : State) : (fifoBytes c n s).length = n := by
  induction n generalizing s with
  | zero => rfl
  | succ n ih => rw [fifoBytes, List.length_cons, ih]

theorem completes_rxSyncEntry {c : Chan} {s : State} (hs : Inv s) (hm : (s.chan c).mode = .sync)
    (hroom : (s.chan c).rx.full = false) : Completes (rxSyncEntry c s) := by
  refine completes_ite (fun _ => completes_next _) fun _ => completes_ite (fun _ => completes_next _) fun hfit => ?_
  have hx := rxOk_of_inv hs c
  have hcount := (full_eq_false.mp hroom).1
  refine Completes.andThen (completes_enqueue ?shape ?room ?fit ?empty) fun t _ => completes_next _
  case shape => simpa using hx.shape
  case room => simpa using hcount
  case fit => rw [fifoBytes_length]; simpa using hfit
  case empty =>
    have htail := (hx.tail_partial hcount).resolve_right fun h => absurd (hm.symm.trans h.1) (by decide)
    simpa using htail

theorem completes_rxSyncLoop {c : Chan} {dk : BitVec 4} {n : Nat} {s : State} (hs : Inv s) (hi : s.dev.inIsr = true)
    (hm : (s.chan c).mode = .sync) : Completes (rxSyncLoop c dk n s) := by
  induction n generalizing s with
  | zero => exact completes_next _
  | succ n ih =>
    by_cases hne : rsSfne (portAnswer c .rs s) = true
    · by_cases hfull : (s.ring c .rx).full = true
      · rw [rxSyncLoop_full hne hfull]
        exact completes_next _
      · rw [rxSyncLoop_entry hne (by simpa using hfull)]
        have hread := moves_regRead c .rs s
        have hroom : ((regRead c .rs s).chan c).rx.full = false := by simpa using hfull
        refine (completes_rxSyncEntry (moves_inv hread hs) (by simpa using hm) hroom).andThen fun t ht => ?_
        have hmoves := hread.trans (moves_rxSyncEntry hroom ht)
        obtain ⟨hi', hm'⟩ := moves_serving hmoves hi
        exact ih (moves_inv hmoves hs) hi' ((hm' c).trans hm)
    · rw [rxSyncLoop_empty (by simpa using hne)]
      exact completes_next _

theorem completes_goodCharacter {c : Chan} {s : State} (hs : Inv s) (hroom : (s.chan c).rx.full = false) :
    Completes (goodCharacter c s) := by
  have hmoves := (moves_qfullCount (s := s) c (fun _ => 0) (by simp)).trans (moves_regRead c .rxfifo _)
  exact completes_appendByte (rxOk_of_inv (moves_inv hmoves hs) c) (by simpa using (full_eq_false.mp hroom).1)

theorem completes_rxAsyncLoop {c : Chan} {dk : BitVec 4} {n : Nat} {s : State} (hs : Inv s) (hi : s.dev.inIsr = true)
    (hm : (s.chan c).mode = .async) : Completes (rxAsyncLoop c dk n s) := by
  induction n generalizing s with
  | zero => exact completes_next _
  | succ n ih =>
    have hread := moves_regRead c .rs s
    have again : ∀ {u : State}, Moves s u → Completes (rxAsyncLoop c dk n u) := by
      intro u hmoves
      obtain ⟨hi', hm'⟩ := moves_serving hmoves hi
      exact ih (moves_inv hmoves hs) hi' ((hm' c).trans hm)
    by_cases hne : rsRca (portAnswer c .rs s) = true
    · by_cases hbad : rsRxe (portAnswer c .rs s) = true
      · rw [rxAsyncLoop_bad hne hbad]
        exact again (hread.trans (moves_badCharacter c _ _))
      · have hgood : rsRxe (portAnswer c .rs s) = false := by simpa using hbad
        by_cases hfull : (s.ring c .rx).full = true
        · rw [rxAsyncLoop_full hne hgood hfull]
          exact completes_next _
        · rw [rxAsyncLoop_good hne hgood (by simpa using hfull)]
          have hroom : ((regRead c .rs s).chan c).rx.full = false := by simpa using hfull
          exact (completes_goodCharacter (moves_inv hread hs) hroom).andThen fun t ht =>
            again (hread.trans (moves_goodCharacter (by simpa using hm) hroom ht))
    · rw [rxAsyncLoop_empty (by simpa using hne)]
      exact completes_next _

theorem completes_txSyncService {c : Chan} {s : State} (hs : Inv s) : Completes (txSyncService c s) :=
  (completes_txSyncStart (txOk_of_inv hs c)).andThen fun _ _ => completes_next _

theorem completes_txAsyncService {c : Chan} {s : State} (hs : Inv s) : Completes (txAsyncService c s) :=
  (completes_txAsyncByte (txOk_of_inv hs c)).andThen fun _ _ => completes_next _

/-! ## The dispatcher -/

/-- A key with a pending bit selects a service (30_encoding.md R112). -/
theorem serviceOf_pending {m : Mode} {ip : BitVec 3} (h : ip ≠ 0#3) : serviceOf (dispatchKey m ip) ≠ none := by
  revert ip
  cases m <;> decide

theorem serviceOf_rx {dk : BitVec 4} (h : dk.getLsbD 2 = true) : serviceOf dk ≠ none := by
  simp [serviceOf, h]

theorem completes_runService {c : Chan} {dk : BitVec 4} {s : State} (hs : Inv s) (hi : s.dev.inIsr = true)
    (hdk : dk.getLsbD 3 = (s.chan c).mode.bit) (hsvc : serviceOf dk ≠ none) : Completes (runService c dk s) := by
  obtain ⟨hrs, hra, -, -⟩ := serviceOf_bits dk
  unfold runService
  split
  case h_1 hk => exact completes_rxSyncLoop hs hi (mode_of_bit.1 (hdk.symm.trans (hrs hk).2))
  case h_2 hk => exact completes_rxAsyncLoop hs hi (mode_of_bit.2 (hdk.symm.trans (hra hk).2))
  case h_3 => exact completes_txSyncService hs
  case h_4 => exact completes_txAsyncService hs
  case h_5 => exact completes_next _
  case h_6 hk => exact absurd hk hsvc

theorem moves_setHandled (s : State) : Moves s { s with dev := { s.dev with isrHandled := true } } :=
  moves_quiet (.of_eq rfl rfl rfl rfl rfl rfl rfl) fun c => chan_with_dev s c _

theorem completes_dispatch {c : Chan} {ip : BitVec 3} {s : State} (hs : Inv s) (hi : s.dev.inIsr = true)
    (hip : ip ≠ 0#3) : Completes (dispatch c ip s) :=
  completes_runService (s := { s with dev := { s.dev with isrHandled := true } }) (moves_inv (moves_setHandled s) hs) hi
    (dispatchKey_mode _ _) (serviceOf_pending hip)

theorem completes_scan {s : State} (hs : Inv s) (hi : s.dev.inIsr = true) : Completes (scan s) := by
  have hs0 := moves_inv (moves_regRead .ch0 .ip s) hs
  by_cases h0 : ipBits (portAnswer .ch0 .ip s) = 0#3
  · by_cases h1 : ipBits (portAnswer .ch1 .ip (regRead .ch0 .ip s)) = 0#3
    · rw [scan_none h0 h1]
      exact completes_next _
    · rw [scan_second h0 h1]
      exact completes_dispatch (moves_inv (moves_regRead .ch1 .ip _) hs0) hi h1
  · rw [scan_first h0]
    exact completes_dispatch hs0 hi h0

/-- An iteration of the dispatcher, or the rest of a service in progress, answers a next state wherever an interrupt
may be taken (44_isr_dispatcher.md R200). -/
theorem completes_execIrq {s : State} (hs : Inv s) (h : (s.dev.inIsr || s.dev.irqEnable) = true) :
    Completes (execIrq s) := by
  have hs' := moves_inv (moves_enterInterrupt s) hs
  have hi := enterInterrupt_inIsr s
  unfold execIrq
  rw [if_pos h]
  split
  · next k hk =>
    obtain ⟨-, hrx, hmode⟩ := hs.service k (by simp [hk])
    exact completes_runService hs' hi (by simpa using hmode) (serviceOf_rx hrx)
  · exact completes_scan hs' hi

/-! ## `WRITE` and `READ` -/

theorem completes_sendAttempt {c : Chan} {s : State} (hs : TxOk (s.chan c)) : Completes (sendAttempt c s) := by
  unfold sendAttempt
  split
  · exact completes_ite (fun _ => completes_txSyncStart hs) fun _ => completes_next _
  · exact completes_ite (fun _ => completes_txAsyncByte hs) fun _ => completes_next _

theorem completes_runWrite (tid : Tid) (c : Chan) (payload : List Byte) {s : State} (hs : Inv s) :
    Completes (runWrite tid c payload s) := by
  refine completes_ite (fun _ => completes_next _) fun hne => completes_ite (fun _ => completes_next _) fun hfit =>
    completes_ite (fun _ => completes_ite (fun _ => completes_next _) fun _ => completes_next _) fun hroom => ?_
  have hx := txOk_of_inv hs c
  have hfit : payload.length ≤ (s.ring c .tx).fsz := Nat.le_of_not_lt hfit
  obtain ⟨hcount, hon⟩ := full_eq_false.mp (Bool.not_eq_true _ ▸ hroom)
  refine (completes_enqueue (d := .tx) hx.shape hcount hfit (hx.tail_empty hcount)).andThen fun u hu => ?_
  have hqueue := moves_enqueue hu fun hn => .queueTx _ _ hcount hon (Nat.pos_of_ne_zero hne) hn
  exact (completes_sendAttempt (txOk_of_inv (moves_inv hqueue hs) c)).andThen fun _ _ => completes_next _

theorem completes_deliver (tid : Tid) {c : Chan} (maxLen : Nat) {s : State} (hs : Inv s)
    (hpos : 0 < (s.chan c).rx.entryCount) : Completes (deliver tid c maxLen s) := by
  have hx := rxOk_of_inv hs c
  obtain ⟨hready, hlen⟩ := head_ready hx.shape hx.queued hpos
  by_cases hmax : maxLen < ((s.ring c .rx).slot (s.ring c .rx).head).len
  · exact ⟨_, deliver_eq_next.mpr ⟨hready, .inl ⟨hmax, rfl⟩⟩⟩
  · exact ⟨_, deliver_eq_next.mpr ⟨hready, .inr ⟨Nat.le_of_not_lt hmax, hlen, rfl⟩⟩⟩

theorem completes_runRead (tid : Tid) (c : Chan) (maxLen : Nat) {s : State} (hs : Inv s) :
    Completes (runRead tid c maxLen s) := by
  unfold runRead
  split
  · exact completes_next _
  · refine completes_ite (fun ha => completes_deliver tid maxLen hs (avail_eq_true.mp ha).2) fun ha =>
      completes_ite (fun hf => ?flush) fun _ =>
        completes_ite (fun _ => completes_next _) fun _ => completes_next _
    have hflush := moves_flushOnRead (Bool.not_eq_true _ ▸ ha) hf
    exact completes_deliver tid maxLen (moves_inv hflush hs) (by rw [flushOnRead_entryCount]; exact Nat.succ_pos _)

/-! ## The commands -/

theorem completes_asCommand {tid : Tid} {s : State} {f : State → Result} (hen : commandEnabled tid s = true)
    (h : Completes (f s)) : Completes (asCommand tid s f) := by
  rwa [asCommand_enabled f hen]

/-- A value that is not legal is answered too (45_config_control.md R215). -/
theorem completes_checked {tid : Tid} {legal : Bool} {s : State} {f : State → Result} (h : Completes (f s)) :
    Completes (checked tid legal s f) :=
  completes_ite (fun _ => h) fun _ => completes_next _

/-- `CFG.MODE` to another mode is refused on a channel that is not quiescent (45_config_control.md R218). -/
theorem execCfgMode_completes_or_busy {tid : Tid} (c : Chan) (v : Word) {s : State} (hen : commandEnabled tid s = true) :
    Completes (execCfgMode tid c v s) ∨
      (v.toNat ≤ 1 ∧ quiescent (s.chan c) = false ∧ execCfgMode tid c v s = .refused .modeChangeBusy) := by
  rw [execCfgMode, asCommand_enabled _ hen]
  cases hv : legalBit v with
  | false => exact .inl (completes_next _)
  | true =>
    cases hq : quiescent (s.chan c) with
    | true =>
      rw [checked, if_pos rfl, hq]
      exact .inl (completes_ite (fun _ => completes_next _) fun _ => completes_next _)
    | false =>
      by_cases hm : valueMode v = (s.chan c).mode
      · rw [checked, if_pos rfl, if_pos hm]
        exact .inl (completes_next _)
      · rw [checked, if_pos rfl, if_neg hm, hq]
        exact .inr ⟨of_decide_eq_true hv, rfl, rfl⟩

/-- Settles O20: outside `CFG.MODE`, what a command can stop at is a data movement, and these complete. -/
theorem everyCommandCompletes : Obligations.EveryCommandCompletes := by
  intro s tid i hs hi hen
  have always : Completes (exec i s) → (∃ t, exec i s = .next t) ∨ (∃ c v, i = .cfgMode tid c v ∧ v.toNat ≤ 1 ∧
      quiescent (s.chan c) = false ∧ exec i s = .refused .modeChangeBusy) := .inl
  cases i with
  | cont | resume | timeout | abort | svcRxSync | svcRxAsync | svcTxSync | svcTxAsync | svcExt | irq => cases hi
  | cfgMode tid c v =>
    cases hi
    exact (execCfgMode_completes_or_busy c v hen).imp_right fun h => ⟨c, v, rfl, h⟩
  | write tid c payload => cases hi; exact always (completes_asCommand hen (completes_runWrite tid c payload hs))
  | read tid c maxLen => cases hi; exact always (completes_asCommand hen (completes_runRead tid c _ hs))
  | cfgRxEn | cfgTxEn =>
    cases hi
    refine always ?_
    simp only [exec, execCfgRxEn, execCfgTxEn, asCommand_enabled _ hen]
    exact completes_checked (completes_ite (fun _ => completes_next _) fun _ => completes_next _)
  | resetChannel | resetDevice =>
    cases hi
    refine always ?_
    simp only [exec, execResetChannel, execResetDevice, asCommand_enabled _ hen]
    exact completes_next _
  | _ =>
    cases hi
    refine always ?_
    simp only [exec, execCfgTxSize, execCfgTxNum, execCfgRxSize, execCfgRxNum, execCfgRdTmo, execCfgWrTmo, execCfgWMark,
      execCfgIrqEn, execCfgGIrqEn, execNotifyInstall, execNotifyRemove, asCommand_enabled _ hen]
    exact completes_checked (completes_next _)

/-! ## The wait events -/

/-- The command of a blocked call, run again from its step 1 (41_blocking_io.md R161). -/
def rerun (tid : Tid) (b : Blocked) (s : State) : Result :=
  match b.op with
  | .write payload => runWrite tid b.ch payload (leave tid b s)
  | .read maxLen => runRead tid b.ch maxLen (leave tid b s)

theorem execResume_eq_rerun {tid : Tid} {b : Blocked} {s : State} (hfree : callersFree s = true)
    (hb : callOf s.calls tid = some (.blocked b)) : execResume tid s = rerun tid b s := by
  simp only [execResume, asBlocked, hfree, hb, if_true]
  rfl

theorem completes_rerun (tid : Tid) {b : Blocked} {s : State} (hs : Inv s)
    (hb : callOf s.calls tid = some (.blocked b)) : Completes (rerun tid b s) := by
  have hleave := moves_inv (moves_leave hb) hs
  unfold rerun
  split
  · exact completes_runWrite tid b.ch _ hleave
  · exact completes_runRead tid b.ch _ hleave

/-! ## No fault and no broken record -/

/-- The outcome is neither of the two that a broken invariant leads to (93_implementation_defined.md U6). -/
def Sound (r : Result) : Prop := r ≠ .fault .slotOutside ∧ r ≠ .refused .outsideSpec

theorem Completes.sound {r : Result} (h : Completes r) : Sound r := by
  obtain ⟨t, rfl⟩ := h
  exact ⟨nofun, nofun⟩

theorem sound_refused {e : Refusal} (h : e ≠ .outsideSpec) : Sound (.refused e) :=
  ⟨nofun, fun he => h (Host.Outcome.refused.inj he)⟩

theorem sound_ite {p : Prop} [Decidable p] {r r' : Result} (h : p → Sound r) (h' : ¬ p → Sound r') :
    Sound (if p then r else r') := by
  split
  · next hp => exact h hp
  · next hp => exact h' hp

theorem sound_asService {c : Chan} {m : Mode} {s : State} {f : State → Result}
    (h : s.dev.inIsr = true → (s.chan c).mode = m → Completes (f s)) : Sound (asService c m s f) := by
  refine sound_ite (fun hi => ?_) fun _ => sound_refused nofun
  obtain ⟨hi, hm⟩ := (Bool.and_eq_true ..).mp hi
  exact (h hi (of_decide_eq_true hm)).sound

theorem sound_asBlocked {tid : Tid} {s : State} {f : Blocked → Result}
    (h : ∀ b, callersFree s = true → callOf s.calls tid = some (.blocked b) → Sound (f b)) :
    Sound (asBlocked tid s f) := by
  refine sound_ite (fun hfree => ?_) fun _ => sound_refused nofun
  split
  · next b hb => exact h b hfree hb
  · exact sound_refused nofun
  · exact sound_refused nofun

theorem sound_execCont {tid : Tid} {s : State} (hs : Inv s) : Sound (execCont tid s) := by
  refine sound_ite (fun _ => sound_refused nofun) fun _ => ?_
  split
  · next cw w1 hcall =>
    obtain ⟨ts, hmid⟩ := midStep_of_legal (hs.legal _ (mem_of_callOf hcall))
    rw [hmid]
    exact (completes_next _).sound
  · exact sound_refused nofun
  · exact sound_refused nofun

theorem sound_exec_command {i : Instr} {tid : Tid} {s : State} (hs : Inv s) (hi : commandTid i = some tid) :
    Sound (exec i s) := by
  cases hen : commandEnabled tid s with
  | false =>
    rw [exec_of_not_commandEnabled hi hen]
    exact sound_refused nofun
  | true =>
    obtain hc | ⟨c, v, rfl, -, -, hbusy⟩ := everyCommandCompletes s tid i hs hi hen
    · exact Completes.sound hc
    · rw [hbusy]
      exact sound_refused nofun

theorem sound_exec {s : State} (hs : Inv s) (i : Instr) : Sound (exec i s) := by
  cases i with
  | svcRxSync c tx ext => exact sound_asService fun hi hm => completes_rxSyncLoop hs hi hm
  | svcRxAsync c tx ext => exact sound_asService fun hi hm => completes_rxAsyncLoop hs hi hm
  | svcTxSync c ext => exact sound_asService fun _ _ => completes_txSyncService hs
  | svcTxAsync c ext => exact sound_asService fun _ _ => completes_txAsyncService hs
  | svcExt c async => exact sound_asService fun _ _ => completes_next _
  | irq =>
    cases hi : s.dev.inIsr || s.dev.irqEnable with
    | true => exact (completes_execIrq hs hi).sound
    | false =>
      rw [exec, execIrq, hi]
      exact sound_refused nofun
  | cont tid => exact sound_execCont hs
  | resume tid => exact sound_asBlocked fun b _ hb => (completes_rerun tid hs hb).sound
  | timeout tid =>
    exact sound_asBlocked fun b _ _ => sound_ite (fun _ => (completes_next _).sound) fun _ => sound_refused nofun
  | abort tid => exact sound_asBlocked fun b _ _ => (completes_next _).sound
  | _ => exact sound_exec_command hs rfl

/-- The deliveries that are no instruction are refused by names of their own (30_encoding.md R109, R112, R113). -/
theorem fetch_ne_outsideSpec (s : State) : fetch s ≠ .reject .outsideSpec := by
  have hcommand : ∀ k, fetchCommand k ≠ .reject .outsideSpec := by
    intro k
    unfold fetchCommand
    split <;> nofun
  have hevent : ∀ ev tid, fetchEvent ev tid ≠ .reject .outsideSpec := by
    intro ev tid
    unfold fetchEvent
    split <;> nofun
  unfold fetch
  split
  · split <;> nofun
  · split
    · nofun
    · split
      · nofun
      · exact hcommand _
      · exact hevent _ _
      · nofun

/-- Settles O14: every meaning completes or refuses for a reason of its own in an invariant state, and the fetch keeps the
invariants. -/
theorem invariantStatesNeverFault : Obligations.InvariantStatesNeverFault := by
  intro s hs
  change Sound (step s)
  unfold step
  split
  · exact (completes_next s).sound
  · exact sound_exec (moves_inv (moves_advance s) hs) _
  · exact sound_ite (fun _ => (completes_next _).sound) fun _ => sound_refused nofun
  · next r hr => exact sound_refused fun h => fetch_ne_outsideSpec s (h ▸ hr)
  · unfold injectEvent
    split
    · exact (completes_next _).sound
    · exact sound_refused nofun

end Sys2Proof.Machine
end

