-- ==== Sys2Proof/Proofs/Waiting.lean ====
section
/-! The wait protocol on the thread table: `block`, `Leave` and `Wake` with everything they leave alone, and the three
events that end a wait (41_blocking_io.md R157 to R163). -/

namespace Sys2Proof.Machine

open Sys2Proof

/-! ## `Wake` -/

/-- An entry changed in place is found where it was. -/
theorem callOf_map (f : Call → Call) (calls : List (Tid × Call)) (tid : Tid) :
    callOf (calls.map fun e => (e.1, f e.2)) tid = (callOf calls tid).map f := by
  induction calls with
  | nil => rfl
  | cons e rest ih =>
    obtain ⟨t, k⟩ := e
    rw [List.map_cons, callOf, callOf]
    split
    · rfl
    · exact ih

theorem callOf_wake {c : Chan} {d : Dir} {s : State} (h : (s.ring c d).waiter = true) (tid : Tid) :
    callOf (wake c d s).calls tid = (callOf s.calls tid).map fun k => k.wake c d := by
  rw [wake_calls, if_pos h, callOf_map fun k => k.wake c d]

/-- `Wake` makes no `Idle` thread busy. -/
theorem idle_wake {c : Chan} {d : Dir} {s : State} {tid : Tid} (h : callOf s.calls tid = none) :
    callOf (wake c d s).calls tid = none := by
  cases hw : (s.ring c d).waiter with
  | true => rw [callOf_wake hw, h]; rfl
  | false => rwa [wake_eq, hw]

/-- `Wake` sets the `woken` bit of the records that wait on the ring, and of no other. -/
theorem wake_blocked (b : Blocked) (c : Chan) (d : Dir) :
    (Call.blocked b).wake c d = if b.ch = c ∧ b.dir = d then .blocked { b with woken := true } else .blocked b := by
  simp only [Call.wake, Call.waitsOn, Bool.and_eq_true, decide_eq_true_eq]

theorem sameRest_wake (c : Chan) (d : Dir) (s : State) : SameRest s (wake c d s) :=
  ⟨wake_dev .., wake_sigLog .., wake_key .., wake_irqLog .., wake_schedule .., wake_params ..⟩

theorem modRing_but_rings (x : Channel) (d : Dir) (f : Ring → Ring) :
    x.modRing d f = { x with tx := (x.modRing d f).tx, rx := (x.modRing d f).rx } := by
  cases d <;> rfl

/-- Settles O32: `Wake` is the flag and the `woken` bits of the records on the ring. -/
theorem wakeSignalsEveryWaiter : Obligations.WakeSignalsEveryWaiter := by
  intro s c d
  refine ⟨fun hw => by rw [wake_eq, hw]; rfl, fun hw => ⟨?ring, ?asleep, ?woken, fun tid => idle_wake,
    fun a => congrArg (memRead · a) (wake_mem ..), ⟨wake_portLog .., wake_oracle ..⟩, sameRest_wake c d s,
    wake_respLog .., ?others, ?chan⟩⟩
  case ring => rw [wake_ring, if_pos ⟨rfl, rfl⟩, Ring.setWaiter]
  case asleep => rw [wake_calls, if_pos hw, anyAsleep_wake]
  case woken =>
    intro tid k hk
    rw [callOf_wake hw, hk, Option.map_some]
    cases k with
    | blocked b => rw [wake_blocked]
    | mid cw w1 => rfl
  case others =>
    intro c' d' hne
    rw [wake_ring, if_neg fun ⟨hc, hd⟩ => hne (by rw [hc, hd])]
  case chan =>
    intro c'
    rw [wake_chan]
    split
    · next hc => rw [hc]; exact modRing_but_rings _ d _
    · rfl

/-! ## `block` -/

/-- The state in which thread `tid` waits with the record `b` (41_blocking_io.md R157). -/
def parked (tid : Tid) (b : Blocked) (s : State) : State :=
  { s.modRing b.ch b.dir fun rb => { rb with waiter := true } with calls := insertCall s.calls tid (.blocked b) }

theorem block_eq (tid : Tid) (b : Blocked) (s : State) : block tid b s = .next (parked tid b s) := rfl

theorem callIs_parked (tid : Tid) (b : Blocked) (s : State) : CallIs s (parked tid b s) tid (some (.blocked b)) :=
  ⟨callOf_insertCall_same .., fun _ hu => callOf_insertCall_other _ _ hu⟩

theorem parked_chan_same (tid : Tid) (b : Blocked) (s : State) :
    (parked tid b s).chan b.ch = (s.chan b.ch).modRing b.dir fun rb => { rb with waiter := true } := by
  rw [parked, chan_with_calls, modRing_chan_same]

theorem parked_chan_other (tid : Tid) (b : Blocked) (s : State) :
    (parked tid b s).chan b.ch.other = s.chan b.ch.other := by
  rw [parked, chan_with_calls, modRing_chan_other]

@[simp] theorem parked_mem (tid : Tid) (b : Blocked) (s : State) : (parked tid b s).mem = s.mem := modRing_mem ..

theorem sameBytes_of_mem {s t : State} (h : t.mem = s.mem) : SameBytes s t := fun a => by rw [h]

@[simp] theorem parked_respLog (tid : Tid) (b : Blocked) (s : State) : (parked tid b s).respLog = s.respLog :=
  modRing_respLog ..

theorem samePort_parked (tid : Tid) (b : Blocked) (s : State) : SamePort s (parked tid b s) :=
  ⟨modRing_portLog .., modRing_oracle ..⟩

theorem sameRest_parked (tid : Tid) (b : Blocked) (s : State) : SameRest s (parked tid b s) :=
  ⟨modRing_dev .., modRing_sigLog .., modRing_key .., modRing_irqLog .., modRing_schedule .., modRing_params ..⟩

/-! ## `Leave` -/

theorem leave_ring (tid : Tid) (b : Blocked) (s : State) (c : Chan) (d : Dir) :
    (leave tid b s).ring c d =
      if c = b.ch ∧ d = b.dir then (s.ring c d).setWaiter (anyAsleep (dropCall s.calls tid) b.ch b.dir)
      else s.ring c d := by
  rw [leave, ring_with_calls]
  exact setWaiter_ring s b.ch b.dir _ c d

theorem leave_chan (tid : Tid) (b : Blocked) (s : State) (c : Chan) :
    (leave tid b s).chan c =
      { s.chan c with tx := ((leave tid b s).chan c).tx, rx := ((leave tid b s).chan c).rx } := by
  rw [leave, chan_with_calls, modRing_chan]
  split
  · exact modRing_but_rings _ _ _
  · rfl

theorem callIs_leave (tid : Tid) (b : Blocked) (s : State) : CallIs s (leave tid b s) tid none :=
  ⟨callOf_dropCall_same .., fun _ hu => callOf_dropCall_other _ hu⟩

theorem sameRest_leave (tid : Tid) (b : Blocked) (s : State) : SameRest s (leave tid b s) :=
  ⟨leave_dev .., leave_sigLog .., leave_key .., leave_irqLog .., leave_schedule .., leave_params ..⟩

theorem anyMid_dropCall {calls : List (Tid × Call)} (h : anyMid calls = false) (tid : Tid) :
    anyMid (dropCall calls tid) = false := by
  rw [anyMid, List.any_eq_false] at h ⊢
  exact fun e he => h e (List.mem_of_mem_filter he)

/-- A thread that has left its wait may issue a command. -/
theorem commandEnabled_leave {tid : Tid} {s : State} (h : callersFree s = true) (b : Blocked) :
    commandEnabled tid (leave tid b s) = true := by
  obtain ⟨hi, hfree⟩ := callersFree_iff.mp h
  exact commandEnabled_iff.mpr ⟨by simpa using hi, anyMid_dropCall hfree tid, callOf_dropCall_same ..⟩

/-! ## `TIMEOUT` and `ABORT` -/

theorem exec_timeout_eq_next {tid : Tid} {s t : State} :
    exec (.timeout tid) s = .next t ↔
      callersFree s = true ∧ ∃ b, callOf s.calls tid = some (.blocked b) ∧ 0 < b.tmo.toInt ∧
        t = respond tid 0 .timeout [] (leave tid b s) := by
  rw [exec, execTimeout, asBlocked_eq_next]
  refine and_congr_right fun _ => exists_congr fun b => and_congr_right fun _ => ?_
  rw [finiteWait]
  split
  · next h => simp [fail, of_decide_eq_true h, eq_comm]
  · next h => simp [of_decide_eq_false (Bool.not_eq_true _ ▸ h)]

theorem exec_abort_eq_next {tid : Tid} {s t : State} :
    exec (.abort tid) s = .next t ↔
      callersFree s = true ∧ ∃ b, callOf s.calls tid = some (.blocked b) ∧ True ∧
        t = respond tid 0 .interrupted [] (leave tid b s) := by
  rw [exec, execAbort, asBlocked_eq_next]
  simp only [fail, Host.Outcome.next.injEq, true_and, eq_comm]

/-- Settles O35: both events are `Leave` and a response. -/
theorem timeoutAndAbortEndAWait : Obligations.TimeoutAndAbortEndAWait := by
  intro s tid i mayFire word hi
  obtain ⟨e, hword, hexec⟩ : ∃ e, word = responseWord 0 e ∧ ∀ t, exec i s = .next t ↔
      callersFree s = true ∧ ∃ b, callOf s.calls tid = some (.blocked b) ∧ mayFire b ∧
        t = respond tid 0 e [] (leave tid b s) := by
    obtain ⟨rfl, rfl, rfl⟩ | ⟨rfl, rfl, rfl⟩ := hi
    · exact ⟨.timeout, rfl, fun _ => exec_timeout_eq_next⟩
    · exact ⟨.interrupted, rfl, fun _ => exec_abort_eq_next⟩
  constructor
  · intro b hin hfree hb hfire
    have hring : ∀ c d, (respond tid 0 e [] (leave tid b s)).ring c d = (leave tid b s).ring c d := fun c d => by
      rw [State.ring, respond_chan, State.ring]
    refine ⟨_, (hexec _).mpr ⟨callersFree_iff.mpr ⟨hin, hfree⟩, b, hb, hfire, rfl⟩, ?answer, callIs_leave tid b s,
      ?ring, ?others, ?chan, sameBytes_of_mem (leave_mem ..), ⟨leave_portLog .., leave_oracle ..⟩,
      sameRest_leave tid b s⟩
    case answer => rw [hword]; exact congrArg (· ++ _) (leave_respLog ..)
    case ring => rw [hring, leave_ring, if_pos ⟨rfl, rfl⟩]; rfl
    case others =>
      intro c d hne
      rw [hring, leave_ring, if_neg fun ⟨hc, hd⟩ => hne (by rw [hc, hd])]
    case chan => intro c; rw [respond_chan]; exact leave_chan tid b s c
  · intro hbusy t ht
    obtain ⟨hcallers, b, hb, hfire, -⟩ := (hexec t).mp ht
    obtain ⟨hin, hfree⟩ := callersFree_iff.mp hcallers
    obtain h | h | h := hbusy
    · exact absurd (hin.symm.trans h) (by decide)
    · exact absurd (hfree.symm.trans h) (by decide)
    · exact h ⟨b, hb, hfire⟩

/-! ## `RESUME` -/

theorem exec_resume {tid : Tid} {b : Blocked} {s : State} (hfree : callersFree s = true)
    (hb : callOf s.calls tid = some (.blocked b)) : exec (.resume tid) s = rerun tid b s :=
  execResume_eq_rerun hfree hb

/-- Settles O33: after `Leave` the thread may issue a command, so its command runs. -/
theorem resumeRunsTheCommandAgain : Obligations.ResumeRunsTheCommandAgain := by
  intro s tid b hfree hb
  have hen := commandEnabled_leave (tid := tid) hfree b
  rw [exec_resume hfree hb, rerun]
  constructor
  · intro payload hop
    rw [hop, exec, execWrite, asCommand_enabled _ hen]
  · intro maxLen hop hlen
    rw [hop, exec, execRead, asCommand_enabled _ hen, BitVec.toNat_ofNat, Nat.mod_eq_of_lt hlen]

/-- The thread is `Idle` and has had one response. -/
def Answered (s t : State) (tid : Tid) : Prop :=
  callOf t.calls tid = none ∧ ∃ r : Response, r.tid = tid ∧ t.respLog = s.respLog ++ [r]

/-- The thread waits in an operation on a channel, unwoken, and has had no response. -/
def WaitsIn (s t : State) (tid : Tid) (op : CallOp) (c : Chan) : Prop :=
  t.respLog = s.respLog ∧
    ∃ b', callOf t.calls tid = some (.blocked b') ∧ b'.op = op ∧ b'.ch = c ∧ b'.woken = false

theorem answered_respond {s u : State} {tid : Tid} {n : Nat} {e : ErrCode} {out : List Byte}
    (hidle : callOf u.calls tid = none) (hlog : u.respLog = s.respLog) : Answered s (respond tid n e out u) tid :=
  ⟨hidle, _, rfl, by rw [respond_respLog, hlog]⟩

theorem waitsIn_block {s t : State} {tid : Tid} {op : CallOp} {c : Chan} {tmo : Word}
    (h : block tid ⟨op, c, tmo, false⟩ s = .next t) : WaitsIn s t tid op c := by
  cases h
  exact ⟨parked_respLog .., _, (callIs_parked ..).1, rfl, rfl, rfl⟩

theorem idle_txAsyncSend {c : Chan} {s t : State} {tid : Tid} (hidle : callOf s.calls tid = none)
    (h : txAsyncSend c s = .next t) : callOf t.calls tid = none := by
  rw [txAsyncSend_eq_next h]
  split
  · exact idle_wake (by simpa [bytePut] using hidle)
  · simpa [bytePut] using hidle

/-- The send attempt makes no `Idle` thread busy. -/
theorem idle_sendAttempt {c : Chan} {s t : State} {tid : Tid} (hidle : callOf s.calls tid = none)
    (h : sendAttempt c s = .next t) : callOf t.calls tid = none := by
  unfold sendAttempt at h
  split at h
  · split at h
    · obtain ⟨-, rfl⟩ | ⟨-, -, -, rfl⟩ := txSyncStart_eq_next.mp h
      · simpa using hidle
      · exact idle_wake (by simpa using hidle)
    · cases h; exact hidle
  · split at h
    · obtain ⟨-, -, rfl⟩ | ⟨-, h⟩ | ⟨-, -, h⟩ := txAsyncByte_eq_next.mp h
      · simpa using hidle
      · exact idle_txAsyncSend hidle h
      · exact idle_txAsyncSend (by simpa [txAsyncActivate] using hidle) h
    · cases h; exact hidle

theorem runWrite_ends {tid : Tid} {c : Chan} {payload : List Byte} {s t : State} (hidle : callOf s.calls tid = none)
    (h : runWrite tid c payload s = .next t) : Answered s t tid ∨ WaitsIn s t tid (.write payload) c := by
  have failed : ∀ {e : ErrCode}, fail tid e s = .next t → Answered s t tid := by
    rintro e ⟨⟩
    exact answered_respond hidle rfl
  unfold runWrite at h
  split at h
  · exact .inl (failed h)
  · split at h
    · exact .inl (failed h)
    · split at h
      · split at h
        · exact .inl (failed h)
        · exact .inr (waitsIn_block h)
      · obtain ⟨u, hu, h⟩ := andThen_eq_next.mp h
        obtain ⟨v, hv, h⟩ := andThen_eq_next.mp h
        cases h
        obtain ⟨-, -, -, rfl⟩ := enqueue_eq_next.mp hu
        exact .inl (answered_respond (idle_sendAttempt (by simpa using hidle) hv)
          ((sendAttempt_respLog hv).trans (by simp)))

theorem deliver_answers {tid : Tid} {c : Chan} {maxLen : Nat} {s u t : State} (hidle : callOf u.calls tid = none)
    (hlog : u.respLog = s.respLog) (h : deliver tid c maxLen u = .next t) : Answered s t tid := by
  obtain ⟨-, ⟨-, rfl⟩ | ⟨-, -, rfl⟩⟩ := deliver_eq_next.mp h
  · exact answered_respond hidle hlog
  · exact answered_respond (by simpa using hidle) (by simpa using hlog)

theorem runRead_ends {tid : Tid} {c : Chan} {maxLen : Nat} {s t : State} (hidle : callOf s.calls tid = none)
    (h : runRead tid c maxLen s = .next t) : Answered s t tid ∨ WaitsIn s t tid (.read maxLen) c := by
  unfold runRead at h
  split at h
  · cases h
    exact .inl (answered_respond (by simpa using hidle) (by simp))
  · split at h
    · exact .inl (deliver_answers hidle rfl h)
    · split at h
      · exact .inl (deliver_answers (by simpa [flushOnRead] using hidle) (by simp [flushOnRead]) h)
      · split at h
        · cases h
          exact .inl (answered_respond hidle rfl)
        · exact .inr (waitsIn_block h)

/-- Settles O34: the command of the record completes (`completes_rerun`), and each of its ends is an answer or a new
wait. -/
theorem resumeCompletes : Obligations.ResumeCompletes := by
  intro s tid b hs hfree hb
  obtain ⟨t, ht⟩ := completes_rerun tid hs hb
  refine ⟨t, (exec_resume hfree hb).trans ht, ?_⟩
  have hidle : callOf (leave tid b s).calls tid = none := (callIs_leave tid b s).1
  have hends : Answered (leave tid b s) t tid ∨ WaitsIn (leave tid b s) t tid b.op b.ch := by
    unfold rerun at ht
    split at ht
    · next payload hop => rw [hop]; exact runWrite_ends hidle ht
    · next maxLen hop => rw [hop]; exact runRead_ends hidle ht
  simpa only [Answered, WaitsIn, leave_respLog] using hends

end Sys2Proof.Machine
end

