-- ==== Sys2Proof/Proofs/TransmitEngines.lean ====
section
/-! The transmit engines as equations: what the burst of a whole frame and the sending of one byte leave in the state,
and the port events of each (42_sync_engine.md R171; 43_async_engine.md R186; 20_memory.md R83). -/

namespace Sys2Proof.Machine

open Sys2Proof

/-! ## What the port sees -/

theorem replay_append (o : Oracle) (log log' : List PortEvent) :
    o.replay (log ++ log') = (o.replay log).replay log' := by
  induction log generalizing o with
  | nil => rfl
  | cons e log ih =>
    cases e with
    | read c r v => exact ih _
    | write c r v => exact ih _

theorem portGains_trans {s u t : State} {log log' : List PortEvent} (h : PortGains s u log) (h' : PortGains u t log') :
    PortGains s t (log ++ log') := by
  obtain ⟨hlog, horacle⟩ := h
  obtain ⟨hlog', horacle'⟩ := h'
  exact ⟨by rw [hlog', hlog, List.append_assoc], by rw [horacle', horacle, replay_append]⟩

/-- Where the port is the same at both ends, the events between are. -/
theorem portGains_congr {s s' t t' : State} {log : List PortEvent} (h : PortGains s t log) (hs : SamePort s' s)
    (ht : SamePort t t') : PortGains s' t' log := by
  obtain ⟨hlog, horacle⟩ := h
  exact ⟨by rw [ht.1, hlog, hs.1], by rw [ht.2, horacle, hs.2]⟩

theorem portGains_portWrite (c : Chan) (r : WriteReg) (v : Word) (s : State) :
    PortGains s (portWrite c r v s) [.write c r v] := ⟨rfl, rfl⟩

theorem portGains_writeCtl (c : Chan) (v : Word) (s : State) : PortGains s (writeCtl c v s) [.write c .ctl v] :=
  portGains_congr (portGains_portWrite c .ctl v _) ⟨modChan_portLog .., modChan_oracle ..⟩ ⟨rfl, rfl⟩

theorem portGains_writeFifo (c : Chan) (bytes : List Byte) (s : State) :
    PortGains s (writeFifo c bytes s) (burstWrites c bytes) := by
  induction bytes generalizing s with
  | nil => exact ⟨(List.append_nil _).symm, rfl⟩
  | cons b bytes ih => exact portGains_trans (portGains_portWrite c .txfifo (b.setWidth 32) s) (ih _)

theorem samePort_modChan (s : State) (c : Chan) (f : Channel → Channel) : SamePort s (s.modChan c f) :=
  ⟨modChan_portLog .., modChan_oracle ..⟩

theorem samePort_wake (c : Chan) (d : Dir) (s : State) : SamePort s (wake c d s) :=
  ⟨wake_portLog .., wake_oracle ..⟩

/-! ## Which records a `Wake` wakes -/

/-- The records after a `Wake` depend on the records and the ring's flag only. -/
theorem wake_calls_congr {c : Chan} {d : Dir} {s u : State} (hcalls : u.calls = s.calls)
    (hwaiter : (u.ring c d).waiter = (s.ring c d).waiter) : (wake c d u).calls = (wake c d s).calls := by
  rw [wake_calls, wake_calls, hcalls, hwaiter]

/-! ## The burst of a frame -/

theorem txSyncBurst_chan_same (c : Chan) (s : State) :
    (txSyncBurst c s).chan c =
      { s.chan c with
        txEnabled := true
        mirror := (s.chan c).mirror ||| ctlTxen
        txReady := false
        tx := { (s.chan c).tx.consume with waiter := false } } := by
  simp [txSyncBurst]

@[simp] theorem txSyncBurst_chan_other (c : Chan) (s : State) : (txSyncBurst c s).chan c.other = s.chan c.other := by
  simp [txSyncBurst]

@[simp] theorem txSyncBurst_mem (c : Chan) (s : State) : (txSyncBurst c s).mem = s.mem := by simp [txSyncBurst]

@[simp] theorem txSyncBurst_respLog (c : Chan) (s : State) : (txSyncBurst c s).respLog = s.respLog := by
  simp [txSyncBurst]

theorem txSyncBurst_calls (c : Chan) (s : State) : (txSyncBurst c s).calls = (wake c .tx s).calls :=
  wake_calls_congr (by simp) (by simp)

theorem sameRest_txSyncBurst (c : Chan) (s : State) : SameRest s (txSyncBurst c s) := by
  simp [SameRest, txSyncBurst]

/-- One `TXFIFO` write per byte of the head frame, then `CTL` from the mirror (42_sync_engine.md R171). -/
theorem portGains_txSyncBurst (c : Chan) (s : State) :
    PortGains s (txSyncBurst c s)
      (burstWrites c (frameAt s.mem c .tx (s.chan c).tx (s.chan c).tx.head) ++
        [.write c .ctl ((s.chan c).mirror ||| ctlTxen)]) := by
  have hmirror : ((writeFifo c (frameAt s.mem c .tx (s.chan c).tx (s.chan c).tx.head) s).chan c).mirror =
      (s.chan c).mirror := by simp
  have hwrites := portGains_trans (portGains_writeFifo c (frameAt s.mem c .tx (s.chan c).tx (s.chan c).tx.head) s)
    (portGains_writeCtl c ((s.chan c).mirror ||| ctlTxen) _)
  rw [← hmirror] at hwrites ⊢
  exact portGains_congr (portGains_congr hwrites ⟨rfl, rfl⟩ (samePort_modChan _ c _)) ⟨rfl, rfl⟩ (samePort_wake c .tx _)

theorem txSyncStart_of_avail {c : Chan} {s : State} (hs : TxOk (s.chan c)) (ha : (s.chan c).tx.avail = true) :
    txSyncStart c s = .next (txSyncBurst c s) := by
  obtain ⟨hready, hlen⟩ := head_ready hs.shape hs.queued (avail_eq_true.mp ha).2
  exact txSyncStart_eq_next.mpr (.inr ⟨ha, hready, hlen, rfl⟩)

/-! ## The sending of a byte -/

/-- The next byte of the head frame (43_async_engine.md R186). -/
def nextByte (c : Chan) (s : State) : Byte :=
  memRead s.mem (slotAddr c .tx (s.chan c).tx.head ((s.chan c).tx.slot (s.chan c).tx.head).fill)

/-- The state after a byte that is not the last of its frame. -/
def midByteSent (c : Chan) (s : State) : State :=
  (portWrite c .txfifo ((nextByte c s).setWidth 32) s).modChan c fun y =>
    { y with
      txActive := true
      txBufEmpty := false
      tx := y.tx.setSlot y.tx.head
        { y.tx.slot y.tx.head with fill := (y.tx.slot y.tx.head).fill + 1 } }

/-- The state after the last byte of a frame. -/
def lastByteSent (c : Chan) (s : State) : State :=
  wake c .tx ((portWrite c .txfifo ((nextByte c s).setWidth 32) s).modChan c fun y =>
    { y with txActive := false, txBufEmpty := false, tx := y.tx.consume })

theorem modChan_congr {s : State} {c : Chan} {f g : Channel → Channel} (h : f (s.chan c) = g (s.chan c)) :
    s.modChan c f = s.modChan c g := by
  cases c
  · exact congrArg (fun x => { s with ch0 := x }) h
  · exact congrArg (fun x => { s with ch1 := x }) h

theorem portWrite_modChan (c : Chan) (r : WriteReg) (v : Word) (s : State) (f : Channel → Channel) :
    portWrite c r v (s.modChan c f) = (portWrite c r v s).modChan c f := by
  cases c <;> rfl

/-- The state after the next byte of the head frame (43_async_engine.md R186). -/
def byteGone (c : Chan) (s : State) : State :=
  if ((s.chan c).tx.slot (s.chan c).tx.head).fill + 1 = ((s.chan c).tx.slot (s.chan c).tx.head).len
  then lastByteSent c s else midByteSent c s

theorem bytePut_of_active {c : Chan} {s : State} (hact : (s.chan c).txActive = true) :
    bytePut c s = midByteSent c s :=
  modChan_congr (by simp [hact])

theorem bytePut_consume {c : Chan} {s : State} (hh : (s.chan c).tx.head < (s.chan c).tx.slots.length) :
    wake c .tx ((bytePut c s).modChan c fun y => { y with tx := y.tx.consume, txActive := false }) =
      lastByteSent c s := by
  rw [bytePut, modChan_modChan]
  exact congrArg (wake c .tx) (modChan_congr (by simp [setFill_consume _ hh]))

theorem txAsyncSend_of_active {c : Chan} {s : State} (hact : (s.chan c).txActive = true)
    (hh : (s.chan c).tx.head < (s.chan c).tx.slots.length) (hready : (s.chan c).tx.headReady = true)
    (hfill : ((s.chan c).tx.slot (s.chan c).tx.head).fill < (s.chan c).tx.fsz) :
    txAsyncSend c s = .next (byteGone c s) := by
  obtain ⟨t, ht⟩ := completes_txAsyncSend (s := s) hready hfill
  rw [ht, txAsyncSend_eq_next ht, bytePut_consume hh, bytePut_of_active hact, byteGone]

/-- Marking an idle transmitter active beforehand makes no difference to the state after the byte. -/
theorem byteGone_activate (c : Chan) (s : State) :
    byteGone c (s.modChan c fun y => { y with txActive := true }) = byteGone c s := by
  have hbyte : nextByte c (s.modChan c fun y => { y with txActive := true }) = nextByte c s := by simp [nextByte]
  simp only [byteGone, lastByteSent, midByteSent, hbyte, portWrite_modChan, modChan_modChan, modChan_chan_same]

/-- With a frame queued on an online ring the next byte goes out, whether its frame is being sent or is begun now
(43_async_engine.md R186). -/
theorem txAsyncByte_sends {c : Chan} {s : State} (hs : TxOk (s.chan c)) (hon : (s.chan c).tx.online = true)
    (hpos : 0 < (s.chan c).tx.entryCount) : txAsyncByte c s = .next (byteGone c s) := by
  obtain ⟨hready, hlen⟩ := head_ready hs.shape hs.queued hpos
  have hh : (s.chan c).tx.head < (s.chan c).tx.slots.length := by
    rw [slots_length hs.shape]
    exact head_lt_cap_of_pos hs.shape hpos
  cases hact : (s.chan c).txActive with
  | true =>
    obtain ⟨-, -, hlt, -⟩ := hs.head_of_sendByte (.inl ⟨hact, rfl⟩)
    rw [txAsyncByte, if_pos hact, txAsyncSend_of_active hact hh hready (Nat.lt_of_lt_of_le hlt hlen)]
  | false =>
    have hav := avail_eq_true.mpr ⟨hon, hpos⟩
    obtain ⟨-, -, hlt, -⟩ := hs.head_of_sendByte (.inr ⟨hact, hav, rfl⟩)
    have hfill := hs.unsent hon _ (head_lt_cap_of_pos hs.shape hpos) (.inl hact)
    have hstart : txAsyncActivate c s = s.modChan c fun y => { y with txActive := true } :=
      modChan_congr (by simpa [txAsyncActivate] using txAsyncActivate_chan hh hfill)
    rw [txAsyncByte, hact, if_neg (by decide), ring_tx, if_pos hav, hstart,
      txAsyncSend_of_active (by simp) (by simpa using hh) (by simpa using hready)
        (by simpa [hfill] using Nat.lt_of_lt_of_le hlt hlen), byteGone_activate]

theorem midByteSent_chan_same (c : Chan) (s : State) :
    (midByteSent c s).chan c =
      { s.chan c with
        txActive := true
        txBufEmpty := false
        tx := (s.chan c).tx.setSlot (s.chan c).tx.head
          { (s.chan c).tx.slot (s.chan c).tx.head with
            fill := ((s.chan c).tx.slot (s.chan c).tx.head).fill + 1 } } := by
  simp [midByteSent]

theorem lastByteSent_chan_same (c : Chan) (s : State) :
    (lastByteSent c s).chan c =
      { s.chan c with
        txActive := false
        txBufEmpty := false
        tx := { (s.chan c).tx.consume with waiter := false } } := by
  simp [lastByteSent]

theorem midByteSent_calls (c : Chan) (s : State) : (midByteSent c s).calls = s.calls := by simp [midByteSent]

theorem lastByteSent_calls (c : Chan) (s : State) : (lastByteSent c s).calls = (wake c .tx s).calls :=
  wake_calls_congr (by simp) (by simp)

/-- One `TXFIFO` write, the byte zero-extended (20_memory.md R83). -/
theorem portGains_byteGone (c : Chan) (s : State) :
    PortGains s (byteGone c s) [.write c .txfifo ((nextByte c s).setWidth 32)] := by
  unfold byteGone
  split
  · exact portGains_congr (portGains_portWrite ..) ⟨rfl, rfl⟩ ⟨by simp [lastByteSent], by simp [lastByteSent]⟩
  · exact portGains_congr (portGains_portWrite ..) ⟨rfl, rfl⟩ (samePort_modChan ..)

theorem byteGone_chan_other (c : Chan) (s : State) : (byteGone c s).chan c.other = s.chan c.other := by
  unfold byteGone
  split
  · simp [lastByteSent]
  · simp [midByteSent]

theorem byteGone_mem (c : Chan) (s : State) : (byteGone c s).mem = s.mem := by
  unfold byteGone
  split
  · simp [lastByteSent]
  · simp [midByteSent]

theorem byteGone_respLog (c : Chan) (s : State) : (byteGone c s).respLog = s.respLog := by
  unfold byteGone
  split
  · simp [lastByteSent]
  · simp [midByteSent]

theorem sameRest_byteGone (c : Chan) (s : State) : SameRest s (byteGone c s) := by
  unfold byteGone
  split
  · simp [SameRest, lastByteSent]
  · simp [SameRest, midByteSent]

theorem unsentOf_waiter (m : Memory) (c : Chan) (rb : Ring) (b : Bool) :
    unsentOf m c { rb with waiter := b } = unsentOf m c rb := unsentOf_congr rfl rfl rfl rfl

/-- The byte that goes out is the first of those still to be sent (20_memory.md R92). -/
theorem unsent_byteGone {c : Chan} {s : State} (hs : TxOk (s.chan c)) (hon : (s.chan c).tx.online = true)
    (hpos : 0 < (s.chan c).tx.entryCount) : unsent s c = nextByte c s :: unsent (byteGone c s) c := by
  obtain ⟨hlt, hothers⟩ : ((s.chan c).tx.slot (s.chan c).tx.head).fill < ((s.chan c).tx.slot (s.chan c).tx.head).len ∧
      ∀ i < (s.chan c).tx.cap, i ≠ (s.chan c).tx.head → ((s.chan c).tx.slot i).fill = 0 := by
    cases hact : (s.chan c).txActive with
    | true =>
      obtain ⟨-, -, hlt, hothers⟩ := hs.head_of_sendByte (.inl ⟨hact, rfl⟩)
      exact ⟨hlt, hothers⟩
    | false =>
      obtain ⟨-, -, hlt, hothers⟩ := hs.head_of_sendByte (.inr ⟨hact, avail_eq_true.mpr ⟨hon, hpos⟩, rfl⟩)
      have hfill := hs.unsent hon _ (head_lt_cap_of_pos hs.shape hpos) (.inl hact)
      exact ⟨hfill ▸ hlt, hothers⟩
  rw [unsent_eq, unsent_eq, byteGone_mem, nextByte, byteGone]
  split
  case isTrue hlast =>
    have hsend := unsentOf_consume s.mem c hs.shape hpos hlt.le hothers
    rw [← hlast, Nat.add_sub_cancel_left, loadBytes, loadBytes] at hsend
    rw [hsend, lastByteSent_chan_same]
    exact congrArg (List.cons _) (unsentOf_waiter ..).symm
  case isFalse => rw [unsentOf_setFill s.mem c hs.shape hpos hlt, midByteSent_chan_same]

end Sys2Proof.Machine
end

