-- ==== Sys2Proof/Proofs/Writes.lean ====
section
/-! `WRITE`, branch by branch: the two refused lengths, the full or offline ring, and the accepted payload with the
send attempt that follows it (41_blocking_io.md R151, R152). -/

namespace Sys2Proof.Machine

open Sys2Proof

theorem exec_write {s : State} {tid : Tid} (c : Chan) (payload : List Byte) (hen : commandEnabled tid s = true) :
    exec (.write tid c payload) s = runWrite tid c payload s := by
  rw [exec, execWrite, asCommand_enabled _ hen]

/-! ## Steps 1 and 2 -/

theorem runWrite_tooLong {tid : Tid} {c : Chan} {payload : List Byte} {s : State}
    (h : (s.ring c .tx).fsz < payload.length) : runWrite tid c payload s = fail tid .frameTooLarge s := by
  rw [runWrite, if_neg (by omega), if_pos h]

section
variable {tid : Tid} {c : Chan} {payload : List Byte} {s : State} (hne : payload ≠ [])
  (hfit : payload.length ≤ (s.ring c .tx).fsz)
include hne hfit

theorem runWrite_full (hfull : (s.ring c .tx).full = true) :
    runWrite tid c payload s =
      if noWait (s.chan c).wrTimeout then fail tid .queueFull s
      else .next (parked tid ⟨.write payload, c, (s.chan c).wrTimeout, false⟩ s) := by
  rw [runWrite, if_neg (by simpa using hne), if_neg (Nat.not_lt.mpr hfit), if_pos hfull]
  rfl

theorem runWrite_room (hroom : (s.ring c .tx).full = false) :
    runWrite tid c payload s =
      andThen (enqueue c .tx payload s) fun u =>
      andThen (sendAttempt c u) fun v => .next (respond tid payload.length .ok [] v) := by
  rw [runWrite, if_neg (by simpa using hne), if_neg (Nat.not_lt.mpr hfit), hroom]
  rfl

end

theorem full_eq_true {rb : Ring} : rb.full = true ↔ rb.entryCount = rb.cap ∨ rb.online = false := by
  simp [Ring.full]

/-- Settles O24: the branches of steps 1 and 2 in their order. -/
theorem writeFailsOrBlocks : Obligations.WriteFailsOrBlocks := by
  intro s tid c payload hen
  simp only [exec_write c payload hen]
  refine ⟨?empty, fun hlong => by rw [runWrite_tooLong hlong]; rfl, fun hfits hfull htmo => ?fails,
    fun hfits hfull htmo => ?blocks⟩
  case empty => rintro rfl; rfl
  case fails =>
    rw [runWrite_full hfits.1 hfits.2 (full_eq_true.mpr hfull), noWait, htmo]
    rfl
  case blocks =>
    have hwait : noWait (s.chan c).wrTimeout = false := decide_eq_false htmo
    rw [runWrite_full hfits.1 hfits.2 (full_eq_true.mpr hfull), hwait]
    exact ⟨_, rfl, callIs_parked .., parked_chan_same .., parked_chan_other .., sameBytes_of_mem (parked_mem ..),
      samePort_parked .., sameRest_parked .., parked_respLog ..⟩

/-! ## Step 3 -/

/-- The state with a frame stored in the tail slot and committed (40_ring_buffer.md R133). -/
def enqueued (c : Chan) (d : Dir) (data : List Byte) (s : State) : State :=
  { s.modRing c d (Ring.commit data.length) with
    mem := storeBytes s.mem (slotAddr c d (s.ring c d).tail 0) data }

theorem enqueue_tx {c : Chan} {data : List Byte} {s : State} (hs : TxOk (s.chan c))
    (hroom : (s.chan c).tx.entryCount ≠ (s.chan c).tx.cap) (hfit : data.length ≤ (s.chan c).tx.fsz) :
    enqueue c .tx data s = .next (enqueued c .tx data s) := by
  have ht := (tail_unqueued hs.shape hroom).1
  exact enqueue_eq_next.mpr ⟨by rwa [ring_tx, slots_length hs.shape], hfit, hs.tail_empty hroom, rfl⟩

theorem enqueued_chan_same (c : Chan) (data : List Byte) (s : State) :
    (enqueued c .tx data s).chan c = { s.chan c with tx := (s.chan c).tx.commit data.length } := by
  rw [enqueued, chan_with_mem, modRing_chan_same, modRing_tx]

@[simp] theorem enqueued_chan_other (c : Chan) (d : Dir) (data : List Byte) (s : State) :
    (enqueued c d data s).chan c.other = s.chan c.other := by
  rw [enqueued, chan_with_mem, modRing_chan_other]

@[simp] theorem enqueued_calls (c : Chan) (d : Dir) (data : List Byte) (s : State) :
    (enqueued c d data s).calls = s.calls := modRing_calls ..

@[simp] theorem enqueued_respLog (c : Chan) (d : Dir) (data : List Byte) (s : State) :
    (enqueued c d data s).respLog = s.respLog := modRing_respLog ..

theorem samePort_enqueued (c : Chan) (d : Dir) (data : List Byte) (s : State) : SamePort s (enqueued c d data s) :=
  ⟨modRing_portLog .., modRing_oracle ..⟩

theorem sameRest_enqueued (c : Chan) (d : Dir) (data : List Byte) (s : State) : SameRest s (enqueued c d data s) :=
  ⟨modRing_dev .., modRing_sigLog .., modRing_key .., modRing_irqLog .., modRing_schedule .., modRing_params ..⟩

theorem sameRest_trans {s u t : State} (h : SameRest s u) (h' : SameRest u t) : SameRest s t := by
  obtain ⟨h1, h2, h3, h4, h5, h6⟩ := h
  obtain ⟨h1', h2', h3', h4', h5', h6'⟩ := h'
  exact ⟨h1'.trans h1, h2'.trans h2, h3'.trans h3, h4'.trans h4, h5'.trans h5, h6'.trans h6⟩

theorem memRead_enqueued {c : Chan} {d : Dir} {data : List Byte} {s : State} {a : Nat}
    (h : a < slotAddr c d (s.ring c d).tail 0 ∨ slotAddr c d (s.ring c d).tail 0 + data.length ≤ a) :
    memRead (enqueued c d data s).mem a = memRead s.mem a := memRead_storeBytes_outside _ _ _ _ h

/-- An accepted payload: the frame is stored and committed, the send attempt runs, the call answers `(|payload|, OK)`. -/
theorem exec_write_accepted {s : State} {tid : Tid} {c : Chan} {payload : List Byte} (hs : Inv s)
    (hen : commandEnabled tid s = true) (hne : payload ≠ []) (hfit : payload.length ≤ (s.chan c).tx.fsz)
    (hroom : (s.chan c).tx.entryCount ≠ (s.chan c).tx.cap) (hon : (s.chan c).tx.online = true) :
    exec (.write tid c payload) s =
      andThen (sendAttempt c (enqueued c .tx payload s)) fun v => .next (respond tid payload.length .ok [] v) := by
  rw [exec_write c payload hen, runWrite_room hne hfit (full_eq_false.mpr ⟨hroom, hon⟩),
    enqueue_tx (txOk_of_inv hs c) hroom hfit, andThen_next]

theorem txOk_enqueued {s : State} {c : Chan} {payload : List Byte} (hs : TxOk (s.chan c)) (hne : payload ≠ [])
    (hfit : payload.length ≤ (s.chan c).tx.fsz) (hroom : (s.chan c).tx.entryCount ≠ (s.chan c).tx.cap) :
    TxOk ((enqueued c .tx payload s).chan c) := by
  rw [enqueued_chan_same]
  exact hs.queueTx hroom (List.length_pos_of_ne_nil hne) hfit

/-- Settles O25: while the hardware is busy, step 3 is all that happens. -/
theorem writeQueuesWhileBusy : Obligations.WriteQueuesWhileBusy := by
  intro s tid c payload hs hen hne hfit hroom hon hbusy
  rw [ring_tx] at hfit hroom hon
  have hx := txOk_of_inv hs c
  have hu := enqueued_chan_same c payload s
  have hidle : sendAttempt c (enqueued c .tx payload s) = .next (enqueued c .tx payload s) :=
    sendAttempt_busy (by rw [hu]; exact hbusy)
  have ht : (s.chan c).tx.tail < (s.chan c).tx.slots.length := by
    rw [slots_length hx.shape]
    exact (tail_unqueued hx.shape hroom).1
  have hchan : (respond tid payload.length .ok [] (enqueued c .tx payload s)).chan c =
      { s.chan c with tx := (s.chan c).tx.commit payload.length } := by rw [respond_chan, hu]
  have hring : (respond tid payload.length .ok [] (enqueued c .tx payload s)).ring c .tx =
      (s.chan c).tx.commit payload.length := congrArg Channel.tx hchan
  refine ⟨respond tid payload.length .ok [] (enqueued c .tx payload s), ?exec, ?chan, ?slot, ?slots, ?queue,
    fun a => memRead_enqueued, ?answer, ?other, enqueued_calls .., samePort_enqueued .., sameRest_enqueued ..⟩
  case exec => rw [exec_write_accepted hs hen hne hfit hroom hon, hidle, andThen_next]
  case chan => rw [hchan]; rfl
  case slot => rw [hring]; exact commit_slot_tail _ _ ht
  case slots =>
    rw [hring]
    exact ⟨commit_length .., fun j hj => commit_slot_other _ _ hj⟩
  case queue =>
    rw [queued_eq, hring]
    exact queuedFrom_commit s.mem c .tx hx.shape hx.queued hroom hfit
  case answer => exact congrArg (· ++ _) (enqueued_respLog ..)
  case other => rw [respond_chan, enqueued_chan_other]

/-! ## Step 4, with an idle transmitter and an empty queue -/

/-- The ring whose one frame has been taken at once has the tail slot empty and every other slot as before. -/
theorem slots_commit_consume {rb : Ring} (n : Nat) (ht : rb.tail < rb.slots.length) (hhead : rb.head = rb.tail) :
    (((rb.commit n).consume.slot rb.tail).state = .empty ∧ ((rb.commit n).consume.slot rb.tail).fill = 0) ∧
    SameSlotsBut rb.tail rb (rb.commit n).consume := by
  have hempty := consume_slot_head (rb.commit n) (by rw [commit_head, commit_length, hhead]; exact ht)
  rw [commit_head, hhead] at hempty
  refine ⟨by rw [hempty]; exact ⟨rfl, rfl⟩, by rw [consume_length, commit_length], fun j hj => ?_⟩
  rw [consume_slot_other _ (by rw [commit_head, hhead]; exact hj), commit_slot_other _ _ hj]

/-- In an empty ring with slots the cursors meet. -/
theorem head_eq_tail {rb : Ring} (hs : RingShape rb) (hc : 0 < rb.cap) (hempty : rb.entryCount = 0) :
    rb.head = rb.tail := by
  rw [← head_add_entryCount hs hc, hempty, Nat.add_zero, Nat.mod_eq_of_lt (head_lt_cap hs hc)]

/-- The frame that a payload makes in an empty ring is the head frame, unsent. -/
theorem head_frame_enqueued {s : State} {c : Chan} {payload : List Byte} (hs : RingShape (s.chan c).tx)
    (hc : 0 < (s.chan c).tx.cap) (hempty : (s.chan c).tx.entryCount = 0) :
    ((enqueued c .tx payload s).chan c).tx.slot ((enqueued c .tx payload s).chan c).tx.head =
      ⟨.ready, payload.length, 0⟩ ∧
    frameAt (enqueued c .tx payload s).mem c .tx ((enqueued c .tx payload s).chan c).tx
      ((enqueued c .tx payload s).chan c).tx.head = payload := by
  have hslot : ((s.chan c).tx.commit payload.length).slot (s.chan c).tx.head = ⟨.ready, payload.length, 0⟩ := by
    rw [head_eq_tail hs hc hempty]
    exact commit_slot_tail _ _ (by rw [slots_length hs]; exact tail_lt_cap hs hc)
  rw [enqueued_chan_same, frameAt]
  refine ⟨hslot, ?_⟩
  rw [show ((s.chan c).tx.commit payload.length).slot ((s.chan c).tx.commit payload.length).head =
    ⟨.ready, payload.length, 0⟩ from hslot, commit_head, head_eq_tail hs hc hempty]
  exact loadBytes_storeBytes payload s.mem _

/-- An idle transmitter in mode `SYNC` bursts the payload put into its ring. -/
theorem sendAttempt_idle_sync {s : State} {c : Chan} {payload : List Byte} (hs : TxOk (s.chan c)) (hne : payload ≠ [])
    (hfit : payload.length ≤ (s.chan c).tx.fsz) (hroom : (s.chan c).tx.entryCount ≠ (s.chan c).tx.cap)
    (hon : (s.chan c).tx.online = true) (hmode : (s.chan c).mode = .sync) (hready : (s.chan c).txReady = true) :
    sendAttempt c (enqueued c .tx payload s) = .next (txSyncBurst c (enqueued c .tx payload s)) := by
  have hu := enqueued_chan_same c payload s
  have hav : ((enqueued c .tx payload s).chan c).tx.avail = true := by
    rw [hu]
    exact avail_eq_true.mpr ⟨hon, Nat.succ_pos _⟩
  rw [sendAttempt, ← txSyncStart_of_avail (txOk_enqueued hs hne hfit hroom) hav, hu]
  simp only [hmode, hready, if_true]

/-- Settles O26: the send attempt bursts the one frame that step 3 has queued. -/
theorem writeStartsAnIdleSyncTransmitter : Obligations.WriteStartsAnIdleSyncTransmitter := by
  intro s tid c payload hs hen hne hfit hmode hready hc hempty hon
  rw [ring_tx] at hfit hc hempty hon
  have hx := txOk_of_inv hs c
  have hroom : (s.chan c).tx.entryCount ≠ (s.chan c).tx.cap := by omega
  have hu := enqueued_chan_same c payload s
  have ht : (s.chan c).tx.tail < (s.chan c).tx.slots.length := by
    rw [slots_length hx.shape]
    exact tail_lt_cap hx.shape hc
  obtain ⟨-, hframe⟩ := head_frame_enqueued (payload := payload) hx.shape hc hempty
  have hsend := sendAttempt_idle_sync hx hne hfit hroom hon hmode hready
  have hchan : (respond tid payload.length .ok [] (txSyncBurst c (enqueued c .tx payload s))).chan c =
      { s.chan c with
        txEnabled := true
        mirror := (s.chan c).mirror ||| ctlTxen
        txReady := false
        tx := { ((s.chan c).tx.commit payload.length).consume with waiter := false } } := by
    rw [respond_chan, txSyncBurst_chan_same, hu]
  have hring : (respond tid payload.length .ok [] (txSyncBurst c (enqueued c .tx payload s))).ring c .tx =
      { ((s.chan c).tx.commit payload.length).consume with waiter := false } := congrArg Channel.tx hchan
  obtain ⟨hfreed, hslots⟩ := slots_commit_consume payload.length ht (head_eq_tail hx.shape hc hempty)
  refine ⟨respond tid payload.length .ok [] (txSyncBurst c (enqueued c .tx payload s)), ?exec, ?port, ?chan, ?state,
    ?fill, ?slots, ?bytes, ?answer, ?other, ?calls, ?rest⟩
  case exec => rw [exec_write_accepted hs hen hne hfit hroom hon, hsend, andThen_next]
  case port =>
    have hport := portGains_txSyncBurst c (enqueued c .tx payload s)
    rw [hframe, hu] at hport
    exact portGains_congr hport (samePort_enqueued ..) ⟨rfl, rfl⟩
  case chan => rw [hchan]; rfl
  case state => rw [hring]; exact hfreed.1
  case fill => rw [hring]; exact hfreed.2
  case slots => rw [hring]; exact hslots
  case bytes =>
    intro a ha
    rw [respond_mem, txSyncBurst_mem]
    exact memRead_enqueued ha
  case answer => exact congrArg (· ++ _) ((txSyncBurst_respLog ..).trans (enqueued_respLog ..))
  case other => rw [respond_chan, txSyncBurst_chan_other, enqueued_chan_other]
  case calls =>
    rw [respond_calls, txSyncBurst_calls]
    exact wake_calls_congr (enqueued_calls ..) (by rw [ring_tx, hu]; rfl)
  case rest => exact sameRest_trans (sameRest_enqueued ..) (sameRest_txSyncBurst ..)

/-- A payload put into an empty ring is all there is to send. -/
theorem unsent_enqueued {s : State} {c : Chan} {payload : List Byte} (hs : TxOk (s.chan c))
    (hfit : payload.length ≤ (s.chan c).tx.fsz) (hroom : (s.chan c).tx.entryCount ≠ (s.chan c).tx.cap)
    (hempty : (s.chan c).tx.entryCount = 0) : unsent (enqueued c .tx payload s) c = payload := by
  have hnothing : unsentOf s.mem c (s.chan c).tx = [] := by
    rw [unsentOf, hempty, queuedFrom, List.flatten_nil, List.drop_nil]
  have hcommit := unsentOf_commit s.mem c hs.shape hs.queued hroom (by omega) hfit
  rw [hnothing, List.nil_append] at hcommit
  rw [unsent_eq, enqueued_chan_same]
  exact hcommit

/-- The first byte of a frame is its last exactly where the frame has no other. -/
theorem byteGone_enqueued {s : State} {c : Chan} {b : Byte} {more : List Byte} (hs : RingShape (s.chan c).tx)
    (hc : 0 < (s.chan c).tx.cap) (hempty : (s.chan c).tx.entryCount = 0) :
    byteGone c (enqueued c .tx (b :: more) s) =
      if more = [] then lastByteSent c (enqueued c .tx (b :: more) s)
      else midByteSent c (enqueued c .tx (b :: more) s) := by
  rw [byteGone, (head_frame_enqueued hs hc hempty).1]
  simp

theorem ring_byteGone_enqueued {s : State} {c : Chan} {b : Byte} {more : List Byte} (hs : RingShape (s.chan c).tx)
    (hc : 0 < (s.chan c).tx.cap) (hempty : (s.chan c).tx.entryCount = 0) :
    ((byteGone c (enqueued c .tx (b :: more) s)).chan c).tx =
      if more = [] then { ((s.chan c).tx.commit (more.length + 1)).consume with waiter := false }
      else ((s.chan c).tx.commit (more.length + 1)).setSlot (s.chan c).tx.tail ⟨.ready, more.length + 1, 1⟩ := by
  rw [byteGone_enqueued hs hc hempty]
  split
  · rw [lastByteSent_chan_same, enqueued_chan_same]
    rfl
  · rw [midByteSent_chan_same, (head_frame_enqueued hs hc hempty).1, enqueued_chan_same, ← head_eq_tail hs hc hempty]
    rfl

/-- An idle transmitter in mode `ASYNC` sends the first byte of the payload put into its empty ring. -/
theorem sendAttempt_idle_async {s : State} {c : Chan} {b : Byte} {more : List Byte} (hs : TxOk (s.chan c))
    (hfit : (b :: more).length ≤ (s.chan c).tx.fsz) (hroom : (s.chan c).tx.entryCount ≠ (s.chan c).tx.cap)
    (hempty : (s.chan c).tx.entryCount = 0) (hon : (s.chan c).tx.online = true) (hmode : (s.chan c).mode = .async)
    (hready : (s.chan c).txBufEmpty = true) :
    sendAttempt c (enqueued c .tx (b :: more) s) = .next (byteGone c (enqueued c .tx (b :: more) s)) ∧
    nextByte c (enqueued c .tx (b :: more) s) = b ∧ unsent (byteGone c (enqueued c .tx (b :: more) s)) c = more := by
  have hu := enqueued_chan_same c (b :: more) s
  have hxu := txOk_enqueued hs (List.cons_ne_nil b more) hfit hroom
  have honu : ((enqueued c .tx (b :: more) s).chan c).tx.online = true := by rw [hu]; exact hon
  have hposu : 0 < ((enqueued c .tx (b :: more) s).chan c).tx.entryCount := by rw [hu]; exact Nat.succ_pos _
  constructor
  · rw [sendAttempt, ← txAsyncByte_sends hxu honu hposu, hu]
    simp only [hmode, hready, if_true]
  · have hunsent := unsent_byteGone hxu honu hposu
    rw [unsent_enqueued hs hfit hroom hempty] at hunsent
    obtain ⟨hbyte, hrest⟩ := List.cons.inj hunsent
    exact ⟨hbyte.symm, hrest.symm⟩

/-- Settles O27: the send attempt writes the first byte of the one frame that step 3 has queued. -/
theorem writeStartsAnIdleAsyncTransmitter : Obligations.WriteStartsAnIdleAsyncTransmitter := by
  intro s tid c b more hs hen hfit hmode hready hc hempty hon
  rw [ring_tx] at hfit hc hempty hon
  have hx := txOk_of_inv hs c
  have hroom : (s.chan c).tx.entryCount ≠ (s.chan c).tx.cap := by omega
  have hu := enqueued_chan_same c (b :: more) s
  obtain ⟨hsend, hbyte, hunsent⟩ := sendAttempt_idle_async (b := b) hx hfit hroom hempty hon hmode hready
  have hgone := byteGone_enqueued (b := b) (more := more) hx.shape hc hempty
  have ht : (s.chan c).tx.tail < (s.chan c).tx.slots.length := by
    rw [slots_length hx.shape]
    exact tail_lt_cap hx.shape hc
  obtain ⟨hfreed, hslots⟩ := slots_commit_consume (more.length + 1) ht (head_eq_tail hx.shape hc hempty)
  have hring : (respond tid (more.length + 1) .ok [] (byteGone c (enqueued c .tx (b :: more) s))).ring c .tx = _ :=
    (congrArg Channel.tx (respond_chan ..)).trans (ring_byteGone_enqueued hx.shape hc hempty)
  refine ⟨respond tid (more.length + 1) .ok [] (byteGone c (enqueued c .tx (b :: more) s)), ?exec, ?port, ?chan, ?mid,
    ?last, ?slots, ?unsent, ?bytes, ?answer, ?other, ?calls, ?rest⟩
  case exec => rw [exec_write_accepted hs hen (List.cons_ne_nil b more) hfit hroom hon, hsend, andThen_next]; rfl
  case port =>
    have hport := portGains_byteGone c (enqueued c .tx (b :: more) s)
    rw [hbyte] at hport
    exact portGains_congr hport (samePort_enqueued ..) ⟨rfl, rfl⟩
  case chan =>
    rw [respond_chan, hgone]
    split
    · next hm => subst hm; simp [lastByteSent_chan_same, hu, hempty, Ring.next]
    · next hm => simp [midByteSent_chan_same, hu, hempty, hm, Ring.setSlot, Ring.commit, Ring.next]
  case mid =>
    intro hm
    rw [hring, if_neg hm]
    exact setSlot_slot_same _ _ _ (by rwa [commit_length])
  case last =>
    intro hm
    rw [hring, if_pos hm]
    exact hfreed
  case slots =>
    rw [hring]
    split
    · exact hslots
    · exact ⟨by rw [setSlot_length, commit_length]; rfl,
        fun j hj => (setSlot_slot_other _ _ hj).trans (commit_slot_other _ _ hj)⟩
  case unsent => exact hunsent
  case bytes =>
    intro a ha
    rw [respond_mem, byteGone_mem]
    exact memRead_enqueued ha
  case answer => exact congrArg (· ++ _) ((byteGone_respLog ..).trans (enqueued_respLog ..))
  case other => rw [respond_chan, byteGone_chan_other, enqueued_chan_other]
  case calls =>
    rw [respond_calls, hgone]
    split
    · rw [lastByteSent_calls]
      exact wake_calls_congr (enqueued_calls ..) (by rw [ring_tx, hu]; rfl)
    · rw [midByteSent_calls, enqueued_calls]
  case rest => exact sameRest_trans (sameRest_enqueued ..) (sameRest_byteGone ..)

end Sys2Proof.Machine
end

