-- ==== Sys2Proof/Proofs/Reads.lean ====
section
/-! `READ`, branch by branch: the sticky error, the empty ring, the delivery of the oldest frame, and the partial frame
promoted in mode `ASYNC` (41_blocking_io.md R153 to R156). -/

namespace Sys2Proof.Machine

open Sys2Proof

theorem exec_read {s : State} {tid : Tid} (c : Chan) (maxLen : BitVec 16) (hen : commandEnabled tid s = true) :
    exec (.read tid c maxLen) s = runRead tid c maxLen.toNat s := by
  rw [exec, execRead, asCommand_enabled _ hen]

/-! ## Steps 1 and 2 -/

/-- The channel after its sticky error has been returned (41_blocking_io.md R153; 60_exceptions.md R255). -/
def Channel.reported (x : Channel) : Channel :=
  { x with stickyErr := none, rx := { x.rx with errReported := true } }

theorem runRead_sticky {tid : Tid} {c : Chan} {maxLen : Nat} {s : State} {e : ErrCode}
    (h : (s.chan c).stickyErr = some e) :
    runRead tid c maxLen s = .next (respond tid 0 e [] (s.modChan c Channel.reported)) := by
  simp only [runRead, h]
  rfl

section
variable {tid : Tid} {c : Chan} {maxLen : Nat} {s : State} (hsticky : (s.chan c).stickyErr = none)
include hsticky

theorem runRead_avail (ha : (s.chan c).rx.avail = true) : runRead tid c maxLen s = deliver tid c maxLen s := by
  simp only [runRead, hsticky, ring_rx, ha, if_true]

theorem runRead_flush (ha : (s.chan c).rx.avail = false) (hf : canFlush c s = true) :
    runRead tid c maxLen s = deliver tid c maxLen (flushOnRead c s) := by
  simp only [runRead, hsticky, ring_rx, ha, hf, Bool.false_eq_true, if_false, if_true]

theorem runRead_nothing (ha : (s.chan c).rx.avail = false) (hf : canFlush c s = false) :
    runRead tid c maxLen s =
      if noWait (s.chan c).rdTimeout then fail tid .queueEmpty s
      else .next (parked tid ⟨.read maxLen, c, (s.chan c).rdTimeout, false⟩ s) := by
  simp only [runRead, hsticky, ring_rx, ha, hf, Bool.false_eq_true, if_false, block_eq]

end

theorem avail_eq_false {rb : Ring} : rb.avail = false ↔ rb.entryCount = 0 ∨ rb.online = false := by
  simp [Ring.avail, or_comm, imp_iff_or_not]

theorem canFlush_iff {c : Chan} {s : State} :
    canFlush c s = true ↔ (s.chan c).mode = .async ∧ (s.chan c).rx.online = true ∧ 0 < (s.chan c).rx.cap ∧
      ((s.chan c).rx.slot (s.chan c).rx.tail).state = .filling := by
  simp only [canFlush, Ring.filling, Bool.and_eq_true, decide_eq_true_eq, and_assoc]
  rfl

/-- Settles O29: the branches of steps 1 and 2 in their order. -/
theorem readFailsOrBlocks : Obligations.ReadFailsOrBlocks := by
  intro s tid c maxLen hen
  simp only [exec_read c maxLen hen]
  have hnothing : ∀ {n : Nat}, (s.chan c).stickyErr = none →
      ((s.ring c .rx).entryCount = 0 ∨ (s.ring c .rx).online = false) →
      ((s.chan c).mode = .sync ∨ (s.ring c .rx).online = false ∨ (s.ring c .rx).cap = 0 ∨
        ((s.ring c .rx).slot (s.ring c .rx).tail).state ≠ .filling) →
      runRead tid c n s =
        if noWait (s.chan c).rdTimeout then fail tid .queueEmpty s
        else .next (parked tid ⟨.read n, c, (s.chan c).rdTimeout, false⟩ s) := by
    intro n hsticky hempty hpartial
    refine runRead_nothing hsticky (avail_eq_false.mpr hempty) (Bool.eq_false_iff.mpr fun hf => ?_)
    obtain ⟨hmode, hon, hcap, hfilling⟩ := canFlush_iff.mp hf
    obtain h | h | h | h := hpartial
    · exact absurd (hmode.symm.trans h) (by decide)
    · exact absurd (hon.symm.trans h) (by decide)
    · exact hcap.ne' h
    · exact h hfilling
  refine ⟨fun e he => ?sticky, fun ⟨hsticky, hempty, hpartial⟩ htmo => ?fails,
    fun ⟨hsticky, hempty, hpartial⟩ htmo => ?blocks⟩
  case sticky =>
    refine ⟨_, runRead_sticky he, ?_, ?_, ?_, modChan_calls .., sameBytes_of_mem (modChan_mem ..),
      samePort_modChan .., modChan_dev .., modChan_sigLog .., modChan_key .., modChan_irqLog .., modChan_schedule ..,
      modChan_params ..⟩
    · exact congrArg (· ++ _) (modChan_respLog ..)
    · rw [respond_chan, modChan_chan_same, Channel.reported]
    · rw [respond_chan, modChan_chan_other]
  case fails =>
    rw [hnothing hsticky hempty hpartial, noWait, htmo]
    rfl
  case blocks =>
    have hwait : noWait (s.chan c).rdTimeout = false := decide_eq_false htmo
    rw [hnothing hsticky hempty hpartial, hwait]
    exact ⟨_, rfl, callIs_parked .., parked_chan_same .., parked_chan_other .., sameBytes_of_mem (parked_mem ..),
      samePort_parked .., sameRest_parked .., parked_respLog ..⟩

/-! ## Steps 3 and 4 -/

/-- The state after the delivery of the head frame (41_blocking_io.md R156). -/
def delivered (tid : Tid) (c : Chan) (s : State) : State :=
  respond tid ((s.chan c).rx.slot (s.chan c).rx.head).len .ok (frameAt s.mem c .rx (s.chan c).rx (s.chan c).rx.head)
    (s.modRing c .rx fun r => { r with errReported := false }.consume)

section
variable {tid : Tid} {c : Chan} {maxLen : Nat} {s : State} (hs : RxOk (s.chan c)) (hpos : 0 < (s.chan c).rx.entryCount)
include hs hpos

theorem deliver_fits (hfit : ((s.chan c).rx.slot (s.chan c).rx.head).len ≤ maxLen) :
    deliver tid c maxLen s = .next (delivered tid c s) := by
  obtain ⟨hready, hlen⟩ := head_ready hs.shape hs.queued hpos
  exact deliver_eq_next.mpr ⟨hready, .inr ⟨hfit, hlen, rfl⟩⟩

theorem deliver_tooLong (hlong : maxLen < ((s.chan c).rx.slot (s.chan c).rx.head).len) :
    deliver tid c maxLen s = .next (respond tid 0 .frameTooLarge [] s) := by
  obtain ⟨hready, -⟩ := head_ready hs.shape hs.queued hpos
  exact deliver_eq_next.mpr ⟨hready, .inl ⟨hlong, rfl⟩⟩

end

theorem delivered_chan_same (tid : Tid) (c : Chan) (s : State) :
    (delivered tid c s).chan c =
      { s.chan c with rx := { (s.chan c).rx.consume with errReported := false } } := by
  rw [delivered, respond_chan, modRing_chan_same]
  rfl

theorem delivered_chan_other (tid : Tid) (c : Chan) (s : State) :
    (delivered tid c s).chan c.other = s.chan c.other := by
  rw [delivered, respond_chan, modRing_chan_other]

theorem delivered_mem (tid : Tid) (c : Chan) (s : State) : (delivered tid c s).mem = s.mem := modRing_mem ..

theorem delivered_calls (tid : Tid) (c : Chan) (s : State) : (delivered tid c s).calls = s.calls := modRing_calls ..

theorem delivered_respLog (tid : Tid) (c : Chan) (s : State) :
    (delivered tid c s).respLog = s.respLog ++
      [⟨tid, responseWord ((s.chan c).rx.slot (s.chan c).rx.head).len .ok,
        frameAt s.mem c .rx (s.chan c).rx (s.chan c).rx.head⟩] :=
  congrArg (· ++ _) (modRing_respLog ..)

theorem samePort_delivered (tid : Tid) (c : Chan) (s : State) : SamePort s (delivered tid c s) :=
  ⟨modRing_portLog .., modRing_oracle ..⟩

theorem sameRest_delivered (tid : Tid) (c : Chan) (s : State) : SameRest s (delivered tid c s) :=
  ⟨modRing_dev .., modRing_sigLog .., modRing_key .., modRing_irqLog .., modRing_schedule .., modRing_params ..⟩

/-- The frame delivered was the first of the queue (20_memory.md R92). -/
theorem queued_delivered (tid : Tid) (c : Chan) (s : State) :
    queued (delivered tid c s) c .rx = (queued s c .rx).tail := by
  rw [queued_eq, queued_eq, ring_rx, ring_rx, delivered_chan_same, delivered_mem, ← queuedOf_consume]
  exact (SameFrames.queuedOf (rb := (s.chan c).rx.consume)
    (rb' := { (s.chan c).rx.consume with errReported := false }) ⟨rfl, rfl, rfl, fun _ => rfl⟩ s.mem c .rx)

/-- The first frame of a queue is the one in the head slot. -/
theorem queuedOf_eq_cons {m : Memory} {c : Chan} {d : Dir} {rb : Ring} {frame : List Byte} {rest : List (List Byte)}
    (h : queuedOf m c d rb = frame :: rest) : 0 < rb.entryCount ∧ frameAt m c d rb rb.head = frame := by
  cases hn : rb.entryCount with
  | zero =>
    rw [queuedOf, hn] at h
    cases h
  | succ n =>
    rw [queuedOf, hn, queuedFrom_succ] at h
    exact ⟨Nat.succ_pos n, (List.cons.inj h).1⟩

/-- `Consume` empties the head slot and leaves every other as before. -/
theorem slots_consume {rb : Ring} (hh : rb.head < rb.slots.length) :
    ((rb.consume.slot rb.head).state = .empty ∧ (rb.consume.slot rb.head).fill = 0) ∧
    SameSlotsBut rb.head rb rb.consume := by
  rw [consume_slot_head rb hh]
  exact ⟨⟨rfl, rfl⟩, consume_length rb, fun j hj => consume_slot_other rb hj⟩

/-- Settles O30: the head slot holds the oldest frame, `READY` and inside the storage. -/
theorem readDeliversTheOldestFrame : Obligations.ReadDeliversTheOldestFrame := by
  intro s tid c maxLen frame rest hs hen hsticky hon hqueue
  have hx := rxOk_of_inv hs c
  obtain ⟨hpos, hframe⟩ := queuedOf_eq_cons (rb := (s.chan c).rx) hqueue
  rw [ring_rx] at hon
  have hlen : ((s.chan c).rx.slot (s.chan c).rx.head).len = frame.length := by
    rw [← hframe, frameAt, loadBytes_length]
  rw [exec_read c maxLen hen, runRead_avail hsticky (avail_eq_true.mpr ⟨hon, hpos⟩)]
  constructor
  · intro hfit
    have hhead : (s.chan c).rx.head < (s.chan c).rx.slots.length := by
      rw [slots_length hx.shape]
      exact head_lt_cap_of_pos hx.shape hpos
    obtain ⟨⟨hstate, hfill⟩, hslots⟩ := slots_consume hhead
    have hring : (delivered tid c s).ring c .rx = { (s.chan c).rx.consume with errReported := false } :=
      congrArg Channel.rx (delivered_chan_same tid c s)
    refine ⟨_, deliver_fits hx hpos (hlen.trans_le hfit), by rw [queued_delivered, hqueue, List.tail_cons],
      ?answer, ?chan, ?state, ?fill, ?slots, delivered_chan_other .., delivered_calls ..,
      sameBytes_of_mem (delivered_mem ..), samePort_delivered .., sameRest_delivered ..⟩
    case answer =>
      have hlog := delivered_respLog tid c s
      rw [hframe, hlen] at hlog
      exact hlog
    case chan => rw [delivered_chan_same]; rfl
    case state => rw [hring]; exact hstate
    case fill => rw [hring]; exact hfill
    case slots => rw [hring]; exact hslots
  · intro hlong
    exact deliver_tooLong hx hpos (hlong.trans_eq hlen.symm)

/-! ## The partial frame -/

theorem flushOnRead_chan_same (c : Chan) (s : State) :
    (flushOnRead c s).chan c =
      { s.chan c with rx := (s.chan c).rx.commit ((s.chan c).rx.slot (s.chan c).rx.tail).fill } := by
  rw [flushOnRead, modRing_chan_same, modRing_rx]

theorem flushOnRead_chan_other (c : Chan) (s : State) : (flushOnRead c s).chan c.other = s.chan c.other :=
  modRing_chan_other ..

theorem flushOnRead_mem (c : Chan) (s : State) : (flushOnRead c s).mem = s.mem := modRing_mem ..

theorem flushOnRead_calls (c : Chan) (s : State) : (flushOnRead c s).calls = s.calls := modRing_calls ..

theorem flushOnRead_respLog (c : Chan) (s : State) : (flushOnRead c s).respLog = s.respLog := modRing_respLog ..

theorem samePort_flushOnRead (c : Chan) (s : State) : SamePort s (flushOnRead c s) :=
  ⟨modRing_portLog .., modRing_oracle ..⟩

theorem sameRest_flushOnRead (c : Chan) (s : State) : SameRest s (flushOnRead c s) :=
  ⟨modRing_dev .., modRing_sigLog .., modRing_key .., modRing_irqLog .., modRing_schedule .., modRing_params ..⟩

theorem samePort_trans {s u t : State} (h : SamePort s u) (h' : SamePort u t) : SamePort s t :=
  ⟨h'.1.trans h.1, h'.2.trans h.2⟩

/-- The bytes stored in the tail slot for a frame that is not yet committed. -/
def partialFrame (c : Chan) (s : State) : List Byte :=
  loadBytes s.mem (slotAddr c .rx (s.chan c).rx.tail 0) ((s.chan c).rx.slot (s.chan c).rx.tail).fill

/-- The flush makes the partial frame the one frame of an empty queue. -/
theorem head_frame_flushOnRead {c : Chan} {s : State} (hs : RingShape (s.chan c).rx) (hc : 0 < (s.chan c).rx.cap)
    (hempty : (s.chan c).rx.entryCount = 0) :
    ((flushOnRead c s).chan c).rx.slot ((flushOnRead c s).chan c).rx.head =
      ⟨.ready, ((s.chan c).rx.slot (s.chan c).rx.tail).fill, 0⟩ ∧
    frameAt (flushOnRead c s).mem c .rx ((flushOnRead c s).chan c).rx ((flushOnRead c s).chan c).rx.head =
      partialFrame c s ∧
    queued (flushOnRead c s) c .rx = [partialFrame c s] := by
  have hslot := commit_slot_tail (s.chan c).rx ((s.chan c).rx.slot (s.chan c).rx.tail).fill
    (by rw [slots_length hs]; exact tail_lt_cap hs hc)
  have hring : (flushOnRead c s).ring c .rx =
      (s.chan c).rx.commit ((s.chan c).rx.slot (s.chan c).rx.tail).fill :=
    congrArg Channel.rx (flushOnRead_chan_same c s)
  have hframe : frameAt s.mem c .rx ((s.chan c).rx.commit ((s.chan c).rx.slot (s.chan c).rx.tail).fill)
      (s.chan c).rx.tail = partialFrame c s := by rw [frameAt, hslot, partialFrame]
  rw [queued_eq, hring, flushOnRead_chan_same, flushOnRead_mem, commit_head, head_eq_tail hs hc hempty]
  refine ⟨hslot, hframe, ?_⟩
  rw [queuedOf, commit_entryCount, hempty, queuedFrom_succ, commit_head, head_eq_tail hs hc hempty, hframe]
  rfl

/-- Settles O31: the flush queues the partial frame, and the delivery or the refusal of R155 follows. -/
theorem readFlushesThePartialFrame : Obligations.ReadFlushesThePartialFrame := by
  intro s tid c maxLen hs hen hsticky hmode hon hc hempty hfilling fill frame
  rw [ring_rx] at hon hc hempty hfilling
  have hx := rxOk_of_inv hs c
  have ha : (s.chan c).rx.avail = false := avail_eq_false.mpr (.inl hempty)
  have hf : canFlush c s = true := canFlush_iff.mpr ⟨hmode, hon, hc, hfilling⟩
  have hxu : RxOk ((flushOnRead c s).chan c) := rxOk_of_inv (moves_inv (moves_flushOnRead ha hf) hs) c
  have hpos : 0 < ((flushOnRead c s).chan c).rx.entryCount := by
    rw [flushOnRead_entryCount]
    exact Nat.succ_pos _
  have hu := flushOnRead_chan_same c s
  obtain ⟨hhead, hframe, hqueue⟩ := head_frame_flushOnRead hx.shape hc hempty
  have hlen : (((flushOnRead c s).chan c).rx.slot ((flushOnRead c s).chan c).rx.head).len = fill :=
    congrArg Slot.len hhead
  have ht : (s.chan c).rx.tail < (s.chan c).rx.slots.length := by
    rw [slots_length hx.shape]
    exact tail_lt_cap hx.shape hc
  rw [exec_read c maxLen hen, runRead_flush hsticky ha hf]
  by_cases hfit : fill ≤ maxLen.toNat
  case pos =>
    have hchan : (delivered tid c (flushOnRead c s)).chan c =
        { s.chan c with rx := { ((s.chan c).rx.commit fill).consume with errReported := false } } := by
      rw [delivered_chan_same, hu]
      rfl
    have hring : (delivered tid c (flushOnRead c s)).ring c .rx =
        { ((s.chan c).rx.commit fill).consume with errReported := false } := congrArg Channel.rx hchan
    refine ⟨_, deliver_fits hxu hpos (hlen.trans_le hfit), fun _ => ⟨?answer, ?queue⟩,
      fun hlong => absurd hfit (Nat.not_le.mpr hlong), ?chan, ?slots,
      (delivered_chan_other ..).trans (flushOnRead_chan_other ..), (delivered_calls ..).trans (flushOnRead_calls ..),
      sameBytes_of_mem ((delivered_mem ..).trans (flushOnRead_mem ..)),
      samePort_trans (samePort_flushOnRead c s) (samePort_delivered ..),
      sameRest_trans (sameRest_flushOnRead c s) (sameRest_delivered ..)⟩
    case answer =>
      have hlog := delivered_respLog tid c (flushOnRead c s)
      rw [hframe, hlen, flushOnRead_respLog] at hlog
      exact hlog
    case queue => rw [queued_delivered, hqueue, List.tail_cons]
    case chan =>
      rw [hchan, if_pos hfit, if_pos hfit, if_pos hfit]
      simp [Ring.consume, Ring.commit, Ring.next, hempty]
    case slots =>
      rw [hring]
      exact (slots_commit_consume fill ht (head_eq_tail hx.shape hc hempty)).2
  case neg =>
    have hring : (respond tid 0 .frameTooLarge [] (flushOnRead c s)).ring c .rx = (s.chan c).rx.commit fill :=
      congrArg Channel.rx ((respond_chan ..).trans hu)
    refine ⟨_, deliver_tooLong hxu hpos ((Nat.lt_of_not_le hfit).trans_eq hlen.symm), fun h => absurd h hfit,
      fun _ => ⟨?answer, hqueue⟩, ?chan, ?slots, flushOnRead_chan_other .., flushOnRead_calls ..,
      sameBytes_of_mem (flushOnRead_mem ..), samePort_flushOnRead c s, sameRest_flushOnRead c s⟩
    case answer => exact congrArg (· ++ _) (flushOnRead_respLog c s)
    case chan =>
      rw [respond_chan, hu, if_neg hfit, if_neg hfit, if_neg hfit]
      simp [Ring.commit, Ring.next, hempty]
    case slots =>
      rw [hring]
      exact ⟨commit_length .., fun j hj => commit_slot_other _ _ hj⟩

end Sys2Proof.Machine
end

