-- ==== Sys2Proof/Proofs/ServiceRuns.lean ====
section
/-! What every service run is made of: the register reads as port events, the error post and the notification, and the
acknowledge at the end (20_memory.md R80, R85; 44_isr_dispatcher.md R203, R205; 60_exceptions.md R253, R261). -/

namespace Sys2Proof.Machine

open Sys2Proof

/-! ## What the port sees -/

theorem portGains_regRead (c : Chan) (r : ReadReg) (s : State) :
    PortGains s (regRead c r s) [.read c r (portAnswer c r s)] := ⟨rfl, rfl⟩

theorem portGains_readFifo (c : Chan) (n : Nat) (s : State) :
    PortGains s (readFifo c n s) (burstReads c (burst c n s)) := by
  induction n generalizing s with
  | zero => exact ⟨(List.append_nil _).symm, rfl⟩
  | succ n ih => exact portGains_trans (portGains_regRead c .rxfifo s) (ih _)

theorem portGains_acknowledge (c : Chan) (cmd : Word) (s : State) :
    PortGains s (acknowledge c cmd s) [.write c .cmd cmd] := ⟨rfl, rfl⟩

theorem samePort_notifyRx (c : Chan) (s : State) : SamePort s (notifyRx c s) :=
  ⟨notifyRx_portLog .., notifyRx_oracle ..⟩

theorem samePort_postError (c : Chan) (e : ErrCode) (s : State) : SamePort s (postError c e s) :=
  ⟨postError_portLog .., postError_oracle ..⟩

/-! ## What the controller answers -/

/-- The answer depends on the port and the controller only (20_memory.md R85). -/
theorem portAnswer_of_samePort {s t : State} (h : SamePort s t) (c : Chan) (r : ReadReg) :
    portAnswer c r t = portAnswer c r s := by
  rw [portAnswer, portAnswer, h.1, h.2]

@[simp] theorem portAnswer_modChan (s : State) (c c' : Chan) (r : ReadReg) (f : Channel → Channel) :
    portAnswer c r (s.modChan c' f) = portAnswer c r s :=
  portAnswer_of_samePort (samePort_modChan s c' f) c r

theorem regRead_modChan (c c' : Chan) (r : ReadReg) (s : State) (f : Channel → Channel) :
    regRead c r (s.modChan c' f) = (regRead c r s).modChan c' f := by
  cases c' <;> rfl

theorem readFifo_modChan (c c' : Chan) (n : Nat) (s : State) (f : Channel → Channel) :
    readFifo c n (s.modChan c' f) = (readFifo c n s).modChan c' f := by
  induction n generalizing s with
  | zero => rfl
  | succ n ih => rw [readFifo, regRead_modChan, ih, readFifo]

/-- The bytes of a burst are the low bytes of the values read (20_memory.md R80). -/
theorem fifoBytes_eq_burst (c : Chan) (n : Nat) (s : State) : fifoBytes c n s = (burst c n s).map rxByte := by
  induction n generalizing s with
  | zero => rfl
  | succ n ih => rw [fifoBytes, burst, List.map_cons, ih]

theorem burst_modChan (c c' : Chan) (n : Nat) (s : State) (f : Channel → Channel) :
    burst c n (s.modChan c' f) = burst c n s := by
  induction n generalizing s with
  | zero => rfl
  | succ n ih => rw [burst, burst, regRead_modChan, ih, portAnswer_modChan]

/-! ## The reader is told -/

theorem notifyRx_sigLog (c : Chan) (s : State) : (notifyRx c s).sigLog = s.sigLog ++ signalOf (s.chan c) := by
  simp [notifyRx, signalOf]

theorem notifyRx_calls (c : Chan) (s : State) : (notifyRx c s).calls = (wake c .rx s).calls := raiseSignal_calls ..

theorem postError_sigLog (c : Chan) (e : ErrCode) (s : State) :
    (postError c e s).sigLog = s.sigLog ++ signalOf (s.chan c) := by
  simp [postError, signalOf]

theorem postError_calls (c : Chan) (e : ErrCode) (s : State) : (postError c e s).calls = (wake c .rx s).calls :=
  (raiseSignal_calls ..).trans (wake_calls_congr (modChan_calls ..) (by simp))

/-! ## A service in the interrupt context -/

theorem asService_serving {c : Chan} {m : Mode} {s : State} (f : State → Result) (hi : s.dev.inIsr = true)
    (hm : (s.chan c).mode = m) : asService c m s f = f s := by
  simp [asService, hi, hm]

end Sys2Proof.Machine
end

