-- ==== Sys2Proof/Proofs/SyncTransmitService.lean ====
section
/-! `SVC.TX.SYNC`: nothing to send, and the burst of the oldest frame (42_sync_engine.md R171, R172). -/

namespace Sys2Proof.Machine

open Sys2Proof

theorem exec_svcTxSync {s : State} {c : Chan} (ext : Bool) (hi : s.dev.inIsr = true) (hm : (s.chan c).mode = .sync) :
    exec (.svcTxSync c ext) s = txSyncService c s := by
  rw [exec, execSvcTxSync, asService_serving _ hi hm]

theorem txSyncService_idle {c : Chan} {s : State} (ha : (s.chan c).tx.avail = false) :
    txSyncService c s = .next (acknowledge c cmdAckTx (s.modChan c fun x => { x with txReady := true })) := by
  rw [txSyncService, txSyncStart_eq_next.mpr (.inl ⟨ha, rfl⟩), andThen_next]

theorem txSyncService_burst {c : Chan} {s : State} (hs : TxOk (s.chan c)) (ha : (s.chan c).tx.avail = true) :
    txSyncService c s = .next (acknowledge c cmdAckTx (txSyncBurst c s)) := by
  rw [txSyncService, txSyncStart_of_avail hs ha, andThen_next]

/-- The frame that goes out is the first of the queue (20_memory.md R92). -/
theorem queued_txSyncBurst (c : Chan) (s : State) : queued (txSyncBurst c s) c .tx = (queued s c .tx).tail := by
  rw [queued_eq, queued_eq, ring_tx, ring_tx, txSyncBurst_chan_same, txSyncBurst_mem, ← queuedOf_consume]
  exact queuedOf_waiter ..

/-- Settles O50: with nothing available the flag is all, else the head slot holds the oldest frame, which is burst. -/
theorem svcTxSyncBurstsOneFrame : Obligations.SvcTxSyncBurstsOneFrame := by
  intro s c ext hi hm
  simp only [exec_svcTxSync ext hi hm]
  constructor
  · intro hnone
    refine ⟨_, txSyncService_idle (avail_eq_false.mpr hnone.symm), ?_, ?_, modChan_sigLog .., modChan_calls .., ?_,
      sameBytes_of_mem (modChan_mem ..), by simp [Served]⟩
    · rw [acknowledge_chan, modChan_chan_same]
    · exact portGains_congr (portGains_acknowledge ..) (samePort_modChan ..) ⟨rfl, rfl⟩
    · rw [acknowledge_chan, modChan_chan_other]
  · intro frame rest hs hon hqueue
    rw [ring_tx] at hon
    have hx := txOk_of_inv hs c
    obtain ⟨hpos, hframe⟩ := queuedOf_eq_cons (rb := (s.chan c).tx) hqueue
    have hhead : (s.chan c).tx.head < (s.chan c).tx.slots.length := by
      rw [slots_length hx.shape]
      exact head_lt_cap_of_pos hx.shape hpos
    obtain ⟨⟨hstate, hfill⟩, hslots⟩ := slots_consume hhead
    have hchan : (acknowledge c cmdAckTx (txSyncBurst c s)).chan c = _ :=
      (acknowledge_chan ..).trans (txSyncBurst_chan_same c s)
    have hring : (acknowledge c cmdAckTx (txSyncBurst c s)).ring c .tx =
        { (s.chan c).tx.consume with waiter := false } := congrArg Channel.tx hchan
    refine ⟨_, txSyncService_burst hx (avail_eq_true.mpr ⟨hon, hpos⟩), ?queue, ?port, ?chan, ?state, ?fill, ?slots,
      ?signals, txSyncBurst_calls c s, ?other, sameBytes_of_mem (txSyncBurst_mem c s), ?served⟩
    case queue =>
      have hkept : queued (acknowledge c cmdAckTx (txSyncBurst c s)) c .tx = queued (txSyncBurst c s) c .tx := by
        rw [queued_eq, queued_eq, acknowledge_mem, ring_tx, ring_tx, acknowledge_chan]
      rw [hkept, queued_txSyncBurst, hqueue, List.tail_cons]
    case port =>
      have hport := portGains_trans (portGains_txSyncBurst c s) (portGains_acknowledge c cmdAckTx _)
      rw [hframe, List.append_assoc] at hport
      exact hport
    case chan => rw [hchan]; rfl
    case state => rw [hring]; exact hstate
    case fill => rw [hring]; exact hfill
    case slots => rw [hring]; exact hslots
    case signals => exact (sameRest_txSyncBurst c s).2.1
    case other => rw [acknowledge_chan, txSyncBurst_chan_other]
    case served =>
      obtain ⟨hdev, -, -, hirq, hsched, hparams⟩ := sameRest_txSyncBurst c s
      exact ⟨hdev, rfl, txSyncBurst_respLog c s, hirq, hsched, hparams⟩

end Sys2Proof.Machine
end

