-- ==== Sys2Proof/Proofs/ReceiveServiceEnds.lean ====
section
/-! The two ways a receive service ends, in both modes: nothing to do, or work and no room for it (42_sync_engine.md
R173 to R175; 43_async_engine.md R188, R190). -/

namespace Sys2Proof.Machine

open Sys2Proof

/-! ## The queue-full pass -/

/-- Below the threshold the pass is counted and nothing else happens (42_sync_engine.md R174). -/
theorem queueFullPass_counts {c : Chan} {s : State} (h : (s.chan c).qfullCount + 1 < s.params.qfullThreshold) :
    queueFullPass c s = s.modChan c fun x => { x with qfullCount := x.qfullCount + 1 } := by
  simp [queueFullPass, Nat.not_le.mpr h]

/-- The `CTL` value with `RXEN` cleared and the other bits kept (42_sync_engine.md R175). -/
theorem replaceBit_rxen_false (v : Word) : replaceBit v ctlRxen false = v &&& ~~~1#32 := by
  simp [replaceBit, bitAt, ctlRxen]

/-- The state with the receiver disabled in flag, mirror and `CTL` and the failure counter at 0 (42_sync_engine.md
R175). -/
def receiverStopped (c : Chan) (s : State) : State :=
  (portWrite c .ctl ((s.chan c).mirror &&& ~~~1#32) s).modChan c fun x =>
    { x with rxEnabled := false, mirror := (s.chan c).mirror &&& ~~~1#32, qfullCount := 0 }

/-- At the threshold the receiver is stopped and `Overrun` posted (42_sync_engine.md R175). -/
theorem queueFullPass_escalates {c : Chan} {s : State} (h : s.params.qfullThreshold ≤ (s.chan c).qfullCount + 1) :
    queueFullPass c s = postError c .overrun (receiverStopped c s) := by
  simp [queueFullPass, h, replaceBit_rxen_false, writeCtl, portWrite_modChan, receiverStopped]

theorem portGains_receiverStopped (c : Chan) (s : State) :
    PortGains s (receiverStopped c s) [.write c .ctl ((s.chan c).mirror &&& ~~~1#32)] :=
  portGains_congr (portGains_portWrite ..) ⟨rfl, rfl⟩ (samePort_modChan ..)

/-! ## One pass of either loop -/

section
variable {s : State} {c : Chan} {m : Mode} (tx ext : Bool) (hi : s.dev.inIsr = true) (hm : (s.chan c).mode = m)
  (hb : 1 ≤ s.params.passBudget)
include hi hm hb

theorem exec_rxService_idle (h : rsIdle m (portAnswer c .rs s) = true) :
    exec (rxServiceOf m c tx ext) s = .next (acknowledge c cmdAckRx (regRead c .rs s)) := by
  obtain ⟨n, hn⟩ := Nat.exists_eq_add_of_le' hb
  cases m with
  | sync =>
    rw [rxServiceOf, exec, execSvcRxSync, asService_serving _ hi hm, rxSyncService, hn]
    exact rxSyncLoop_empty (by simpa [rsIdle] using h)
  | async =>
    rw [rxServiceOf, exec, execSvcRxAsync, asService_serving _ hi hm, rxAsyncService, hn]
    exact rxAsyncLoop_empty (by simpa [rsIdle] using h)

theorem exec_rxService_full (h : rsWaiting m (portAnswer c .rs s) = true) (hf : (s.ring c .rx).full = true) :
    exec (rxServiceOf m c tx ext) s =
      .next (acknowledge c cmdAckRx (queueFullPass c (regRead c .rs s))) := by
  obtain ⟨n, hn⟩ := Nat.exists_eq_add_of_le' hb
  cases m with
  | sync =>
    rw [rxServiceOf, exec, execSvcRxSync, asService_serving _ hi hm, rxSyncService, hn]
    exact rxSyncLoop_full h hf
  | async =>
    obtain ⟨hca, hgood⟩ : rsRca (portAnswer c .rs s) = true ∧ rsRxe (portAnswer c .rs s) = false := by
      simpa [rsWaiting] using h
    rw [rxServiceOf, exec, execSvcRxAsync, asService_serving _ hi hm, rxAsyncService, hn]
    exact rxAsyncLoop_full hca hgood hf

end

/-- Settles O52: one pass ends the service in each of the three cases. -/
theorem rxServiceWithoutWorkOrRoom : Obligations.RxServiceWithoutWorkOrRoom := by
  intro s c m tx ext hi hm hb rs ctl stuck
  have hread := portGains_regRead c .rs s
  refine ⟨fun hidle => ?idle, fun ⟨hwork, hfull⟩ hbelow => ?counts, fun ⟨hwork, hfull⟩ hreached => ?escalates⟩
  case idle =>
    exact ⟨_, exec_rxService_idle tx ext hi hm hb hidle, portGains_trans hread (portGains_acknowledge ..), by simp,
      by simp, rfl, rfl, sameBytes_of_mem rfl, by simp [Served]⟩
  case counts =>
    refine ⟨_, exec_rxService_full tx ext hi hm hb hwork (full_eq_true.mpr hfull), ?_⟩
    rw [queueFullPass_counts (by simpa using hbelow)]
    refine ⟨?port, by simp, by simp, by simp, by simp, sameBytes_of_mem (by simp), by simp [Served]⟩
    case port =>
      exact portGains_trans (portGains_congr hread ⟨rfl, rfl⟩ (samePort_modChan ..)) (portGains_acknowledge ..)
  case escalates =>
    refine ⟨_, exec_rxService_full tx ext hi hm hb hwork (full_eq_true.mpr hfull), ?_⟩
    rw [queueFullPass_escalates (by simpa using hreached)]
    refine ⟨?port, by simp [receiverStopped, ctl], by simp [receiverStopped], ?signals, ?calls,
      sameBytes_of_mem (by simp [receiverStopped]), by simp [Served, receiverStopped]⟩
    case port =>
      have hstop := portGains_trans hread (portGains_receiverStopped c _)
      rw [regRead_chan] at hstop
      exact portGains_trans (portGains_congr hstop ⟨rfl, rfl⟩ (samePort_postError ..)) (portGains_acknowledge ..)
    case signals =>
      rw [acknowledge_sigLog, postError_sigLog]
      simp [receiverStopped, signalOf]
    case calls =>
      rw [acknowledge_calls, postError_calls]
      exact wake_calls_congr (by simp [receiverStopped]) (by simp [receiverStopped])

end Sys2Proof.Machine
end

