-- ==== Sys2Proof/Proofs/SyncReceiveService.lean ====
section
/-! `SVC.RX.SYNC` with one status entry: a good frame is stored, a bad or oversize one is drained (42_sync_engine.md
R173, R176 to R178). -/

namespace Sys2Proof.Machine

open Sys2Proof

/-! ## The entry -/

/-- The first status entry, read after `RS` (42_sync_engine.md R173). -/
def firstEntry (c : Chan) (s : State) : Word := portAnswer c .sfifo (regRead c .rs s)

/-- The state with the first status entry and `n` bytes taken from the controller and the failure counter at 0
(42_sync_engine.md R173). -/
def entryTaken (c : Chan) (n : Nat) (s : State) : State :=
  (readFifo c n (regRead c .sfifo (regRead c .rs s))).modChan c fun x => { x with qfullCount := 0 }

@[simp] theorem entryTaken_chan_same (c : Chan) (n : Nat) (s : State) :
    (entryTaken c n s).chan c = { s.chan c with qfullCount := 0 } := by
  simp [entryTaken]

@[simp] theorem entryTaken_chan_other (c : Chan) (n : Nat) (s : State) :
    (entryTaken c n s).chan c.other = s.chan c.other := by
  simp [entryTaken]

@[simp] theorem entryTaken_mem (c : Chan) (n : Nat) (s : State) : (entryTaken c n s).mem = s.mem := by
  simp [entryTaken]

@[simp] theorem entryTaken_calls (c : Chan) (n : Nat) (s : State) : (entryTaken c n s).calls = s.calls := by
  simp [entryTaken]

/-- The error an entry posts: that of its `ECODE`, or `FrameTooLarge` (42_sync_engine.md R176, R178). -/
def entryError (e : Word) : ErrCode := if sfErr e then ecode (sfEcode e) else .frameTooLarge

/-- The error of an entry by its `ERR` bit and its `ECODE` (20_memory.md R79; 42_sync_engine.md R176, R178). -/
theorem entryError_eq (e : Word) :
    entryError e =
      if e.getLsbD 16 = false then .frameTooLarge
      else if e.extractLsb' 17 2 = 1#2 then .overrun
      else if e.extractLsb' 17 2 = 2#2 then .breakAbort
      else .checksumOrFramingError := by
  rw [entryError, sfErr]
  cases e.getLsbD 16 <;> rfl

/-- The bytes a burst of `n` reads after the first status entry takes (42_sync_engine.md R177). -/
def entryBytes (c : Chan) (n : Nat) (s : State) : List Byte :=
  (burst c n (regRead c .sfifo (regRead c .rs s))).map rxByte

theorem entryBytes_length (c : Chan) (n : Nat) (s : State) : (entryBytes c n s).length = n := by
  rw [entryBytes, ← fifoBytes_eq_burst, fifoBytes_length]

/-- The body of the loop: an error entry, an oversize one, a frame to store (42_sync_engine.md R173). -/
theorem rxSyncEntry_eq (c : Chan) (s : State) :
    rxSyncEntry c (regRead c .rs s) =
      if sfErr (firstEntry c s) then
        .next (postError c (ecode (sfEcode (firstEntry c s))) (entryTaken c (sfCount (firstEntry c s)) s))
      else if (s.chan c).rx.fsz < sfCount (firstEntry c s) then
        .next (postError c .frameTooLarge (entryTaken c (sfCount (firstEntry c s)) s))
      else
        andThen (enqueue c .rx (entryBytes c (sfCount (firstEntry c s)) s) (entryTaken c (sfCount (firstEntry c s)) s))
          fun u => .next (notifyRx c u) := by
  simp only [rxSyncEntry, errorEntry, oversizeEntry, storeEntry, portAnswer_modChan, regRead_modChan, readFifo_modChan,
    fifoBytes_eq_burst, burst_modChan, ring_rx, modChan_chan_same, regRead_chan]
  rfl

theorem rxSyncEntry_bad {c : Chan} {s : State}
    (h : sfErr (firstEntry c s) = true ∨ (s.chan c).rx.fsz < sfCount (firstEntry c s)) :
    rxSyncEntry c (regRead c .rs s) =
      .next (postError c (entryError (firstEntry c s)) (entryTaken c (sfCount (firstEntry c s)) s)) := by
  rw [rxSyncEntry_eq, entryError]
  cases herr : sfErr (firstEntry c s) with
  | true => simp only [if_true]
  | false =>
    have hlong := h.resolve_left (by simp [herr])
    simp only [Bool.false_eq_true, if_false, if_pos hlong]

/-- The state with the bytes of the first status entry queued as a frame (42_sync_engine.md R177). -/
def frameStored (c : Chan) (n : Nat) (s : State) : State :=
  enqueued c .rx (entryBytes c n s) (entryTaken c n s)

theorem frameStored_chan_same (c : Chan) (n : Nat) (s : State) :
    (frameStored c n s).chan c = { s.chan c with qfullCount := 0, rx := (s.chan c).rx.commit n } := by
  rw [frameStored, enqueued, chan_with_mem, modRing_chan_same, modRing_rx, entryTaken_chan_same, entryBytes_length]

@[simp] theorem frameStored_chan_other (c : Chan) (n : Nat) (s : State) :
    (frameStored c n s).chan c.other = s.chan c.other := by
  rw [frameStored, enqueued_chan_other, entryTaken_chan_other]

theorem frameStored_mem (c : Chan) (n : Nat) (s : State) :
    (frameStored c n s).mem = storeBytes s.mem (slotAddr c .rx (s.chan c).rx.tail 0) (entryBytes c n s) := by
  rw [frameStored, enqueued, ring_rx, entryTaken_chan_same, entryTaken_mem]

theorem frameStored_calls (c : Chan) (n : Nat) (s : State) : (frameStored c n s).calls = s.calls := by
  rw [frameStored, enqueued_calls, entryTaken_calls]

theorem samePort_frameStored (c : Chan) (n : Nat) (s : State) : SamePort (entryTaken c n s) (frameStored c n s) :=
  samePort_enqueued ..

theorem rxSyncEntry_good {c : Chan} {s : State} (hs : RxOk (s.chan c)) (hm : (s.chan c).mode = .sync)
    (hroom : (s.chan c).rx.entryCount ≠ (s.chan c).rx.cap) (hgood : sfErr (firstEntry c s) = false)
    (hfit : sfCount (firstEntry c s) ≤ (s.chan c).rx.fsz) :
    rxSyncEntry c (regRead c .rs s) = .next (notifyRx c (frameStored c (sfCount (firstEntry c s)) s)) := by
  have htail := (tail_unqueued hs.shape hroom).1
  have hempty := (hs.tail_partial hroom).resolve_right fun h => absurd (hm.symm.trans h.1) (by decide)
  have hput : enqueue c .rx (entryBytes c (sfCount (firstEntry c s)) s) (entryTaken c (sfCount (firstEntry c s)) s) =
      .next (frameStored c (sfCount (firstEntry c s)) s) := by
    refine enqueue_eq_next.mpr ⟨?_, ?_, ?_, rfl⟩ <;> rw [ring_rx, entryTaken_chan_same]
    · rwa [slots_length hs.shape]
    · rwa [entryBytes_length]
    · exact hempty
  rw [rxSyncEntry_eq, hput, hgood, if_neg (by decide), if_neg (Nat.not_lt.mpr hfit), andThen_next]

/-! ## The service -/

section
variable {c : Chan} {s u : State} {n : Nat} (hport : SamePort (entryTaken c n s) u)
include hport

/-- What `RS` answers after the entry, whatever the block has made of it. -/
theorem portAnswer_after_entry :
    portAnswer c .rs u = portAnswer c .rs (readFifo c n (regRead c .sfifo (regRead c .rs s))) := by
  rw [portAnswer_of_samePort hport, entryTaken, portAnswer_modChan]

/-- `RS`, the entry, its bytes, `RS` again, the acknowledge (42_sync_engine.md R173). -/
theorem portGains_oneEntry :
    PortGains s (acknowledge c cmdAckRx (regRead c .rs u))
      ([.read c .rs (portAnswer c .rs s), .read c .sfifo (firstEntry c s)] ++
        burstReads c (burst c n (regRead c .sfifo (regRead c .rs s))) ++
        [.read c .rs (portAnswer c .rs (readFifo c n (regRead c .sfifo (regRead c .rs s)))),
          .write c .cmd cmdAckRx]) := by
  have hentry := portGains_trans (portGains_regRead c .rs s) (portGains_regRead c .sfifo _)
  have htaken := portGains_trans hentry (portGains_readFifo c n _)
  have hsame := samePort_trans (samePort_modChan _ c fun x => { x with qfullCount := 0 }) hport
  have hend := portGains_trans (portGains_regRead c .rs u) (portGains_acknowledge c cmdAckRx _)
  rw [portAnswer_after_entry hport] at hend
  exact portGains_trans (portGains_congr htaken ⟨rfl, rfl⟩ hsame) hend

/-- A service that finds one entry and then an empty status FIFO handles it and acknowledges (42_sync_engine.md
R173). -/
theorem exec_svcRxSync_oneEntry (tx ext : Bool) (hi : s.dev.inIsr = true) (hm : (s.chan c).mode = .sync)
    (hb : 2 ≤ s.params.passBudget) (hroom : (s.chan c).rx.entryCount ≠ (s.chan c).rx.cap)
    (hon : (s.chan c).rx.online = true) (hne : rsSfne (portAnswer c .rs s) = true)
    (hentry : rxSyncEntry c (regRead c .rs s) = .next u)
    (hlast : rsSfne (portAnswer c .rs (readFifo c n (regRead c .sfifo (regRead c .rs s)))) = false) :
    exec (.svcRxSync c tx ext) s = .next (acknowledge c cmdAckRx (regRead c .rs u)) := by
  obtain ⟨k, hk⟩ := Nat.exists_eq_add_of_le' hb
  rw [exec, execSvcRxSync, asService_serving _ hi hm, rxSyncService, hk,
    rxSyncLoop_entry hne (full_eq_false.mpr ⟨hroom, hon⟩), hentry, andThen_next]
  exact rxSyncLoop_empty (by rwa [portAnswer_after_entry hport])

end

/-! ## A good entry -/

/-- Settles O53: with room and in mode `SYNC` the tail slot is empty, so the frame is stored there and committed. -/
theorem svcRxSyncStoresAFrame : Obligations.SvcRxSyncStoresAFrame := by
  intro s c tx ext hs hi hm hb hroom hon rs s1 e n s2 words last hne hgood hfit hlast
  rw [ring_rx] at hroom hon hfit
  have hx := rxOk_of_inv hs c
  have ht : (s.chan c).rx.tail < (s.chan c).rx.slots.length := by
    rw [slots_length hx.shape]
    exact (tail_unqueued hx.shape hroom).1
  have hlen : (entryBytes c n s).length = n := entryBytes_length c n s
  have hport : SamePort (entryTaken c n s) (notifyRx c (frameStored c n s)) :=
    samePort_trans (samePort_frameStored c n s) (samePort_notifyRx ..)
  have hchan : (acknowledge c cmdAckRx (regRead c .rs (notifyRx c (frameStored c n s)))).chan c =
      { s.chan c with qfullCount := 0, rx := { (s.chan c).rx.commit n with waiter := false } } := by
    rw [acknowledge_chan, regRead_chan, notifyRx_chan_same, frameStored_chan_same]
  have hring : (acknowledge c cmdAckRx (regRead c .rs (notifyRx c (frameStored c n s)))).ring c .rx =
      { (s.chan c).rx.commit n with waiter := false } := congrArg Channel.rx hchan
  have hmem : (acknowledge c cmdAckRx (regRead c .rs (notifyRx c (frameStored c n s)))).mem =
      storeBytes s.mem (slotAddr c .rx (s.chan c).rx.tail 0) (entryBytes c n s) := by
    rw [acknowledge_mem, regRead_mem, notifyRx_mem, frameStored_mem]
  have hentry := rxSyncEntry_good hx hm hroom hgood hfit
  refine ⟨_, exec_svcRxSync_oneEntry hport tx ext hi hm hb hroom hon hne hentry hlast, ?queue,
    portGains_oneEntry hport, ?chan, ?slot, ?slots, ?bytes, ?signals, ?calls, by simp,
    by simp [Served, frameStored, enqueued, entryTaken]⟩
  case queue =>
    have hqueue := queuedFrom_commit s.mem c .rx hx.shape hx.queued hroom (hlen.trans_le hfit)
    rw [hlen] at hqueue
    rw [queued_eq, hring, queuedOf_waiter, hmem]
    exact hqueue
  case chan => rw [hchan]; rfl
  case slot => rw [hring]; exact commit_slot_tail _ _ ht
  case slots =>
    rw [hring]
    exact ⟨commit_length .., fun j hj => commit_slot_other _ _ hj⟩
  case bytes =>
    intro a ha
    rw [hmem]
    exact memRead_storeBytes_outside _ _ _ _ (by rwa [hlen])
  case signals =>
    rw [acknowledge_sigLog, regRead_sigLog, notifyRx_sigLog, frameStored_chan_same]
    simp [frameStored, enqueued, entryTaken, signalOf]
  case calls =>
    rw [acknowledge_calls, regRead_calls, notifyRx_calls]
    exact wake_calls_congr (frameStored_calls ..) (by simp [frameStored_chan_same])

/-! ## A bad entry -/

/-- Settles O54: the entry's bytes are drained and its error is posted. -/
theorem svcRxSyncDrainsABadFrame : Obligations.SvcRxSyncDrainsABadFrame := by
  intro s c tx ext hi hm hb hroom hon rs s1 e n s2 words last code hne hbad hlast
  rw [ring_rx] at hroom hon hbad
  have hport : SamePort (entryTaken c n s) (postError c (entryError e) (entryTaken c n s)) := samePort_postError ..
  refine ⟨_, exec_svcRxSync_oneEntry hport tx ext hi hm hb hroom hon hne (rxSyncEntry_bad hbad) hlast,
    portGains_oneEntry hport, ?chan, ?signals, ?calls, by simp, sameBytes_of_mem (by simp),
    by simp [Served, entryTaken]⟩
  case chan =>
    rw [acknowledge_chan, regRead_chan, postError_chan_same, entryTaken_chan_same, entryError_eq]
  case signals =>
    rw [acknowledge_sigLog, regRead_sigLog, postError_sigLog, entryTaken_chan_same]
    simp [entryTaken, signalOf]
  case calls =>
    rw [acknowledge_calls, regRead_calls, postError_calls]
    exact wake_calls_congr (by simp) (by simp)

end Sys2Proof.Machine
end

