-- ==== Sys2Proof/Proofs/AsyncTransmitService.lean ====
section
/-! `SVC.TX.ASYNC`: nothing to send, and the next byte of the oldest frame (43_async_engine.md R186, R187). -/

namespace Sys2Proof.Machine

open Sys2Proof

theorem exec_svcTxAsync {s : State} {c : Chan} (ext : Bool) (hi : s.dev.inIsr = true)
    (hm : (s.chan c).mode = .async) : exec (.svcTxAsync c ext) s = txAsyncService c s := by
  rw [exec, execSvcTxAsync, asService_serving _ hi hm]

/-- A frame is being sent only from an online ring that holds it (INV7 of 10_state.md R50). -/
theorem TxOk.not_active_of_not_avail {x : Channel} (h : TxOk x) (ha : x.tx.avail = false) : x.txActive = false := by
  by_contra hact
  obtain ⟨-, hpos, hon, -⟩ := h.sending (by simpa using hact)
  rw [avail_eq_true.mpr ⟨hon, hpos⟩] at ha
  cases ha

theorem txAsyncService_idle {c : Chan} {s : State} (hs : TxOk (s.chan c)) (ha : (s.chan c).tx.avail = false) :
    txAsyncService c s = .next (acknowledge c cmdAckTx (s.modChan c fun y => { y with txBufEmpty := true })) := by
  rw [txAsyncService, txAsyncByte_eq_next.mpr (.inl ⟨hs.not_active_of_not_avail ha, ha, rfl⟩), andThen_next]

theorem txAsyncService_sends {c : Chan} {s : State} (hs : TxOk (s.chan c)) (hon : (s.chan c).tx.online = true)
    (hpos : 0 < (s.chan c).tx.entryCount) :
    txAsyncService c s = .next (acknowledge c cmdAckTx (byteGone c s)) := by
  rw [txAsyncService, txAsyncByte_sends hs hon hpos, andThen_next]

theorem unsent_acknowledge (c : Chan) (cmd : Word) (s : State) : unsent (acknowledge c cmd s) c = unsent s c := by
  rw [unsent_eq, unsent_eq, acknowledge_mem, acknowledge_chan]

theorem byteGone_of_more {c : Chan} {s : State}
    (h : ((s.chan c).tx.slot (s.chan c).tx.head).fill + 1 ≠ ((s.chan c).tx.slot (s.chan c).tx.head).len) :
    byteGone c s = midByteSent c s := if_neg h

theorem byteGone_of_last {c : Chan} {s : State}
    (h : ((s.chan c).tx.slot (s.chan c).tx.head).fill + 1 = ((s.chan c).tx.slot (s.chan c).tx.head).len) :
    byteGone c s = lastByteSent c s := if_pos h

/-- Settles O51: with nothing available the flag is all, else one byte of the head slot goes out, and `Consume` follows
the last. -/
theorem svcTxAsyncSendsOneByte : Obligations.SvcTxAsyncSendsOneByte := by
  intro s c ext hs hi hm
  have hx := txOk_of_inv hs c
  simp only [exec_svcTxAsync ext hi hm]
  constructor
  · intro hnone
    refine ⟨_, txAsyncService_idle hx (avail_eq_false.mpr hnone.symm), ?_, ?_, modChan_sigLog .., modChan_calls ..,
      ?_, sameBytes_of_mem (modChan_mem ..), by simp [Served]⟩
    · rw [acknowledge_chan, modChan_chan_same]
    · exact portGains_congr (portGains_acknowledge ..) (samePort_modChan ..) ⟨rfl, rfl⟩
    · rw [acknowledge_chan, modChan_chan_other]
  · intro hon hpos
    rw [ring_tx] at hon hpos
    have hhead : (s.chan c).tx.head < (s.chan c).tx.slots.length := by
      rw [slots_length hx.shape]
      exact head_lt_cap_of_pos hx.shape hpos
    refine ⟨_, txAsyncService_sends hx hon hpos, portGains_trans (portGains_byteGone c s) (portGains_acknowledge ..),
      ?unsent, fun hmore => ?more, fun hlast => ?last, (sameRest_byteGone c s).2.1, ?other,
      sameBytes_of_mem (byteGone_mem c s), ?served⟩
    case unsent => rw [unsent_acknowledge]; exact unsent_byteGone hx hon hpos
    case more =>
      rw [byteGone_of_more hmore]
      exact ⟨(acknowledge_chan ..).trans (midByteSent_chan_same c s), midByteSent_calls c s⟩
    case last =>
      obtain ⟨⟨hstate, hfill⟩, hslots⟩ := slots_consume hhead
      have hchan : (acknowledge c cmdAckTx (lastByteSent c s)).chan c = _ :=
        (acknowledge_chan ..).trans (lastByteSent_chan_same c s)
      have hring : (acknowledge c cmdAckTx (lastByteSent c s)).ring c .tx =
          { (s.chan c).tx.consume with waiter := false } := congrArg Channel.tx hchan
      rw [byteGone_of_last hlast, hring]
      exact ⟨by rw [hchan]; rfl, hstate, hfill, hslots, lastByteSent_calls c s⟩
    case other => rw [acknowledge_chan, byteGone_chan_other]
    case served =>
      obtain ⟨hdev, -, -, hirq, hsched, hparams⟩ := sameRest_byteGone c s
      exact ⟨hdev, rfl, byteGone_respLog c s, hirq, hsched, hparams⟩

end Sys2Proof.Machine
end

