-- ==== Sys2Proof/Proofs/AsyncReceiveService.lean ====
section
/-! `SVC.RX.ASYNC` with one character: a good one is appended to the partial frame, a bad one discards it
(43_async_engine.md R188, R189, R191 to R193; 60_exceptions.md R253, R261). -/

namespace Sys2Proof.Machine

open Sys2Proof

/-! ## The service -/

section
variable {c : Chan} {s u : State} (hport : SamePort (regRead c .rxfifo (regRead c .rs s)) u)
include hport

/-- `RS`, the character, `RS` again, the acknowledge (43_async_engine.md R188). -/
theorem portGains_oneCharacter :
    PortGains s (acknowledge c cmdAckRx (regRead c .rs u))
      [.read c .rs (portAnswer c .rs s), .read c .rxfifo (portAnswer c .rxfifo (regRead c .rs s)),
        .read c .rs (portAnswer c .rs (regRead c .rxfifo (regRead c .rs s))), .write c .cmd cmdAckRx] := by
  have htaken := portGains_trans (portGains_regRead c .rs s) (portGains_regRead c .rxfifo _)
  have hend := portGains_trans (portGains_regRead c .rs u) (portGains_acknowledge c cmdAckRx _)
  rw [portAnswer_of_samePort hport] at hend
  exact portGains_trans (portGains_congr htaken ⟨rfl, rfl⟩ hport) hend

/-- A service that finds one character and then none handles it in one pass and acknowledges in the next
(43_async_engine.md R188). -/
theorem exec_svcRxAsync_oneCharacter (tx ext : Bool) (hi : s.dev.inIsr = true) (hm : (s.chan c).mode = .async)
    (hb : 2 ≤ s.params.passBudget) (hpass : ∀ dk n, rxAsyncLoop c dk (n + 1) s = rxAsyncLoop c dk n u)
    (hlast : rsRca (portAnswer c .rs (regRead c .rxfifo (regRead c .rs s))) = false) :
    exec (.svcRxAsync c tx ext) s = .next (acknowledge c cmdAckRx (regRead c .rs u)) := by
  obtain ⟨n, hn⟩ := Nat.exists_eq_add_of_le' hb
  rw [exec, execSvcRxAsync, asService_serving _ hi hm, rxAsyncService, hn, hpass]
  exact rxAsyncLoop_empty (by rwa [portAnswer_of_samePort hport])

end

/-! ## A good character -/

/-- The signals of the watermark check on a channel whose partial frame has `f` bytes (43_async_engine.md R192). -/
def markSignals (x : Channel) (f : Nat) : List Word :=
  if 0 < x.watermark ∧ f = x.watermark then signalOf x else []

theorem watermarkCheck_eq_markSignals (c : Chan) (f : Nat) (s : State) :
    watermarkCheck c f s = { s with sigLog := s.sigLog ++ markSignals (s.chan c) f } := by
  unfold watermarkCheck markSignals
  split
  · unfold raiseSignal signalOf
    split
    · next h => rw [h]; rfl
    · next h => simp [h]
  · simp

theorem partialFill_eq (rb : Ring) :
    partialFill rb = if (rb.slot rb.tail).state = .filling then (rb.slot rb.tail).fill else 0 := by
  simp [partialFill, Ring.filling]

/-- The first character, read after `RS` (43_async_engine.md R188). -/
def firstCharacter (c : Chan) (s : State) : Byte := rxByte (portAnswer c .rxfifo (regRead c .rs s))

/-- The state with the first character taken from the controller and the failure counter at 0 (43_async_engine.md
R188). -/
def characterTaken (c : Chan) (s : State) : State :=
  (regRead c .rxfifo (regRead c .rs s)).modChan c fun x => { x with qfullCount := 0 }

@[simp] theorem characterTaken_chan_same (c : Chan) (s : State) :
    (characterTaken c s).chan c = { s.chan c with qfullCount := 0 } := by
  simp [characterTaken]

@[simp] theorem characterTaken_chan_other (c : Chan) (s : State) :
    (characterTaken c s).chan c.other = s.chan c.other := by
  simp [characterTaken]

/-- The state with the first character in the tail slot and the watermark looked at, the slot not yet sealed
(43_async_engine.md R189, R192). -/
def characterMarked (c : Chan) (s : State) : State :=
  watermarkCheck c (partialFill (s.chan c).rx + 1) (byteStored c (firstCharacter c s) (characterTaken c s))

theorem characterMarked_chan_same (c : Chan) (s : State) :
    (characterMarked c s).chan c =
      { s.chan c with
        qfullCount := 0
        rx := (s.chan c).rx.setSlot (s.chan c).rx.tail
          ⟨.filling, ((s.chan c).rx.slot (s.chan c).rx.tail).len, partialFill (s.chan c).rx + 1⟩ } := by
  rw [characterMarked, watermarkCheck_chan, byteStored_chan_same, characterTaken_chan_same]

@[simp] theorem characterMarked_chan_other (c : Chan) (s : State) :
    (characterMarked c s).chan c.other = s.chan c.other := by
  rw [characterMarked, watermarkCheck_chan, byteStored_chan_other, characterTaken_chan_other]

theorem characterMarked_mem (c : Chan) (s : State) :
    (characterMarked c s).mem =
      memWrite s.mem (slotAddr c .rx (s.chan c).rx.tail (partialFill (s.chan c).rx)) (firstCharacter c s) := by
  simp [characterMarked, watermarkCheck_eq_markSignals, byteStored, characterTaken]

@[simp] theorem characterMarked_calls (c : Chan) (s : State) : (characterMarked c s).calls = s.calls := by
  simp [characterMarked, watermarkCheck_eq_markSignals, byteStored, characterTaken]

theorem characterMarked_sigLog (c : Chan) (s : State) :
    (characterMarked c s).sigLog = s.sigLog ++ markSignals (s.chan c) (partialFill (s.chan c).rx + 1) := by
  rw [characterMarked, watermarkCheck_eq_markSignals, byteStored_chan_same, characterTaken_chan_same]
  simp [byteStored, characterTaken, markSignals, signalOf]

theorem samePort_characterMarked (c : Chan) (s : State) :
    SamePort (regRead c .rxfifo (regRead c .rs s)) (characterMarked c s) := by
  simp [SamePort, characterMarked, watermarkCheck_eq_markSignals, byteStored, characterTaken]

theorem characterMarked_rest (c : Chan) (s : State) :
    (characterMarked c s).dev = s.dev ∧ (characterMarked c s).respLog = s.respLog ∧
    (characterMarked c s).irqLog = s.irqLog ∧ (characterMarked c s).schedule = s.schedule ∧
    (characterMarked c s).params = s.params := by
  simp [characterMarked, watermarkCheck_eq_markSignals, byteStored, characterTaken]

/-- The state after the first character, with the tail slot sealed where the character fills it (43_async_engine.md
R189, R193). -/
def characterAppended (c : Chan) (s : State) : State :=
  if partialFill (s.chan c).rx + 1 = (s.chan c).rx.fsz then sealFrame c (characterMarked c s) else characterMarked c s

theorem goodCharacter_appends {c : Chan} {s : State} (hs : RxOk (s.chan c))
    (hroom : (s.chan c).rx.entryCount ≠ (s.chan c).rx.cap) :
    goodCharacter c (regRead c .rs s) = .next (characterAppended c s) := by
  have hstart : goodCharacter c (regRead c .rs s) = appendByte c (firstCharacter c s) (characterTaken c s) := by
    simp only [goodCharacter, portAnswer_modChan, regRead_modChan]
    rfl
  have htaken : RxOk ((characterTaken c s).chan c) := by
    rw [characterTaken_chan_same]
    exact ⟨hs.shape, hs.queued, hs.others, hs.ready, hs.sync⟩
  obtain ⟨t, ht⟩ := completes_appendByte (b := firstCharacter c s) htaken (by simpa using hroom)
  obtain ⟨-, hresult⟩ := appendByte_next ht
  rw [ring_rx, characterTaken_chan_same] at hresult
  rw [hstart, ht, hresult]
  rfl
theorem sealFrame_chan_same (c : Chan) (s : State) :
    (sealFrame c s).chan c =
      { s.chan c with rx := { (s.chan c).rx.commit (s.chan c).rx.fsz with waiter := false } } := by
  simp [sealFrame]

theorem characterAppended_of_more {c : Chan} {s : State}
    (h : partialFill (s.chan c).rx + 1 ≠ (s.chan c).rx.fsz) : characterAppended c s = characterMarked c s := if_neg h

theorem characterAppended_of_last {c : Chan} {s : State}
    (h : partialFill (s.chan c).rx + 1 = (s.chan c).rx.fsz) :
    characterAppended c s = sealFrame c (characterMarked c s) := if_pos h

/-- The character that fills the slot leaves it committed (43_async_engine.md R193). -/
theorem characterAppended_chan_of_last {c : Chan} {s : State}
    (h : partialFill (s.chan c).rx + 1 = (s.chan c).rx.fsz) :
    (characterAppended c s).chan c =
      { s.chan c with
        qfullCount := 0
        rx := { (s.chan c).rx.commit (partialFill (s.chan c).rx + 1) with waiter := false } } := by
  rw [characterAppended_of_last h, sealFrame_chan_same, characterMarked_chan_same, setSlot_tail_commit, setSlot_fsz, h]

/-- The reader is told of the sealed frame after the watermark signal (43_async_engine.md R189, R193). -/
theorem characterAppended_sigLog_of_last {c : Chan} {s : State}
    (h : partialFill (s.chan c).rx + 1 = (s.chan c).rx.fsz) :
    (characterAppended c s).sigLog =
      s.sigLog ++ markSignals (s.chan c) (partialFill (s.chan c).rx + 1) ++ signalOf (s.chan c) := by
  rw [characterAppended_of_last h, sealFrame, notifyRx_sigLog, modRing_sigLog, characterMarked_sigLog,
    modRing_chan_same, characterMarked_chan_same]
  rfl

theorem characterAppended_calls_of_last {c : Chan} {s : State}
    (h : partialFill (s.chan c).rx + 1 = (s.chan c).rx.fsz) :
    (characterAppended c s).calls = (wake c .rx s).calls := by
  rw [characterAppended_of_last h, sealFrame, notifyRx_calls]
  exact wake_calls_congr (by simp) (by simp [characterMarked_chan_same])

theorem characterAppended_chan_other (c : Chan) (s : State) :
    (characterAppended c s).chan c.other = s.chan c.other := by
  unfold characterAppended
  split
  · simp [sealFrame]
  · simp

theorem characterAppended_mem (c : Chan) (s : State) :
    (characterAppended c s).mem =
      memWrite s.mem (slotAddr c .rx (s.chan c).rx.tail (partialFill (s.chan c).rx)) (firstCharacter c s) := by
  unfold characterAppended
  split
  · simp [sealFrame, characterMarked_mem]
  · exact characterMarked_mem c s

theorem samePort_characterAppended (c : Chan) (s : State) :
    SamePort (regRead c .rxfifo (regRead c .rs s)) (characterAppended c s) := by
  have hmarked := samePort_characterMarked c s
  unfold characterAppended
  split
  · exact samePort_trans hmarked (samePort_trans (samePort_modChan ..) (samePort_notifyRx ..))
  · exact hmarked

theorem characterAppended_rest (c : Chan) (s : State) :
    (characterAppended c s).dev = s.dev ∧ (characterAppended c s).respLog = s.respLog ∧
    (characterAppended c s).irqLog = s.irqLog ∧ (characterAppended c s).schedule = s.schedule ∧
    (characterAppended c s).params = s.params := by
  have hmarked := characterMarked_rest c s
  unfold characterAppended
  split
  · simpa [sealFrame] using hmarked
  · exact hmarked

/-- The tail slot is the only one the character touches. -/
theorem sameSlotsBut_characterAppended (c : Chan) (s : State) :
    SameSlotsBut (s.chan c).rx.tail (s.chan c).rx ((characterAppended c s).chan c).rx := by
  by_cases h : partialFill (s.chan c).rx + 1 = (s.chan c).rx.fsz
  · rw [characterAppended_chan_of_last h]
    exact ⟨commit_length .., fun j hj => commit_slot_other _ _ hj⟩
  · rw [characterAppended_of_more h, characterMarked_chan_same]
    exact ⟨setSlot_length .., fun j hj => setSlot_slot_other _ _ hj⟩

theorem loadBytes_succ_eq_append (m : Memory) (a n : Nat) :
    loadBytes m a (n + 1) = loadBytes m a n ++ [memRead m (a + n)] := by
  induction n generalizing a with
  | zero => rfl
  | succ n ih => rw [loadBytes, ih, loadBytes, List.cons_append, Nat.add_right_comm, Nat.add_assoc]

/-- A byte written behind `n` others is read behind them. -/
theorem loadBytes_memWrite_last (m : Memory) (c : Chan) (d : Dir) (i n : Nat) (b : Byte) :
    loadBytes (memWrite m (slotAddr c d i n) b) (slotAddr c d i 0) (n + 1) =
      loadBytes m (slotAddr c d i 0) n ++ [b] := by
  rw [loadBytes_succ_eq_append, slotAddr_add, Nat.zero_add, memRead_memWrite_same]
  refine congrArg (· ++ [b]) (loadBytes_congr fun x _ hx => memRead_memWrite_other m b ?_)
  rw [slotAddr_add, Nat.zero_add] at hx
  exact hx.ne

/-- The sealed frame is queued behind those already there: the partial frame and the character (43_async_engine.md
R193). -/
theorem queued_characterAppended {c : Chan} {s : State} (hs : RxOk (s.chan c))
    (hroom : (s.chan c).rx.entryCount ≠ (s.chan c).rx.cap)
    (h : partialFill (s.chan c).rx + 1 = (s.chan c).rx.fsz) :
    queued (characterAppended c s) c .rx =
      queued s c .rx ++
        [loadBytes s.mem (slotAddr c .rx (s.chan c).rx.tail 0) (partialFill (s.chan c).rx) ++
          [firstCharacter c s]] := by
  rw [queued_eq, queued_eq, ring_rx, ring_rx, characterAppended_chan_of_last h, characterAppended_mem, queuedOf_waiter,
    queuedOf_commit _ _ _ _ hs.shape hroom, loadBytes_memWrite_last,
    queuedOf_writeTail _ _ _ hs.shape hs.queued hroom (hs.partialFill_lt hroom)]

/-- Settles O55: with room the tail slot takes the character, and is committed where that fills it. -/
theorem svcRxAsyncAppendsACharacter : Obligations.SvcRxAsyncAppendsACharacter := by
  intro s c tx ext hs hi hm hb hroom hon tail rs s1 w last k atMark hca hgood hlast
  rw [ring_rx] at hroom hon
  have hx := rxOk_of_inv hs c
  have ht : (s.chan c).rx.tail < (s.chan c).rx.slots.length := by
    rw [slots_length hx.shape]
    exact (tail_unqueued hx.shape hroom).1
  have hk : partialFill (s.chan c).rx = k := partialFill_eq _
  have hpass : ∀ dk n, rxAsyncLoop c dk (n + 1) s = rxAsyncLoop c dk n (characterAppended c s) := by
    intro dk n
    rw [rxAsyncLoop_good hca hgood (full_eq_false.mpr ⟨hroom, hon⟩), goodCharacter_appends hx hroom, andThen_next]
  have hport := samePort_characterAppended c s
  have hchan : (acknowledge c cmdAckRx (regRead c .rs (characterAppended c s))).chan c =
      (characterAppended c s).chan c := by rw [acknowledge_chan, regRead_chan]
  have hmem : (acknowledge c cmdAckRx (regRead c .rs (characterAppended c s))).mem =
      memWrite s.mem (slotAddr c .rx (s.chan c).rx.tail k) (firstCharacter c s) := by
    rw [acknowledge_mem, regRead_mem, characterAppended_mem, hk]
  refine ⟨_, exec_svcRxAsync_oneCharacter hport tx ext hi hm hb hpass hlast, portGains_oneCharacter hport, ?byte,
    fun a ha => ?bytes, ?slots, fun hmore => ?more, fun hfull => ?full, ?other, ?served⟩
  case byte => rw [hmem]; exact memRead_memWrite_same ..
  case bytes => rw [hmem]; exact memRead_memWrite_other _ _ ha
  case slots => rw [ring_rx, ring_rx, hchan]; exact sameSlotsBut_characterAppended c s
  case more =>
    rw [ring_rx, ← hk] at hmore
    rw [ring_rx, hchan, acknowledge_sigLog, regRead_sigLog, acknowledge_calls, regRead_calls,
      characterAppended_of_more hmore, characterMarked_chan_same, characterMarked_sigLog, characterMarked_calls, hk]
    have hslot := setSlot_slot_same (s.chan c).rx (s.chan c).rx.tail
      ⟨.filling, ((s.chan c).rx.slot (s.chan c).rx.tail).len, k + 1⟩ ht
    exact ⟨rfl, congrArg Slot.state hslot, congrArg Slot.fill hslot, rfl, rfl⟩
  case full =>
    rw [ring_rx, ← hk] at hfull
    have hsignals := characterAppended_sigLog_of_last hfull
    have hqueue := queued_characterAppended hx hroom hfull
    rw [hk] at hsignals hqueue
    refine ⟨?_, ?_, ?_, hsignals, characterAppended_calls_of_last hfull⟩
    · rw [hchan, characterAppended_chan_of_last hfull]; rfl
    · rw [ring_rx, hchan, characterAppended_chan_of_last hfull, hk]
      exact commit_slot_tail _ _ ht
    · rw [queued_eq, ring_rx, hchan]
      exact hqueue
  case other => rw [acknowledge_chan, regRead_chan, characterAppended_chan_other]
  case served =>
    obtain ⟨hdev, hresp, hirq, hsched, hparams⟩ := characterAppended_rest c s
    exact ⟨hdev, rfl, hresp, hirq, hsched, hparams⟩

/-! ## A bad character -/

/-- The ring with the partial frame in its tail slot, if there is one, discarded (43_async_engine.md R191). -/
def partialDropped (rb : Ring) : Ring :=
  if rb.filling rb.tail then rb.setSlot rb.tail { rb.slot rb.tail with state := .empty, fill := 0 } else rb

theorem partialDropped_of_filling {rb : Ring} (h : (rb.slot rb.tail).state = .filling) :
    partialDropped rb = rb.setSlot rb.tail { rb.slot rb.tail with state := .empty, fill := 0 } :=
  if_pos (decide_eq_true h)

theorem partialDropped_of_not_filling {rb : Ring} (h : (rb.slot rb.tail).state ≠ .filling) : partialDropped rb = rb :=
  if_neg (by simpa [Ring.filling] using h)

/-- A partial frame is not queued, and its slot keeps its `len`. -/
theorem sameFrames_partialDropped (rb : Ring) : SameFrames rb (partialDropped rb) := by
  unfold partialDropped
  split
  · exact sameFrames_setSlot rb rb.tail rfl
  · exact .refl rb

/-- `AbortPartial` changes the slots only. -/
theorem partialDropped_eq (rb : Ring) : partialDropped rb = { rb with slots := (partialDropped rb).slots } := by
  unfold partialDropped
  split <;> rfl

theorem sameSlotsBut_partialDropped (rb : Ring) : SameSlotsBut rb.tail rb (partialDropped rb) := by
  unfold partialDropped
  split
  · exact ⟨setSlot_length .., fun j hj => setSlot_slot_other _ _ hj⟩
  · exact ⟨rfl, fun _ _ => rfl⟩

/-- After `AbortPartial` a tail slot that was `FILLING` is `EMPTY`. -/
theorem partialDropped_slot_tail {rb : Ring} (h : (rb.slot rb.tail).state = .filling) :
    ((partialDropped rb).slot rb.tail).state = .empty ∧ ((partialDropped rb).slot rb.tail).fill = 0 := by
  have ht : rb.tail < rb.slots.length := lt_length_of_slot_ne (by rw [h]; nofun)
  rw [partialDropped_of_filling h, setSlot_slot_same _ _ _ ht]
  exact ⟨rfl, rfl⟩

theorem partialDropped_not_filling (rb : Ring) : ((partialDropped rb).slot rb.tail).state ≠ .filling := by
  by_cases h : (rb.slot rb.tail).state = .filling
  · rw [(partialDropped_slot_tail h).1]; nofun
  · rwa [partialDropped_of_not_filling h]

/-- A ring with a partial frame has slots, so the guard of `AbortPartial` on `cap` decides nothing. -/
theorem abortPartial_eq {c : Chan} {s : State} (hs : RingShape (s.chan c).rx) :
    abortPartial c s = s.modRing c .rx partialDropped := by
  unfold abortPartial
  split
  · next h => exact modChan_congr (congrArg (fun rb => { s.chan c with rx := rb }) (if_pos h.2).symm)
  · next h =>
    have hnot : ((s.chan c).rx.slot (s.chan c).rx.tail).state ≠ .filling := by
      intro hf
      have ht := lt_length_of_slot_ne (rb := (s.chan c).rx) (by rw [hf]; nofun)
      rw [slots_length hs] at ht
      exact h ⟨Nat.zero_lt_of_lt ht, decide_eq_true hf⟩
    have hsame : s.modChan c id = s := by cases c <;> rfl
    exact hsame.symm.trans
      (modChan_congr (congrArg (fun rb => { s.chan c with rx := rb }) (partialDropped_of_not_filling hnot).symm))

/-- The state after a bad first character: it is consumed, the partial frame is discarded, the error is posted
(43_async_engine.md R188, R191). -/
def characterRefused (c : Chan) (e : ErrCode) (s : State) : State :=
  postError c e ((regRead c .rxfifo (regRead c .rs s)).modRing c .rx partialDropped)

theorem badCharacter_refuses {c : Chan} {s : State} (hs : RingShape (s.chan c).rx) (rs : Word) :
    badCharacter c rs (regRead c .rs s) = characterRefused c (ecode (rsEcode rs)) s := by
  rw [badCharacter, abortPartial_eq (by simpa using hs), characterRefused]

theorem characterRefused_chan_same (c : Chan) (e : ErrCode) (s : State) :
    (characterRefused c e s).chan c =
      { s.chan c with stickyErr := some e, rx := { partialDropped (s.chan c).rx with waiter := false } } := by
  simp [characterRefused]

theorem samePort_characterRefused (c : Chan) (e : ErrCode) (s : State) :
    SamePort (regRead c .rxfifo (regRead c .rs s)) (characterRefused c e s) :=
  samePort_trans (samePort_modChan ..) (samePort_postError ..)

theorem characterRefused_mem (c : Chan) (e : ErrCode) (s : State) : (characterRefused c e s).mem = s.mem := by
  simp [characterRefused]

theorem characterRefused_sigLog (c : Chan) (e : ErrCode) (s : State) :
    (characterRefused c e s).sigLog = s.sigLog ++ signalOf (s.chan c) := by
  simp [characterRefused, postError_sigLog, signalOf]

theorem partialDropped_waiter (rb : Ring) : (partialDropped rb).waiter = rb.waiter := by rw [partialDropped_eq]

theorem characterRefused_calls (c : Chan) (e : ErrCode) (s : State) :
    (characterRefused c e s).calls = (wake c .rx s).calls := by
  rw [characterRefused, postError_calls]
  exact wake_calls_congr (by simp) (by simp [partialDropped_waiter])

/-- Settles O56: the character is read once, whatever room there is, and the tail slot loses its partial frame. -/
theorem svcRxAsyncAbortsOnABadCharacter : Obligations.SvcRxAsyncAbortsOnABadCharacter := by
  intro s c tx ext hs hi hm hb tail rs s1 w last code hca hbad hlast
  have hx := rxOk_of_inv hs c
  have hport := samePort_characterRefused c code s
  have hpass : ∀ dk n, rxAsyncLoop c dk (n + 1) s = rxAsyncLoop c dk n (characterRefused c code s) := by
    intro dk n
    rw [rxAsyncLoop_bad hca hbad, badCharacter_refuses hx.shape]
    rfl
  have hchan : (acknowledge c cmdAckRx (regRead c .rs (characterRefused c code s))).chan c =
      { s.chan c with stickyErr := some code, rx := { partialDropped (s.chan c).rx with waiter := false } } := by
    rw [acknowledge_chan, regRead_chan, characterRefused_chan_same]
  have hring : (acknowledge c cmdAckRx (regRead c .rs (characterRefused c code s))).ring c .rx =
      { partialDropped (s.chan c).rx with waiter := false } := congrArg Channel.rx hchan
  refine ⟨_, exec_svcRxAsync_oneCharacter hport tx ext hi hm hb hpass hlast, portGains_oneCharacter hport, ?chan,
    ?state, fun hfilling => ?dropped, fun hnot => ?kept, ?slots, ?queue, characterRefused_sigLog c code s,
    characterRefused_calls c code s, ?other, sameBytes_of_mem (characterRefused_mem c code s), ?served⟩
  case chan =>
    rw [hchan]
    exact congrArg (fun rb => { s.chan c with stickyErr := some code, rx := { rb with waiter := false } })
      (partialDropped_eq (s.chan c).rx)
  case state => rw [hring]; exact partialDropped_not_filling (s.chan c).rx
  case dropped => rw [hring]; exact partialDropped_slot_tail hfilling
  case kept =>
    have hsame : (partialDropped (s.chan c).rx).slots = (s.chan c).rx.slots :=
      congrArg Ring.slots (partialDropped_of_not_filling hnot)
    rw [hring]
    exact hsame
  case slots => rw [hring]; exact sameSlotsBut_partialDropped (s.chan c).rx
  case queue =>
    rw [queued_eq, hring, queuedOf_waiter, queued_eq, ring_rx]
    exact (congrArg (queuedOf · c .rx _) (characterRefused_mem c code s)).trans
      ((sameFrames_partialDropped _).queuedOf ..)
  case other => simp [characterRefused]
  case served => simp [Served, characterRefused]

end Sys2Proof.Machine
end

