-- ==== Sys2Proof/Proofs/InterruptContext.lean ====
section
/-! What the interrupt context never changes: the configuration of the channels, the receive heads and the transmit
tails, the device's enable, the responses, the schedule, the parameters, the threads' records but for their `woken` bits,
and slot storage outside the receive rings (44_isr_dispatcher.md R209, R210). -/

namespace Sys2Proof.Machine

open Sys2Proof

/-! ## The settings of a state -/

/-- The channel with the fields that belong to the interrupt context set to fixed values; of the receive slots their
number is left. -/
def Channel.settings (x : Channel) : Channel :=
  { x with
    rxEnabled := false
    txEnabled := false
    stickyErr := none
    txReady := false
    txBufEmpty := false
    txActive := false
    qfullCount := 0
    mirror := 0#32
    tx := { x.tx with slots := [], head := 0, entryCount := 0, waiter := false }
    rx :=
      { x.rx with
        slots := List.replicate x.rx.slots.length Slot.blank
        tail := 0
        entryCount := 0
        waiter := false } }

/-- The state with all that the interrupt context may change set to fixed values. Slot storage is left out: only a part
of it is the interrupt context's. -/
def State.settings (s : State) : State :=
  { s with
    dev := ⟨s.dev.irqEnable, 0#32, false, false⟩
    ch0 := s.ch0.settings
    ch1 := s.ch1.settings
    mem := []
    calls := records s.calls
    sigLog := []
    portLog := []
    key := none
    irqLog := []
    oracle := .script [] }

theorem settings_chan (s : State) (c : Chan) : s.settings.chan c = (s.chan c).settings := by
  cases c <;> rfl

theorem sameConfig_of_settings {x y : Channel} (h : y.settings = x.settings) : SameConfig x y := by
  simp only [Channel.settings, Channel.mk.injEq, Ring.mk.injEq] at h
  simp [SameConfig, h]

/-- The settings are the same, and the bytes outside the receive rings are. -/
structure ContextKept (s t : State) : Prop where
  settings : t.settings = s.settings
  bytes : ∀ a, inRing .ch0 .rx a = false → inRing .ch1 .rx a = false → memRead t.mem a = memRead s.mem a

theorem ContextKept.of_mem {s t : State} (hmem : t.mem = s.mem) (h : t.settings = s.settings) : ContextKept s t :=
  ⟨h, fun _ _ _ => by rw [hmem]⟩

theorem ContextKept.refl (s : State) : ContextKept s s := .of_mem rfl rfl

theorem ContextKept.trans {s u t : State} (h : ContextKept s u) (h' : ContextKept u t) : ContextKept s t :=
  ⟨h'.settings.trans h.settings, fun a h0 h1 => (h'.bytes a h0 h1).trans (h.bytes a h0 h1)⟩

/-- The bounds of the receive storage are settings. -/
theorem ContextKept.rxFits {s t : State} (h : ContextKept s t) {c : Chan} (hs : RxFits (s.chan c)) :
    RxFits (t.chan c) := by
  have hc : (t.chan c).settings = (s.chan c).settings := by rw [← settings_chan, h.settings, settings_chan]
  have hlength : (t.chan c).rx.slots.length = (s.chan c).rx.slots.length := by
    simpa [Channel.settings] using congrArg (fun x => x.rx.slots.length) hc
  have hsize : (t.chan c).rx.fsz = (s.chan c).rx.fsz := congrArg (fun x => x.rx.fsz) hc
  exact ⟨hlength ▸ hs.length, hsize ▸ hs.size⟩

/-! ## The shared operations -/

theorem settings_modChan (s : State) {c : Chan} {f : Channel → Channel}
    (h : (f (s.chan c)).settings = (s.chan c).settings) : (s.modChan c f).settings = s.settings := by
  cases c
  · exact congrArg (fun x => { s.settings with ch0 := x }) h
  · exact congrArg (fun x => { s.settings with ch1 := x }) h

theorem ContextKept.modChan (s : State) {c : Chan} {f : Channel → Channel}
    (h : (f (s.chan c)).settings = (s.chan c).settings) : ContextKept s (s.modChan c f) :=
  .of_mem (modChan_mem ..) (settings_modChan s h)

theorem contextKept_regRead (c : Chan) (r : ReadReg) (s : State) : ContextKept s (regRead c r s) := .of_mem rfl rfl

theorem contextKept_portWrite (c : Chan) (r : WriteReg) (v : Word) (s : State) : ContextKept s (portWrite c r v s) :=
  .of_mem rfl rfl

theorem contextKept_acknowledge (c : Chan) (cmd : Word) (s : State) : ContextKept s (acknowledge c cmd s) :=
  .of_mem rfl rfl

theorem contextKept_writeCtl (c : Chan) (v : Word) (s : State) : ContextKept s (writeCtl c v s) :=
  (ContextKept.modChan s rfl).trans (contextKept_portWrite c .ctl v _)

theorem contextKept_readFifo (c : Chan) (n : Nat) (s : State) : ContextKept s (readFifo c n s) := by
  induction n generalizing s with
  | zero => exact .refl s
  | succ n ih => exact (contextKept_regRead c .rxfifo s).trans (ih _)

theorem contextKept_writeFifo (c : Chan) (bytes : List Byte) (s : State) : ContextKept s (writeFifo c bytes s) := by
  induction bytes generalizing s with
  | nil => exact .refl s
  | cons b bytes ih => exact (contextKept_portWrite c .txfifo _ s).trans (ih _)

theorem contextKept_raiseSignal (c : Chan) (s : State) : ContextKept s (raiseSignal c s) := by
  unfold raiseSignal
  split
  · exact .of_mem rfl rfl
  · exact .refl s

theorem unwoken_wake (k : Call) (c : Chan) (d : Dir) : (k.wake c d).unwoken = k.unwoken := by
  cases k with
  | mid cw w1 => rfl
  | blocked b => by_cases hw : (Call.blocked b).waitsOn c d = true <;> simp [Call.wake, Call.unwoken, hw]

/-- `Wake` changes `woken` bits only (41_blocking_io.md R160). -/
theorem records_wake (calls : List (Tid × Call)) (c : Chan) (d : Dir) :
    records (calls.map fun e => (e.1, e.2.wake c d)) = records calls := by
  simp only [records, List.map_map, Function.comp_def, unwoken_wake]

theorem settings_with_calls (s : State) (calls : List (Tid × Call)) :
    State.settings { s with calls := calls } = { s.settings with calls := records calls } := rfl

theorem contextKept_wake (c : Chan) (d : Dir) (s : State) : ContextKept s (wake c d s) := by
  rw [wake_eq]
  split
  · have hring : (s.modRing c d fun rb => { rb with waiter := false }).settings = s.settings :=
      settings_modChan s (by cases d <;> rfl)
    refine .of_mem (modRing_mem ..) ?_
    rw [settings_with_calls, hring, records_wake]
    rfl
  · exact .refl s

theorem contextKept_notifyRx (c : Chan) (s : State) : ContextKept s (notifyRx c s) :=
  (contextKept_wake c .rx s).trans (contextKept_raiseSignal c _)

theorem contextKept_postError (c : Chan) (e : ErrCode) (s : State) : ContextKept s (postError c e s) :=
  (ContextKept.modChan s rfl).trans (contextKept_notifyRx c _)

/-! ## The transmit engines -/

theorem contextKept_txSyncBurst (c : Chan) (s : State) : ContextKept s (txSyncBurst c s) :=
  (((contextKept_writeFifo c _ s).trans (contextKept_writeCtl c _ _)).trans (.modChan _ rfl)).trans
    (contextKept_wake c .tx _)

theorem contextKept_txSyncService {c : Chan} {s t : State} (h : txSyncService c s = .next t) : ContextKept s t := by
  obtain ⟨u, hu, ht⟩ := andThen_eq_next.mp h
  cases ht
  refine .trans ?_ (contextKept_acknowledge c _ u)
  obtain ⟨-, rfl⟩ | ⟨-, -, -, rfl⟩ := txSyncStart_eq_next.mp hu
  · exact .modChan s rfl
  · exact contextKept_txSyncBurst c s

theorem contextKept_txAsyncSend {c : Chan} {s t : State} (h : txAsyncSend c s = .next t) : ContextKept s t := by
  have hput : ContextKept s (bytePut c s) := (contextKept_portWrite c .txfifo _ s).trans (.modChan _ rfl)
  rw [txAsyncSend_eq_next h]
  split
  · exact (hput.trans (.modChan _ rfl)).trans (contextKept_wake c .tx _)
  · exact hput

theorem contextKept_txAsyncService {c : Chan} {s t : State} (h : txAsyncService c s = .next t) : ContextKept s t := by
  obtain ⟨u, hu, ht⟩ := andThen_eq_next.mp h
  cases ht
  refine .trans ?_ (contextKept_acknowledge c _ u)
  obtain ⟨-, -, rfl⟩ | ⟨-, hu⟩ | ⟨-, -, hu⟩ := txAsyncByte_eq_next.mp hu
  · exact .modChan s rfl
  · exact contextKept_txAsyncSend hu
  · exact .trans (.modChan s rfl) (contextKept_txAsyncSend hu)

/-! ## Receive storage -/

/-- A change of a receive ring with a write to its storage. -/
theorem ContextKept.rxStore (s : State) {c : Chan} {f : Ring → Ring} {m : Memory}
    (hf : ((s.chan c).modRing .rx f).settings = (s.chan c).settings)
    (hm : ∀ a, inRing c .rx a = false → memRead m a = memRead s.mem a) :
    ContextKept s { s.modRing c .rx f with mem := m } := by
  refine ⟨settings_modChan s hf, fun a h0 h1 => hm a ?_⟩
  cases c
  · exact h0
  · exact h1

theorem settings_commit (x : Channel) (n : Nat) : (x.modRing .rx (Ring.commit n)).settings = x.settings := by
  simp [Channel.settings, Ring.commit]

theorem settings_setSlot (x : Channel) (i : Nat) (y : Slot) :
    (x.modRing .rx fun rb => rb.setSlot i y).settings = x.settings := by
  simp [Channel.settings, Ring.setSlot]

/-- A byte written to a slot of a ring is read inside the ring's storage only. -/
theorem memRead_memWrite_outsideRing (m : Memory) {c : Chan} {d : Dir} {i k a : Nat} (v : Byte) (hi : i < 65536)
    (hk : k < 65536) (ha : inRing c d a = false) : memRead (memWrite m (slotAddr c d i k) v) a = memRead m a := by
  refine memRead_memWrite_other m v ?_
  rintro rfl
  rw [slotAddr_inRing c d hi hk] at ha
  cases ha

/-- A frame stored in a slot of a ring is read inside the ring's storage only. -/
theorem memRead_storeBytes_outsideRing (m : Memory) {c : Chan} {d : Dir} {i a : Nat} {data : List Byte}
    (hi : i < 65536) (hdata : data.length ≤ 65536) (ha : inRing c d a = false) :
    memRead (storeBytes m (slotAddr c d i 0) data) a = memRead m a := by
  refine memRead_storeBytes_outside _ _ _ _ ?_
  by_contra hin
  obtain ⟨hle, hlt⟩ := not_or.mp hin
  obtain ⟨k, rfl⟩ := Nat.exists_eq_add_of_le (Nat.le_of_not_lt hle)
  rw [slotAddr_add, slotAddr_inRing c d hi (by omega)] at ha
  cases ha

theorem contextKept_enqueue {c : Chan} {data : List Byte} {s t : State} (hs : RxFits (s.chan c))
    (h : enqueue c .rx data s = .next t) : ContextKept s t := by
  obtain ⟨htail, hdata, -, rfl⟩ := enqueue_eq_next.mp h
  have htail := Nat.lt_of_lt_of_le htail hs.length
  have hdata := Nat.le_trans hdata hs.size
  exact .rxStore s (settings_commit ..) fun _ ha => memRead_storeBytes_outsideRing _ htail hdata ha

theorem contextKept_byteStored {c : Chan} {b : Byte} {s : State} (hs : RxFits (s.chan c))
    (htail : (s.ring c .rx).tail < (s.ring c .rx).slots.length)
    (hfill : partialFill (s.ring c .rx) < (s.ring c .rx).fsz) : ContextKept s (byteStored c b s) :=
  .rxStore s (settings_setSlot ..) fun _ ha =>
    memRead_memWrite_outsideRing _ _ (Nat.lt_of_lt_of_le htail hs.length) (Nat.lt_of_lt_of_le hfill hs.size) ha

/-! ## The receive engines -/

theorem contextKept_queueFullPass (c : Chan) (s : State) : ContextKept s (queueFullPass c s) := by
  have hcount : ContextKept s (s.modChan c fun x => { x with qfullCount := x.qfullCount + 1 }) := .modChan s rfl
  unfold queueFullPass
  simp only
  split
  · exact (((hcount.trans (.modChan _ rfl)).trans (contextKept_writeCtl c _ _)).trans (.modChan _ rfl)).trans
      (contextKept_postError c _ _)
  · exact hcount

theorem contextKept_rxSyncEntry {c : Chan} {s t : State} (hs : RxFits (s.chan c)) (h : rxSyncEntry c s = .next t) :
    ContextKept s t := by
  have hstart : ContextKept s (regRead c .sfifo (s.modChan c fun x => { x with qfullCount := 0 })) :=
    .trans (.modChan s rfl) (contextKept_regRead c .sfifo _)
  have hread := fun n => hstart.trans (contextKept_readFifo c n _)
  unfold rxSyncEntry at h
  simp only at h
  split at h
  · cases h
    exact (hread _).trans (contextKept_postError c _ _)
  · split at h
    · cases h
      exact (hread _).trans (contextKept_postError c _ _)
    · obtain ⟨u, hu, ht⟩ := andThen_eq_next.mp h
      cases ht
      exact ((hread _).trans (contextKept_enqueue ((hread _).rxFits hs) hu)).trans (contextKept_notifyRx c u)

theorem contextKept_rxSyncLoop {c : Chan} {dk : BitVec 4} {n : Nat} {s t : State} (hs : RxFits (s.chan c))
    (h : rxSyncLoop c dk n s = .next t) : ContextKept s t := by
  induction n generalizing s with
  | zero => cases h; exact .of_mem rfl rfl
  | succ n ih =>
    have hread := contextKept_regRead c .rs s
    by_cases hne : rsSfne (portAnswer c .rs s) = true
    · by_cases hfull : (s.ring c .rx).full = true
      · rw [rxSyncLoop_full hne hfull] at h
        cases h
        exact (hread.trans (contextKept_queueFullPass c _)).trans (contextKept_acknowledge c _ _)
      · rw [rxSyncLoop_entry hne (by simpa using hfull)] at h
        obtain ⟨u, hu, ht⟩ := andThen_eq_next.mp h
        have hsu := hread.trans (contextKept_rxSyncEntry (hread.rxFits hs) hu)
        exact hsu.trans (ih (hsu.rxFits hs) ht)
    · rw [rxSyncLoop_empty (by simpa using hne)] at h
      cases h
      exact hread.trans (contextKept_acknowledge c _ _)

theorem contextKept_watermarkCheck (c : Chan) (f : Nat) (s : State) : ContextKept s (watermarkCheck c f s) := by
  obtain ⟨log, h⟩ := watermarkCheck_eq c f s
  rw [h]
  exact .of_mem rfl rfl

theorem contextKept_sealFrame (c : Chan) (s : State) : ContextKept s (sealFrame c s) :=
  (ContextKept.modChan s (settings_commit ..)).trans (contextKept_notifyRx c _)

theorem contextKept_appendByte {c : Chan} {b : Byte} {s t : State} (hs : RxFits (s.chan c))
    (h : appendByte c b s = .next t) : ContextKept s t := by
  have htail := tail_lt_of_appendByte h
  obtain ⟨hfill, rfl⟩ := appendByte_next h
  have hstored := (contextKept_byteStored (b := b) hs htail hfill).trans
    (contextKept_watermarkCheck c (partialFill (s.ring c .rx) + 1) _)
  split
  · exact hstored.trans (contextKept_sealFrame c _)
  · exact hstored

theorem contextKept_goodCharacter {c : Chan} {s t : State} (hs : RxFits (s.chan c))
    (h : goodCharacter c s = .next t) : ContextKept s t := by
  have hstart : ContextKept s (regRead c .rxfifo (s.modChan c fun x => { x with qfullCount := 0 })) :=
    .trans (.modChan s rfl) (contextKept_regRead c .rxfifo _)
  exact hstart.trans (contextKept_appendByte (hstart.rxFits hs) h)

theorem contextKept_badCharacter (c : Chan) (rs : Word) (s : State) : ContextKept s (badCharacter c rs s) := by
  refine ((contextKept_regRead c .rxfifo s).trans ?_).trans (contextKept_postError c _ _)
  unfold abortPartial
  split
  · exact .modChan _ (settings_setSlot ..)
  · exact .refl _

theorem contextKept_rxAsyncLoop {c : Chan} {dk : BitVec 4} {n : Nat} {s t : State} (hs : RxFits (s.chan c))
    (h : rxAsyncLoop c dk n s = .next t) : ContextKept s t := by
  induction n generalizing s with
  | zero => cases h; exact .of_mem rfl rfl
  | succ n ih =>
    have hread := contextKept_regRead c .rs s
    have again : ∀ {u : State}, ContextKept s u → rxAsyncLoop c dk n u = .next t → ContextKept s t :=
      fun hsu hu => hsu.trans (ih (hsu.rxFits hs) hu)
    by_cases hne : rsRca (portAnswer c .rs s) = true
    · by_cases hbad : rsRxe (portAnswer c .rs s) = true
      · rw [rxAsyncLoop_bad hne hbad] at h
        exact again (hread.trans (contextKept_badCharacter c _ _)) h
      · have hgood : rsRxe (portAnswer c .rs s) = false := by simpa using hbad
        by_cases hfull : (s.ring c .rx).full = true
        · rw [rxAsyncLoop_full hne hgood hfull] at h
          cases h
          exact (hread.trans (contextKept_queueFullPass c _)).trans (contextKept_acknowledge c _ _)
        · rw [rxAsyncLoop_good hne hgood (by simpa using hfull)] at h
          obtain ⟨u, hu, ht⟩ := andThen_eq_next.mp h
          exact again (hread.trans (contextKept_goodCharacter (hread.rxFits hs) hu)) ht
    · rw [rxAsyncLoop_empty (by simpa using hne)] at h
      cases h
      exact hread.trans (contextKept_acknowledge c _ _)

/-! ## The external service and the dispatcher -/

theorem contextKept_extService {c : Chan} {s t : State} (h : extService c s = .next t) : ContextKept s t := by
  cases h
  refine (contextKept_regRead c .es s).trans (.trans ?_ (contextKept_acknowledge c _ _))
  split
  · exact contextKept_postError c _ _
  · exact .refl _

theorem contextKept_runService {c : Chan} {dk : BitVec 4} {s t : State} (hs : RxFits (s.chan c))
    (h : runService c dk s = .next t) : ContextKept s t := by
  unfold runService at h
  split at h
  · exact contextKept_rxSyncLoop hs h
  · exact contextKept_rxAsyncLoop hs h
  · exact contextKept_txSyncService h
  · exact contextKept_txAsyncService h
  · exact contextKept_extService h
  · cases h

theorem contextKept_dispatch {c : Chan} {ip : BitVec 3} {s t : State} (hs : RxFits (s.chan c))
    (h : dispatch c ip s = .next t) : ContextKept s t := by
  have hset : ContextKept s { s with dev := { s.dev with isrHandled := true } } := .of_mem rfl rfl
  exact hset.trans (contextKept_runService (hset.rxFits hs) h)

theorem contextKept_scan {s t : State} (hs : ∀ c, RxFits (s.chan c)) (h : scan s = .next t) : ContextKept s t := by
  have h0 := contextKept_regRead .ch0 .ip s
  have h1 := h0.trans (contextKept_regRead .ch1 .ip _)
  by_cases hip0 : ipBits (portAnswer .ch0 .ip s) = 0#3
  · by_cases hip1 : ipBits (portAnswer .ch1 .ip (regRead .ch0 .ip s)) = 0#3
    · rw [scan_none hip0 hip1] at h
      cases h
      exact h1.trans (.of_mem rfl rfl)
    · rw [scan_second hip0 hip1] at h
      exact h1.trans (contextKept_dispatch (h1.rxFits (hs .ch1)) h)
  · rw [scan_first hip0] at h
    exact h0.trans (contextKept_dispatch (h0.rxFits (hs .ch0)) h)

theorem contextKept_enterInterrupt (s : State) : ContextKept s (enterInterrupt s) := by
  unfold enterInterrupt
  split
  · exact .refl s
  · exact .of_mem rfl rfl

theorem contextKept_execIrq {s t : State} (hs : ∀ c, RxFits (s.chan c)) (h : execIrq s = .next t) :
    ContextKept s t := by
  have henter := contextKept_enterInterrupt s
  unfold execIrq at h
  split at h
  · split at h
    · exact henter.trans (contextKept_runService (henter.rxFits (hs _)) h)
    · exact henter.trans (contextKept_scan (fun c => henter.rxFits (hs c)) h)
  · cases h

theorem contextKept_of_exec_interrupt {i : Instr} {s t : State} (hs : ∀ c, RxFits (s.chan c))
    (hi : isInterrupt i = true) (h : exec i s = .next t) : ContextKept s t := by
  cases i with
  | svcRxSync c tx ext =>
    obtain ⟨-, -, h⟩ := asService_eq_next.mp h
    exact contextKept_rxSyncLoop (hs c) h
  | svcRxAsync c tx ext =>
    obtain ⟨-, -, h⟩ := asService_eq_next.mp h
    exact contextKept_rxAsyncLoop (hs c) h
  | svcTxSync c ext =>
    obtain ⟨-, -, h⟩ := asService_eq_next.mp h
    exact contextKept_txSyncService h
  | svcTxAsync c ext =>
    obtain ⟨-, -, h⟩ := asService_eq_next.mp h
    exact contextKept_txAsyncService h
  | svcExt c async =>
    obtain ⟨-, -, h⟩ := asService_eq_next.mp h
    exact contextKept_extService h
  | irq => exact contextKept_execIrq hs h
  | _ => cases hi

/-- Settles O57: every part of an interrupt step keeps the settings, and writes slot storage through the tail slots of
the receive rings only, which the invariants keep inside their rings. -/
theorem interruptContextFrame : Obligations.InterruptContextFrame := by
  intro i s t hs hi h
  obtain ⟨hset, hbytes⟩ := contextKept_of_exec_interrupt (rxFits_of_inv hs) hi h
  have hconfig : ∀ c, SameConfig (s.chan c) (t.chan c) := fun c =>
    sameConfig_of_settings (by rw [← settings_chan, hset, settings_chan])
  exact ⟨hconfig .ch0, hconfig .ch1, congrArg (·.dev.irqEnable) hset, congrArg State.calls hset,
    (congrArg State.respLog hset :), (congrArg State.schedule hset :), (congrArg State.params hset :), hbytes⟩

end Sys2Proof.Machine
end

