-- ==== Sys2Proof/Proofs/InterruptSteps.lean ====
section
/-! The steps of the interrupt context: a delivered dispatch key and the dispatcher run the same service, an iteration
with no cause ends the interrupt, one with a cause leaves it in service, and every step completes where it is enabled
(44_isr_dispatcher.md R200 to R209). -/

namespace Sys2Proof.Machine

open Sys2Proof

/-! ## The entry and the end -/

theorem execIrq_of_not_enabled {s : State} (hi : s.dev.inIsr = false) (he : s.dev.irqEnable = false) :
    execIrq s = .refused .notEnabled := by
  simp [execIrq, hi, he]

/-- With no service in progress an iteration is a scan (44_isr_dispatcher.md R201). -/
theorem execIrq_of_enabled {s : State} (h : s.dev.inIsr = true ∨ s.dev.irqEnable = true) (hk : s.key = none) :
    execIrq s = scan (enterInterrupt s) := by
  rw [execIrq, if_pos ((Bool.or_eq_true ..).mpr h), hk]

/-- The entry changes the device only: the context is entered, and `isrHandled` is cleared where it was not in service
(44_isr_dispatcher.md R201). -/
theorem enterInterrupt_eq (s : State) :
    enterInterrupt s =
      { s with dev := { s.dev with inIsr := true, isrHandled := s.dev.inIsr && s.dev.isrHandled } } := by
  obtain ⟨⟨enable, count, inIsr, handled⟩, _⟩ := s
  cases inIsr <;> rfl

/-- Settles O46: with no cause the scan is the two reads of `IP` and `EndInterrupt`. -/
theorem irqEntersAndEnds : Obligations.IrqEntersAndEnds := by
  intro s
  refine ⟨execIrq_of_not_enabled, fun hen hk => ?_⟩
  intro v0 v1 h0 h1 handled
  have hend := (execIrq_of_enabled hen hk).trans (scan_none (s := enterInterrupt s) ?idle0 ?idle1)
  case idle0 => rw [enterInterrupt_eq]; exact h0
  case idle1 => rw [enterInterrupt_eq]; exact h1
  refine ⟨_, hend, ?_⟩
  rw [enterInterrupt_eq]
  exact ⟨rfl, rfl, ⟨List.append_assoc .., rfl⟩, rfl, rfl, rfl, fun _ => rfl, rfl, rfl, hk, rfl, rfl⟩

/-! ## Dispatch -/

theorem exec_svcExt {s : State} {c : Chan} {async : Bool} (hi : s.dev.inIsr = true)
    (hm : (s.chan c).mode = if async then .async else .sync) : exec (.svcExt c async) s = extService c s := by
  rw [exec, execSvcExt, asService_serving _ hi hm]

/-- The instruction of a dispatch key is the service the dispatcher runs under that key (44_isr_dispatcher.md R203,
30_encoding.md R112). -/
theorem exec_of_decodeKey {c : Chan} {dk : BitVec 4} {i : Instr} {s : State} (hi : s.dev.inIsr = true)
    (hdk : dk.getLsbD 3 = (s.chan c).mode.bit) (h : decodeKey c dk = .ok i) : exec i s = runService c dk s := by
  obtain ⟨hrs, hra, hts, hta⟩ := serviceOf_bits dk
  have hkey := keyOf_getLsbD dk
  unfold decodeKey at h
  split at h <;> cases h
  case h_1 hsvc =>
    obtain ⟨h2, h3⟩ := hrs hsvc
    rw [h2, h3] at hkey
    simp only [runService, hsvc, exec, execSvcRxSync, asService_serving _ hi (mode_of_bit.1 (hdk.symm.trans h3)), hkey]
  case h_2 hsvc =>
    obtain ⟨h2, h3⟩ := hra hsvc
    rw [h2, h3] at hkey
    simp only [runService, hsvc, exec, execSvcRxAsync, asService_serving _ hi (mode_of_bit.2 (hdk.symm.trans h3)), hkey]
  case h_3 hsvc => simp only [runService, hsvc, exec_svcTxSync _ hi (mode_of_bit.1 (hdk.symm.trans (hts hsvc)))]
  case h_4 hsvc => simp only [runService, hsvc, exec_svcTxAsync _ hi (mode_of_bit.2 (hdk.symm.trans (hta hsvc)))]
  case h_5 hsvc =>
    have hm : (s.chan c).mode = if dk.getLsbD 3 then .async else .sync := by
      rw [hdk]
      cases (s.chan c).mode <;> rfl
    simp only [runService, hsvc, exec_svcExt hi hm]

/-- A key that selects a service decodes. -/
theorem decodeKey_of_service {c : Chan} {dk : BitVec 4} (h : serviceOf dk ≠ none) : ∃ i, decodeKey c dk = .ok i := by
  unfold decodeKey
  split
  case h_6 hnone => exact absurd hnone h
  all_goals exact ⟨_, rfl⟩

theorem dispatch_of_decodeKey {c : Chan} {ip : BitVec 3} {i : Instr} {s : State} (hi : s.dev.inIsr = true)
    (h : decodeKey c (dispatchKey (s.chan c).mode ip) = .ok i) :
    dispatch c ip s = exec i { s with dev := { s.dev with isrHandled := true } } := by
  rw [dispatch, chan_with_dev]
  exact (exec_of_decodeKey (s := { s with dev := { s.dev with isrHandled := true } }) hi
    (by cases c <;> exact dispatchKey_mode ..) h).symm

/-- Settles O47: the scan dispatches the first cause, and the key it forms is the one that decodes. -/
theorem irqDispatchesTheFirstCause : Obligations.IrqDispatchesTheFirstCause := by
  intro s i hen hk
  refine ⟨fun h0 hd => ?first, fun h0 h1 hd => ?second⟩
  case first =>
    rw [exec, execIrq_of_enabled hen hk, enterInterrupt_eq, scan_first]
    · exact dispatch_of_decodeKey rfl hd
    · exact h0
  case second =>
    rw [exec, execIrq_of_enabled hen hk, enterInterrupt_eq, scan_second]
    · exact dispatch_of_decodeKey rfl hd
    · exact h0
    · exact h1

/-! ## The external service -/

/-- The external service with a break posts it before the acknowledge (44_isr_dispatcher.md R208). -/
theorem extService_break {c : Chan} {s : State} (h : esBrk (portAnswer c .es s) = true) :
    extService c s = .next (acknowledge c cmdAckExt (postError c .breakAbort (regRead c .es s))) := by
  simp [extService, h]

/-- Settles O49: the break is posted between the read of `ES` and the acknowledge. -/
theorem svcExtPostsTheBreak : Obligations.SvcExtPostsTheBreak := by
  intro s c async hi hm es brk
  have hread := portGains_regRead c .es s
  cases hb : brk with
  | false =>
    have hquiet := (exec_svcExt hi hm).trans (extService_quiet hb)
    exact ⟨_, hquiet, by simp, portGains_trans hread (portGains_acknowledge ..), by simp, rfl, by simp,
      fun _ => rfl, by simp [Served]⟩
  | true =>
    have hpost := (exec_svcExt hi hm).trans (extService_break hb)
    refine ⟨_, hpost, by simp, ?port, ?signals, ?calls, by simp, sameBytes_of_mem (by simp), by simp [Served]⟩
    case port =>
      exact portGains_trans (portGains_congr hread ⟨rfl, rfl⟩ (samePort_postError ..)) (portGains_acknowledge ..)
    case signals => rw [acknowledge_sigLog, postError_sigLog, regRead_chan]; rfl
    case calls =>
      rw [acknowledge_calls, postError_calls]
      exact wake_calls_congr rfl (by simp)

/-! ## The interrupt stays in service -/

/-- No service ends the interrupt, not even one that has used up its passes (44_isr_dispatcher.md R204, R207). -/
theorem inIsr_of_runService {c : Chan} {dk : BitVec 4} {s t : State} (hi : s.dev.inIsr = true)
    (h : runService c dk s = .next t) : t.dev.inIsr = true := by
  obtain ⟨-, hdev⟩ := runService_results h
  rw [hdev, hi]

theorem inIsr_of_dispatch {c : Chan} {ip : BitVec 3} {s t : State} (hi : s.dev.inIsr = true)
    (h : dispatch c ip s = .next t) : t.dev.inIsr = true :=
  inIsr_of_runService (s := { s with dev := { s.dev with isrHandled := true } }) hi h

/-- A pending cause keeps the interrupt in service (44_isr_dispatcher.md R201). -/
theorem inIsr_of_scan {s t : State} (hi : s.dev.inIsr = true) (hcause : CausePending s) (h : scan s = .next t) :
    t.dev.inIsr = true := by
  by_cases h0 : ipBits (portAnswer .ch0 .ip s) = 0#3
  · rw [scan_second h0 (hcause.resolve_left (not_not_intro h0))] at h
    exact inIsr_of_dispatch (by simpa using hi) h
  · rw [scan_first h0] at h
    exact inIsr_of_dispatch (by simpa using hi) h

theorem inIsr_of_execIrq {s t : State} (hi : s.dev.inIsr = true) (hwork : s.key ≠ none ∨ CausePending s)
    (h : execIrq s = .next t) : t.dev.inIsr = true := by
  cases hk : s.key with
  | none =>
    rw [execIrq_serving hi hk] at h
    exact inIsr_of_scan hi (hwork.resolve_left (not_not_intro hk)) h
  | some k =>
    simp only [execIrq, hi, Bool.true_or, if_true, hk] at h
    exact inIsr_of_runService (enterInterrupt_inIsr s) h

/-! ## Completion -/

/-- A service in progress goes on in the next step (44_isr_dispatcher.md R200; notes/assumptions/7.md). -/
theorem completes_step_of_key {s : State} (hs : Inv s) {c : Chan} {dk : BitVec 4} (hk : s.key = some (c, dk)) :
    Completes (step s) := by
  obtain ⟨hi, hrx, hmode⟩ := hs.service (c, dk) (by simp [hk])
  obtain ⟨i, hd⟩ := decodeKey_of_service (c := c) (serviceOf_rx hrx)
  rw [step_of_key hk hd, exec_of_decodeKey hi hmode hd]
  exact completes_runService hs hi hmode (serviceOf_rx hrx)

/-- With no service in progress the interrupt in service goes on with `IRQ`, delivered or not (44_isr_dispatcher.md R200,
R207; notes/assumptions/3.md). -/
theorem completes_step_of_serving {s : State} (hs : Inv s) (hi : s.dev.inIsr = true) (hk : s.key = none)
    (henv : ∀ c e rest, s.schedule ≠ .env c e :: rest) : Completes (step s) := by
  cases hg : goesOn s with
  | true =>
    rw [step_of_goesOn hk hg]
    exact completes_execIrq hs (by simp [hi])
  | false =>
    cases hsched : s.schedule with
    | nil => rw [goesOn_of_empty hi hsched] at hg; cases hg
    | cons d rest =>
      have hd : d.duringInterrupt = true := by simpa [goesOn_of_first hsched, hi] using hg
      cases d with
      | command k => cases hd
      | event ev tid =>
        rw [step_of_event hk hg hsched (decode_event_eq_irq.mpr hd), ← advance_of_first hk hg hsched]
        exact completes_execIrq (moves_inv (moves_advance s) hs) (by simp [advance_of_first hk hg hsched, hi])
      | env c e => exact absurd hsched (henv c e rest)

/-- Settles O48: the invariants give each data movement its slot, and the fetch of an interrupt in service is a service
or an `IRQ`. -/
theorem interruptStepsComplete : Obligations.InterruptStepsComplete := by
  intro s c tx ext hs
  refine ⟨fun hen => ?irq, fun hi hm => ?sync, fun hi hm => ?async, fun hi hnext => ?step,
    fun hi hwork t ht => inIsr_of_execIrq hi hwork ht⟩
  case irq => exact completes_execIrq hs ((Bool.or_eq_true ..).mpr hen)
  case sync =>
    refine ⟨?_, ?_, _, exec_svcExt hi hm⟩
    · rw [exec, execSvcRxSync, asService_serving _ hi hm]
      exact completes_rxSyncLoop hs hi hm
    · rw [exec_svcTxSync ext hi hm]
      exact completes_txSyncService hs
  case async =>
    refine ⟨?_, ?_, _, exec_svcExt hi hm⟩
    · rw [exec, execSvcRxAsync, asService_serving _ hi hm]
      exact completes_rxAsyncLoop hs hi hm
    · rw [exec_svcTxAsync ext hi hm]
      exact completes_txAsyncService hs
  case step =>
    cases hk : s.key with
    | some k => exact completes_step_of_key hs hk
    | none => exact completes_step_of_serving hs hi hk (hnext.resolve_left (not_not_intro hk))

end Sys2Proof.Machine
end

