-- ==== Sys2Proof/Proofs/Configuration.lean ====
section
/-! The `CONFIGURE` commands of one step and the notification commands: the value check, then one stored value of the
channel, or an enable or the mode with its bit of the mirror and the write of `CTL` (45_config_control.md R215 to R232).
-/

namespace Sys2Proof.Machine

open Sys2Proof

theorem sameRest_modChan (s : State) (c : Chan) (f : Channel → Channel) : SameRest s (s.modChan c f) :=
  ⟨modChan_dev .., modChan_sigLog .., modChan_key .., modChan_irqLog .., modChan_schedule .., modChan_params ..⟩

/-! ## The value check -/

theorem checked_illegal (tid : Tid) (s : State) (f : State → Result) :
    checked tid false s f = .next { s with respLog := s.respLog ++ [⟨tid, 0x00090000#32, []⟩] } := rfl

theorem checked_legal (tid : Tid) (s : State) (f : State → Result) : checked tid true s f = f s := rfl

theorem legalBit_eq_false {v : Word} (h : 1 < v.toNat) : legalBit v = false := decide_eq_false (Nat.not_le.mpr h)

@[simp] theorem legalBit_ofBool (b : Bool) : legalBit (if b then 1#32 else 0#32) = true := by cases b <;> rfl

@[simp] theorem valueBit_ofBool (b : Bool) : valueBit (if b then 1#32 else 0#32) = b := by cases b <;> rfl

@[simp] theorem valueMode_ofBool (b : Bool) : valueMode (if b then 1#32 else 0#32) = if b then .async else .sync := by
  cases b <;> rfl

/-! ## One stored value -/

/-- A command that checks, then changes its channel, with no port access (45_config_control.md R215). -/
theorem stores_or_refuses {i : Instr} {tid : Tid} {c : Chan} {legal : Bool} {f : Channel → Channel} {s : State}
    (h : exec i s = checked tid legal s fun u => succeed tid (u.modChan c f)) :
    (legal = false → exec i s = .next { s with respLog := s.respLog ++ [⟨tid, 0x00090000#32, []⟩] }) ∧
    (legal = true →
      ∃ t, exec i s = .next t ∧ t.chan c = f (s.chan c) ∧ Answers s t tid 0x00000000#32 [] ∧
        t.chan c.other = s.chan c.other ∧ t.calls = s.calls ∧ SameBytes s t ∧ SamePort s t ∧ SameRest s t) := by
  rw [h]
  refine ⟨fun hillegal => by rw [hillegal, checked_illegal], fun hlegal => ?_⟩
  rw [hlegal]
  exact ⟨respond tid 0 .ok [] (s.modChan c f), rfl, by simp, congrArg (· ++ _) (modChan_respLog ..), by simp,
    modChan_calls .., sameBytes_of_mem (modChan_mem ..), samePort_modChan .., sameRest_modChan ..⟩

theorem legalTimeout_iff {v : Word} : legalTimeout v = true ↔ -1 ≤ v.toInt := decide_eq_true_iff

theorem legalWatermark_iff {v : Word} : legalWatermark v = true ↔ v.toNat ≤ 65535 := decide_eq_true_iff

/-- Settles O37: each of the three commands stores its value after its check. -/
theorem cfgTimeoutsAndWatermark : Obligations.CfgTimeoutsAndWatermark := by
  intro s tid c v i legal x hen hi
  obtain ⟨ok, f, hexec, hlegal, rfl⟩ : ∃ (ok : Bool) (f : Channel → Channel),
      (exec i s = checked tid ok s fun u => succeed tid (u.modChan c f)) ∧ (legal ↔ ok = true) ∧ x = f (s.chan c) := by
    obtain ⟨rfl, hlegal, rfl⟩ | ⟨rfl, hlegal, rfl⟩ | ⟨rfl, hlegal, rfl⟩ := hi
    · exact ⟨legalTimeout v, fun x => { x with rdTimeout := v }, by rw [exec, execCfgRdTmo, asCommand_enabled _ hen],
        hlegal.trans legalTimeout_iff.symm, rfl⟩
    · exact ⟨legalTimeout v, fun x => { x with wrTimeout := v }, by rw [exec, execCfgWrTmo, asCommand_enabled _ hen],
        hlegal.trans legalTimeout_iff.symm, rfl⟩
    · exact ⟨legalWatermark v, fun x => { x with watermark := v.toNat },
        by rw [exec, execCfgWMark, asCommand_enabled _ hen], hlegal.trans legalWatermark_iff.symm, rfl⟩
  rw [hlegal, Bool.not_eq_true]
  exact stores_or_refuses hexec

/-- Settles O42: the check is whether the channel has a handle, and what is stored is the handle. -/
theorem notifyStoresAndClearsTheHandle : Obligations.NotifyStoresAndClearsTheHandle := by
  intro s tid c handle i before after hen hi
  obtain ⟨ok, hexec, hok⟩ : ∃ ok : Bool,
      (exec i s = checked tid ok s fun u => succeed tid (u.modChan c fun x => { x with sigHandle := after })) ∧
        (ok = true ↔ (s.chan c).sigHandle.isSome = before.isSome) := by
    obtain ⟨rfl, rfl, rfl⟩ | ⟨rfl, rfl, rfl⟩ := hi
    · exact ⟨(s.chan c).sigHandle.isNone, by rw [exec, execNotifyInstall, asCommand_enabled _ hen], by simp⟩
    · exact ⟨(s.chan c).sigHandle.isSome, by rw [exec, execNotifyRemove, asCommand_enabled _ hen], by simp⟩
  rw [ne_eq, ← hok, Bool.not_eq_true]
  exact stores_or_refuses hexec

/-! ## One bit of `CTL` -/

/-- The state after one flag of the channel is set with its bit of the mirror and of `CTL` (45_config_control.md R218,
R226 to R228). -/
def flagSet (c : Chan) (mask : Word) (on : Bool) (f : Channel → Channel) (s : State) : State :=
  portWrite c .ctl (replaceBit (s.chan c).mirror mask on)
    (s.modChan c fun x => { f x with mirror := replaceBit (s.chan c).mirror mask on })

/-- The commands compute `CTL` from the mirror after the flag is stored, which does not touch the mirror. -/
theorem writeCtl_eq_flagSet {c : Chan} {mask : Word} {on : Bool} {f : Channel → Channel} {s : State}
    (hf : (f (s.chan c)).mirror = (s.chan c).mirror) :
    writeCtl c (replaceBit ((s.modChan c f).chan c).mirror mask on) (s.modChan c f) = flagSet c mask on f s := by
  rw [modChan_chan_same, hf, writeCtl, modChan_modChan, flagSet]

/-- A change of the channel with its `CTL` write, answered `OK`: the port sees the one write, and but for the channel and
the responses nothing is changed. -/
theorem succeed_portWrite (tid : Tid) (c : Chan) (ctl : Word) (f : Channel → Channel) (s : State) :
    ∃ t, succeed tid (portWrite c .ctl ctl (s.modChan c f)) = .next t ∧ t.chan c = f (s.chan c) ∧
      PortGains s t [.write c .ctl ctl] ∧ Answers s t tid 0x00000000#32 [] ∧
      t.chan c.other = s.chan c.other ∧ t.calls = s.calls ∧ SameBytes s t ∧ SameRest s t :=
  ⟨respond tid 0 .ok [] (portWrite c .ctl ctl (s.modChan c f)), rfl, by simp,
    portGains_congr (portGains_portWrite ..) (samePort_modChan s c f) ⟨rfl, rfl⟩,
    congrArg (· ++ _) (modChan_respLog s c f), by simp, modChan_calls .., sameBytes_of_mem (modChan_mem ..),
    sameRest_modChan ..⟩

/-! ## The enables -/

theorem exec_cfgRxEn {s : State} {tid : Tid} {c : Chan} {v : Word} (hen : commandEnabled tid s = true) :
    exec (.cfgRxEn tid c v) s = checked tid (legalBit v) s fun s =>
      if interruptsMissing c v s then fail tid .interruptsDisabled s
      else succeed tid (flagSet c 1#32 (valueBit v) (fun x => { x with rxEnabled := valueBit v }) s) := by
  rw [exec, execCfgRxEn, asCommand_enabled _ hen]
  simp only [writeCtl_eq_flagSet, ctlRxen]

theorem exec_cfgTxEn {s : State} {tid : Tid} {c : Chan} {v : Word} (hen : commandEnabled tid s = true) :
    exec (.cfgTxEn tid c v) s = checked tid (legalBit v) s fun s =>
      if interruptsMissing c v s then fail tid .interruptsDisabled s
      else succeed tid (flagSet c 2#32 (valueBit v) (fun x => { x with txEnabled := valueBit v }) s) := by
  rw [exec, execCfgTxEn, asCommand_enabled _ hen]
  simp only [writeCtl_eq_flagSet, ctlTxen]

theorem exec_cfgIrqEn {s : State} {tid : Tid} {c : Chan} {v : Word} (hen : commandEnabled tid s = true) :
    exec (.cfgIrqEn tid c v) s = checked tid (legalBit v) s fun s =>
      succeed tid (flagSet c 4#32 (valueBit v) (fun x => { x with irqEnabled := valueBit v }) s) := by
  rw [exec, execCfgIrqEn, asCommand_enabled _ hen]
  simp only [writeCtl_eq_flagSet, ctlIrqen]

theorem exec_cfgGIrqEn {s : State} {tid : Tid} {c : Chan} {v : Word} (hen : commandEnabled tid s = true) :
    exec (.cfgGIrqEn tid c v) s = checked tid (legalBit v) s fun s =>
      succeed tid { s with dev := { s.dev with irqEnable := valueBit v } } := by
  rw [exec, execCfgGIrqEn, asCommand_enabled _ hen]

/-- An enable, and no disable, needs both interrupt enables (45_config_control.md R226, R227). -/
theorem interruptsMissing_ofBool {c : Chan} {on : Bool} {s : State} :
    interruptsMissing c (if on then 1#32 else 0#32) s = true ↔
      on = true ∧ ¬ (s.dev.irqEnable = true ∧ (s.chan c).irqEnabled = true) := by
  rw [interruptsMissing, valueBit_ofBool, Bool.and_eq_true, Bool.not_eq_true', ← Bool.not_eq_true, Bool.and_eq_true]

/-- Settles O38: the value check, the precondition of an enable, then the flag with its bit. -/
theorem cfgRxEnAndTxEnSetTheEnables : Obligations.CfgRxEnAndTxEnSetTheEnables := by
  intro s tid c op mask set hen hop
  have hexec : ∀ v, exec (op v) s = checked tid (legalBit v) s fun s =>
      if interruptsMissing c v s then fail tid .interruptsDisabled s
      else succeed tid (flagSet c mask (valueBit v) (set (valueBit v)) s) := by
    obtain ⟨rfl, rfl, rfl⟩ | ⟨rfl, rfl, rfl⟩ := hop
    · exact fun v => exec_cfgRxEn hen
    · exact fun v => exec_cfgTxEn hen
  refine ⟨fun v hv => ?illegal, fun hmissing => ?missing, fun on hready => ?sets⟩
  case illegal => rw [hexec, legalBit_eq_false hv, checked_illegal]
  case missing =>
    have hmissing : interruptsMissing c 1#32 s = true := interruptsMissing_ofBool.mpr ⟨rfl, hmissing⟩
    rw [hexec, show legalBit 1#32 = true from rfl, checked_legal, hmissing]
    rfl
  case sets =>
    have hpresent : ¬ interruptsMissing c (if on then 1#32 else 0#32) s = true := fun h =>
      (interruptsMissing_ofBool.mp h).2 (hready (interruptsMissing_ofBool.mp h).1)
    rw [hexec, legalBit_ofBool, checked_legal, if_neg hpresent, valueBit_ofBool]
    exact succeed_portWrite ..

/-- Settles O39: no precondition, and the device's flag is outside the channels and the port. -/
theorem cfgIrqEnAndGIrqEnSetTheEnables : Obligations.CfgIrqEnAndGIrqEnSetTheEnables := by
  intro s tid c hen
  refine ⟨fun v hv => ?illegal, fun on => ?channel, fun on => ?device⟩
  case illegal =>
    rw [exec_cfgIrqEn hen, exec_cfgGIrqEn hen, legalBit_eq_false hv]
    exact ⟨checked_illegal .., checked_illegal ..⟩
  case channel =>
    rw [exec_cfgIrqEn hen, legalBit_ofBool, checked_legal, valueBit_ofBool]
    exact succeed_portWrite ..
  case device =>
    rw [exec_cfgGIrqEn hen, legalBit_ofBool, checked_legal, valueBit_ofBool]
    rfl

/-! ## The mode -/

theorem quiescent_iff {x : Channel} :
    quiescent x = true ↔ x.tx.entryCount = 0 ∧ x.rx.entryCount = 0 ∧ x.txActive = false ∧
      (x.rx.cap = 0 ∨ (x.rx.slot x.rx.tail).state ≠ .filling) := by
  simp [quiescent, Ring.filling, and_assoc]

/-- `CFG.MODE` of a legal value: the three cases of 45_config_control.md R218 in their order. -/
theorem exec_cfgMode {s : State} {tid : Tid} {c : Chan} {async : Bool} (hen : commandEnabled tid s = true) :
    exec (.cfgMode tid c (if async then 1#32 else 0#32)) s =
      if (s.chan c).mode = if async then .async else .sync then succeed tid s
      else if quiescent (s.chan c) then
        succeed tid ((flagSet c 8#32 async (fun x => { x with mode := if async then .async else .sync }) s).modChan c
          fun x => { x with txReady := true, txBufEmpty := true, txActive := false, qfullCount := 0 })
      else .refused .modeChangeBusy := by
  rw [exec, execCfgMode, asCommand_enabled _ hen, legalBit_ofBool, checked_legal]
  simp only [valueMode_ofBool, valueBit_ofBool, writeCtl_eq_flagSet, ctlMode, eq_comm (a := (s.chan c).mode)]
  cases quiescent (s.chan c) <;> rfl

/-- Settles O36: the value check, then the three cases of a legal value. -/
theorem cfgModeSetsTheMode : Obligations.CfgModeSetsTheMode := by
  intro s tid c hen
  refine ⟨fun v hv => ?illegal, fun async hsame => ?same, fun async hne hq => ?sets, fun async hne hbusy => ?busy⟩
  case illegal => rw [exec, execCfgMode, asCommand_enabled _ hen, legalBit_eq_false hv, checked_illegal]
  case same =>
    rw [exec_cfgMode hen, if_pos hsame]
    rfl
  case sets =>
    rw [exec_cfgMode hen, if_neg hne, if_pos (quiescent_iff.mpr hq), flagSet, ← portWrite_modChan, modChan_modChan]
    exact succeed_portWrite ..
  case busy => rw [exec_cfgMode hen, if_neg hne, if_neg (mt quiescent_iff.mp hbusy)]

end Sys2Proof.Machine
end

