-- ==== Sys2Proof/Proofs/Resets.lean ====
section
/-! The two steps of `RESET`: the rings go offline with their contents and the channel is disarmed, then the rings come
back empty (45_config_control.md R234 to R237; 40_ring_buffer.md R135). -/

namespace Sys2Proof.Machine

open Sys2Proof

/-! ## The first step -/

/-- Step 1 of `ResetChannel` as one change of the channel and the two port writes (45_config_control.md R235). -/
theorem resetStart_eq (c : Chan) (s : State) :
    resetStart c s = portWrite c .ctl ((s.chan c).mirror &&& 0b1100#32)
      (portWrite c .cmd 4#32 (s.modChan c (resetHalf s.params.resetClearsSticky))) := by
  cases c <;> rfl

theorem resetStart_chan_same (c : Chan) (s : State) :
    (resetStart c s).chan c = resetHalf s.params.resetClearsSticky (s.chan c) := by
  simp [resetStart_eq]

theorem resetStart_chan_other (c : Chan) (s : State) : (resetStart c s).chan c.other = s.chan c.other := by
  simp [resetStart_eq]

theorem portGains_resetStart (c : Chan) (s : State) : PortGains s (resetStart c s) (resetEvents c (s.chan c)) := by
  rw [resetStart_eq]
  exact portGains_trans (portGains_congr (portGains_portWrite ..) (samePort_modChan s c _) ⟨rfl, rfl⟩)
    (portGains_portWrite ..)

theorem resetStart_mem (c : Chan) (s : State) : (resetStart c s).mem = s.mem := by simp [resetStart]

theorem sameRest_resetStart (c : Chan) (s : State) : SameRest s (resetStart c s) := by
  rw [resetStart_eq]
  exact sameRest_modChan s c _

theorem exec_resetChannel {s : State} {tid : Tid} {c : Chan} (hen : commandEnabled tid s = true) :
    exec (.resetChannel tid c) s =
      .next { resetStart c s with calls := insertCall s.calls tid (.mid (commandWord 6 c 0 0) none) } := by
  rw [exec, execResetChannel, asCommand_enabled _ hen]

theorem exec_resetDevice {s : State} {tid : Tid} {c : Chan} (hen : commandEnabled tid s = true) :
    exec (.resetDevice tid c) s =
      .next
        { resetStart .ch1 (resetStart .ch0 s) with
          calls := insertCall s.calls tid (.mid (commandWord 6 c 1 0) none) } := by
  rw [exec, execResetDevice, asCommand_enabled _ hen]

theorem callIs_of_insertCall {s t : State} {tid : Tid} {k : Call} (h : t.calls = insertCall s.calls tid k) :
    CallIs s t tid (some k) := by
  rw [CallIs, h]
  exact ⟨callOf_insertCall_same .., fun _ hu => callOf_insertCall_other _ _ hu⟩

/-- Each channel after step 1 on channel 0, then on channel 1 (45_config_control.md R234). -/
theorem resetStart_both_chan (s : State) (c : Chan) :
    (resetStart .ch1 (resetStart .ch0 s)).chan c = resetHalf s.params.resetClearsSticky (s.chan c) := by
  have hother : (resetStart .ch0 s).chan .ch1 = s.chan .ch1 := resetStart_chan_other .ch0 s
  cases c with
  | ch0 => exact (resetStart_chan_other .ch1 _).trans (resetStart_chan_same .ch0 s)
  | ch1 => rw [resetStart_chan_same, resetStart_params, hother]

/-- Settles O43: step 1 on the channel, or on both one after the other, with the record of the thread. -/
theorem resetTakesTheChannelOffline : Obligations.ResetTakesTheChannelOffline := by
  intro s tid c hen
  constructor
  · exact ⟨_, exec_resetChannel hen, by rw [chan_with_calls, resetStart_chan_same],
      by rw [chan_with_calls, resetStart_chan_other], portGains_resetStart c s, callIs_of_insertCall rfl,
      resetStart_respLog c s, sameBytes_of_mem (resetStart_mem c s), sameRest_resetStart c s⟩
  · have hch1 : (resetStart .ch0 s).chan .ch1 = s.ch1 := resetStart_chan_other .ch0 s
    have hport := portGains_trans (portGains_resetStart .ch0 s) (portGains_resetStart .ch1 _)
    rw [hch1] at hport
    exact ⟨_, exec_resetDevice hen, fun c' => by rw [chan_with_calls, resetStart_both_chan], hport,
      callIs_of_insertCall rfl, (resetStart_respLog .ch1 _).trans (resetStart_respLog .ch0 s),
      sameBytes_of_mem ((resetStart_mem .ch1 _).trans (resetStart_mem .ch0 s)),
      sameRest_trans (sameRest_resetStart .ch0 s) (sameRest_resetStart .ch1 _)⟩

/-! ## The second step -/

/-- A channel after step 2 of `ResetChannel` (45_config_control.md R235). -/
def Channel.cleared (x : Channel) : Channel :=
  { x with tx := { x.tx.clear with waiter := false }, rx := { x.rx.clear with waiter := false } }

theorem ringCleared_of_cleared {s t : State} {c : Chan} (h : t.chan c = (s.chan c).cleared) (d : Dir) :
    RingCleared (s.ring c d) (t.ring c d) := by
  have hclear : ∀ rb : Ring, RingCleared rb { rb.clear with waiter := false } := fun rb =>
    ⟨rfl, rfl, rfl, rfl, rfl, rfl, rfl, rfl, List.length_map .., clear_allEmpty rb⟩
  rw [State.ring, State.ring, h]
  cases d <;> exact hclear _

theorem chan_but_rings_of_cleared {s t : State} {c : Chan} (h : t.chan c = (s.chan c).cleared) :
    t.chan c = { s.chan c with tx := (t.chan c).tx, rx := (t.chan c).rx } := by
  rw [h]
  rfl

theorem samePort_resetFinish (c : Chan) (s : State) : SamePort s (resetFinish c s) :=
  samePort_trans (samePort_modChan ..) (samePort_trans (samePort_wake ..) (samePort_wake ..))

theorem sameRest_resetFinish (c : Chan) (s : State) : SameRest s (resetFinish c s) :=
  sameRest_trans (sameRest_modChan ..) (sameRest_trans (sameRest_wake ..) (sameRest_wake ..))

theorem resetFinish_mem (c : Chan) (s : State) : (resetFinish c s).mem = s.mem := by simp [resetFinish]

/-- The state after `CONT` of a thread with the second step `ts`: its effect, the thread `Idle` and the response
(10_state.md R51). -/
def continued (tid : Tid) (ts : TwoStep) (s : State) : State :=
  respond tid 0 (twoStepResult ts s) [] { runTwoStep ts s with calls := dropCall (runTwoStep ts s).calls tid }

theorem exec_cont {s : State} {tid : Tid} {cw : Word} {w1 : Option Word} {ts : TwoStep} (hi : s.dev.inIsr = false)
    (hcall : callOf s.calls tid = some (.mid cw w1)) (hmid : midStep cw w1 = some ts) :
    exec (.cont tid) s = .next (continued tid ts s) := by
  simp only [exec, execCont, hi, hcall, hmid, continued, Bool.false_eq_true, if_false]

theorem continued_chan (tid : Tid) (ts : TwoStep) (s : State) (c : Chan) :
    (continued tid ts s).chan c = (runTwoStep ts s).chan c := by
  rw [continued, respond_chan, chan_with_calls]

theorem callOf_continued_same (tid : Tid) (ts : TwoStep) (s : State) : callOf (continued tid ts s).calls tid = none :=
  callOf_dropCall_same ..

theorem callOf_continued_other (ts : TwoStep) (s : State) {tid u : Tid} (h : u ≠ tid) :
    callOf (continued tid ts s).calls u = callOf (ts.wakes s).calls u := by
  rw [← runTwoStep_calls]
  exact callOf_dropCall_other _ h

theorem answers_continued {tid : Tid} {ts : TwoStep} {s : State} (h : twoStepResult ts s = .ok) :
    Answers s (continued tid ts s) tid 0x00000000#32 [] := by
  rw [continued, h]
  exact congrArg (· ++ _) (runTwoStep_respLog ts s)

theorem continued_channel_chan (tid : Tid) (c : Chan) (s : State) :
    (continued tid (.channel c) s).chan c = (s.chan c).cleared := by
  rw [continued_chan, runTwoStep, resetFinish_chan, if_pos rfl, Channel.cleared]

theorem continued_channel_chan_other (tid : Tid) (c : Chan) (s : State) :
    (continued tid (.channel c) s).chan c.other = s.chan c.other := by
  rw [continued_chan, runTwoStep, resetFinish_chan, if_neg (Ne.symm (other_ne c))]

theorem continued_device_chan (tid : Tid) (s : State) (c : Chan) :
    (continued tid .device s).chan c = (s.chan c).cleared := by
  rw [continued_chan, runTwoStep]
  cases c <;> simp [resetFinish_chan, Channel.cleared]

/-- Settles O44: step 2 on the channel, or on both one after the other, then the thread is `Idle` and answered. -/
theorem contFinishesAReset : Obligations.ContFinishesAReset := by
  intro s tid c hi
  obtain ⟨hchannel, hdevice⟩ := midStep_reset c
  constructor
  · intro hcall
    have hchan := continued_channel_chan tid c s
    exact ⟨_, exec_cont hi hcall hchannel, ringCleared_of_cleared hchan, chan_but_rings_of_cleared hchan,
      continued_channel_chan_other tid c s, callOf_continued_same .., fun u hu => callOf_continued_other _ s hu,
      answers_continued rfl, sameBytes_of_mem (resetFinish_mem c s), samePort_resetFinish c s,
      sameRest_resetFinish c s⟩
  · intro hcall
    have hchan := continued_device_chan tid s
    exact ⟨_, exec_cont hi hcall hdevice, fun c' => ringCleared_of_cleared (hchan c'),
      fun c' => chan_but_rings_of_cleared (hchan c'), callOf_continued_same ..,
      fun u hu => callOf_continued_other _ s hu, answers_continued rfl,
      sameBytes_of_mem ((resetFinish_mem .ch1 _).trans (resetFinish_mem .ch0 s)),
      samePort_trans (samePort_resetFinish .ch0 s) (samePort_resetFinish .ch1 _),
      sameRest_trans (sameRest_resetFinish .ch0 s) (sameRest_resetFinish .ch1 _)⟩

end Sys2Proof.Machine
end

