-- ==== Sys2Proof/Proofs/ChannelActs.lean ====
section
/-! What an instruction that works on one channel is made of: changes of that channel's record, bytes stored in its
rings, changes of what is neither channel nor slot storage, and in the interrupt context alone a posted error and a
raised signal (60_exceptions.md R253, R262, R266; 20_memory.md R92). -/

namespace Sys2Proof.Machine

open Sys2Proof

/-! ## The acts -/

/-- A change of a channel that posts no error and keeps the bounds of its storage. -/
structure ChanAct (x y : Channel) : Prop where
  sticky : y.stickyErr = x.stickyErr ∨ y.stickyErr = none
  txLength : y.tx.slots.length = x.tx.slots.length
  txSize : y.tx.fsz = x.tx.fsz
  rxLength : y.rx.slots.length = x.rx.slots.length
  rxSize : y.rx.fsz = x.rx.fsz

/-- One change that an instruction on channel `c` makes; an alarm is a posted error or a raised signal, and only where
`alarms` is set. -/
inductive Act (c : Chan) : (alarms : Bool) → State → State → Prop where
  | rest {alarms : Bool} {s t : State} (hchan : ∀ c', t.chan c' = s.chan c') (hmem : t.mem = s.mem)
      (hsig : t.sigLog = s.sigLog) : Act c alarms s t
  | chan {alarms : Bool} {s : State} {f : Channel → Channel} (h : ChanAct (s.chan c) (f (s.chan c))) :
    Act c alarms s (s.modChan c f)
  | frame {alarms : Bool} {s : State} (d : Dir) (i : Nat) (data : List Byte) (hi : i < (s.ring c d).slots.length)
      (hdata : data.length ≤ (s.ring c d).fsz) :
    Act c alarms s { s with mem := storeBytes s.mem (slotAddr c d i 0) data }
  | byte {alarms : Bool} {s : State} (d : Dir) (i k : Nat) (v : Byte) (hi : i < (s.ring c d).slots.length)
      (hk : k < (s.ring c d).fsz) : Act c alarms s { s with mem := memWrite s.mem (slotAddr c d i k) v }
  | post (s : State) (e : ErrCode) : Act c true s (s.modChan c fun x => { x with stickyErr := some e })
  | signal (s : State) : Act c true s (raiseSignal c s)

/-- A sequence of acts on channel `c`. -/
abbrev Acts (c : Chan) (alarms : Bool) : State → State → Prop := Relation.ReflTransGen (Act c alarms)

/-- Whatever next state the outcome answers is reached from `s` by acts on channel `c`. -/
def Works (c : Chan) (alarms : Bool) (s : State) (r : Result) : Prop := ∀ t, r = .next t → Acts c alarms s t

section
variable {c : Chan} {alarms : Bool}

theorem acts_rest {s t : State} (hchan : ∀ c', t.chan c' = s.chan c') (hmem : t.mem = s.mem)
    (hsig : t.sigLog = s.sigLog) : Acts c alarms s t := .single (.rest hchan hmem hsig)

theorem acts_modChan {s : State} {f : Channel → Channel} (h : ChanAct (s.chan c) (f (s.chan c))) :
    Acts c alarms s (s.modChan c f) := .single (.chan h)

theorem acts_modRing {s : State} (d : Dir) {f : Ring → Ring}
    (hlength : (f (s.ring c d)).slots.length = (s.ring c d).slots.length)
    (hsize : (f (s.ring c d)).fsz = (s.ring c d).fsz) : Acts c alarms s (s.modRing c d f) := by
  refine acts_modChan ?_
  cases d
  · exact ⟨.inl rfl, hlength, hsize, rfl, rfl⟩
  · exact ⟨.inl rfl, rfl, rfl, hlength, hsize⟩

/-! ## The shared operations -/

theorem acts_regRead (c' : Chan) (r : ReadReg) (s : State) : Acts c alarms s (regRead c' r s) :=
  acts_rest (regRead_chan c' r s) rfl rfl

theorem acts_readFifo (c' : Chan) (n : Nat) (s : State) : Acts c alarms s (readFifo c' n s) :=
  acts_rest (readFifo_chan c' n s) (readFifo_mem ..) (readFifo_sigLog ..)

theorem acts_portWrite (c' : Chan) (r : WriteReg) (v : Word) (s : State) : Acts c alarms s (portWrite c' r v s) :=
  acts_rest (portWrite_chan c' r v s) rfl rfl

theorem acts_writeFifo (c' : Chan) (bytes : List Byte) (s : State) : Acts c alarms s (writeFifo c' bytes s) :=
  acts_rest (writeFifo_chan c' bytes s) (writeFifo_mem ..) (writeFifo_sigLog ..)

theorem acts_acknowledge (c' : Chan) (cmd : Word) (s : State) : Acts c alarms s (acknowledge c' cmd s) :=
  acts_rest (acknowledge_chan c' cmd s) rfl rfl

theorem acts_respond (tid : Tid) (n : Nat) (e : ErrCode) (out : List Byte) (s : State) :
    Acts c alarms s (respond tid n e out s) :=
  acts_rest (respond_chan tid n e out s) rfl rfl

theorem acts_calls (s : State) (calls : List (Tid × Call)) : Acts c alarms s { s with calls := calls } :=
  acts_rest (fun c' => chan_with_calls s c' calls) rfl rfl

theorem acts_writeCtl (v : Word) (s : State) : Acts c alarms s (writeCtl c v s) :=
  (acts_modChan ⟨.inl rfl, rfl, rfl, rfl, rfl⟩).trans (acts_portWrite c .ctl v _)

/-- A `waiter` flag and the thread table. -/
theorem acts_waiter (d : Dir) (w : Bool) (calls : List (Tid × Call)) (s : State) :
    Acts c alarms s { s.modRing c d fun rb => { rb with waiter := w } with calls := calls } :=
  (acts_modRing d rfl rfl).trans (acts_calls _ calls)

theorem acts_wake (d : Dir) (s : State) : Acts c alarms s (wake c d s) := by
  rw [wake_eq]
  split
  · exact acts_waiter d false _ s
  · exact .refl

theorem acts_leave (tid : Tid) {b : Blocked} (hb : b.ch = c) (s : State) : Acts c alarms s (leave tid b s) := by
  subst hb
  exact acts_waiter b.dir _ _ s

theorem acts_notifyRx (s : State) : Acts c true s (notifyRx c s) := (acts_wake .rx s).tail (.signal _)

theorem acts_postError (e : ErrCode) (s : State) : Acts c true s (postError c e s) :=
  (Relation.ReflTransGen.single (.post s e)).trans (acts_notifyRx _)

/-- A change of a ring and a change of slot storage can be taken in either order. -/
theorem modRing_with_mem (s : State) (c : Chan) (d : Dir) (f : Ring → Ring) (m : Memory) :
    { s.modRing c d f with mem := m } = State.modRing { s with mem := m } c d f := by
  cases c <;> rfl

theorem works_enqueue (d : Dir) (data : List Byte) (s : State) : Works c alarms s (enqueue c d data s) := by
  intro t h
  obtain ⟨hi, hdata, -, rfl⟩ := enqueue_eq_next.mp h
  rw [modRing_with_mem]
  exact .head (.frame d _ data hi hdata) (acts_modRing d (commit_length ..) (commit_fsz ..))

/-! ## Outcomes -/

theorem works_next {s u : State} (h : Acts c alarms s u) : Works c alarms s (.next u) := by
  rintro t ⟨⟩
  exact h

theorem works_refused (s : State) (e : Refusal) : Works c alarms s (.refused e) := by
  intro t h
  cases h

theorem works_fault (s : State) (e : Fault) : Works c alarms s (.fault e) := by
  intro t h
  cases h

theorem works_ite {p : Prop} [Decidable p] {s : State} {r r' : Result} (h : Works c alarms s r)
    (h' : Works c alarms s r') : Works c alarms s (if p then r else r') := by
  split
  · exact h
  · exact h'

theorem works_after {s u : State} {r : Result} (h : Acts c alarms s u) (hr : Works c alarms u r) :
    Works c alarms s r := fun t ht => h.trans (hr t ht)

theorem works_andThen {s : State} {r : Result} {f : State → Result} (h : Works c alarms s r)
    (hf : ∀ u, Works c alarms u (f u)) : Works c alarms s (andThen r f) := by
  intro t ht
  obtain ⟨u, hu, ht⟩ := andThen_eq_next.mp ht
  exact (h u hu).trans (hf u t ht)

theorem works_succeed {s u : State} (tid : Tid) (h : Acts c alarms s u) : Works c alarms s (succeed tid u) :=
  works_next (h.trans (acts_respond ..))

theorem works_fail {s u : State} (tid : Tid) (e : ErrCode) (h : Acts c alarms s u) :
    Works c alarms s (fail tid e u) :=
  works_next (h.trans (acts_respond ..))

theorem works_block (tid : Tid) {b : Blocked} (hb : b.ch = c) (s : State) : Works c alarms s (block tid b s) := by
  subst hb
  exact works_next (acts_waiter b.dir true _ s)

theorem works_asCommand {tid : Tid} {s : State} {f : State → Result} (h : Works c alarms s (f s)) :
    Works c alarms s (asCommand tid s f) :=
  works_ite h (works_refused s _)

theorem works_checked {tid : Tid} {legal : Bool} {s : State} {f : State → Result} (h : Works c alarms s (f s)) :
    Works c alarms s (checked tid legal s f) :=
  works_ite h (works_fail tid _ .refl)

theorem works_asService {m : Mode} {s : State} {f : State → Result} (h : Works c alarms s (f s)) :
    Works c alarms s (asService c m s f) :=
  works_ite h (works_refused s _)

/-! ## The transmit engines -/

theorem acts_txSyncBurst (s : State) : Acts c alarms s (txSyncBurst c s) :=
  (((acts_writeFifo c _ s).trans (acts_writeCtl _ _)).trans
    (acts_modChan ⟨.inl rfl, consume_length _, rfl, rfl, rfl⟩)).trans (acts_wake .tx _)

theorem works_txSyncStart (s : State) : Works c alarms s (txSyncStart c s) := by
  intro t h
  obtain ⟨-, rfl⟩ | ⟨-, -, -, rfl⟩ := txSyncStart_eq_next.mp h
  · exact acts_modChan ⟨.inl rfl, rfl, rfl, rfl, rfl⟩
  · exact acts_txSyncBurst s

theorem works_txAsyncSend (s : State) : Works c alarms s (txAsyncSend c s) := by
  intro t h
  have hput : Acts c alarms s (bytePut c s) :=
    (acts_portWrite c .txfifo _ s).trans (acts_modChan ⟨.inl rfl, setSlot_length .., rfl, rfl, rfl⟩)
  rw [txAsyncSend_eq_next h]
  split
  · exact (hput.trans (acts_modChan ⟨.inl rfl, consume_length _, rfl, rfl, rfl⟩)).trans (acts_wake .tx _)
  · exact hput

theorem works_txAsyncByte (s : State) : Works c alarms s (txAsyncByte c s) := by
  have hactivate : Acts c alarms s (txAsyncActivate c s) :=
    acts_modChan ⟨.inl rfl, setSlot_length .., rfl, rfl, rfl⟩
  exact works_ite (works_txAsyncSend s) (works_ite (works_after hactivate (works_txAsyncSend _))
    (works_next (acts_modChan ⟨.inl rfl, rfl, rfl, rfl, rfl⟩)))

theorem works_sendAttempt (s : State) : Works c alarms s (sendAttempt c s) := by
  unfold sendAttempt
  split
  · exact works_ite (works_txSyncStart s) (works_next .refl)
  · exact works_ite (works_txAsyncByte s) (works_next .refl)

/-! ## The receive engines -/

theorem acts_queueFullPass (s : State) : Acts c true s (queueFullPass c s) := by
  have hcount : Acts c true s (s.modChan c fun x => { x with qfullCount := x.qfullCount + 1 }) :=
    acts_modChan ⟨.inl rfl, rfl, rfl, rfl, rfl⟩
  unfold queueFullPass
  simp only
  split
  · exact (((hcount.trans (acts_modChan ⟨.inl rfl, rfl, rfl, rfl, rfl⟩)).trans (acts_writeCtl _ _)).trans
      (acts_modChan ⟨.inl rfl, rfl, rfl, rfl, rfl⟩)).trans (acts_postError _ _)
  · exact hcount

theorem acts_qfullReset (s : State) : Acts c alarms s (s.modChan c fun x => { x with qfullCount := 0 }) :=
  acts_modChan ⟨.inl rfl, rfl, rfl, rfl, rfl⟩

theorem works_storeEntry (n : Nat) (s : State) : Works c true s (storeEntry c n s) :=
  works_andThen (works_after (acts_readFifo c n s) (works_enqueue .rx (fifoBytes c n s) _)) fun u =>
    works_next (acts_notifyRx u)

theorem works_rxSyncEntry (s : State) : Works c true s (rxSyncEntry c s) := by
  have hstart := (acts_qfullReset (c := c) (alarms := true) s).trans (acts_regRead c .sfifo _)
  have hpost : ∀ (n : Nat) (e : ErrCode) (u : State), Acts c true u (postError c e (readFifo c n u)) :=
    fun n e u => (acts_readFifo c n u).trans (acts_postError e _)
  exact works_after hstart (works_ite (works_next (hpost ..))
    (works_ite (works_next (hpost ..)) (works_storeEntry _ _)))

theorem works_rxSyncLoop (dk : BitVec 4) (n : Nat) (s : State) : Works c true s (rxSyncLoop c dk n s) := by
  induction n generalizing s with
  | zero => exact works_next (acts_rest (fun c' => chan_with_key s c' _) rfl rfl)
  | succ n ih =>
    have hread := acts_regRead (c := c) (alarms := true) c .rs s
    exact works_ite (works_next (hread.trans (acts_acknowledge ..)))
      (works_ite (works_next ((hread.trans (acts_queueFullPass _)).trans (acts_acknowledge ..)))
        (works_after hread (works_andThen (works_rxSyncEntry _) ih)))

theorem acts_watermarkCheck (f : Nat) (s : State) : Acts c true s (watermarkCheck c f s) := by
  unfold watermarkCheck
  split
  · exact .single (.signal s)
  · exact .refl

theorem acts_byteStored {b : Byte} {s : State} (htail : (s.ring c .rx).tail < (s.ring c .rx).slots.length)
    (hfill : partialFill (s.ring c .rx) < (s.ring c .rx).fsz) : Acts c alarms s (byteStored c b s) := by
  rw [byteStored, modRing_with_mem]
  exact .head (.byte .rx _ _ b htail hfill) (acts_modRing .rx (setSlot_length ..) rfl)

theorem acts_sealFrame (s : State) : Acts c true s (sealFrame c s) :=
  (acts_modRing .rx (f := fun rb => rb.commit rb.fsz) (commit_length ..) (commit_fsz ..)).trans (acts_notifyRx _)

theorem works_appendByte (b : Byte) (s : State) : Works c true s (appendByte c b s) := by
  intro t h
  have htail := tail_lt_of_appendByte h
  obtain ⟨hfill, rfl⟩ := appendByte_next h
  have hstored := (acts_byteStored (b := b) htail hfill).trans
    (acts_watermarkCheck (partialFill (s.ring c .rx) + 1) _)
  split
  · exact hstored.trans (acts_sealFrame _)
  · exact hstored

theorem works_goodCharacter (s : State) : Works c true s (goodCharacter c s) :=
  works_after ((acts_qfullReset s).trans (acts_regRead c .rxfifo _)) (works_appendByte _ _)

theorem acts_abortPartial (s : State) : Acts c alarms s (abortPartial c s) := by
  unfold abortPartial
  split
  · exact acts_modRing .rx (setSlot_length ..) rfl
  · exact .refl

theorem acts_badCharacter (rs : Word) (s : State) : Acts c true s (badCharacter c rs s) :=
  ((acts_regRead c .rxfifo s).trans (acts_abortPartial _)).trans (acts_postError _ _)

theorem works_rxAsyncLoop (dk : BitVec 4) (n : Nat) (s : State) : Works c true s (rxAsyncLoop c dk n s) := by
  induction n generalizing s with
  | zero => exact works_next (acts_rest (fun c' => chan_with_key s c' _) rfl rfl)
  | succ n ih =>
    have hread := acts_regRead (c := c) (alarms := true) c .rs s
    exact works_ite (works_next (hread.trans (acts_acknowledge ..)))
      (works_ite (works_after (hread.trans (acts_badCharacter _ _)) (ih _))
        (works_ite (works_next ((hread.trans (acts_queueFullPass _)).trans (acts_acknowledge ..)))
          (works_after hread (works_andThen (works_goodCharacter _) ih))))

/-! ## The services -/

theorem works_extService (s : State) : Works c true s (extService c s) := by
  refine works_next ((acts_regRead c .es s).trans (.trans ?_ (acts_acknowledge ..)))
  split
  · exact acts_postError _ _
  · exact .refl

/-- A service works on its channel. -/
theorem works_of_exec_service {i : Instr} (hi : isInterrupt i = true) (hc : onChannel i = some c) (s : State) :
    Works c true s (exec i s) := by
  cases i with
  | svcRxSync c' tx ext => cases hc; exact works_asService (works_rxSyncLoop _ _ s)
  | svcRxAsync c' tx ext => cases hc; exact works_asService (works_rxAsyncLoop _ _ s)
  | svcTxSync c' ext =>
    cases hc
    exact works_asService (works_andThen (works_txSyncStart s) fun u => works_next (acts_acknowledge _ _ u))
  | svcTxAsync c' ext =>
    cases hc
    exact works_asService (works_andThen (works_txAsyncByte s) fun u => works_next (acts_acknowledge _ _ u))
  | svcExt c' async => cases hc; exact works_asService (works_extService s)
  | irq => cases hc
  | _ => cases hi

/-! ## `WRITE` and `READ` -/

theorem works_runWrite (tid : Tid) (payload : List Byte) (s : State) :
    Works c alarms s (runWrite tid c payload s) := by
  have haccept : Works c alarms s (andThen (enqueue c .tx payload s) fun u => andThen (sendAttempt c u) fun v =>
      .next (respond tid payload.length .ok [] v)) :=
    works_andThen (works_enqueue .tx payload s) fun u =>
      works_andThen (works_sendAttempt u) fun v => works_next (acts_respond _ _ _ _ v)
  exact works_ite (works_fail tid _ .refl) (works_ite (works_fail tid _ .refl)
    (works_ite (works_ite (works_fail tid _ .refl) (works_block tid rfl s)) haccept))

theorem works_deliver (tid : Tid) (maxLen : Nat) (s : State) : Works c alarms s (deliver tid c maxLen s) :=
  works_ite (works_refused s _) (works_ite (works_fail tid _ .refl) (works_ite (works_fault s _)
    (works_next ((acts_modRing .rx (f := fun r => { r with errReported := false }.consume) (consume_length _) rfl).trans
      (acts_respond ..)))))

theorem works_runRead (tid : Tid) (maxLen : Nat) (s : State) : Works c alarms s (runRead tid c maxLen s) := by
  have hflush : Acts c alarms s (flushOnRead c s) := acts_modRing .rx (commit_length ..) rfl
  unfold runRead
  split
  · exact works_fail tid _ (acts_modChan ⟨.inr rfl, rfl, rfl, rfl, rfl⟩)
  · exact works_ite (works_deliver tid maxLen s) (works_ite (works_after hflush (works_deliver tid maxLen _))
      (works_ite (works_fail tid _ .refl) (works_block tid rfl s)))

/-! ## The other commands -/

/-- The commands whose whole effect is one stored value of the channel. -/
theorem works_store {tid : Tid} {legal : State → Bool} {f : Channel → Channel} (s : State)
    (h : ChanAct (s.chan c) (f (s.chan c))) :
    Works c alarms s (asCommand tid s fun s => checked tid (legal s) s fun s => succeed tid (s.modChan c f)) :=
  works_asCommand (works_checked (works_succeed tid (acts_modChan h)))

theorem works_execCfgMode (tid : Tid) (v : Word) (s : State) : Works c alarms s (execCfgMode tid c v s) := by
  refine works_asCommand (works_checked (works_ite (works_succeed tid .refl)
    (works_ite (works_refused s _) (works_succeed tid ?_))))
  exact ((acts_modChan ⟨.inl rfl, rfl, rfl, rfl, rfl⟩).trans (acts_writeCtl _ _)).trans
    (acts_modChan ⟨.inl rfl, rfl, rfl, rfl, rfl⟩)

/-- A flag of the channel with its `CTL` write. -/
theorem acts_flag {s : State} {f : Channel → Channel} (v : Word) (h : ChanAct (s.chan c) (f (s.chan c))) :
    Acts c alarms s (writeCtl c v (s.modChan c f)) :=
  (acts_modChan h).trans (acts_writeCtl v _)

theorem works_execCfgRxEn (tid : Tid) (v : Word) (s : State) : Works c alarms s (execCfgRxEn tid c v s) :=
  works_asCommand (works_checked (works_ite (works_fail tid _ .refl)
    (works_succeed tid (acts_flag _ ⟨.inl rfl, rfl, rfl, rfl, rfl⟩))))

theorem works_execCfgTxEn (tid : Tid) (v : Word) (s : State) : Works c alarms s (execCfgTxEn tid c v s) :=
  works_asCommand (works_checked (works_ite (works_fail tid _ .refl)
    (works_succeed tid (acts_flag _ ⟨.inl rfl, rfl, rfl, rfl, rfl⟩))))

theorem works_execCfgIrqEn (tid : Tid) (v : Word) (s : State) : Works c alarms s (execCfgIrqEn tid c v s) :=
  works_asCommand (works_checked (works_succeed tid (acts_flag _ ⟨.inl rfl, rfl, rfl, rfl, rfl⟩)))

theorem works_execCfgGIrqEn (tid : Tid) (v : Word) (s : State) : Works c alarms s (execCfgGIrqEn tid v s) :=
  works_asCommand (works_checked (works_succeed tid (acts_rest (fun c' => chan_with_dev s c' _) rfl rfl)))

/-- The first step of a reallocation takes a ring offline with its slots (40_ring_buffer.md R132). -/
theorem works_realloc (tid : Tid) (d : Dir) (sel : BitVec 8) (v : Word) (legal : Bool) (s : State) :
    Works c alarms s (asCommand tid s fun s => checked tid legal s (reallocStart tid c d sel v)) := by
  refine works_asCommand (works_checked (works_next ((acts_modChan ?_).trans (acts_calls _ _))))
  cases d <;> exact ⟨.inl rfl, rfl, rfl, rfl, rfl⟩

/-- The first step of a reset keeps the sticky error or clears it (45_config_control.md R236). -/
theorem chanAct_resetHalf (clearsSticky : Bool) (x : Channel) : ChanAct x (resetHalf clearsSticky x) := by
  cases clearsSticky
  · exact ⟨.inl rfl, rfl, rfl, rfl, rfl⟩
  · exact ⟨.inr rfl, rfl, rfl, rfl, rfl⟩

theorem acts_resetStart (s : State) : Acts c alarms s (resetStart c s) := by
  rw [resetStart_eq]
  exact ((acts_modChan (chanAct_resetHalf _ _)).trans (acts_portWrite ..)).trans (acts_portWrite ..)

theorem works_execResetChannel (tid : Tid) (s : State) : Works c alarms s (execResetChannel tid c s) :=
  works_asCommand (works_next ((acts_resetStart s).trans (acts_calls (resetStart c s) _)))

/-- A command that names one channel works on it, and raises no alarm. -/
theorem works_of_exec_command {i : Instr} (hi : isInterrupt i = false) (hc : onChannel i = some c) (s : State) :
    Works c alarms s (exec i s) := by
  cases i with
  | write tid c' payload => cases hc; exact works_asCommand (works_runWrite tid payload s)
  | read tid c' maxLen => cases hc; exact works_asCommand (works_runRead tid _ s)
  | cfgMode tid c' v => cases hc; exact works_execCfgMode tid v s
  | cfgTxSize tid c' v => cases hc; exact works_realloc tid .tx 1 v _ s
  | cfgTxNum tid c' v => cases hc; exact works_realloc tid .tx 2 v _ s
  | cfgRxSize tid c' v => cases hc; exact works_realloc tid .rx 3 v _ s
  | cfgRxNum tid c' v => cases hc; exact works_realloc tid .rx 4 v _ s
  | cfgRdTmo tid c' v =>
    cases hc
    exact works_store (legal := fun _ => legalTimeout v) s ⟨.inl rfl, rfl, rfl, rfl, rfl⟩
  | cfgWrTmo tid c' v =>
    cases hc
    exact works_store (legal := fun _ => legalTimeout v) s ⟨.inl rfl, rfl, rfl, rfl, rfl⟩
  | cfgWMark tid c' v =>
    cases hc
    exact works_store (legal := fun _ => legalWatermark v) s ⟨.inl rfl, rfl, rfl, rfl, rfl⟩
  | cfgRxEn tid c' v => cases hc; exact works_execCfgRxEn tid v s
  | cfgTxEn tid c' v => cases hc; exact works_execCfgTxEn tid v s
  | cfgIrqEn tid c' v => cases hc; exact works_execCfgIrqEn tid v s
  | cfgGIrqEn tid c' v => exact works_execCfgGIrqEn tid v s
  | notifyInstall tid c' handle =>
    cases hc
    exact works_store (legal := fun s => (s.chan c).sigHandle.isNone) s ⟨.inl rfl, rfl, rfl, rfl, rfl⟩
  | notifyRemove tid c' =>
    cases hc
    exact works_store (legal := fun s => (s.chan c).sigHandle.isSome) s ⟨.inl rfl, rfl, rfl, rfl, rfl⟩
  | resetChannel tid c' => cases hc; exact works_execResetChannel tid s
  | svcRxSync | svcRxAsync | svcTxSync | svcTxAsync | svcExt => cases hi
  | resetDevice | irq | cont | resume | timeout | abort => cases hc

end

end Sys2Proof.Machine
end

