-- ==== Sys2Proof/Proofs/Exceptions.lean ====
section
/-! Two consequences of what an instruction is made of: the other channel is left alone, and a command or a wait event
raises no signal and posts no error (60_exceptions.md R253, R262, R266; 20_memory.md R92). -/

namespace Sys2Proof.Machine

open Sys2Proof

/-! ## The other channel -/

/-- The storage of both rings of a channel is inside its part of the address space (10_state.md R39). -/
def RingsFit (x : Channel) : Prop := ∀ d, (x.ring d).slots.length ≤ 65536 ∧ (x.ring d).fsz ≤ 65536

theorem ringsFit_of_inv {s : State} (hs : Inv s) (c : Chan) : RingsFit (s.chan c) := by
  have fits : ∀ {rb : Ring}, RingShape rb → rb.slots.length ≤ 65536 ∧ rb.fsz ≤ 65536 := by
    rintro rb ⟨hl, hcap, -, hf, -⟩
    simp only [Config.frameNumLimit] at hcap
    simp only [Config.frameSizeLimit] at hf
    omega
  rintro (_ | _)
  · exact fits (txOk_of_inv hs c).shape
  · exact fits (rxOk_of_inv hs c).shape

theorem ChanAct.ringsFit {x y : Channel} (h : ChanAct x y) (hx : RingsFit x) : RingsFit y := by
  rintro (_ | _)
  · rw [Channel.ring, h.txLength, h.txSize]; exact hx .tx
  · rw [Channel.ring, h.rxLength, h.rxSize]; exact hx .rx

/-- The record of the channel that is not `c` and every byte of its storage are the same. -/
def OtherKept (c : Chan) (s t : State) : Prop :=
  t.chan c.other = s.chan c.other ∧ ∀ d a, inRing c.other d a = true → memRead t.mem a = memRead s.mem a

theorem OtherKept.of_mem {c : Chan} {s t : State} (hchan : t.chan c.other = s.chan c.other) (hmem : t.mem = s.mem) :
    OtherKept c s t := ⟨hchan, fun _ _ _ => by rw [hmem]⟩

theorem OtherKept.trans {c : Chan} {s u t : State} (h : OtherKept c s u) (h' : OtherKept c u t) : OtherKept c s t :=
  ⟨h'.1.trans h.1, fun d a ha => (h'.2 d a ha).trans (h.2 d a ha)⟩

/-- An act on a channel whose storage is inside its part of the address space does not reach the other channel, and
leaves the storage inside. -/
theorem otherKept_of_act {c : Chan} {alarms : Bool} {s t : State} (h : Act c alarms s t) (hs : RingsFit (s.chan c)) :
    OtherKept c s t ∧ RingsFit (t.chan c) := by
  cases h with
  | rest hchan hmem _ => exact ⟨.of_mem (hchan _) hmem, by rwa [hchan]⟩
  | chan h => exact ⟨.of_mem (modChan_chan_other ..) (modChan_mem ..), by simpa using h.ringsFit hs⟩
  | frame d i data hi hdata =>
    obtain ⟨hlength, hsize⟩ := hs d
    exact ⟨⟨chan_with_mem .., fun d' a ha => memRead_storeBytes_otherRing _ (by simp [other_ne])
      (Nat.lt_of_lt_of_le hi hlength) (Nat.le_trans hdata hsize) ha⟩, by simpa using hs⟩
  | byte d i k v hi hk =>
    obtain ⟨hlength, hsize⟩ := hs d
    exact ⟨⟨chan_with_mem .., fun d' a ha => memRead_memWrite_otherRing _ v (by simp [other_ne])
      (Nat.lt_of_lt_of_le hi hlength) (Nat.lt_of_lt_of_le hk hsize) ha⟩, by simpa using hs⟩
  | post _ e =>
    refine ⟨.of_mem (modChan_chan_other ..) (modChan_mem ..), ?_⟩
    rw [modChan_chan_same]
    exact hs
  | signal => exact ⟨.of_mem (raiseSignal_chan ..) (raiseSignal_mem ..), by simpa using hs⟩

theorem otherKept_of_acts {c : Chan} {alarms : Bool} {s t : State} (h : Acts c alarms s t) (hs : RingsFit (s.chan c)) :
    OtherKept c s t ∧ RingsFit (t.chan c) := by
  induction h with
  | refl => exact ⟨.of_mem rfl rfl, hs⟩
  | tail _ hact ih =>
    obtain ⟨hkept, hfit⟩ := ih
    obtain ⟨hkept', hfit'⟩ := otherKept_of_act hact hfit
    exact ⟨hkept.trans hkept', hfit'⟩

/-- Settles O23: every instruction that names a channel is made of acts on it, and the invariants keep what these store
inside the rings of that channel. -/
theorem channelsAreIndependent : Obligations.ChannelsAreIndependent := by
  intro i c s t hs hc h
  have hacts : Acts c true s t := by
    cases hi : isInterrupt i with
    | true => exact works_of_exec_service hi hc s t h
    | false => exact works_of_exec_command hi hc s t h
  exact (otherKept_of_acts hacts (ringsFit_of_inv hs c)).1

/-! ## Signals and posted errors -/

/-- No signal is raised, and each sticky error is as before or taken away. -/
def NoAlarm (s t : State) : Prop :=
  t.sigLog = s.sigLog ∧ ∀ c, (t.chan c).stickyErr = (s.chan c).stickyErr ∨ (t.chan c).stickyErr = none

theorem NoAlarm.of_chan {s t : State} (hsig : t.sigLog = s.sigLog) (hchan : ∀ c, t.chan c = s.chan c) : NoAlarm s t :=
  ⟨hsig, fun c => .inl (by rw [hchan])⟩

theorem NoAlarm.trans {s u t : State} (h : NoAlarm s u) (h' : NoAlarm u t) : NoAlarm s t := by
  refine ⟨h'.1.trans h.1, fun c => ?_⟩
  obtain hkept | hgone := h'.2 c
  · rw [hkept]; exact h.2 c
  · exact .inr hgone

theorem noAlarm_of_act {c : Chan} {s t : State} (h : Act c false s t) : NoAlarm s t := by
  cases h with
  | rest hchan _ hsig => exact .of_chan hsig hchan
  | chan h =>
    refine ⟨modChan_sigLog .., fun c' => ?_⟩
    rw [modChan_chan]
    split
    · next he => rw [he]; exact h.sticky
    · exact .inl rfl
  | frame => exact .of_chan rfl fun c' => chan_with_mem s c' _
  | byte => exact .of_chan rfl fun c' => chan_with_mem s c' _

theorem noAlarm_of_acts {c : Chan} {s t : State} (h : Acts c false s t) : NoAlarm s t := by
  induction h with
  | refl => exact .of_chan rfl fun _ => rfl
  | tail _ hact ih => exact ih.trans (noAlarm_of_act hact)

/-- `RESET.DEVICE` works on one channel, then on the other (45_config_control.md R234). -/
theorem noAlarm_execResetDevice {tid : Tid} {c : Chan} {s t : State} (h : execResetDevice tid c s = .next t) :
    NoAlarm s t := by
  obtain ⟨-, h⟩ := asCommand_eq_next.mp h
  cases h
  have h0 := noAlarm_of_acts (acts_resetStart (c := .ch0) s)
  have h1 := noAlarm_of_acts (acts_resetStart (c := .ch1) (resetStart .ch0 s))
  exact (h0.trans h1).trans (noAlarm_of_acts (c := c) (acts_calls (resetStart .ch1 (resetStart .ch0 s)) _))

theorem reallocRing_sticky (c : Chan) (d : Dir) (num size : Nat) (s : State) (c' : Chan) :
    ((reallocRing c d num size s).chan c').stickyErr = (s.chan c').stickyErr := by
  rw [reallocRing_chan]
  split
  · next h => rw [h]; cases d <;> rfl
  · rfl

theorem resetFinish_sticky (c : Chan) (s : State) (c' : Chan) :
    ((resetFinish c s).chan c').stickyErr = (s.chan c').stickyErr := by
  rw [resetFinish_chan]
  split
  · next h => rw [h]
  · rfl

/-- A second step touches rings and records only (40_ring_buffer.md R132, R135). -/
theorem noAlarm_runTwoStep (ts : TwoStep) (s : State) : NoAlarm s (runTwoStep ts s) := by
  have hrealloc : ∀ (c : Chan) (d : Dir) (num size : Nat), NoAlarm s (reallocRing c d num size s) := by
    intro c d num size
    obtain ⟨-, hsig, -⟩ := sameRest_reallocRing c d num size s
    exact ⟨hsig, fun c' => .inl (reallocRing_sticky ..)⟩
  have hreset : ∀ (c : Chan) (u : State), NoAlarm u (resetFinish c u) := by
    intro c u
    obtain ⟨-, hsig, -⟩ := sameRest_resetFinish c u
    exact ⟨hsig, fun c' => .inl (resetFinish_sticky ..)⟩
  cases ts with
  | size c d v => exact hrealloc ..
  | num c d v => exact hrealloc ..
  | channel c => exact hreset c s
  | device => exact (hreset .ch0 s).trans (hreset .ch1 _)

theorem noAlarm_execCont {tid : Tid} {s t : State} (h : execCont tid s = .next t) : NoAlarm s t := by
  obtain ⟨-, _, _, ts, -, -, rfl⟩ := execCont_next h
  exact (noAlarm_runTwoStep ts s).trans
    (noAlarm_of_acts (c := .ch0) ((acts_calls (runTwoStep ts s) _).trans (acts_respond ..)))

/-- The wait events work on the channel of the blocked call (41_blocking_io.md R161 to R163). -/
theorem noAlarm_asBlocked {tid : Tid} {s t : State} {f : Blocked → Result}
    (hf : ∀ b, Works b.ch false (leave tid b s) (f b)) (h : asBlocked tid s f = .next t) : NoAlarm s t := by
  obtain ⟨-, b, -, h⟩ := asBlocked_eq_next.mp h
  exact noAlarm_of_acts ((acts_leave tid rfl s).trans (hf b t h))

theorem noAlarm_execResume {tid : Tid} {s t : State} (h : execResume tid s = .next t) : NoAlarm s t := by
  refine noAlarm_asBlocked (fun b => ?_) h
  split
  · exact works_runWrite tid _ _
  · exact works_runRead tid _ _

/-- Settles O59: of the acts an instruction is made of, commands and wait events take neither alarm; `CONT` works
on rings only. -/
theorem onlyInterruptsSignalAndPost : Obligations.OnlyInterruptsSignalAndPost := by
  intro i s t hi h
  cases hc : onChannel i with
  | some c => exact noAlarm_of_acts (works_of_exec_command hi hc s t h)
  | none =>
    cases i with
    | resetDevice tid c => exact noAlarm_execResetDevice h
    | cont tid => exact noAlarm_execCont h
    | resume tid => exact noAlarm_execResume h
    | timeout tid =>
      exact noAlarm_asBlocked (fun b => works_ite (works_fail tid _ .refl) (works_refused _ _)) h
    | abort tid => exact noAlarm_asBlocked (fun b => works_fail tid _ .refl) h
    | irq => cases hi
    | _ => cases hc

end Sys2Proof.Machine
end
